-- ==== Sys2Proof/Word.lean ====
section
/-! DEFINITION. The word types of the model: bytes, the register widths of the manual, and the index types of the
module's numbered parts (regions, clusters, streams, ports, contexts, channels).
-/

namespace Sys2Proof

/-- A byte of any memory of the module (R4). -/
abbrev Byte := BitVec 8

/-- A 32-bit word: FP32 patterns, INT32, half of a scalar register. -/
abbrev W32 := BitVec 32

/-- A 64-bit word: scalar registers, counts, addresses. -/
abbrev W64 := BitVec 64

/-- A logical region index (R37). Grade A enables all 64, grades B and C the first 60 or 56. -/
abbrev RegionId := Fin 64

/-- A logical cluster of a region (R37). -/
abbrev ClusterId := Fin 4

/-- A stream of a region, coded F = 0, B = 1, U = 2 (R48). -/
abbrev StreamId := Fin 3

/-- A torus port in the order X+, X-, Y+, Y-, Z+, Z- (R466). -/
abbrev PortId := Fin 6

/-- A context (Context ranges and translation). -/
abbrev CtxId := Fin 4

/-- A die D0 to D3 (R26). -/
abbrev DieId := Fin 4

/-- A stream channel of a region (Stream channels and the buffer pool). -/
abbrev ChanId := Fin 12

/-- An axis of a collective: X, Y, Z or TG, coded as the AXIS field of Table 8.14. -/
abbrev AxisId := Fin 4

/-- A virtual channel (R301). -/
abbrev VcId := Fin 8

end Sys2Proof
end

