-- ==== Sys2Proof/Syntax.lean ====
section
/-! DEFINITION. The commands of the block: `Instr`, one constructor per row of spec/opcode_table.json, with the row's
operands. An operand is what reaches the module from outside at that row (a register value, a flit, the bytes a host
transfer carries, a measured quantity) or names the part of the module at which the row happens.
-/

namespace Sys2Proof

/-- One 256-byte flit as it arrives on a port: its header of Table 10.2 and its payload bytes (R295, R296). -/
structure Flit where
  hdr     : BitVec 128
  payload : List Byte
  deriving DecidableEq, Repr

/-- What one ring step of a collective carries between two members (R315, R316, R319, R320). The manual gives no place in the
flit for the values that R316 names, nor for the chunk, so they stand here beside it; the elements travel in payloads. -/
structure CollStep where
  /-- COP, WFMT and H of the sending member (R316). -/
  cop    : BitVec 3
  wfmt   : BitVec 4
  h      : BitVec 4
  /-- Element count of the sending member's source. -/
  count  : Nat
  /-- False for the reduce phase, true for the gather phase (R320). -/
  gather : Bool
  /-- The chunk the step belongs to, and its half: false lower, true upper (R319). -/
  chunk  : Nat
  upper  : Bool
  /-- The elements of the half chunk in the wire format, and its G16 exponents or E4M3 scales. -/
  elems  : List (BitVec 128)
  exps   : List Byte
  deriving DecidableEq, Repr

/-- Background work that takes beats of a region (R221, R369, Table 12.2): the Moth's walk of the scratchpad, recalibration, and
mirror traffic served as buddy. -/
inductive BgWork where
  | moth | cal | mirror
  deriving DecidableEq, Repr

/-- A link of the module: a torus port, or the bridge from one die to another (R295). -/
inductive Link where
  | port   (p : PortId)
  | bridge (src dst : DieId)
  deriving DecidableEq, Repr

/-- Where a send that the landing gate holds stands (R307, R308): in a port's receive buffer, or in the sending
channel of this module for TGT 0b0000. -/
inductive GateSrc where
  | port (p : PortId) (vc : VcId)
  | chan (g : RegionId) (k : ChanId)
  deriving DecidableEq, Repr

/-- What the four delay monitors of one domain and its temperature sensor read (R360): ring periods in ns and the
junction temperature in degrees Celsius, as FP64 patterns. -/
structure DomainMeas where
  periods : List W64
  temp    : W64
  deriving DecidableEq, Repr

/-- The configuration memory device (Table 16.2): its main array and its four security registers. -/
structure Flash where
  main : List Host.Cell
  sec  : List (List Byte)
  deriving DecidableEq, Repr

/-- What the outside world and the analog parts supply to start-up (Table 16.11). -/
structure BootEnv where
  /-- Every rail of stage 1, and every rail of the domains of stage 5, reaches regulation within 5 ms (RAIL). -/
  railOk   : Bool
  domainsOk : Bool
  /-- The input stays above 44 V (INPUT_UNDERVOLTAGE). -/
  inputOk  : Bool
  /-- The fused identity, grade and key hash are consistent (FUSE). -/
  fuseOk   : Bool
  /-- The seal loop reads closed (R460, R526). -/
  sealed   : Bool
  /-- J-PRES is fitted (sampled only at power-on, R457). -/
  jumper   : Bool
  /-- The device fitted in the socket; none leaves the device that is there (R470). -/
  device   : Option Flash
  /-- The device answers and its SFDP tables declare Table 16.1 (R469). -/
  flashOk  : Bool
  /-- What each switched domain's monitors read at start-up, in domain order (R361). -/
  meas     : List DomainMeas
  /-- Every stack trains (HBM_TRAINING). -/
  hbmOk    : Bool
  /-- Every store accepts its initialisation (R485). -/
  initOk   : Bool
  /-- No junction reaches 115 degrees Celsius (THERMAL). -/
  coolOk   : Bool
  deriving DecidableEq, Repr

/-- Input voltage, current and power measured when an event occurred (Table 15.19, POWER_LIMIT), and for how many nanoseconds the
voltage has stood on the event's side of its threshold (Table 17.1). -/
structure InputMeas where
  mv : Nat
  ma : Nat
  w  : Nat
  ns : Nat
  deriving DecidableEq, Repr

/-- What the hottest sensor reads, in 1/16 degree Celsius: that of the ballast bank of die `bank`, or one of a junction (R507). -/
structure HotSensor where
  bank : Option DieId
  t16  : Int
  deriving DecidableEq, Repr

/-- The readings of one telemetry interval that the analog parts and the background engines supply (Tables 15.20
and 17.5), in the byte layout of those tables. -/
structure TelemetryEnv where
  /-- Bytes 1,296 to 1,303: the background shortfall of R369. -/
  shortfall : List Byte
  /-- Bytes 0 to 75 of Table 17.5; the module itself holds LENV and FLAGS, which follow. -/
  power     : List Byte
  deriving DecidableEq, Repr

/-- The readings behind the I3C register file (Table 18.5). -/
structure I3cEnv where
  vin   : W32
  iin   : W32
  tj    : W64
  tcool : W32
  deriving DecidableEq, Repr

/-- The commands of the module: one constructor for each row of spec/opcode_table.json, in the table's order. -/
inductive Instr where
  /-- R213: one beat of region `g`. `slice`: the beat is a background slice (R221). `resid`: a scalar slot finds a
  residue mismatch in this beat (R378). -/
  | bundleIssue (g : RegionId) (slice : Option BgWork) (resid : Bool)
  | passStart (g : RegionId) (c : ClusterId)
  | preloadSweep (g : RegionId) (c : ClusterId) (bank : Fin 2)
  | drainSweep (g : RegionId) (c : ClusterId)
  | passCompletion (g : RegionId) (c : ClusterId)
  | passRetry (g : RegionId) (c : ClusterId)
  | drainRowRecompute (g : RegionId) (c : ClusterId)
  | directFeed (g : RegionId) (c : ClusterId)
  | solverBorrow (g : RegionId) (c : ClusterId)
  | vectorStart (g : RegionId) (c : ClusterId)
  | vectorCompletion (g : RegionId) (c : ClusterId)
  | vectorRetry (g : RegionId) (c : ClusterId)
  | macroStart (g : RegionId)
  | macroCompletion (g : RegionId)
  | solverRerun (g : RegionId)
  | segmentOverrun (g : RegionId) (i : StreamId)
  | remoteStall (g : RegionId) (i : StreamId)
  | channelOpStart (g : RegionId) (k : ChanId)
  | channelOpCompletion (g : RegionId) (k : ChanId)
  | collectiveStart (g : RegionId) (a : AxisId)
  /-- R316. A flit of a ring step arrives on link `l`; `r` is what the first flit of a step carries beside its payload, its lists
  empty. -/
  | collReceive (g : RegionId) (a : AxisId) (l : Link) (f : Flit) (r : CollStep) (resid : Bool)
  | dataReceive (l : Link) (f : Flit)
  | landingGateAdmit (src : GateSrc)
  | resp (l : Link) (f : Flit)
  | flitTransmit (l : Link) (vc : VcId)
  | creditReturn (l : Link) (vc : VcId)
  | linkReplay (l : Link)
  | linkTimeout (l : Link)
  /-- R525: the partner's coordinates and port code, as the partner sends them in training. -/
  | linkTraining (p : PortId) (px py pz : BitVec 5) (pport : BitVec 3)
  | lendReq (p : PortId) (f : Flit)
  | lendAns (p : PortId) (f : Flit)
  | lendFree (p : PortId) (f : Flit)
  | rdReq (p : PortId) (f : Flit)
  | rdData (p : PortId) (f : Flit)
  | wrReq (p : PortId) (f : Flit)
  | digestSet (p : PortId) (f : Flit)
  | tileReq (p : PortId) (f : Flit)
  | tileData (p : PortId) (f : Flit)
  | passRec (p : PortId) (f : Flit)
  /-- R429: the record of region `g`, cluster `c`, stream `i` with SEQ `seq` has found no counterpart. -/
  | lockstepTimeout (g : RegionId) (c : ClusterId) (i : StreamId) (seq : BitVec 16)
  | vote (p : PortId) (f : Flit)
  | abortReceive (p : PortId) (f : Flit)
  | mirrorRebuild (p : PortId) (f : Flit)
  /-- R328: `n` nanoseconds of the reference pass, one tick each. -/
  | countTick (n : Nat)
  /-- R330: which neighbours report themselves aligned, the stamp of the one aligned to and the link delay in ticks. -/
  | countAlign (aligned : BitVec 6) (stamp : W64) (delay : Nat)
  /-- R331: the measured offset from the parent, in picoseconds, positive when the own count is ahead. -/
  | countRemeasure (offsetPs : Int)
  /-- R518: GREF has been absent for `ns`. -/
  | grefLoss (ns : Nat)
  | stepStart (c : CtxId)
  | stepComplete (c : CtxId)
  | flip (c : CtxId)
  | commitRefused (c : CtxId)
  | waveTimeout (c : CtxId)
  | lostFaultsReport (c : CtxId)
  /-- R362: the window of domain `d` ends with measurement `m`. -/
  | recalibration (d : Fin 363) (m : DomainMeas)
  /-- R359: the core rail of die `d` has measured `mv` for `ns`. -/
  | railFloor (d : DieId) (mv ns : Nat)
  | promiseOverrun (g : RegionId) (i : StreamId)
  | sramWriteBack (g : RegionId)
  | hbmWriteBack
  | poisonScan (frame : Nat)
  /-- R393: the bits of the code word and of its metadata that an upset has inverted since they were written. -/
  | mothHbmRead (d : DieId) (data : BitVec 512) (mdata : BitVec 32)
  /-- R394: the bits of the 128 bytes and of their 72 check bits that upsets have inverted. -/
  | mothSramRead (g : RegionId) (data : BitVec 1024) (check : BitVec 72)
  | coalesceWindowClose (seq : BitVec 16)
  /-- R270: the migration of residency `r` has copied its last stripe. -/
  | migrationComplete (r : Nat)
  | pendingEviction (r : Nat)
  /-- R438: a write of `value` to DB of context `c`; `descs` are the descriptors that software has written into the
  ring's slots from the previous TAIL on. -/
  | doorbell (c : CtxId) (value : W32) (descs : List (BitVec 1024))
  | openCtx (c : CtxId)
  | closeCtx (c : CtxId)
  /-- R444: `image` is what the module reads at HADDR. -/
  | loadProgram (c : CtxId) (image : List Byte)
  | memRead (c : CtxId)
  /-- R445: `data` is what the module reads at HADDR; fewer bytes than LEN mean that the host read failed there. -/
  | memWrite (c : CtxId) (data : List Byte)
  | map (c : CtxId)
  | unmap (c : CtxId)
  | share (c : CtxId)
  | promote (c : CtxId)
  | release (c : CtxId)
  | evict (c : CtxId)
  | setSeeds (c : CtxId)
  | armLaunch (c : CtxId)
  | abort (c : CtxId)
  | rollback (c : CtxId)
  /-- R356, R357: `held` is what the buddy says of the mirror it holds for the context: the pages it mirrors, in ascending
  order, and its step for that mirror; none when it holds none. -/
  | restoreFromBuddy (c : CtxId) (held : Option (List Nat × W64))
  | queryContext (c : CtxId)
  | queryScree (c : CtxId)
  | queryPage (c : CtxId)
  | queryDebug (c : CtxId)
  | attest (c : CtxId)
  | ackError (c : CtxId)
  /-- R459: `image` is what the module reads at HADDR; `devOk` is false when the device reports an error. -/
  | cfgWrite (c : CtxId) (image : List Byte) (devOk : Bool)
  | testModeEnable (c : CtxId)
  | testModeDisable (c : CtxId)
  | debugEnable (c : CtxId)
  /-- R465: `record` is what the module reads at HADDR; `devOk` as for CFG_WRITE. -/
  | ownerEnrol (c : CtxId) (record : List Byte) (devOk : Bool)
  /-- R447: the uncompleted command of context `c` with this TAG and GEN completes. -/
  | commandCompletion (c : CtxId) (tag : W32) (gen : Byte)
  | messageWrite (c : CtxId)
  | msixSend (v : Fin 8)
  /-- R452: a write of `value` to MRCTL of context `c`. -/
  | ringEnable (c : CtxId) (value : W32)
  | telemetry (env : TelemetryEnv)
  /-- R436: a 32-bit read of GCOUNT: the low word, or the high word when `high`. -/
  | gcountLatchRead (high : Bool)
  | mdropRead (c : CtxId)
  /-- R10: a write of `value` at BAR0 offset `off`, 64 bits wide when `wide`. -/
  | registerWrite (off : BitVec 16) (wide : Bool) (value : W64)
  | moduleReset (value : W32) (env : BootEnv)
  /-- R520: PERST_N has been low for `ns` and rises. -/
  | fundamentalReset (ns : Nat) (env : BootEnv)
  | cxlMemRead (off : Nat) (len : Nat)
  | cxlMemWrite (off : Nat) (data : List Byte) (poison : Bool)
  /-- R457: the button (SW-PRES or PRES_N, R521) has been held for `ms`. -/
  | presencePress (ms : Nat)
  | presenceWindowClose
  | powerOn (mv : Nat) (env : BootEnv)
  | ready
  | portWait (p : PortId)
  | alignWait
  /-- R496: die `d` measures its work current (mA, without withholding); `m` holds the input voltage averaged over the last
  1 ms. -/
  | governorSample (d : DieId) (workMa : Nat) (m : InputMeas)
  | launchRamp (c : CtxId)
  /-- R506: the highest sensor of die `d`, in 1/16 degree Celsius. -/
  | thermalStep (d : DieId) (t16 : Int) (m : InputMeas)
  /-- R507: the sensor has read so much for `ns`. -/
  | thermalTrip (t16 : HotSensor) (ns : Nat) (m : InputMeas)
  | tripShutdown
  | inputUndervoltage (m : InputMeas)
  | inputDisconnect (mv : InputMeas)
  | inputLow (m : InputMeas)
  | inputNormal (m : InputMeas)
  | inputHigh (m : InputMeas)
  | i3cPrivateWrite (addr : BitVec 7) (bytes : List Byte)
  | i3cPrivateRead (addr : BitVec 7) (len : Nat) (env : I3cEnv)
  | entdaa (addr : BitVec 7)
  | setdasa (static addr : BitVec 7)
  | rstdaa
  | getpid (addr : BitVec 7)
  | getbcr (addr : BitVec 7)
  | getdcr (addr : BitVec 7)
  | getstatus (addr : BitVec 7)
  | getmwl (addr : BitVec 7)
  | getmrl (addr : BitVec 7)
  | flitDiscard (l : Link) (f : Flit)
  /-- R298: the link control word acknowledges every flit before `seq`. -/
  | acknowledgement (l : Link) (seq : BitVec 14)
  | portTrainingLost (p : PortId)
  | hostPortTraining
  deriving DecidableEq, Repr

end Sys2Proof
end

