-- ==== Sys2Proof/Decode.lean ====
section
/-! DEFINITION. The words of the opcode table. The table of this module lists commands and events, and gives no row any
bits, so no word spells a command. The Shougon bundles that region processors run have encodings of their own; they
are read in Machine/Shougon.lean. -/

namespace Sys2Proof

/-- The command that the `nbits`-bit word `w` spells by the table's bits: none, since no row has bits. -/
def decodeTableWord (_nbits _w : Nat) : Option Instr := none

end Sys2Proof
end

