-- ==== Sys2Proof/Config.lean ====
section
/-! DEFINITION. What the manual leaves to the individual module, or leaves open: constants without a body, of which
nothing can be proved but what holds of every value. Each is named in notes/assumptions. -/

namespace Sys2Proof.Config

/-- Values fused at manufacture (R436); the manual gives none (notes/assumptions/4). -/
opaque silicon : BitVec 16
opaque serial : W64
opaque romVer : BitVec 16
opaque vendorHash : BitVec 512
opaque secret : BitVec 256
opaque vendorCert : List Byte

/-- The ring ratio k_r, FP64, of ring r of domain d, given at manufacture (R360). -/
opaque ringRatio : Nat → Nat → W64

/-- The place from which the page engine looks for a free frame at its n-th choice; the manual does not say which free
frame it takes (notes/assumptions/7). -/
opaque freeFrame : Nat → Nat

/-- The place from which a module looks for a free TAG at its n-th draw (R311, notes/assumptions/7). -/
opaque freeTag : Nat → Nat

/-- Which of the columns left over the n-th column of the SEC-DED code is: R381 gives the code's distance and what it covers but
not its matrix (notes/assumptions/8). -/
opaque secdedPick : Nat → Nat

/-- The first root of the Reed-Solomon code's generator, as a power of the primitive element, and which of the places left over
the n-th symbol takes: R384 gives the field, the distance and what the code covers, not these (notes/assumptions/8). -/
opaque rsFirstRoot : Nat
opaque rsPick : Nat → Nat

/-- A measured offset that is no whole number of ticks is corrected by the next higher number of ticks (true) or the next
lower (R331 gives no rounding). -/
opaque alignUp : Int → Bool

/-- How much of I_env, in uA, falls to a die before the last one (R496 names the share and gives no rule for it). -/
opaque dieShare : DieId → Nat → Nat

/-- The provisioned ID and characteristics of the I3C target (R522 lists the commands, not the values). -/
opaque i3cPid : BitVec 48
opaque i3cBcr : Byte
opaque i3cDcr : Byte
opaque i3cStatus : BitVec 16
opaque i3cMwl : BitVec 16
opaque i3cMrl : BitVec 16

/-- What an operation that an upset or a bus error cuts short has already written (Table 13.5 says only that it writes
nothing further): how many of its writes came before the stop, at the n-th such stop. -/
opaque writesBeforeStop : Nat → Nat

/-- The element that a G16 accumulation with headroom 0 stores when its sum is exactly 32,768 (false) or -32,768 (true),
which R325 lets stand and the element code cannot hold. -/
opaque g16Edge : Bool → BitVec 16

/-- The content of the solver work area after a macro, which R173 gives no meaning and makes a function of the macro's
parameters and inputs only: byte `i` for the numbers of both. -/
opaque workByte : List Nat → Nat → Byte

/-- Byte `i` of the result of QUERY with selector DEBUG, of the values that Table 15.12 says it holds, listed in its order;
the table gives no layout of the 320 bytes (notes/assumptions/55). -/
opaque debugByte : List Nat → Nat → Byte

end Sys2Proof.Config
end

