-- ==== Sys2Proof/Machine/State.lean ====
section
/-! DEFINITION. The state of the module as plain data: everything the manual gives it, down to the operations that
wait in its queues with the register values they copied at issue, and the queue of commands that wait (`pending`).
`State.reset` is the module before its input power first rises, with the values of notes/assumptions for what the
manual leaves open. -/

namespace Sys2Proof.Machine

/-- Sparse contents of a store: keys strictly rising, no entry equal to what an unlisted key reads as. -/
abbrev Sparse (α : Type) := List (Nat × α)

/-- Bytes by address. An unlisted byte reads as zero (R485). -/
abbrev Mem := List Host.Cell

/-- An on-die store under the SEC-DED code of R381. `chk` lists, by 16-byte word, the nine stored check bits of every
word whose check bits are not those of its data. -/
structure Sram where
  mem : Mem
  chk : Sparse (BitVec 9)
  deriving DecidableEq, Repr

/-- The rounding of one conversion: rne(), or sr() with its 32 random bits (R46, R47). -/
inductive Rnd where
  | rne
  | sr (r : W32)
  deriving DecidableEq, Repr

/-- An exact value of the arithmetic: NaN, an infinity, or plus or minus m * 2^e (a zero keeps its sign). -/
inductive Val where
  | nan
  | inf (neg : Bool)
  | fin (neg : Bool) (m : Nat) (e : Int)
  deriving DecidableEq, Repr

/-! ## Operations with the register values they copied at issue (R214) -/

/-- One operand side of an issued pass (Tables 3.1 and 8.7). -/
structure Side where
  fmt  : BitVec 4
  src  : BitVec 2
  td   : BitVec 256
  /-- The scale: from a register, or from the tile-scale array `sdesc` when `sarr`. -/
  sarr  : Bool
  sval  : W32
  sdesc : BitVec 256
  /-- For a WINDOW operand: the DPREF it binds to (R285) and that DPREF's source. -/
  winId  : Nat
  winSrc : BitVec 256
  /-- Some step of the side has been fed directly (R99). -/
  direct : Bool
  deriving DecidableEq, Repr

/-- An issued X-slot pass. -/
structure PassOp where
  stream : StreamId
  sig    : Option (Fin 64)
  f32c   : Bool
  a      : Side
  b      : Side
  m      : Nat
  n      : Nat
  k      : Nat
  q      : W32
  pre    : BitVec 3
  preTd  : BitVec 256
  dst    : BitVec 2
  tdd    : BitVec 256
  fmtOut : BitVec 4
  sr     : Bool
  sat    : Bool
  fuse   : BitVec 2
  fuseTd : BitVec 256
  capture : BitVec 2
  more   : Bool
  cont   : Bool
  tri    : BitVec 2
  tid    : BitVec 16
  deriving DecidableEq, Repr

/-- An issued V-slot instruction (Tables 4.4 and 8.10). -/
structure VecOp where
  stream : StreamId
  sig    : Option (Fin 64)
  vop    : BitVec 4
  i0     : Option (BitVec 256)
  i1     : Option (BitVec 256)
  i2     : Option (BitVec 256)
  o      : Option (BitVec 256)
  mask   : BitVec 128
  mp     : Option (BitVec 2048)
  k0     : W32
  k1     : W32
  k2     : W32
  k3     : W32
  sr     : Bool
  sat    : Bool
  lc     : Option Nat
  rdims  : Nat
  rx     : BitVec 5
  tid    : BitVec 16
  aux    : BitVec 38
  deriving DecidableEq, Repr

/-- An issued solver macro (Tables 6.4 and 8.8). -/
structure MacroOp where
  stream : StreamId
  sig    : Option (Fin 64)
  mop    : BitVec 4
  bm     : BitVec 4
  da     : BitVec 256
  db     : BitVec 256
  dc     : BitVec 256
  dd     : BitVec 256
  de     : BitVec 256
  stage  : W64
  n      : Nat
  r      : Nat
  scm    : Bool
  scr    : W32
  cr     : W32
  beta   : W32
  omega  : W32
  init   : Bool
  lam    : W32
  dmode  : BitVec 2
  nmode  : BitVec 2
  taux   : BitVec 5
  pc     : BitVec 2
  start  : BitVec 2
  nc     : BitVec 5
  nw     : BitVec 4
  part   : BitVec 16
  ofmt   : BitVec 2
  rx     : BitVec 5
  deriving DecidableEq, Repr

/-- An issued D-slot operation (Tables 8.13 and 8.14). -/
structure ChanOp where
  stream : StreamId
  sig    : Option (Fin 64)
  dop    : BitVec 4
  tds    : BitVec 256
  tdd    : BitVec 256
  mir    : Bool
  tqcl   : ClusterId
  dlr    : W64
  tgt    : BitVec 4
  rreg   : BitVec 6
  ren    : Bool
  revt   : BitVec 6
  vc     : BitVec 3
  cop    : BitVec 3
  axis   : AxisId
  wfmt   : BitVec 4
  h      : BitVec 4
  /-- DCOLL: its place in the issue order of its region and axis since the armed launch (R315). DPREF: its place
  among the region's DPREFs (R285). -/
  seq    : Nat
  deriving DecidableEq, Repr

/-! ## Cluster -/

/-- One cell of an accumulator bank (R52, R61): N with its three side flags, or an FP32 value in the low bits. -/
structure AccCell where
  n    : BitVec 128
  pinf : Bool
  ninf : Bool
  nanf : Bool
  /-- The residue modulo 7 that the cell carries beside N, and the second copies of its side flags: +infinity, -infinity, NaN
  from bit 0 (R377). Of an F32C cell, 0 while every check of its products and sums has held. -/
  rn   : BitVec 3
  dup  : BitVec 3
  deriving DecidableEq, Repr

/-- The life of a bank (R83 to R93): free, taking operands of a pass or an open chain, landed and due for its drain
sweep or (for a hold) its check beat, or held. -/
inductive BankPhase where
  | free | busy | landed | held
  deriving DecidableEq, Repr

/-- The pass or chain a bank belongs to: its parts in issue order, the operand scales, and what its status (Table 3.5)
and its lock-step record (R428) will report. -/
structure PassRun where
  parts   : List PassOp
  sa      : W32
  sb      : W32
  /-- The next contraction step of the last part. -/
  step    : Nat
  /-- The step waits for directly fed data (R99), with the sides that it takes directly, as the feeder found them when it
  requested the step (R286); bytes of T2 pages fetched so far, by context address, and the 64-byte units asked for. -/
  feeding : Bool
  directA : Bool
  directB : Bool
  fetched : Mem
  asked   : List Nat
  retries : Nat
  dfSteps : Nat
  nonfin  : Nat
  flags   : BitVec 7
  digest  : BitVec 128
  deriving DecidableEq, Repr

/-- An accumulator bank of a cluster. -/
structure Bank where
  phase : BankPhase
  cells : Sparse AccCell
  /-- The preload of the next pass to use the bank has been written, with these flags (R84, R85). -/
  preloaded : Bool
  preFlags  : BitVec 7
  run   : Option PassRun
  /-- Order of becoming held (R110). -/
  heldAt : Nat
  deriving DecidableEq, Repr

/-- What the issue checks of a chain need (R80, R81): the chain as issued so far. -/
structure Chain where
  stream : StreamId
  f32c   : Bool
  fmtA   : BitVec 4
  fmtB   : BitVec 4
  total  : Nat
  deriving DecidableEq, Repr

/-- An entry of the tile queue (R91): up to 128 x 128 FP32 values of which M x N are read. -/
structure TileEnt where
  m        : Nat
  n        : Nat
  cells    : Sparse W32
  readable : Bool
  /-- A consumer has begun its single read of the entry. -/
  taken    : Bool
  bad      : Bool
  deriving DecidableEq, Repr

/-- One captured side in the replay buffer (R95): element l of step k under k * 128 + l. -/
structure Capture where
  fmt   : BitVec 4
  steps : Nat
  elems : Sparse W32
  deriving DecidableEq, Repr

/-- The replay buffer: what it holds, and what the capturing passes issued so far will have put there (R97, R157). -/
structure Replay where
  sideA  : Option Capture
  sideB  : Option Capture
  /-- As issued: the capturing stream, and format and steps of each captured side. -/
  who    : Option StreamId
  planA  : Option (BitVec 4 × Nat)
  planB  : Option (BitVec 4 × Nat)
  bad    : Bool
  deriving DecidableEq, Repr

/-- The running vector instruction and what its completion will report (Table 4.10). -/
structure VecRun where
  op      : VecOp
  rxVal   : Option W64
  oor     : Nat
  empty   : Nat
  flags   : BitVec 7
  aflags  : BitVec 7
  retries : Nat
  /-- The held banks that it releases, as its inputs selected them when it started (R110). -/
  release : List (Fin 2)
  /-- No residue check of it stands failed (R377). -/
  ok      : Bool
  /-- Ended with a bus error; its completion point is never reached (Table 13.5). -/
  failed  : Bool
  deriving DecidableEq, Repr

/-- One cluster of a region (Table 1.2). -/
structure Cluster where
  passQ    : List PassOp
  banks    : Vector Bank 2
  /-- The bank the next pass turns to (R83), and the bank that takes operands now. -/
  nextBank : Fin 2
  cur      : Option (Fin 2)
  chain    : Option Chain
  heldSeq  : Nat
  /-- Passes whose drain sweep has run and whose completion point is due, in order (R93). -/
  drained  : List PassRun
  tileQ    : List TileEnt
  replay   : Replay
  pstat    : Vector W64 3
  vq       : List VecOp
  vrun     : Option VecRun
  vstat    : Vector W64 3
  borrowed : Bool
  deriving DecidableEq, Repr

/-! ## Stream -/

/-- An open segment (R217 to R223). -/
structure Seg where
  d         : Nat
  counter   : Nat
  retries   : Nat
  allowance : Nat
  deriving DecidableEq, Repr

/-- A step budget record (Table 12.1). -/
structure Budget where
  stepBeats : Nat
  lmax      : Nat
  nseg      : Nat
  hops      : Nat
  deriving DecidableEq, Repr

/-- What QUERY with selector DEBUG returns of a stream (Table 15.12): its registers at the last halt. -/
structure DebugSnap where
  pc      : Nat
  x       : Vector W64 32
  p       : BitVec 8
  counter : Nat
  d       : Nat
  retries : Nat
  sum     : Nat
  deriving DecidableEq, Repr

/-- One instruction stream (Table 7.1). -/
structure Stream where
  /-- The stream issues: from a step start until SEGMENT with END or a halt. -/
  running  : Bool
  pc       : BitVec 14
  /-- The next bundle would lie above index 16,383 (R201). -/
  pcOver   : Bool
  x        : Vector W64 32
  p        : BitVec 8
  td       : Vector (BitVec 256) 32
  mask     : Vector (BitVec 128) 16
  mp       : Vector (BitVec 2048) 16
  aflags   : W32
  vflags   : W64
  sstat    : W64
  sres     : W32
  seg      : Option Seg
  sum      : Nat
  nseg     : Nat
  /-- Beats before the next bundle may issue after a scalar load (R203). -/
  loadWait : Nat
  /-- STEPMARK has issued (R343); the stream has ended its step (R219). -/
  marked   : Bool
  ended    : Bool
  /-- Count at which the head bundle began to be held only by fabric conditions (R224), and X_s so far (R375). -/
  heldFrom : Option Nat
  xs       : Nat
  /-- Beats held for lack of link credits in this telemetry interval (R310). -/
  creditBeats : Nat
  snap     : DebugSnap
  deriving DecidableEq, Repr

/-! ## Region -/

/-- The changes to one event counter that the current beat has gathered (R209): a set value, the sum of the other
changes, and the streams that made them (Table 13.6, STREAM). -/
structure EvPend where
  set   : Option (BitVec 16)
  delta : Int
  who   : BitVec 4
  deriving DecidableEq, Repr

/-- What a step has written into one tile of a digest range (R421, R422). -/
structure TileDig where
  digest : BitVec 128
  nonfin : Nat
  deriving DecidableEq, Repr

/-- The running macro and what its completion will report (Table 6.8). -/
structure MacroRun where
  op      : MacroOp
  code    : BitVec 8
  nit     : BitVec 5
  cold    : Bool
  floored : Nat
  flags   : BitVec 7
  resid   : W32
  rxVal   : Option W64
  failed  : Bool
  /-- Its contribution to the digests of the context, added at its completion point (R423). -/
  tiles   : List ((Nat × Nat) × TileDig)
  deriving DecidableEq, Repr

/-- The phases of a running D-slot operation: waiting at its engine or gate, waiting for remote data, done with its
transfers but for acknowledgements, or ended by a bus error. -/
inductive ChanPhase where
  | waiting | fetching | moved | failed
  deriving DecidableEq, Repr

/-- The running operation of a channel. -/
structure ChanRun where
  op    : ChanOp
  phase : ChanPhase
  /-- Bytes of T2 pages fetched for the operation, by context address, and the 64-byte units asked for. -/
  fetched : Mem
  asked   : List Nat
  /-- Its contribution to the digests of the context, added at its completion point (R423). -/
  tiles   : List ((Nat × Nat) × TileDig)
  deriving DecidableEq, Repr

/-- A stream channel (R277, R278): its queue, running operation, and buffers held of the pool. -/
structure Channel where
  q    : List ChanOp
  run  : Option ChanRun
  held : Nat
  deriving DecidableEq, Repr

/-- A weight window (Table 9.8), with the identity of its last DPREF as issued and as started. -/
structure Window where
  issued   : Option (Nat × BitVec 256 × BitVec 256)
  current  : Nat
  src      : BitVec 256
  dst      : BitVec 256
  count    : Nat
  filled   : Nat
  deadline : W64
  users    : Nat
  late     : Bool
  deriving DecidableEq, Repr

/-- The on-die stores of a region that carry check bits (Table 13.1). -/
inductive Store where
  | scratch | imem | sdata
  deriving DecidableEq, Repr

/-- One region (Table 1.3, Table 7.1). -/
structure Region where
  ctx      : Option CtxId
  imem     : Sram
  sdata    : Sram
  sinit    : Mem
  entry    : Vector (BitVec 14) 3
  budget   : Vector Budget 3
  /-- Instruction memory holds an uncorrectable word not yet rewritten (R383). -/
  damaged  : Bool
  scratch  : Sram
  ev       : Vector (BitVec 16) 64
  evPend   : Vector EvPend 64
  /-- DSENDs admitted by the landing gate and not yet completed, per event (R307). -/
  admitted : Sparse Nat
  /-- DSENDs completed in the current beat, which COUNT takes up at its end, per event (R206, R307). -/
  landed   : Sparse Nat
  lastIssue : StreamId
  streams  : Vector Stream 3
  clusters : Vector Cluster 4
  mq       : List MacroOp
  mrun     : Option MacroRun
  /-- T2 bytes fetched for the running macro, by context address, and what has been asked for. -/
  mfetched : Mem
  masked   : List Nat
  chans    : Vector Channel 12
  wins     : Vector Window 8
  dprefs   : Nat
  /-- Per axis: collectives issued since the armed launch, and started (R315). -/
  collIssued  : Vector Nat 4
  collStarted : Vector Nat 4
  /-- Translation cache, most recently used first: pages and their leaf entries (R258). -/
  tcache   : List (Nat × W64)
  mothPos  : Nat
  writeBacks : List (Store × Nat)
  /-- t_adm(g) in 1/256 ps on which the running admission rests (R364, R365). -/
  tadm     : Option Nat
  /-- Beats of the region core domain so far, the background slices among the last 1,024 of them, and the background work that has
  fallen behind in the telemetry interval (R369, Table 15.20). -/
  beatNo   : Nat
  slices   : List (Nat × BgWork)
  behind   : BitVec 8
  /-- Direct-fed bytes per tier and LATE fills of the telemetry interval (R288). -/
  lateFills : Nat
  deriving DecidableEq, Repr

/-! ## Pages (Memory tiers) -/

/-- A tier that holds pages (Table 9.4, TIER). -/
inductive Tier where
  | t1 | t2 | t3
  deriving DecidableEq, Repr

/-- Where a residency lies: its tier, the lender's port for T2, and the frame number of Table 9.4. For T2, `lentTo` is the
context for which the lender granted the frame, whatever contexts map or own the page now (notes/assumptions/54). -/
structure Loc where
  tier  : Tier
  port  : BitVec 3
  frame : Nat
  lentTo : CtxId
  deriving DecidableEq, Repr

/-- One stripe of a versioned page (R336 to R338): the slot that holds its Cairn, whether the current step has written
it, whether the step of the last flip wrote it, and whether it was found poisoned in its Chrysalis (R344). -/
structure Stripe where
  cairn   : Bool
  written : Bool
  flipped : Bool
  poison  : Bool
  deriving DecidableEq, Repr

/-- A migration in progress (R270): where to, the bytes of the page that have come from its lender and how many they are, with
the bytes written since the migration began (for a page that leaves T2). -/
structure Mig where
  dst    : Loc
  moved  : Mem
  got    : Nat
  late   : Sparse Byte
  deriving DecidableEq, Repr

/-- A residency (Page operations and ownership). -/
structure Resid where
  id      : Nat
  owner   : CtxId
  loc     : Loc
  ver     : Bool
  hostvis : Bool
  holds   : BitVec 4
  evicting : Option Loc
  psn     : Bool
  mig     : Option Mig
  stripes : Sparse Stripe
  deriving DecidableEq, Repr

/-- A versioned page of the Z- neighbour that this module mirrors as buddy (R341): the neighbour's context and page,
and the even frame of its pair here. -/
structure MirrorPage where
  ctx     : CtxId
  page    : Nat
  frame   : Nat
  stripes : Sparse Stripe
  deriving DecidableEq, Repr

/-- A frame lent to a neighbour's context (R261, R293). -/
structure Lent where
  frame : Nat
  port  : PortId
  ctx   : CtxId
  deriving DecidableEq, Repr

/-- A pass record of lock-step mode (R428). -/
structure PassRecord where
  step    : W64
  region  : Byte
  cluster : Byte
  stream  : Byte
  seq     : BitVec 16
  digest  : BitVec 128
  atCount     : Nat
  deriving DecidableEq, Repr

/-- A digest map entry (Table 14.3). -/
structure DigestEnt where
  lid  : BitVec 16
  kind : Byte
  fmt  : BitVec 4
  base : Nat
  len  : Nat
  deriving DecidableEq, Repr

/-- A received digest set (Table 9.13): STEP and per entry LID, TILES and range digest. -/
structure DigestSetRec where
  step : W64
  ents : List (BitVec 16 × Nat × BitVec 128)
  deriving DecidableEq, Repr

/-- A replica comparison that has failed and waits for the neighbour's tile entries (R426): the range, the own digests of the
tiles written, both range digests, and the first tile not yet compared. -/
structure DigestCmp where
  ctx   : CtxId
  lid   : BitVec 16
  step  : W64
  tiles : Nat
  mine  : List (Nat × BitVec 128)
  own   : BitVec 128
  peer  : BitVec 128
  next  : Nat
  deriving DecidableEq, Repr

/-! ## Launches and the commit wave -/

/-- A vote (Table 11.2). -/
structure Vote where
  step   : W64
  t      : W64
  digest : BitVec 128
  ok     : Bool
  deriving DecidableEq, Repr

/-- A vote flit on its way: axis, direction (true +), hops still to travel (Table 11.1). -/
structure VoteMsg where
  axis : Fin 3
  plus : Bool
  hops : Nat
  vote : Vote
  deriving DecidableEq, Repr

/-- The commit wave of the running step at this module (R345): the own step-complete count and the OK of the own vote, the
axis phase (3 when the wave is finished), the combined vote, votes received in the phase, and votes that came before their
phase. -/
structure Wave where
  tOwn  : Option Nat
  ownOk : Bool
  phase : Nat
  acc   : Vote
  got   : Nat
  early : List VoteMsg
  deriving DecidableEq, Repr

/-- A launch (R332 to R335). -/
structure Launch where
  tag     : W32
  gen     : Byte
  a       : Nat
  s0      : Nat
  n       : Nat
  promise : Nat
  u       : Nat
  /-- The step that runs or will start next, and whether it has started. -/
  step    : Nat
  started : Bool
  /-- Count at which the next step starts, and S_step of the running one (R375). -/
  due     : Nat
  sStep   : Nat
  wave    : Wave
  /-- Sum of e_k so far, and the last step flipped (R376). -/
  ext     : Nat
  lastFlip : Option Nat
  deriving DecidableEq, Repr

/-- A halt under R351 that no later step start has ended. -/
structure Halt where
  atCount    : Nat
  faults : Nat
  lost   : Nat
  lastAt : Nat
  lastCause  : BitVec 16
  lastOrigin : BitVec 24
  lastCount  : Nat
  lastStep   : Nat
  lastAll    : Bool
  reported   : Bool
  deriving DecidableEq, Repr

/-- What an abort says of itself (Tables 11.2, 15.19). -/
structure AbortInfo where
  cause  : BitVec 16
  origin : BitVec 24
  acount : Nat
  astep  : W64
  all    : Bool
  own    : Bool
  hard   : Bool
  seq    : Option (BitVec 16)
  lost   : Nat
  deriving DecidableEq, Repr

/-- A context. -/
structure Ctx where
  opened   : Bool
  /-- No ARM_LAUNCH has been accepted since OPEN (R332). -/
  fresh    : Bool
  js       : BitVec 128
  ds       : BitVec 128
  /-- Mapped pages and their residencies; the leaf entries of Table 9.4 are computed from these. -/
  pages    : Sparse Nat
  /-- Frames that hold the context's translation tables (R257), and the physical address of each table by level (top, middle,
  leaf) and index (R256); the entries themselves are words of HBM. -/
  tables   : List Nat
  tabs     : List ((Nat × Nat) × Nat)
  cairnStep  : W64
  priorValid : Bool
  launch   : Option Launch
  lastPromise : W64
  halt     : Option Halt
  /-- ABORTs of the step after the running one, which halt the context once it has flipped (Table 11.3). -/
  waits    : List AbortInfo
  dmap     : List DigestEnt
  darea    : Nat
  /-- Tiles written in the current step, by digest-map index and tile (R421). -/
  tiles    : List ((Nat × Nat) × TileDig)
  deriving DecidableEq, Repr

/-! ## Reports to the host -/

/-- A host message (Tables 15.18, 15.19): the header fields and the payload bytes. -/
structure Msg where
  type    : Byte
  gen     : Byte
  tag     : W32
  stamp   : W64
  payload : List Byte
  deriving DecidableEq, Repr

/-- A Scree record (Table 13.6). -/
structure Rec where
  seq    : BitVec 16
  cls    : Byte
  acked  : Bool
  coalesced : Bool
  rep    : Bool
  mirror : Bool
  cairn  : Bool
  test   : Bool
  nested : Bool
  source : BitVec 16
  cause  : BitVec 16
  stamp  : W64
  paddr  : W64
  step   : W64
  die    : Byte
  region : Byte
  cluster : Byte
  stream : BitVec 2
  ctx    : Option CtxId
  count  : W32
  ref    : Option (BitVec 24)
  syndrome : W32
  caddr  : W64
  lost   : W32
  deriving DecidableEq, Repr

/-- The Scree (R404 to R410). -/
structure Scree where
  slots : List (Option Rec)
  next  : BitVec 16
  lost  : W32
  /-- SEQ of the CORRECTED records whose 1 ms window is open (R406). -/
  windows : List (BitVec 16)
  deriving DecidableEq, Repr

/-- An accepted command that has not completed (R440, R447). -/
structure CmdRun where
  opc    : Byte
  tag    : W32
  gen    : Byte
  status : BitVec 16
  count  : W32
  /-- Holds the fetch of the next descriptor (R439). -/
  blocks : Bool
  /-- Migrations it waits for. -/
  migs   : List Nat
  /-- Its HADDR and CADDR, and the bytes that a MEM_WRITE has read from host memory. -/
  haddr  : Nat
  caddr  : Nat
  len    : Nat
  data   : List Byte
  /-- Parts of T2 pages that it still has to read: context address and length. -/
  asks   : List (Nat × Nat)
  deriving DecidableEq, Repr

/-- A MAP, PROMOTE or EVICT that waits for a lender's or buddy's answer before it is accepted or rejected (R261,
R294). -/
structure LendWait where
  opc   : Byte
  op    : Byte
  desc  : BitVec 1024
  tag   : BitVec 16
  first : Nat
  frames : List Nat
  deriving DecidableEq, Repr

/-- A context block of BAR0 with its command ring in BAR2 and its message queue (Table 15.8, R438 to R450). -/
structure Ring where
  tail   : BitVec 11
  head   : BitVec 11
  /-- BAR2 bytes of the ring: 1,024 slots of 128 bytes. -/
  slots  : Sparse (BitVec 1024)
  mrbase : W64
  mrsize : BitVec 5
  en     : Bool
  vec    : BitVec 3
  mrhead : W32
  mrtail : W32
  mdrop  : W32
  /-- Entries written since EN rose (R449). -/
  k      : Nat
  msgs   : List Msg
  cmds   : List CmdRun
  lend   : Option LendWait
  deriving DecidableEq, Repr

/-- An MSI-X vector (R451): a message is due, and when the last one went. -/
structure MsixVec where
  due  : Bool
  last : Option Nat
  sent : Nat
  deriving DecidableEq, Repr

/-- An entry of the MSI-X table (Table 15.2). -/
structure MsixEntry where
  addr   : W64
  data   : W32
  masked : Bool
  deriving DecidableEq, Repr

/-- What the host sets in configuration space and in BAR4 (Tables 15.1 and 15.2, R437): the power state, which has no effect,
the addresses of BAR0, BAR2 and BAR4, the MSI-X table, and the HDM decoder. -/
structure Pci where
  dstate  : BitVec 2
  bars    : Vector W64 3
  msixOn  : Bool
  msixTbl : Vector MsixEntry 8
  hdmOn   : Bool
  hdmBase : W64
  hdmSize : W64
  deriving DecidableEq, Repr

/-- The host interface: registers of BAR0 that are not in a context block, and what the last host read returned. -/
structure HostIf where
  trained  : Bool
  pci      : Pci
  tlmbase  : W64
  msimod   : W32
  latch    : W32
  dbOverrun  : Bool
  hdmDenied  : Bool
  nestedSeen : Bool
  uncorrSeen : Bool
  rings    : Vector Ring 4
  msix     : Vector MsixVec 8
  /-- What the last BAR0 read returned, and the bytes and poison indication of the last CXL.mem read. -/
  rdata    : W64
  cxlData  : List Byte
  cxlPoison : Bool
  tseq     : W64
  tlmStart : Nat
  deriving DecidableEq, Repr

/-! ## Ports and fabric -/

/-- A flit that waits for transmission or acknowledgement (R298, R299). The first flit of a ring step carries beside its payload
what R316 names, `coll` (notes/assumptions/37). -/
structure TxFlit where
  hdr     : BitVec 128
  payload : List Byte
  coll    : Option CollStep
  due     : Nat
  sent    : Option Nat
  deriving DecidableEq, Repr

/-- A torus port (R295 to R302, Table 15.23). -/
structure Port where
  powered : Bool
  state   : BitVec 2
  pv      : Bool
  px      : BitVec 5
  py      : BitVec 5
  pz      : BitVec 5
  pport   : BitVec 3
  txq     : Vector (List TxFlit) 8
  credits : Vector Nat 8
  seq     : BitVec 14
  unacked : List TxFlit
  rxNext  : BitVec 14
  rxDrop  : Bool
  /-- Flits that the landing gate holds, by virtual channel, in order (R307). -/
  held    : Vector (List Flit) 8
  /-- The DSEND being received on each virtual channel has been admitted (R307). -/
  isOpen   : Vector Bool 8
  /-- Credits given back to the partner so far, by virtual channel. -/
  toReturn : Vector Nat 8
  replays : Nat
  /-- Nanoseconds of the telemetry interval in which flits waited for a credit (R310). -/
  creditWait : Vector Nat 8
  /-- Page request flits gathered until LAST (R292): TAG, GEN, header and bytes. -/
  gather  : List (BitVec 16 × BitVec 4 × BitVec 128 × List Byte)
  /-- Ring steps of collectives gathered until LAST: TAG, RREG, what their first flit carries, and bytes (R316). -/
  steps   : List (BitVec 16 × BitVec 6 × CollStep × List Byte)
  deriving DecidableEq, Repr

/-- Who started a transaction (R306, R311). -/
inductive Who where
  | chan (g : RegionId) (k : ChanId)
  | solver (g : RegionId)
  | feed (g : RegionId) (c : ClusterId)
  | page (r : Nat)
  | restore (c : CtxId)
  | rebuild (c : CtxId)
  | digest (c : CtxId)
  | tile (c : CtxId)
  | lock
  | host (c : CtxId)
  deriving DecidableEq, Repr

/-- What a transaction asks for (Table 9.11), or a DSEND: over a port, over a bridge, or within a die; `addr` is the address or
context address of its data. -/
inductive Ask where
  | send | cross | near | lend (mirror : Bool) | free | read | write | digest | tile | record
  deriving DecidableEq, Repr

/-- An outstanding transaction (R311). -/
structure Txn where
  tag  : BitVec 16
  gen  : BitVec 4
  port : PortId
  who  : Who
  ask  : Ask
  ctx  : CtxId
  addr : Nat
  len  : Nat
  data : Mem
  deriving DecidableEq, Repr

/-- A page transaction that waits for a free tag (R292, R311): its request as `Txn` and the bytes to send. -/
structure TxnWait where
  port  : PortId
  who   : Who
  ask   : Ask
  ctx   : CtxId
  addr  : Nat
  len   : Nat
  kind  : BitVec 5
  blk   : Nat
  bytes : List Byte
  deriving DecidableEq, Repr

/-- A collective at its engine (R315 to R321). -/
structure CollRun where
  g      : RegionId
  k      : ChanId
  axis   : AxisId
  seq    : Nat
  op     : ChanOp
  /-- Own source elements and exponents or scales, in the wire format. -/
  elems  : List (BitVec 128)
  exps   : List Byte
  /-- Half chunks received in their final form: chunk, half, elements, exponents. -/
  parts  : List ((Nat × Bool) × (List (BitVec 128) × List Byte))
  /-- Ring steps still to be received. -/
  left   : Nat
  done   : Bool
  deriving DecidableEq, Repr

/-- A ring step received before the own collective of that sequence number has started. -/
structure CollEarly where
  g    : RegionId
  axis : AxisId
  link : Link
  seq  : Nat
  step : CollStep
  deriving DecidableEq, Repr

/-- Module-wide fabric state (R311 to R313, R350). -/
structure Fabric where
  txns     : List Txn
  waiting  : List TxnWait
  /-- The bridge from each die to each other die, as a link of the same flits (R295, R301). -/
  bridges  : Vector (Vector Port 4) 4
  gens     : Sparse (BitVec 4)
  stale    : Nat
  /-- Arriving DATA and COLL flits are discarded (R313). -/
  dropping : Bool
  /-- Keys of the ABORT flits seen: origin, ACOUNT, CTX, and when (R350). -/
  seen     : List (BitVec 24 × Nat × CtxId × Nat)
  colls    : List CollRun
  early    : List CollEarly
  deriving DecidableEq, Repr

/-! ## Configuration, start-up, power, sideband -/

/-- Grade (Table 1.9). -/
inductive Grade where
  | a | b | c
  deriving DecidableEq, Repr

/-- Values fixed at manufacture (R436, "fused"). -/
structure Fuses where
  grade      : Grade
  silicon    : BitVec 16
  serial     : W64
  romVer     : BitVec 16
  vendorHash : BitVec 512
  secret     : BitVec 256
  vendorCert : List Byte
  deriving DecidableEq, Repr

/-- The sections of the booted image (Table 16.8). -/
structure ImgCfg where
  alpha  : W32
  preset : List Nat
  x : Nat
  y : Nat
  z : Nat
  lx : Nat
  ly : Nat
  lz : Nat
  rx : Nat
  ry : Nat
  rz : Nat
  bx : Nat
  bY : Nat
  bz : Nat
  plimit : Nat
  ilimit : Nat
  slew   : Nat
  lead   : Nat
  qT1 : List Nat
  qT2 : List Nat
  qT3 : List Nat
  lend   : Nat
  lendBw : Nat
  t3Rate : Nat
  t3Lat  : Nat
  chmin  : List Nat
  rb     : Nat
  landDepth : Nat
  guard  : Nat
  shMothSp : Nat
  shCal  : Nat
  shMirror : Nat
  shMothHbm : Nat
  stallLimit : Nat
  mothHbm : Nat
  digestInterval : Nat
  lockEnable : Bool
  lockAxis : Nat
  ownerKey : List Byte
  deriving DecidableEq, Repr

/-- Where the module stands between power-on and READY: in stages 2 to 8 (`starting`), in stage 9 (`linking`), and after
(R484, R490). -/
inductive Phase where
  | off | starting | linking | ready | terminal
  deriving DecidableEq, Repr

/-- Start-up state (Configuration image and start-up). -/
structure Boot where
  phase    : Phase
  /-- The stage under way, what the outside supplies to the stages, and the slot whose image has passed (Table 16.11). -/
  stage    : Nat
  env      : Option BootEnv
  pick     : Option Bool
  bootfail : Byte
  imageCode : Byte
  slotB    : Bool
  imageVer : W32
  cosigned : Bool
  /-- Bytes 0 to SIGOFF - 1 of the booted slot, which attestation measures (R463). -/
  measured : List Byte
  cfg      : ImgCfg
  ownerK   : Option (List Byte)
  ownerP   : Option (List Byte)
  sealBroken : Bool
  jumper   : Bool
  /-- Counts at which stage 9 began and at which all ports were trained (R489). -/
  stage9   : Nat
  trainedAt : Option Nat
  /-- Count at which READY was reported last (Table 15.19). -/
  readyAt  : Nat
  /-- t_w(d) in ps of each switched domain (R360). -/
  tw       : List Nat
  deriving DecidableEq, Repr

/-- The global count (R328 to R331). -/
structure CountSt where
  count   : W64
  /-- The reference has been detected (R328). -/
  on      : Bool
  aligned : Bool
  /-- The neighbour the count is aligned to; none for a root aligned on its own. -/
  toPort  : Option PortId
  corr    : Int
  corrAt  : Nat
  /-- Ticks by which the count stands ahead of the neighbour that it is to be aligned to, still to be withheld (R328, R330). -/
  ahead   : Nat
  /-- Nanoseconds since the reference was detected, whatever alignment does to the count; and when the last measurement against
  a neighbour was made (R331). -/
  elapsed : Nat
  measAt  : Nat
  /-- GREF is absent and the count runs from the internal oscillator (R518). -/
  osc     : Bool
  deriving DecidableEq, Repr

/-- The presence window (R457). -/
structure Presence where
  isOpen  : Bool
  byJumper : Bool
  till : Nat
  deriving DecidableEq, Repr

/-- Checker test mode (R399): the region and the frame of its windows. -/
structure TestMode where
  region : RegionId
  frame  : Nat
  deriving DecidableEq, Repr

/-- One die's part of the governor (R496, R498, R506). -/
structure DiePower where
  work     : Nat
  ballast  : Nat
  withheld : Bool
  /-- A sensor of the die's ballast bank has reached 115 degrees: the bank takes no share (R507). -/
  hotBank  : Bool
  rail     : Nat
  slowed   : Bool
  /-- The THERMAL_SLOW entry of the die went unsent (R511). -/
  quiet    : Bool
  stepAt   : Option Nat
  deriving DecidableEq, Repr

/-- The governor and the power input (Power input, stored energy and domains). Currents in uA, voltages in mV. -/
structure Power where
  ienv     : Nat
  ienvAt   : Nat
  /-- Contexts whose launch level holds the target at L (R499 to R503). -/
  launch   : BitVec 4
  volts    : Nat
  dies     : Vector DiePower 4
  /-- Undervoltage: no beat tokens until the input returns above 46 V (R508). -/
  under    : Bool
  low      : Bool
  high     : Bool
  trip     : Option Nat
  /-- Throttling is under way (R504). -/
  throttled : Bool
  /-- Per POWER_LIMIT event 1 to 9: when its last message went, and whether its entry went unsent (R511). -/
  lastEvt  : Vector (Option Nat) 16
  unsent   : BitVec 16
  flags    : BitVec 16
  lastFlags : BitVec 16
  /-- Switched power domains that are on (R510): region groups, die fabrics with HBM controllers. -/
  fabricOn : Bool
  deriving DecidableEq, Repr

/-- The I3C target (R522, R523). -/
structure I3c where
  dyn    : Option (BitVec 7)
  straps : BitVec 2
  off    : Nat
  file   : List Byte
  reply  : List Byte
  deriving DecidableEq, Repr

/-- HBM and everything that describes its contents. -/
structure Hbm where
  mem   : Mem
  /-- By 64-byte code word: the stored metadata of every word whose metadata is not the valid encoding of its data
  (Table 13.3). -/
  mdata : Sparse (BitVec 32)
  resids : List Resid
  nextId : Nat
  lent  : List Lent
  mirrors : List MirrorPage
  /-- Per context of the Z- neighbour: the step of its mirror Cairn and whether its prior is intact. -/
  mirrorStep  : Vector W64 4
  mirrorPrior : Vector Bool 4
  /-- Per context: the Z+ neighbour has sent MIRROR_REBUILD, and so many bytes of the own versioned Cairn have been sent to
  its mirror; none when no rebuild is under way (R356). -/
  rebuild     : Vector (Option Nat) 4
  /-- Frames with an uncorrectable error since module reset (R391). -/
  damaged : List Nat
  /-- Code words to be written back, by address (R386). -/
  writeBacks : List Nat
  mothPos : Vector Nat 4
  /-- The T3 pool as this module has written it, and its 64-byte words to which a copy has carried poison (R389). -/
  pool  : Mem
  poolBad : List Nat
  deriving DecidableEq, Repr

/-- A RESTORE_FROM_BUDDY under way (R356): the buddy's step, the bytes of Cairn that have come from the
buddy and whether all have, and the bytes that the Z- neighbour's rebuild of the mirror here has still to write. -/
structure Restore where
  step  : W64
  got   : Nat
  own   : Bool
  left  : Nat
  deriving DecidableEq, Repr

/-- Why a step faults. The manual's module stops at no command: a job fault, HARD_FAULT or terminal failure is a state
the module goes on in. No constructor, so no step of this model faults. -/
inductive Fault where
  deriving DecidableEq, Repr

/-- Why a step is refused. -/
inductive Refusal where
  /-- Raised by the arm of a command that the model does not yet give its meaning; safe: nothing is claimed of it. -/
  | notModelled (mnemonic : String)
  deriving DecidableEq, Repr

/-- The state of the module. -/
structure State where
  /-- The commands that wait, first in, first out. -/
  pending : List Instr
  fuses   : Fuses
  boot    : Boot
  flash   : Flash
  cnt     : CountSt
  host    : HostIf
  ctxs    : Vector Ctx 4
  regions : Vector Region 64
  hbm     : Hbm
  ports   : Vector Port 6
  fab     : Fabric
  scree   : Scree
  hardFault : Bool
  /-- Contexts whose command waits for the page engine, with the count at which it reached it, in the order in which the engine
  takes them (R269). -/
  pageQ : List (Nat × CtxId)
  /-- Per context, the RESTORE_FROM_BUDDY under way (R356, R411). -/
  restoring : Vector (Option Restore) 4
  test    : Option TestMode
  debug   : Bool
  presence : Presence
  power   : Power
  i3c     : I3c
  /-- Host memory as the module has written it by DMA. -/
  hostMem : Mem
  /-- Lock-step records not yet matched: own and partner's (R429). -/
  ownRecs  : List PassRecord
  peerRecs : List PassRecord
  /-- Digest sets not yet compared (R425), and comparisons that await tile entries (R426). -/
  digestSets : List (CtxId × DigestSetRec)
  digestCmps : List DigestCmp
  /-- Direct-fed bytes per tier of the telemetry interval (R288). -/
  dfBytes : Vector Nat 3
  /-- MODEL: how many free values the run has drawn. -/
  freeCtr : Nat
  deriving DecidableEq, Repr

/-! ## Reset -/

/-- A SEC-DED store after initialisation: zeros with valid check bits (R485). -/
def Sram.zero : Sram := { mem := [], chk := [] }

def AccCell.zero : AccCell := { n := 0, pinf := false, ninf := false, nanf := false, rn := 0, dup := 0 }

def Bank.reset : Bank :=
  { phase := .free, cells := [], preloaded := false, preFlags := 0, run := none, heldAt := 0 }

def Replay.empty : Replay :=
  { sideA := none, sideB := none, who := none, planA := none, planB := none, bad := false }

def Cluster.reset : Cluster :=
  { passQ := [], banks := Vector.replicate 2 Bank.reset, nextBank := 0, cur := none, chain := none, heldSeq := 0,
    drained := [], tileQ := [], replay := Replay.empty, pstat := Vector.replicate 3 0, vq := [], vrun := none,
    vstat := Vector.replicate 3 0, borrowed := false }

def DebugSnap.zero : DebugSnap :=
  { pc := 0, x := Vector.replicate 32 0, p := 1, counter := 0, d := 0, retries := 0, sum := 0 }

/-- A stream before its first armed launch: not issuing, every register as Table 7.1 gives for a launch where it
gives zero, and zero otherwise (notes/assumptions/3). -/
def Stream.reset : Stream :=
  { running := false, pc := 0, pcOver := false, x := Vector.replicate 32 0, p := 1,
    td := Vector.replicate 32 0, mask := (Vector.replicate 16 0).set 0 (BitVec.allOnes 128),
    mp := Vector.replicate 16 0, aflags := 0, vflags := 0, sstat := 0, sres := 0, seg := none, sum := 0, nseg := 0,
    loadWait := 0, marked := false, ended := false, heldFrom := none, xs := 0, creditBeats := 0,
    snap := DebugSnap.zero }

def Budget.zero : Budget := { stepBeats := 0, lmax := 0, nseg := 0, hops := 0 }

def EvPend.none : EvPend := { set := Option.none, delta := 0, who := 0 }

def Channel.reset : Channel := { q := [], run := none, held := 0 }

def Window.reset : Window :=
  { issued := none, current := 0, src := 0, dst := 0, count := 0, filled := 0, deadline := 0, users := 0,
    late := false }

def Region.reset : Region :=
  { ctx := none, imem := Sram.zero, sdata := Sram.zero, sinit := [], entry := Vector.replicate 3 0,
    budget := Vector.replicate 3 Budget.zero, damaged := false, scratch := Sram.zero,
    ev := Vector.replicate 64 0, evPend := Vector.replicate 64 EvPend.none, admitted := [], landed := [], lastIssue := 2,
    streams := Vector.replicate 3 Stream.reset, clusters := Vector.replicate 4 Cluster.reset, mq := [],
    mrun := none, mfetched := [], masked := [], chans := Vector.replicate 12 Channel.reset,
    wins := Vector.replicate 8 Window.reset, dprefs := 0, collIssued := Vector.replicate 4 0,
    collStarted := Vector.replicate 4 0, tcache := [], mothPos := 0, writeBacks := [], tadm := none, beatNo := 0, slices := [], behind := 0,
    lateFills := 0 }

def Ctx.reset : Ctx :=
  { opened := false, fresh := true, js := 0, ds := 0, pages := [], tables := [], tabs := [], cairnStep := 0,
    priorValid := false, launch := none, lastPromise := 0, halt := none, waits := [], dmap := [], darea := 0, tiles := [] }

def Scree.reset : Scree := { slots := List.replicate 128 none, next := 0, lost := 0, windows := [] }

def Ring.reset : Ring :=
  { tail := 0, head := 0, slots := [], mrbase := 0, mrsize := 0, en := false, vec := 0, mrhead := 0, mrtail := 0,
    mdrop := 0, k := 0, msgs := [], cmds := [], lend := none }

/-- The PCI function at power-on: D0, no address assigned, every vector masked, no decoder committed (notes/assumptions/77). -/
def Pci.reset : Pci :=
  { dstate := 0, bars := Vector.replicate 3 0, msixOn := false,
    msixTbl := Vector.replicate 8 { addr := 0, data := 0, masked := true }, hdmOn := false, hdmBase := 0, hdmSize := 0 }

def HostIf.reset : HostIf :=
  { trained := false, pci := Pci.reset, tlmbase := 0, msimod := 0, latch := 0, dbOverrun := false, hdmDenied := false,
    nestedSeen := false, uncorrSeen := false, rings := Vector.replicate 4 Ring.reset,
    msix := Vector.replicate 8 { due := false, last := none, sent := 0 }, rdata := 0, cxlData := [],
    cxlPoison := false, tseq := 0, tlmStart := 0 }

/-- A port's credits at first: the receive buffers of Table 10.3. -/
def Port.fullCredits : Vector Nat 8 := #v[1024, 1024, 1024, 1024, 1024, 5120, 2048, 256]

def Port.reset : Port :=
  { powered := false, state := 0, pv := false, px := 0, py := 0, pz := 0, pport := 0,
    txq := Vector.replicate 8 [], credits := Port.fullCredits, seq := 0, unacked := [], rxNext := 0,
    rxDrop := false, held := Vector.replicate 8 [], isOpen := Vector.replicate 8 false,
    toReturn := Vector.replicate 8 0, replays := 0, creditWait := Vector.replicate 8 0, gather := [], steps := [] }

def Fabric.reset : Fabric :=
  { txns := [], waiting := [], bridges := Vector.replicate 4 (Vector.replicate 4 Port.reset), gens := [], stale := 0,
    dropping := false, seen := [], colls := [], early := [] }

/-- The defaults of Table 16.8, with the single-module torus for the fields that have none (notes/assumptions/5). -/
def ImgCfg.default : ImgCfg :=
  { alpha := 0x3A9D4952, preset := [5, 5, 5, 5, 5, 5], x := 0, y := 0, z := 0, lx := 1, ly := 1, lz := 1,
    rx := 0, ry := 0, rz := 0, bx := 0xFF, bY := 0xFF, bz := 0xFF, plimit := 8000, ilimit := 180, slew := 40,
    lead := 20, qT1 := [0, 0, 0, 0], qT2 := [0, 0, 0, 0], qT3 := [0, 0, 0, 0], lend := 0, lendBw := 4,
    t3Rate := 56, t3Lat := 4000, chmin := [8, 8, 8, 8, 8, 8, 8, 8, 8, 8, 8, 8], rb := 4, landDepth := 2,
    guard := 4, shMothSp := 1, shCal := 2, shMirror := 16, shMothHbm := 2, stallLimit := 10000, mothHbm := 24,
    digestInterval := 1, lockEnable := false, lockAxis := 0, ownerKey := List.replicate 57 0 }

def Boot.reset : Boot :=
  { phase := .off, stage := 0, env := none, pick := none, bootfail := 0, imageCode := 0, slotB := false, imageVer := 0,
    cosigned := false, measured := [], cfg := ImgCfg.default, ownerK := none, ownerP := none, sealBroken := false, jumper := false, stage9 := 0,
    trainedAt := none, readyAt := 0, tw := [] }

/-- The configuration memory as shipped: fitted and unprogrammed (R470), every byte erased (notes/assumptions/6: the
main array lists nothing and its unlisted bytes are read as 0xFF). -/
def flashErased : Flash := { main := [], sec := List.replicate 4 (List.replicate 1024 0xFF) }

def CountSt.reset : CountSt :=
  { count := 0, on := false, aligned := false, toPort := none, corr := 0, corrAt := 0, ahead := 0, elapsed := 0, measAt := 0,
    osc := false }

def DiePower.reset : DiePower :=
  { work := 0, ballast := 0, withheld := false, hotBank := false, rail := 750, slowed := false, quiet := false, stepAt := none }

def Power.reset : Power :=
  { ienv := 0, ienvAt := 0, launch := 0, volts := 0, dies := Vector.replicate 4 DiePower.reset, under := false,
    low := false, high := false, trip := none, throttled := false, lastEvt := Vector.replicate 16 none, unsent := 0, flags := 0,
    lastFlags := 0, fabricOn := false }

def Hbm.reset : Hbm :=
  { mem := [], mdata := [], resids := [], nextId := 0, lent := [], mirrors := [],
    mirrorStep := Vector.replicate 4 0, mirrorPrior := Vector.replicate 4 false, rebuild := Vector.replicate 4 none,
    damaged := [],
    writeBacks := [], mothPos := Vector.replicate 4 0, pool := [], poolBad := [] }

/-- The fused values: grade A (R2), and the constants of Config for the rest (notes/assumptions/4). -/
def Fuses.reset : Fuses :=
  { grade := .a, silicon := Config.silicon, serial := Config.serial, romVer := Config.romVer,
    vendorHash := Config.vendorHash, secret := Config.secret, vendorCert := Config.vendorCert }

/-- The module before its input first rises above 46 V: nothing powered, no value held (R509). -/
def State.reset : State :=
  { pending := [], fuses := Fuses.reset, boot := Boot.reset, flash := flashErased,
    cnt := CountSt.reset,
    host := HostIf.reset, ctxs := Vector.replicate 4 Ctx.reset, regions := Vector.replicate 64 Region.reset,
    hbm := Hbm.reset, ports := Vector.replicate 6 Port.reset, fab := Fabric.reset, scree := Scree.reset,
    hardFault := false, pageQ := [], restoring := Vector.replicate 4 none, test := none, debug := false,
    presence := { isOpen := false, byJumper := false, till := 0 }, power := Power.reset,
    i3c := { dyn := none, straps := 0, off := 0, file := List.replicate 64 0, reply := [] }, hostMem := [],
    ownRecs := [], peerRecs := [], digestSets := [], digestCmps := [], dfBytes := Vector.replicate 3 0, freeCtr := 0 }

end Sys2Proof.Machine
end

