-- ==== Sys2Proof/Machine/Ops.lean ====
section
/-! DEFINITION. The named operations over memories, bytes, registers and the parts of the state. Byte order, the
hard-wired registers and the gathering of event-counter changes are decided here, once. -/

namespace Sys2Proof.Machine

/-! ## Sparse stores -/

/-- What key `k` holds; `d` for a key not listed. -/
def spGet {α : Type} (d : α) : Sparse α → Nat → α
  | [], _ => d
  | (a, v) :: rest, k => if a = k then v else spGet d rest k

/-- Store `x` under key `k` in the canonical form: keys rising, no entry that holds the default. -/
def spPut {α : Type} [DecidableEq α] (d : α) : Sparse α → Nat → α → Sparse α
  | [], k, x => if x = d then [] else [(k, x)]
  | (a, v) :: rest, k, x =>
    if k < a then (if x = d then (a, v) :: rest else (k, x) :: (a, v) :: rest)
    else if k = a then (if x = d then rest else (k, x) :: rest)
    else (a, v) :: spPut d rest k x

/-- The canonical form from key `lo` on: keys at least `lo` and strictly rising, no entry that holds the default. -/
def spWfFrom {α : Type} [DecidableEq α] (d : α) : Nat → Sparse α → Bool
  | _, [] => true
  | lo, (a, v) :: rest => decide (lo ≤ a) && decide (v ≠ d) && spWfFrom d (a + 1) rest

/-- The canonical form of a sparse store. -/
def spWf {α : Type} [DecidableEq α] (d : α) (l : Sparse α) : Bool := spWfFrom d 0 l

/-- Remove every key from `lo` up to but not including `hi`. -/
def spClear {α : Type} (l : Sparse α) (lo hi : Nat) : Sparse α :=
  l.filter fun e => e.1 < lo || hi ≤ e.1

/-! ## Overrides: lists in which presence counts, keys rising -/

/-- The entry listed under `k`, if any. -/
def ovGet {α : Type} : Sparse α → Nat → Option α
  | [], _ => none
  | (a, v) :: rest, k => if a = k then some v else ovGet rest k

/-- List `x` under `k`. -/
def ovPut {α : Type} : Sparse α → Nat → α → Sparse α
  | [], k, x => [(k, x)]
  | (a, v) :: rest, k, x =>
    if k < a then (k, x) :: (a, v) :: rest
    else if k = a then (k, x) :: rest
    else (a, v) :: ovPut rest k x

/-- List nothing under `k`. -/
def ovDel {α : Type} (l : Sparse α) (k : Nat) : Sparse α := l.filter fun e => e.1 != k

/-- Keys at least `lo` and strictly rising. -/
def ovWfFrom {α : Type} : Nat → Sparse α → Bool
  | _, [] => true
  | lo, (a, _) :: rest => decide (lo ≤ a) && ovWfFrom (a + 1) rest

/-! ## Byte memories -/

/-- A memory is in canonical form (keys rising, no zero byte listed). -/
def Mem.wf (m : Mem) : Bool := spWf (0 : Byte) m

def memGet (m : Mem) (a : Nat) : Byte := spGet (0 : Byte) m a

def memPut (m : Mem) (a : Nat) (b : Byte) : Mem := spPut (0 : Byte) m a b

/-- The `n` bytes from `a` upward. -/
def memBytes (m : Mem) (a : Nat) : Nat → List Byte
  | 0 => []
  | n + 1 => memGet m a :: memBytes m (a + 1) n

/-- Write bytes from `a` upward. -/
def memPutBytes (m : Mem) (a : Nat) : List Byte → Mem
  | [] => m
  | b :: bs => memPutBytes (memPut m a b) (a + 1) bs

/-- The number a little-endian byte string stands for (R4). -/
def leNat : List Byte → Nat
  | [] => 0
  | b :: bs => b.toNat + 256 * leNat bs

/-- The `n` little-endian bytes of a number (R4). -/
def leBytes : Nat → Nat → List Byte
  | 0, _ => []
  | n + 1, v => BitVec.ofNat 8 v :: leBytes n (v / 256)

/-- The little-endian number in `n` bytes from `a`. -/
def memNat (m : Mem) (a n : Nat) : Nat := leNat (memBytes m a n)

/-- `n` bytes of a byte string from offset `a`; bytes beyond its end read as zero. -/
def sliceBytes (l : List Byte) (a n : Nat) : List Byte :=
  let t := (l.drop a).take n
  t ++ List.replicate (n - t.length) 0

/-- The little-endian number in `n` bytes of a byte string from offset `a`. -/
def sliceNat (l : List Byte) (a n : Nat) : Nat := leNat (sliceBytes l a n)

/-- Pad with zeros or cut to `n` bytes. -/
def padTo (n : Nat) (l : List Byte) : List Byte := sliceBytes l 0 n

/-- A memory holding `l` from address 0. -/
def memOfBytes (l : List Byte) : Mem := memPutBytes [] 0 l

/-- The bytes below `n` of a memory, moved from `src` to `dst`: an exact copy of `n` bytes, listed or not. -/
def memCopy (m : Mem) (src dst n : Nat) : Mem :=
  let part := (m.filter fun e => src ≤ e.1 && e.1 < src + n).map fun e => (e.1 - src + dst, e.2)
  part.foldl (fun acc e => memPut acc e.1 e.2) (spClear m dst (dst + n))

/-- Zero the `n` bytes from `a`. -/
def memZero (m : Mem) (a n : Nat) : Mem := spClear m a (a + n)

/-! ## Fields of bit vectors -/

/-- Bits [h:l] as a number (R3). -/
def fieldNat {w : Nat} (v : BitVec w) (h l : Nat) : Nat := (v.extractLsb h l).toNat

/-- `v` with bits [l+n-1 : l] replaced by the low `n` bits of `x`. -/
def setField {w : Nat} (v : BitVec w) (l n : Nat) (x : BitVec w) : BitVec w :=
  let msk : BitVec w := BitVec.ofNat w (2 ^ n - 1)
  (v &&& ~~~(msk <<< l)) ||| ((x &&& msk) <<< l)

/-- Saturating count in `w` bits. -/
def satCount (w n : Nat) : BitVec w := if n < 2 ^ w then BitVec.ofNat w n else BitVec.allOnes w

/-- Quotient rounded up. -/
def ceilDiv (a b : Nat) : Nat := (a + b - 1) / b

/-! ## Parts of the state -/

def updRegion (s : State) (g : RegionId) (f : Region → Region) : State :=
  { s with regions := s.regions.set g (f s.regions[g]) }

def updStream (r : Region) (i : StreamId) (f : Stream → Stream) : Region :=
  { r with streams := r.streams.set i (f r.streams[i]) }

def updCluster (r : Region) (c : ClusterId) (f : Cluster → Cluster) : Region :=
  { r with clusters := r.clusters.set c (f r.clusters[c]) }

def updChan (r : Region) (k : ChanId) (f : Channel → Channel) : Region :=
  { r with chans := r.chans.set k (f r.chans[k]) }

def updBank (c : Cluster) (b : Fin 2) (f : Bank → Bank) : Cluster :=
  { c with banks := c.banks.set b (f c.banks[b]) }

def updCtx (s : State) (c : CtxId) (f : Ctx → Ctx) : State :=
  { s with ctxs := s.ctxs.set c (f s.ctxs[c]) }

def updRing (s : State) (c : CtxId) (f : Ring → Ring) : State :=
  { s with host := { s.host with rings := s.host.rings.set c (f s.host.rings[c]) } }

def updPort (s : State) (p : PortId) (f : Port → Port) : State :=
  { s with ports := s.ports.set p (f s.ports[p]) }

/-- The sending end of a link, with the receiving end of a bridge. -/
def endOf (s : State) : Link → Port
  | .port p => s.ports[p]
  | .bridge a b => s.fab.bridges[a][b]

def updEnd (s : State) (l : Link) (f : Port → Port) : State :=
  match l with
  | .port p => updPort s p f
  | .bridge a b => { s with fab := { s.fab with bridges := s.fab.bridges.set a (s.fab.bridges[a].set b (f s.fab.bridges[a][b])) } }

def updHbm (s : State) (f : Hbm → Hbm) : State := { s with hbm := f s.hbm }

def updFab (s : State) (f : Fabric → Fabric) : State := { s with fab := f s.fab }

/-! ## Registers -/

/-- A scalar register; x0 reads as zero (R199). -/
def xRead (st : Stream) (r : BitVec 5) : W64 := if r = 0 then 0 else st.x[r.toFin]

/-- Write a scalar register; a write to x0 is ignored (R199). -/
def xWrite (st : Stream) (r : BitVec 5) (v : W64) : Stream :=
  if r = 0 then st else { st with x := st.x.set r.toFin v }

/-- A predicate; p0 reads as 1 (R199). -/
def pRead (st : Stream) (r : BitVec 3) : Bool := r == 0 || st.p.getLsbD r.toNat

/-- Write a predicate; a write to p0 is ignored (R199). -/
def pWrite (st : Stream) (r : BitVec 3) (v : Bool) : Stream :=
  if r = 0 then st
  else { st with p := if v then st.p ||| ((1 : BitVec 8) <<< r.toNat) else st.p &&& ~~~((1 : BitVec 8) <<< r.toNat) }

/-- A mask register; M0 reads as all ones (R113). -/
def mRead (st : Stream) (r : BitVec 4) : BitVec 128 := if r = 0 then BitVec.allOnes 128 else st.mask[r.toFin]

/-- Write a mask register; a write to M0 is ignored (R113). -/
def mWrite (st : Stream) (r : BitVec 4) (v : BitVec 128) : Stream :=
  if r = 0 then st else { st with mask := st.mask.set r.toFin v }

def tdRead (st : Stream) (r : BitVec 5) : BitVec 256 := st.td[r.toFin]

/-- Write a tensor descriptor; the reserved bits [54:52] stay zero (R236). -/
def tdWrite (st : Stream) (r : BitVec 5) (v : BitVec 256) : Stream :=
  { st with td := st.td.set r.toFin (v &&& ~~~((7 : BitVec 256) <<< 52)) }

/-- The predicate field of a slot or branch (Table 7.5). -/
def predHolds (st : Stream) (code : BitVec 4) : Bool :=
  let v := pRead st (code.extractLsb' 0 3)
  if code.getLsbD 3 then !v else v

/-! ## Event counters -/

/-- Note which stream made a change (Table 13.6, STREAM); bit 3 stands for a change by no stream. -/
def streamBit : Option StreamId → BitVec 4
  | some i => (1 : BitVec 4) <<< i.val
  | none => 8

/-- Add `d` to counter `e` at the end of the beat (R209). -/
def evAdd (r : Region) (e : Fin 64) (d : Int) (who : Option StreamId) : Region :=
  let p := r.evPend[e]
  { r with evPend := r.evPend.set e { p with delta := p.delta + d, who := p.who ||| streamBit who } }

/-- Set counter `e` at the end of the beat; the beat's other changes add to the value set (R209). -/
def evSet (r : Region) (e : Fin 64) (v : BitVec 16) (who : Option StreamId) : Region :=
  let p := r.evPend[e]
  { r with evPend := r.evPend.set e { p with set := some v, who := p.who ||| streamBit who } }

/-- Signal an event on behalf of a completed operation (R207). -/
def evSignal (r : Region) (sig : Option (Fin 64)) (i : StreamId) : Region :=
  match sig with
  | some e => evAdd r e 1 (some i)
  | none => r

/-- The net value of a counter at the end of its beat, before the range test (R206, R209). -/
def evNet (ev : BitVec 16) (p : EvPend) : Int :=
  (match p.set with
   | some v => (v.toNat : Int)
   | none => (ev.toNat : Int)) + p.delta

/-- The first counter whose net value leaves 0 to 0xFFFF, if any (R206). -/
def evOverflow (r : Region) : Option (Fin 64) :=
  (List.finRange 64).find? fun e => decide (evNet r.ev[e] r.evPend[e] < 0 ∨ 0xFFFF < evNet r.ev[e] r.evPend[e])

/-- End a beat: every counter takes its net value and the gathered changes are spent (R209). -/
def evEndBeat (r : Region) : Region :=
  { r with ev := Vector.ofFn fun e => BitVec.ofInt 16 (evNet r.ev[e] r.evPend[e]),
           evPend := Vector.replicate 64 EvPend.none, landed := [] }

/-! ## Module-wide values -/

/-- Enabled regions (Table 1.9). -/
def nreg (s : State) : Nat :=
  match s.fuses.grade with
  | .a => 64
  | .b => 60
  | .c => 56

/-- The region index is one of the enabled regions. -/
def enabled (s : State) (g : RegionId) : Bool := decide (g.val < nreg s)

/-- The die of a logical region (R37). -/
def dieOf (s : State) (g : RegionId) : Nat := g.val / (nreg s / 4)

/-- The governor of a region's die issues beat tokens: it withholds them while its work would exceed its share (R498), and
gives none while the input is under voltage (R508). -/
def beatToken (s : State) (g : RegionId) : Bool :=
  !s.power.under && (if h : dieOf s g < 4 then !s.power.dies[dieOf s g].withheld else true)

/-- The module has power (R509) and is past start-up's early stages. -/
def running (s : State) : Bool :=
  s.boot.phase == .ready || s.boot.phase == .linking

/-- READY in STATUS (Table 15.5): the module is READY and not in HARD_FAULT (R412). -/
def isReady (s : State) : Bool := s.boot.phase == .ready && !s.hardFault

/-- The global count as a number. -/
def now (s : State) : Nat := s.cnt.count.toNat

/-- Nanoseconds since the reference was detected: what durations are measured in while alignment may still set the count. -/
def elapsed (s : State) : Nat := s.cnt.elapsed

/-- The stall limit of the TIMING section in ns (Table 12.2). -/
def stallNs (s : State) : Nat := s.boot.cfg.stallLimit * 1000000

/-- Torus diameter D in hops (The module in six levels). -/
def diameter (c : ImgCfg) : Nat := c.lx / 2 + c.ly / 2 + c.lz / 2

/-- A context is busy: from the acceptance of an ARM_LAUNCH until every stream has ended its step for good, or until
a halt (Migration). -/
def busy (s : State) (c : CtxId) : Bool := s.ctxs[c].launch.isSome

def anyBusy (s : State) : Bool := (List.finRange 4).any fun c => busy s c

/-- Regions that LOAD_PROGRAM assigned to context `c`. -/
def regionsOf (s : State) (c : CtxId) : List RegionId :=
  (List.finRange 64).filter fun g => s.regions[g].ctx == some c

/-- The step number running in a context, if any. -/
def curStep (s : State) (c : CtxId) : Option Nat :=
  match s.ctxs[c].launch with
  | some l => if l.started then some l.step else none
  | none => none

/-- The step of the context a region runs in; zero when none runs. -/
def regionStep (s : State) (g : RegionId) : W64 :=
  match s.regions[g].ctx with
  | some c => BitVec.ofNat 64 ((curStep s c).getD 0)
  | none => 0

end Sys2Proof.Machine
end

