-- ==== Sys2Proof/Machine/Crypto.lean ====
section
/-! DEFINITION. The standard functions the module computes: the Velelaba counter generator (R417), multiplication in
GF(2^128) (R420), CRC-32 (R297), SHAKE256 (FIPS 202) and Ed448 (RFC 8032). -/

namespace Sys2Proof.Machine

/-! ## Counter generator -/

/-- qr() of R417. -/
def vcgQr (x : W32 × W32 × W32 × W32) : W32 × W32 × W32 × W32 :=
  let (a, b, c, d) := x
  let a := a + b
  let d := (d ^^^ a).rotateLeft 16
  let c := c + d
  let b := (b ^^^ c).rotateLeft 12
  let a := a + b
  let d := (d ^^^ a).rotateLeft 8
  let c := c + d
  let b := (b ^^^ c).rotateLeft 7
  (a, b, c, d)

/-- vcg() of R417. -/
def vcg (seed : BitVec 128) (step : Nat) (stream : StreamId) (tid : BitVec 16) (idx : Nat) : W32 :=
  let k0 := seed.extractLsb' 0 32
  let k1 := seed.extractLsb' 32 32
  let k2 := seed.extractLsb' 64 32
  let k3 := seed.extractLsb' 96 32
  let t : W32 := (BitVec.ofNat 32 stream.val <<< 16) ||| tid.setWidth 32
  let k4 := 0x4C957F2D ^^^ k0 ^^^ k1 ^^^ k2 ^^^ k3 ^^^ t
  let i := BitVec.ofNat 64 idx
  let s := BitVec.ofNat 64 step
  let x := (i.extractLsb' 0 32 + k0, i.extractLsb' 32 32 + k1, s.extractLsb' 0 32 + k2, s.extractLsb' 32 32 + k3)
  let (a, b, c, d) := vcgQr (vcgQr x)
  let (a, _, _, _) := vcgQr (vcgQr (a + k1, b + k2, c + k3, d + k4 + 1))
  a + k2

/-! ## GF(2^128) -/

def gfMulFrom : Nat → Nat → BitVec 128 → BitVec 128 → BitVec 128 → BitVec 128
  | 0, _, _, _, p => p
  | n + 1, i, a, b, p =>
    let p := if b.getLsbD i then p ^^^ a else p
    let a' := if a.getLsbD 127 then (a <<< 1) ^^^ 0x87 else a <<< 1
    gfMulFrom n (i + 1) a' b p

/-- gf_mul() of R420. -/
def gfMul (a b : BitVec 128) : BitVec 128 := gfMulFrom 128 0 a b 0

def gfPowFrom : Nat → BitVec 128 → Nat → BitVec 128 → BitVec 128
  | 0, _, _, acc => acc
  | k + 1, h, n, acc => gfPowFrom k (gfMul h h) (n / 2) (if n % 2 = 1 then gfMul acc h else acc)

/-- H^n in GF(2^128), for n below 2^64. -/
def gfPow (h : BitVec 128) (n : Nat) : BitVec 128 := gfPowFrom 64 h n 1

/-! ## CRC-32 -/

def crcBits : Nat → W32 → W32
  | 0, c => c
  | n + 1, c => crcBits n (if c.getLsbD 0 then (c >>> 1) ^^^ 0xEDB88320 else c >>> 1)

/-- CRC-32 of R297 over bytes in ascending order. -/
def crc32 (l : List Byte) : W32 :=
  ~~~(l.foldl (fun c b => crcBits 8 (c ^^^ b.setWidth 32)) 0xFFFFFFFF)

/-! ## SHAKE256 -/

/-- The 5 x 5 lanes of Keccak-p[1600], lane x + 5y in place x + 5y. -/
abbrev Lanes := List W64

/-- One clock of the bit generator of iota: x^8 + x^6 + x^5 + x^4 + 1, first bit lowest. -/
def iotaClock (r : Byte) : Byte := if r.getLsbD 7 then (r <<< 1) ^^^ 0x71 else r <<< 1

/-- The next seven bits of the generator, bit `j` of them in place 2^j - 1 of a lane, and the generator after them. -/
def iotaLane (r : Byte) : W64 × Byte :=
  (List.range 7).foldl (fun e j => (if e.2.getLsbD 0 then e.1 ||| (1 <<< (2 ^ j - 1)) else e.1, iotaClock e.2)) (0, r)

/-- theta: every lane takes up the parity of the column before it and, rotated by one, of the column after it. -/
def keccakTheta (a : Lanes) : Lanes :=
  let column (x : Nat) : W64 := (List.range 5).foldl (fun p y => p ^^^ a.getD (x % 5 + 5 * y) 0) 0
  a.zipIdx.map fun e => e.1 ^^^ column (e.2 + 4) ^^^ (column (e.2 + 1)).rotateLeft 1

/-- rho and pi together: along the walk that pi makes of the lanes other than lane 0, from place (x, y) to place (y, 2x + 3y),
the lane left in its `t`-th step arrives rotated by (t + 1)(t + 2) / 2. -/
def keccakWalk (a : Lanes) : Nat → Nat → Nat → Lanes → Lanes
  | 0, _, _, out => out
  | n + 1, x, y, out =>
    let to' := (y, (2 * x + 3 * y) % 5)
    keccakWalk a n to'.1 to'.2
      (out.set (to'.1 + 5 * to'.2) ((a.getD (x + 5 * y) 0).rotateLeft ((24 - n) * (25 - n) / 2 % 64)))

/-- chi: within a plane, a lane takes up the next but one where the next is clear. -/
def keccakChi (a : Lanes) : Lanes :=
  a.zipIdx.map fun e =>
    let plane := 5 * (e.2 / 5)
    e.1 ^^^ (a.getD (plane + (e.2 + 2) % 5) 0 &&& ~~~a.getD (plane + (e.2 + 1) % 5) 0)

/-- `n` rounds, with the generator of iota running through them. -/
def keccakRounds : Nat → Byte → Lanes → Lanes
  | 0, _, a => a
  | n + 1, r, a =>
    let t := keccakTheta a
    let c := keccakChi (keccakWalk t 24 1 0 t)
    let i := iotaLane r
    keccakRounds n i.2 (c.modify 0 (· ^^^ i.1))

/-- Keccak-f[1600]: 24 rounds. -/
def keccakF (a : Lanes) : Lanes := keccakRounds 24 1 a

def lanesXor (a : Lanes) (blk : List Byte) : Lanes :=
  (List.range 25).map fun i => a.getD i 0 ^^^ BitVec.ofNat 64 (leNat ((blk.drop (8 * i)).take 8))

def shakeAbsorb : Nat → Lanes → List Byte → Lanes
  | 0, a, _ => a
  | n + 1, a, l => shakeAbsorb n (keccakF (lanesXor a (l.take 136))) (l.drop 136)

def shakeSqueeze : Nat → Lanes → List Byte
  | 0, _ => []
  | n + 1, a => ((a.take 17).flatMap fun w => leBytes 8 w.toNat) ++ shakeSqueeze n (keccakF a)

/-- The first `n` bytes of SHAKE256 over a byte string. -/
def shake256 (l : List Byte) (n : Nat) : List Byte :=
  let blocks := l.length / 136 + 1
  let padLen := 136 * blocks - l.length
  let pad : List Byte := if padLen = 1 then [0x9F] else 0x1F :: (List.replicate (padLen - 2) 0 ++ [0x80])
  (shakeSqueeze (ceilDiv n 136) (shakeAbsorb blocks (List.replicate 25 0) (l ++ pad))).take n

/-- The bytes of an ASCII string. -/
def ascii (s : String) : List Byte := s.toList.map fun c => BitVec.ofNat 8 c.toNat

/-! ## Ed448 -/

def edP : Nat := 2 ^ 448 - 2 ^ 224 - 1
def edD : Nat := edP - 39081
def edL : Nat := 2 ^ 446 - 13818066809895115352007386748515426880336692474882178609894547503885
def edBx : Nat :=
  224580040295924300187604334099896036246789641632564134246125461686950415467406032909029192869357953282578032075146446173674602635247710
def edBy : Nat :=
  298819210078481492676017930443930673437544040154080242095928241372331506189835876003536878655418784733982303233503462500531545062832660

/-- A point in projective coordinates. -/
structure EdPoint where
  x : Nat
  y : Nat
  z : Nat
  deriving DecidableEq, Repr

def edBase : EdPoint := { x := edBx, y := edBy, z := 1 }
def edZero : EdPoint := { x := 0, y := 1, z := 1 }

def subMod (a b : Nat) : Nat := (a + edP - b % edP) % edP

def edAdd (p q : EdPoint) : EdPoint :=
  let a := p.z * q.z % edP
  let b := a * a % edP
  let c := p.x * q.x % edP
  let d := p.y * q.y % edP
  let e := edD * (c * d % edP) % edP
  let f := subMod b e
  let g := (b + e) % edP
  let h := (p.x + p.y) * (q.x + q.y) % edP
  { x := a * f % edP * (subMod (subMod h c) d) % edP,
    y := a * g % edP * (subMod d c) % edP,
    z := f * g % edP }

def edMulFrom : Nat → Nat → EdPoint → EdPoint → EdPoint
  | 0, _, _, acc => acc
  | k + 1, n, p, acc => edMulFrom k (n / 2) (edAdd p p) (if n % 2 = 1 then edAdd acc p else acc)

/-- [n]P for n below 2^456. -/
def edMul (n : Nat) (p : EdPoint) : EdPoint := edMulFrom 456 n p edZero

def powModFrom : Nat → Nat → Nat → Nat → Nat
  | 0, _, _, acc => acc
  | k + 1, b, n, acc => powModFrom k (b * b % edP) (n / 2) (if n % 2 = 1 then acc * b % edP else acc)

def powMod (b n : Nat) : Nat := powModFrom 448 (b % edP) n 1

def edEncode (p : EdPoint) : List Byte :=
  let zi := powMod p.z (edP - 2)
  let x := p.x * zi % edP
  let y := p.y * zi % edP
  leBytes 57 (y + (x % 2) * 2 ^ 455)

/-- Decoding of RFC 8032, 5.2.3; none for a string that is no point. -/
def edDecode (l : List Byte) : Option EdPoint :=
  let n := leNat l
  let sgn := n / 2 ^ 455 % 2
  let y := n % 2 ^ 455
  if l.length ≠ 57 || decide (edP ≤ y) then none
  else
    let u := subMod (y * y % edP) 1
    let v := subMod (edD * (y * y % edP) % edP) 1
    let u3v := u * u % edP * u % edP * v % edP
    let u5v3 := u3v * (u * u % edP) % edP * (v * v % edP) % edP
    let x := u3v * powMod u5v3 ((edP - 3) / 4) % edP
    if v * (x * x % edP) % edP ≠ u then none
    else if x = 0 ∧ sgn = 1 then none
    else some { x := if x % 2 = sgn then x else edP - x, y := y, z := 1 }

def edEqual (p q : EdPoint) : Bool :=
  decide (p.x * q.z % edP = q.x * p.z % edP) && decide (p.y * q.z % edP = q.y * p.z % edP)

/-- dom4(0, context) of RFC 8032. -/
def edDom (context : List Byte) : List Byte :=
  ascii "SigEd448" ++ [0, BitVec.ofNat 8 context.length] ++ context

/-- The secret scalar and the prefix of a private key. -/
def edExpand (key : List Byte) : Nat × List Byte :=
  let h := shake256 key 114
  let n := leNat (h.take 57)
  ((n % 2 ^ 447 / 4 * 4) ||| 2 ^ 447, h.drop 57)

/-- The public key of a private key. -/
def edPublic (key : List Byte) : List Byte := edEncode (edMul (edExpand key).1 edBase)

/-- Ed448 signature without prehashing, with a context string. -/
def edSign (key context msg : List Byte) : List Byte :=
  let (s, prefixB) := edExpand key
  let a := edEncode (edMul s edBase)
  let r := leNat (shake256 (edDom context ++ prefixB ++ msg) 114) % edL
  let rb := edEncode (edMul r edBase)
  let k := leNat (shake256 (edDom context ++ rb ++ a ++ msg) 114) % edL
  rb ++ leBytes 57 ((r + k * s) % edL)

/-- Ed448 verification by the group equation [4][S]B = [4]R + [4][k]A of RFC 8032, 5.2.7. -/
def edVerify (pub context msg sig : List Byte) : Bool :=
  match edDecode pub, edDecode (sig.take 57) with
  | some a, some r =>
    let s := leNat (sig.drop 57)
    let k := leNat (shake256 (edDom context ++ sig.take 57 ++ pub ++ msg) 114) % edL
    decide (sig.length = 114) && decide (s < edL) &&
      edEqual (edMul 4 (edMul s edBase)) (edAdd (edMul 4 r) (edMul 4 (edMul k a)))
  | _, _ => false

end Sys2Proof.Machine
end

