-- ==== Sys2Proof/Machine/Flags.lean ====
section
/-! DEFINITION. The flag and status computations: AFLAGS (Table 2.5) and the layouts of PSTAT (Table 3.5), VSTAT
(Table 4.10) and SSTAT (Table 6.8). -/

namespace Sys2Proof.Machine

/-- The flags of Table 2.5, as bits [6:0] of AFLAGS. -/
abbrev AF := BitVec 7

def afPreInexact : AF := 0x01
def afPreSat : AF := 0x02
def afAccSat : AF := 0x04
def afCvtOvf : AF := 0x08
def afCvtSat : AF := 0x10
def afG16Rescale : AF := 0x20
def afG16Sat : AF := 0x40

/-- OR flags into AFLAGS of a stream (R71). -/
def raiseAflags (st : Stream) (f : AF) : Stream :=
  { st with aflags := st.aflags ||| f.setWidth 32 }

/-- Write of 1s to a register of W1C bits below `n`: those bits clear, every other bit stays (Table 0.2). -/
def w1c {w : Nat} (v mask : BitVec w) (x : BitVec w) : BitVec w := v &&& ~~~(mask &&& x)

/-- The next SEQ of a status register whose last value is `old`, its SEQ in [63:48]. -/
def nextSeq (old : W64) : BitVec 16 := old.extractLsb' 48 16 + 1

/-- PSTAT of Table 3.5. -/
def pstatWord (seq : BitVec 16) (nonfin retries dfSteps : Nat) (f : AF) : W64 :=
  seq ++ satCount 16 nonfin ++ satCount 4 retries ++ satCount 20 dfSteps ++ (0 : BitVec 3) ++ f.extractLsb' 0 5

/-- VSTAT flags of Table 4.10, bits [6:0]. -/
def vfWriteAlias : BitVec 7 := 0x01
def vfOor : BitVec 7 := 0x02
def vfEmpty : BitVec 7 := 0x04
def vfRowNan : BitVec 7 := 0x08
def vfRowInf : BitVec 7 := 0x10
def vfTopkShort : BitVec 7 := 0x20
def vfCmprsTrunc : BitVec 7 := 0x40

/-- VSTAT of Table 4.10: OOR_SEEN and EMPTY_SEEN stand for their counts. -/
def vstatWord (seq : BitVec 16) (oor empty : Nat) (f : BitVec 7) : W64 :=
  seq ++ satCount 16 oor ++ satCount 16 empty ++ (0 : BitVec 9) ++ f

/-- VFLAGS after an instruction with these flags and out-of-range indices (R144, Table 4.11). -/
def vflagsAfter (old : W64) (oor : Nat) (f : BitVec 7) : W64 :=
  let n := (old.extractLsb' 32 32).toNat + oor
  satCount 32 n ++ ((old.extractLsb' 0 32) ||| f.setWidth 32)

/-- SSTAT of Table 6.8; PIVOT_FLOORED stands for FLOORED. -/
def sstatWord (seq : BitVec 16) (code : BitVec 8) (nit : BitVec 5) (cold : Bool) (floored : Nat) (f : AF) : W64 :=
  seq ++ code ++ nit ++ BitVec.ofBool cold ++ (0 : BitVec 2) ++ satCount 16 floored ++ (0 : BitVec 10)
    ++ BitVec.ofBool (decide (floored ≠ 0)) ++ f.extractLsb' 0 5

end Sys2Proof.Machine
end

