-- ==== Sys2Proof/Machine/Fp.lean ====
section
/-! DEFINITION. The arithmetic of the module: values of its formats, exact sums and products, and the conversions of
Number formats and exact accumulation. A floating value is held exactly (`Val`) until the one rounding the manual
names. -/

namespace Sys2Proof.Machine

/-! ## Formats -/

/-- The format codes of Table 2.2. -/
def fFP32 : BitVec 4 := 0
def fBF16 : BitVec 4 := 1
def fFP16 : BitVec 4 := 2
def fE4M3 : BitVec 4 := 3
def fE5M2 : BitVec 4 := 4
def fINT8 : BitVec 4 := 5
def fINT4 : BitVec 4 := 6
def fINT32 : BitVec 4 := 7
def fL128 : BitVec 4 := 8
def fG16 : BitVec 4 := 9
def fTW16 : BitVec 4 := 10

/-- The five floating formats of Table 2.1. -/
def isFloatFmt (f : BitVec 4) : Bool := decide (f.toNat ≤ 4)

/-- INT8, INT4 and INT32. -/
def isIntFmt (f : BitVec 4) : Bool := f == 5 || f == 6 || f == 7

/-- Element width in bits. -/
def fmtBits (f : BitVec 4) : Nat :=
  match f.toNat with
  | 0 => 32
  | 1 => 16
  | 2 => 16
  | 3 => 8
  | 4 => 8
  | 5 => 8
  | 6 => 4
  | 7 => 32
  | 8 => 128
  | 9 => 16
  | 10 => 16
  | _ => 8

/-- A binary floating format: sign, exponent and fraction fields. -/
structure FloatFmt where
  ebits  : Nat
  fbits  : Nat
  bias   : Nat
  hasInf : Bool
  deriving DecidableEq, Repr

def FloatFmt.fp32 : FloatFmt := { ebits := 8, fbits := 23, bias := 127, hasInf := true }
def FloatFmt.bf16 : FloatFmt := { ebits := 8, fbits := 7, bias := 127, hasInf := true }
def FloatFmt.fp16 : FloatFmt := { ebits := 5, fbits := 10, bias := 15, hasInf := true }
def FloatFmt.e5m2 : FloatFmt := { ebits := 5, fbits := 2, bias := 15, hasInf := true }
def FloatFmt.e4m3 : FloatFmt := { ebits := 4, fbits := 3, bias := 7, hasInf := false }
def FloatFmt.fp64 : FloatFmt := { ebits := 11, fbits := 52, bias := 1023, hasInf := true }

def floatFmt (f : BitVec 4) : FloatFmt :=
  match f.toNat with
  | 1 => .bf16
  | 2 => .fp16
  | 3 => .e4m3
  | 4 => .e5m2
  | _ => .fp32

def FloatFmt.signBit (t : FloatFmt) : Nat := 2 ^ (t.ebits + t.fbits)

/-- Pattern of the largest finite magnitude (Table 2.1). -/
def FloatFmt.maxBits (t : FloatFmt) : Nat :=
  if t.hasInf then (2 ^ t.ebits - 1) * 2 ^ t.fbits - 1 else 2 ^ (t.ebits + t.fbits) - 2

/-- Pattern of +infinity, where the format has one. -/
def FloatFmt.infBits (t : FloatFmt) : Nat := (2 ^ t.ebits - 1) * 2 ^ t.fbits

/-- The canonical NaN (Table 2.1, R44). -/
def FloatFmt.nanBits (t : FloatFmt) : Nat :=
  if t.hasInf then t.infBits + 2 ^ (t.fbits - 1) else 2 ^ (t.ebits + t.fbits) - 1

/-- Exponent of the unit of a subnormal. -/
def FloatFmt.minExp (t : FloatFmt) : Int := 1 - (t.bias : Int) - (t.fbits : Int)

/-! ## Exact values -/

/-- The value of a pattern (R41, R43). -/
def FloatFmt.decode (t : FloatFmt) (bits : Nat) : Val :=
  let neg := decide (bits / t.signBit % 2 = 1)
  let mag := bits % t.signBit
  let e := mag / 2 ^ t.fbits
  let fr := mag % 2 ^ t.fbits
  if t.hasInf && decide (e = 2 ^ t.ebits - 1) then
    if fr = 0 then .inf neg else .nan
  else if !t.hasInf && decide (mag = t.signBit - 1) then .nan
  else if e = 0 then .fin neg fr t.minExp
  else .fin neg (2 ^ t.fbits + fr) (t.minExp + (e : Int) - 1)

def Val.isNan : Val → Bool
  | .nan => true
  | _ => false

def Val.isInf : Val → Bool
  | .inf _ => true
  | _ => false

def Val.isFinite : Val → Bool
  | .fin _ _ _ => true
  | _ => false

/-- A zero of either sign. -/
def Val.isZero : Val → Bool
  | .fin _ m _ => decide (m = 0)
  | _ => false

def Val.sign : Val → Bool
  | .nan => false
  | .inf n => n
  | .fin n _ _ => n

def Val.negate : Val → Val
  | .nan => .nan
  | .inf n => .inf !n
  | .fin n m e => .fin (!n) m e

def Val.abs : Val → Val
  | .nan => .nan
  | .inf _ => .inf false
  | .fin _ m e => .fin false m e

def Val.zero : Val := .fin false 0 0

def Val.one : Val := .fin false 1 0

/-- n * 2^e, a zero being +0. -/
def valOfInt (n : Int) (e : Int) : Val := .fin (decide (n < 0)) n.natAbs e

def signedM (neg : Bool) (m : Nat) : Int := if neg then -(m : Int) else (m : Int)

/-- Exact product under the IEEE 754 rules for infinities, NaN and signed zeros. -/
def Val.mul : Val → Val → Val
  | .nan, _ => .nan
  | _, .nan => .nan
  | .inf n, .inf k => .inf (n != k)
  | .inf n, .fin k m _ => if m = 0 then .nan else .inf (n != k)
  | .fin n m _, .inf k => if m = 0 then .nan else .inf (n != k)
  | .fin n m e, .fin k l f => .fin (n != k) (m * l) (e + f)

/-- Exact sum under the IEEE 754 rules; an exact zero sum is +0 unless both addends are -0 or negative zero parts. -/
def Val.add : Val → Val → Val
  | .nan, _ => .nan
  | _, .nan => .nan
  | .inf n, .inf k => if n = k then .inf n else .nan
  | .inf n, .fin _ _ _ => .inf n
  | .fin _ _ _, .inf k => .inf k
  | .fin n m e, .fin k l f =>
    let g := min e f
    let a := signedM n (m * 2 ^ (e - g).toNat) + signedM k (l * 2 ^ (f - g).toNat)
    if a = 0 then .fin (n && k) 0 0 else valOfInt a g

def Val.sub (a b : Val) : Val := Val.add a b.negate

/-- Order of finite and infinite values; zeros of either sign are equal. False when either is a NaN. -/
def Val.lt : Val → Val → Bool
  | .nan, _ => false
  | _, .nan => false
  | .inf n, .inf k => n && !k
  | .inf n, .fin _ _ _ => n
  | .fin _ _ _, .inf k => !k
  | .fin n m e, .fin k l f =>
    let g := min e f
    decide (signedM n (m * 2 ^ (e - g).toNat) < signedM k (l * 2 ^ (f - g).toNat))

def Val.eqv (a b : Val) : Bool :=
  !a.isNan && !b.isNan && !Val.lt a b && !Val.lt b a

def Val.le (a b : Val) : Bool := Val.lt a b || Val.eqv a b

/-- Position of the leading bit of a non-zero number. -/
def topBit (m : Nat) : Nat := Nat.log2 m

/-- Quotient with at least 128 significant bits and a last bit that is 1 when the quotient is not exact: it rounds as
the exact quotient does in every format of the module (R124, R169). -/
def Val.div : Val → Val → Val
  | .nan, _ => .nan
  | _, .nan => .nan
  | .inf _, .inf _ => .nan
  | .inf n, .fin k _ _ => .inf (n != k)
  | .fin n _ _, .inf k => .fin (n != k) 0 0
  | .fin n m e, .fin k l f =>
    if l = 0 then (if m = 0 then .nan else .inf (n != k))
    else if m = 0 then .fin (n != k) 0 0
    else
      let s := 130 + topBit l
      let q := m * 2 ^ s / l
      let sticky := if m * 2 ^ s % l = 0 then 0 else 1
      .fin (n != k) (2 * q + sticky) (e - f - (s : Int) - 1)

/-- Integer square root, one bit of the root at each turn. -/
def isqrtFrom : Nat → Nat → Nat → Nat
  | 0, _, r => r
  | k + 1, x, r =>
    let t := r + 2 ^ k
    isqrtFrom k x (if t * t ≤ x then t else r)

def isqrt (x : Nat) : Nat := isqrtFrom (topBit x / 2 + 1) x 0

/-- Square root, with a last bit that is 1 when it is not exact. -/
def Val.sqrt : Val → Val
  | .nan => .nan
  | .inf n => if n then .nan else .inf false
  | .fin n m e =>
    if m = 0 then .fin n 0 0
    else if n then .nan
    else
      let odd := (e % 2).toNat
      let x := m * 2 ^ (odd + 280)
      let r := isqrt x
      let sticky := if r * r = x then 0 else 1
      .fin false (2 * r + sticky) ((e - odd) / 2 - 140 - 1)

/-! ## Rounding -/

/-- m / 2^sh rounded to an integer, ties to even. -/
def rneShift (m sh : Nat) : Nat :=
  let q := m / 2 ^ sh
  let r := m % 2 ^ sh
  if 2 * r > 2 ^ sh ∨ (2 * r = 2 ^ sh ∧ q % 2 = 1) then q + 1 else q

/-- m / 2^sh rounded by R47 for a value of the given sign: `r` below the truncated distance from the lower neighbour
takes the upper neighbour. -/
def srShift (neg : Bool) (m sh : Nat) (r : W32) : Nat :=
  let q := m / 2 ^ sh
  let rem := m % 2 ^ sh
  if rem = 0 then q
  else if neg then
    (if r.toNat < (2 ^ sh - rem) * 2 ^ 32 / 2 ^ sh then q else q + 1)
  else (if r.toNat < rem * 2 ^ 32 / 2 ^ sh then q + 1 else q)

/-- Whether m * 2^e is at least l * 2^f. -/
def geScaled (m : Nat) (e : Int) (l : Nat) (f : Int) : Bool :=
  let g := min e f
  decide (l * 2 ^ (f - g).toNat ≤ m * 2 ^ (e - g).toNat)

/-- Conversion into a floating format: R46, R47, Table 2.3. The result is a pattern with its flags. -/
def FloatFmt.round (t : FloatFmt) (rnd : Rnd) (sat : Bool) (v : Val) : Nat × AF :=
  match v with
  | .nan => (t.nanBits, 0)
  | .inf neg =>
    let s := if neg then t.signBit else 0
    if t.hasInf then (s + t.infBits, 0)
    else if sat then (s + t.maxBits, afCvtSat) else (t.nanBits, 0)
  | .fin neg m e =>
    let s := if neg then t.signBit else 0
    if m = 0 then (s, 0)
    else
      let maxM := (FloatFmt.decode t t.maxBits)
      match maxM with
      | .fin _ mm me =>
        if geScaled m e (2 * mm + 1) (me - 1) then
          -- overflow: at or above the largest finite value and half a unit
          let f := if sat then afCvtOvf ||| afCvtSat else afCvtOvf
          let p := if sat then s + t.maxBits else if t.hasInf then s + t.infBits else t.nanBits
          (p, f)
        else
          let q := max ((topBit m : Int) + e - t.fbits) t.minExp
          let u :=
            if q ≤ e then m * 2 ^ (e - q).toNat
            else
              let sh := (q - e).toNat
              match rnd with
              | .rne => rneShift m sh
              | .sr r => if geScaled mm me m e then srShift neg m sh r else rneShift m sh
          let bits := (q - t.minExp).toNat * 2 ^ t.fbits + u
          (s + min bits t.maxBits, 0)
      | _ => (s, 0)

/-- The exact value rounded to an integer with ties to even. -/
def Val.rneInt : Val → Int
  | .fin neg m e =>
    signedM neg (if 0 ≤ e then m * 2 ^ e.toNat else rneShift m (-e).toNat)
  | _ => 0

/-- Conversion into a two's-complement integer of `w` bits: R529, Table 2.3. -/
def roundInt (w : Nat) (v : Val) : Nat × AF :=
  let lim : Int := 2 ^ (w - 1)
  let wrap (i : Int) : Nat := (i % (2 ^ w)).toNat
  match v with
  | .nan => (0, afCvtSat)
  | .inf neg => (wrap (if neg then -lim else lim - 1), afCvtSat)
  | .fin _ _ _ =>
    let i := v.rneInt
    if i < -lim then (wrap (-lim), afCvtSat)
    else if lim - 1 < i then (wrap (lim - 1), afCvtSat)
    else (wrap i, 0)

/-- Signed number of a `w`-bit pattern. -/
def signedOf (w n : Nat) : Int := if n % 2 ^ w < 2 ^ (w - 1) then (n % 2 ^ w : Nat) else (n % 2 ^ w : Nat) - (2 ^ w : Nat)

/-! ## L128 -/

/-- 2^127 - 4, the largest finite |N| (R49). -/
def l128Max : Int := 2 ^ 127 - 4

/-- The classes of a stored L128 value (R50). -/
inductive L128Class where
  | fin (n : Int) | pinf | ninf | nan
  deriving DecidableEq, Repr

/-- The class of a stored pattern; the reserved marker reads as NaN (R50). -/
def l128Class (bits : BitVec 128) : L128Class :=
  let n := bits.toInt
  if n = -2 ^ 127 ∨ n = -2 ^ 127 + 3 then .nan
  else if n = -2 ^ 127 + 1 then .pinf
  else if n = -2 ^ 127 + 2 then .ninf
  else .fin n

def l128Nan : BitVec 128 := BitVec.ofInt 128 (-2 ^ 127)
def l128Pinf : BitVec 128 := BitVec.ofInt 128 (-2 ^ 127 + 1)
def l128Ninf : BitVec 128 := BitVec.ofInt 128 (-2 ^ 127 + 2)

/-- N clamped to the finite range, with ACC_SAT when it was outside (R53). -/
def l128Clamp (n : Int) : Int × AF :=
  if l128Max < n then (l128Max, afAccSat)
  else if n < -l128Max then (-l128Max, afAccSat) else (n, 0)

/-- add_l128() of R60. -/
def addL128 (a b : BitVec 128) : BitVec 128 × AF :=
  match l128Class a, l128Class b with
  | .nan, _ => (l128Nan, 0)
  | _, .nan => (l128Nan, 0)
  | .pinf, .ninf => (l128Nan, 0)
  | .ninf, .pinf => (l128Nan, 0)
  | .pinf, _ => (l128Pinf, 0)
  | _, .pinf => (l128Pinf, 0)
  | .ninf, _ => (l128Ninf, 0)
  | _, .ninf => (l128Ninf, 0)
  | .fin x, .fin y => let (n, f) := l128Clamp (x + y); (BitVec.ofInt 128 n, f)

/-! ## Elements by format code -/

/-- The exact value of an element pattern; integers as their number, L128 as N * 2^-48 or what its marker says. -/
def fmtDecode (f : BitVec 4) (bits : Nat) : Val :=
  if isFloatFmt f then (floatFmt f).decode bits
  else if f == fL128 then
    match l128Class (BitVec.ofNat 128 bits) with
    | .nan => .nan
    | .pinf => .inf false
    | .ninf => .inf true
    | .fin n => valOfInt n (-48)
  else valOfInt (signedOf (fmtBits f) bits) 0

/-- Conversion of an exact value into a floating or integer format with the instruction's RND and SAT. -/
def fmtRound (f : BitVec 4) (rnd : Rnd) (sat : Bool) (v : Val) : Nat × AF :=
  if isIntFmt f then roundInt (fmtBits f) v else (floatFmt f).round rnd sat v

/-- An FP32 pattern as a value. -/
def f32 (w : W32) : Val := FloatFmt.fp32.decode w.toNat

/-- A value rounded to FP32 with rne(). -/
def toF32 (v : Val) : W32 := BitVec.ofNat 32 (FloatFmt.fp32.round .rne false v).1

def f64 (w : W64) : Val := FloatFmt.fp64.decode w.toNat

/-- A value rounded to FP64 with rne(). -/
def toF64 (v : Val) : W64 := BitVec.ofNat 64 (FloatFmt.fp64.round .rne false v).1

def f32One : W32 := 0x3F800000
def f32Nan : W32 := 0x7FC00000

def isNan32 (w : W32) : Bool := (f32 w).isNan
def isFinite32 (w : W32) : Bool := (f32 w).isFinite

/-- An element that is a NaN or an infinity, as NONFINITE counts it (R103, R422). -/
def nonFinite (f : BitVec 4) (bits : Nat) : Bool :=
  if isFloatFmt f || f == fL128 then !(fmtDecode f bits).isFinite else false

/-! ## FP32 operations with one rounding -/

def fAdd (a b : W32) : W32 := toF32 (Val.add (f32 a) (f32 b))
def fSub (a b : W32) : W32 := toF32 (Val.sub (f32 a) (f32 b))
def fMul (a b : W32) : W32 := toF32 (Val.mul (f32 a) (f32 b))
def fDiv (a b : W32) : W32 := toF32 (Val.div (f32 a) (f32 b))
def fFma (a b c : W32) : W32 := toF32 (Val.add (Val.mul (f32 a) (f32 b)) (f32 c))
def fSqrt (a : W32) : W32 := toF32 (f32 a).sqrt
def fRcp (a : W32) : W32 := toF32 (Val.div Val.one (f32 a))

/-- RSQRT of Table 4.8. A root with 140 fraction bits and a sticky bit is not exact enough to divide by, so the root
is taken of the quotient 1 / a. -/
def fRsqrt (a : W32) : W32 :=
  match f32 a with
  | .nan => f32Nan
  | .inf n => if n then f32Nan else 0
  | .fin n m e =>
    if m = 0 then (if n then 0xFF800000 else 0x7F800000)
    else if n then f32Nan
    else toF32 (Val.sqrt (Val.div Val.one (.fin false m e)))

/-- a^(-1/p) for p = 2^l by l square roots of 1 / a (R169). -/
def rootpVal : Nat → Val → Val
  | 0, v => v
  | l + 1, v => rootpVal l v.sqrt

/-- ROOTP of R169 with p = 2, 4 or 8 for l = 1, 2 or 3. -/
def fRootp (l : Nat) (a : W32) : W32 :=
  match f32 a with
  | .nan => f32Nan
  | .inf n => if n then f32Nan else 0
  | .fin n m e =>
    if m = 0 then 0x7F800000
    else if n then f32Nan
    else toF32 (rootpVal l (Val.div Val.one (.fin false m e)))

/-- IEEE 754-2019 minimum: NaN propagates, -0 below +0. -/
def fMin (a b : W32) : W32 :=
  if isNan32 a || isNan32 b then f32Nan
  else if Val.lt (f32 a) (f32 b) then a
  else if Val.lt (f32 b) (f32 a) then b
  else if a.getLsbD 31 then a else b

/-- IEEE 754-2019 maximum. -/
def fMax (a b : W32) : W32 :=
  if isNan32 a || isNan32 b then f32Nan
  else if Val.lt (f32 a) (f32 b) then b
  else if Val.lt (f32 b) (f32 a) then a
  else if a.getLsbD 31 then b else a

/-- The eight FCMP conditions of Table 4.8; codes from 8 on are reserved. -/
def fCond (code : Nat) (a b : Val) : Bool :=
  match code with
  | 0 => Val.eqv a b
  | 1 => !Val.eqv a b
  | 2 => Val.lt a b
  | 3 => Val.le a b
  | 4 => Val.lt b a
  | 5 => Val.le b a
  | 6 => a.isNan || b.isNan
  | _ => !a.isNan && !b.isNan

/-- The signed ICMP conditions EQ to GE. -/
def iCond (code : Nat) (a b : Int) : Bool :=
  match code with
  | 0 => decide (a = b)
  | 1 => decide (a ≠ b)
  | 2 => decide (a < b)
  | 3 => decide (a ≤ b)
  | 4 => decide (b < a)
  | _ => decide (b ≤ a)

/-! ## EXP2 and LOG2 -/

/-- Fixed-point fraction bits of the two functions. -/
def fxBits : Nat := 256

/-- 2^(2^-1), 2^(2^-2), ... in fixed point, each the truncated root of the one before. -/
def exp2Roots : Nat → Nat → List Nat
  | 0, _ => []
  | k + 1, r => let q := isqrt (r * 2 ^ fxBits); q :: exp2Roots k q

/-- Product of the roots whose bit of the fraction `x` (of `w` bits) is set. -/
def exp2Mul : List Nat → Nat → Nat → Nat → Nat
  | [], _, _, acc => acc
  | r :: rs, w, x, acc =>
    exp2Mul rs (w - 1) x (if x / 2 ^ (w - 1) % 2 = 1 then acc * r / 2 ^ fxBits else acc)

/-- 2^a rounded once: the argument's integer and fraction parts are exact, and 2^fraction is carried to 256 bits, so
the sticky bit decides the rounding (R124; notes/assumptions/9). -/
def fExp2 (a : W32) : W32 :=
  match f32 a with
  | .nan => f32Nan
  | .inf n => if n then 0 else 0x7F800000
  | .fin n m e =>
    if m = 0 then f32One
    else if (topBit m : Int) + e ≥ 9 then (if n then 0 else 0x7F800000)
    else if (topBit m : Int) + e < -30 then f32One
    else
      -- a in units of 2^-56
      let x := signedM n (m * 2 ^ (e + 56).toNat)
      let ip := Int.fdiv x (2 ^ 56)
      let fp := (Int.fmod x (2 ^ 56)).toNat
      if fp = 0 then toF32 (.fin false 1 ip)
      else
        let y := exp2Mul (exp2Roots 56 (2 * 2 ^ fxBits)) 56 fp (2 ^ fxBits)
        toF32 (.fin false (2 * y + 1) (ip - fxBits - 1))

/-- Fraction bits of log2 of `y` in [1, 2) (fixed point), by squaring; each turn gives one bit. -/
def log2Frac : Nat → Nat → Nat → Nat
  | 0, _, acc => acc
  | k + 1, y, acc =>
    let z := y * y / 2 ^ fxBits
    if z ≥ 2 * 2 ^ fxBits then log2Frac k (z / 2) (2 * acc + 1) else log2Frac k z (2 * acc)

/-- log2 a rounded once, from 96 fraction bits and a sticky bit (R124; notes/assumptions/9). -/
def fLog2 (a : W32) : W32 :=
  match f32 a with
  | .nan => f32Nan
  | .inf n => if n then f32Nan else 0x7F800000
  | .fin n m e =>
    if m = 0 then 0xFF800000
    else if n then f32Nan
    else
      let t := topBit m
      let ip : Int := (t : Int) + e
      if m = 2 ^ t then toF32 (valOfInt ip 0)
      else
        let y := m * 2 ^ (fxBits - t)
        let fr := log2Frac 96 y 0
        toF32 (Val.add (valOfInt ip 0) (.fin false (2 * fr + 1) (-97)))

/-! ## EXACT and F32C resolution -/

/-- What a bank or a stored value gives the drain: N and the three side flags. -/
def drainVal (n : Int) (pinf ninf nanf : Bool) (sa sb q : Val) : Val :=
  let zs := sa.isZero || sb.isZero || q.isZero
  let ins := sa.isInf || sb.isInf || q.isInf
  let s := (sa.sign != sb.sign) != q.sign
  if nanf || (pinf && ninf) || sa.isNan || sb.isNan || q.isNan then .nan
  else if pinf || ninf then (if zs then .nan else .inf (ninf != s))
  else if n = 0 then (if ins then .nan else Val.zero)
  else if ins then (if zs then .nan else .inf (decide (n < 0) != s))
  else if zs then Val.zero
  else Val.mul (valOfInt n (-48)) (Val.mul sa (Val.mul sb q))

/-- drain_exact() of R56 to a floating or integer format. -/
def drainExact (c : AccCell) (sa sb q : W32) (f : BitVec 4) (rnd : Rnd) (sat : Bool) : Nat × AF :=
  fmtRound f rnd sat (drainVal c.n.toInt c.pinf c.ninf c.nanf (f32 sa) (f32 sb) (f32 q))

/-- The raw L128 drain of R58: N, or the marker of a non-finite outcome. -/
def drainRaw (c : AccCell) : BitVec 128 :=
  if c.nanf || (c.pinf && c.ninf) then l128Nan
  else if c.pinf then l128Pinf
  else if c.ninf then l128Ninf
  else c.n

/-! ### The residue modulo 7 (R377) -/

/-- The residue of an integer, 0 to 6. -/
def resid (n : Int) : BitVec 3 := BitVec.ofNat 3 (n % 7).toNat

/-- cell_step() of R377: a product of residues `ra` and `rb` at weight 2^sh joins the residue `rn`. -/
def cellStep (ra rb : BitVec 3) (sh : Nat) (rn : BitVec 3) : BitVec 3 :=
  BitVec.ofNat 3 ((rn.toNat + ra.toNat * rb.toNat % 7 * (2 ^ (sh % 3) % 7)) % 7)

/-- check_beat() of R377. -/
def checkBeat (n : BitVec 128) (rn : BitVec 3) : Bool := resid n.toInt == rn

/-- The signed significand of a finite value, in units of its own least significant bit. -/
def Val.signif : Val → Int
  | .fin n m _ => signedM n m
  | _ => 0

/-- The check of an exact product of two significands: its residue is that of the product of their residues (R377). -/
def mulCheck (a b : Val) : Bool := resid (a.signif * b.signif) == cellStep (resid a.signif) (resid b.signif) 0 0

/-- The check of an aligned exact sum of two finite values (R377). -/
def addCheck (a b : Val) : Bool :=
  match a, b with
  | .fin _ _ x, .fin _ _ y =>
    let e := min x y
    let (i, j) := ((x - e).toNat, (y - e).toNat)
    resid (a.signif * 2 ^ i + b.signif * 2 ^ j) ==
      cellStep (resid b.signif) 1 j (cellStep (resid a.signif) 1 i 0)
  | _, _ => true

/-- A cell with N, its residue beside it, and no side flag. -/
def AccCell.ofInt (n : Int) : AccCell := { AccCell.zero with n := BitVec.ofInt 128 n, rn := resid n }

/-- Both copies of the side flags of a cell take the listed flags too. -/
def AccCell.mark (c : AccCell) (p n x : Bool) : AccCell :=
  { c with pinf := c.pinf || p, ninf := c.ninf || n, nanf := c.nanf || x,
           dup := c.dup ||| (BitVec.ofBool x ++ BitVec.ofBool n ++ BitVec.ofBool p) }

/-- The check beat of a cell: N against its residue and the two copies of the side flags against each other; of an F32C
cell, that no check of a step has failed (R88, R377). -/
def AccCell.checks (f32c : Bool) (c : AccCell) : Bool :=
  if f32c then c.rn == 0
  else checkBeat c.n c.rn && c.dup == (BitVec.ofBool c.nanf ++ BitVec.ofBool c.ninf ++ BitVec.ofBool c.pinf)

/-- A cell holding what a stored L128 value says (R50, R59, R162); ACC above B in magnitude becomes B. -/
def cellOfL128 (bits : BitVec 128) : AccCell × AF :=
  match l128Class bits with
  | .nan => (AccCell.zero.mark false false true, 0)
  | .pinf => (AccCell.zero.mark true false false, 0)
  | .ninf => (AccCell.zero.mark false true false, 0)
  | .fin n => if l128Max < n then (AccCell.ofInt l128Max, afPreSat) else (AccCell.ofInt n, 0)

/-- Preload of an FP32 or FP16 value into a bank in EXACT mode (R59); the residue enters at the converted value (R377). -/
def preloadVal (v : Val) : AccCell × AF :=
  match v with
  | .nan => (AccCell.zero.mark false false true, 0)
  | .inf n => (AccCell.zero.mark (!n) n false, 0)
  | .fin neg m e =>
    if Val.lt (valOfInt l128Max (-48)) (.fin false m e) then
      (AccCell.ofInt (if neg then -l128Max else l128Max), afPreSat)
    else if -48 ≤ e then (AccCell.ofInt (signedM neg (m * 2 ^ (e + 48).toNat)), 0)
    else
      let sh := (-48 - e).toNat
      (AccCell.ofInt (signedM neg (rneShift m sh)), if m % 2 ^ sh = 0 then 0 else afPreInexact)

/-- The residue of N after a product: cell_step() at the product's weight in units of 2^-48, or the residue of B where the
addition saturates (R53, R377, notes/assumptions/73). -/
def residAfter (c : AccCell) (a b : Val) (e : Int) (k : Int) (sat : Bool) : BitVec 3 :=
  if sat || decide (e < -48) then resid k else cellStep (resid a.signif) (resid b.signif) (e + 48).toNat c.rn

/-- One product of an EXACT pass into a cell (R52, R53, R377). -/
def accProduct (c : AccCell) (a b : Val) : AccCell × AF :=
  match Val.mul a b with
  | .nan => (c.mark false false true, 0)
  | .inf n => (c.mark (!n) n false, 0)
  | .fin neg m e =>
    let p := signedM neg (if -48 ≤ e then m * 2 ^ (e + 48).toNat else m / 2 ^ (-48 - e).toNat)
    let (k, f) := l128Clamp (c.n.toInt + p)
    ({ c with n := BitVec.ofInt 128 k, rn := residAfter c a b e k (f != 0) }, f)

/-- One step of an F32C pass (R62); the FP32 accumulator is the low word of the cell. The exact product and the aligned
exact sum are checked before they are rounded (R377). -/
def accF32c (c : AccCell) (a b : Val) : AccCell :=
  let acc := f32 (c.n.extractLsb' 0 32)
  { c with n := (toF32 (Val.add acc (Val.mul a b))).setWidth 128,
           rn := if mulCheck a b && addCheck acc (Val.mul a b) then c.rn else 7 }

/-- The resolution of an F32C cell (R63). -/
def drainF32c (c : AccCell) (sa sb q : W32) (f : BitVec 4) (rnd : Rnd) (sat : Bool) : Nat × AF :=
  fmtRound f rnd sat
    (Val.mul (f32 (c.n.extractLsb' 0 32)) (Val.mul (f32 sa) (Val.mul (f32 sb) (f32 q))))

/-! ## G16 and TW16 -/

/-- block_exp() of R66. -/
def blockExp (xs : List W32) : Byte :=
  let fin := xs.filter isFinite32
  if fin.all fun x => (f32 x).isZero then 0
  else BitVec.ofNat 8 ((fin.map fun x => fieldNat x 30 23).foldl max 0 + 1)

/-- One element into G16 under exponent `e` (R66); a value beyond the range saturates. -/
def g16Elem (v : Val) (e : Nat) : BitVec 16 × AF :=
  match v with
  | .nan => (0x8000, 0)
  | .inf _ => (0x8000, 0)
  | .fin n m x =>
    let i := Val.rneInt (.fin n m (x - ((e : Int) - 142)))
    if 32767 < i then (0x7FFF, afCvtSat)
    else if i < -32767 then (0x8001, afCvtSat)
    else (BitVec.ofInt 16 i, 0)

/-- to_g16() of R66 for one block with the exponent that the instruction supplies. -/
def toG16 (xs : List W32) (eBlock : Byte) (h : Nat) : List (BitVec 16) × Byte × AF :=
  let e := min (eBlock.toNat + h) 255
  let r := xs.map fun x => g16Elem (f32 x) e
  (r.map (·.1), BitVec.ofNat 8 e, (r.map (·.2)).foldl (· ||| ·) 0)

/-- The exact value of a G16 element (R64, R65). -/
def g16Val (m : BitVec 16) (e : Byte) : Val :=
  if m = 0x8000 then .nan else valOfInt m.toInt ((e.toNat : Int) - 142)

/-- Widening of a G16 element to FP32 (R67). -/
def g16Widen (m : BitVec 16) (e : Byte) : W32 := toF32 (g16Val m e)

/-- The block scale of to_tw16() (R69, R179) for the largest finite magnitude `mx`. -/
def twScale (mx : W32) : W32 :=
  if (f32 mx).isZero then f32One
  else
    let ex := fieldNat mx 30 23
    let u : Int := if ex = 0 then -126 else (ex : Int) - 127
    toF32 (.fin false 1 (u - 14))

/-- The largest finite magnitude of FP32 patterns, as a pattern; +0 where none is finite and non-zero. -/
def maxFinite (xs : List W32) : W32 :=
  xs.foldl (fun acc x => if isFinite32 x && decide (acc.toNat < (x &&& 0x7FFFFFFF).toNat) then x &&& 0x7FFFFFFF else acc) 0

/-- The twin of one element under scale s (R69). -/
def twElem (x s : W32) : BitVec 16 × BitVec 16 :=
  if isFinite32 x then
    let v := Val.div (f32 x) (f32 s)
    let hi := BitVec.ofNat 16 (FloatFmt.fp16.round .rne false v).1
    let d := Val.sub v (FloatFmt.fp16.decode hi.toNat)
    (hi, BitVec.ofNat 16 (FloatFmt.fp16.round .rne false d).1)
  else (BitVec.ofNat 16 (FloatFmt.fp16.round .rne false (f32 x)).1, 0)

/-- The value of a TW16 element: s * (hi + lo) (R68). -/
def twVal (hi lo : BitVec 16) (s : W32) : Val :=
  Val.mul (f32 s) (Val.add (FloatFmt.fp16.decode hi.toNat) (FloatFmt.fp16.decode lo.toNat))

end Sys2Proof.Machine
end

