-- ==== Sys2Proof/Machine/Codes.lean ====
section
/-! DEFINITION. The two codes over stored data: SEC-DED on the words of the on-die stores (R381) and the Reed-Solomon code on the
code words of HBM (R384, R385). What the manual leaves open of each, its matrix or its roots and places, is free. -/

namespace Sys2Proof.Machine

/-- Take `n` elements out of a list, each at a place that `f` names among those left over. -/
def pickFrom {α : Type} (f : Nat → Nat) (d : α) : Nat → Nat → List α → List α
  | 0, _, _ => []
  | n + 1, k, l => l.getD (f k % l.length) d :: pickFrom f d n (k + 1) (l.eraseIdx (f k % l.length))

/-! ## SEC-DED (R381) -/

/-- Number of ones. -/
def ones {w : Nat} (v : BitVec w) : Nat := ((List.range w).filter fun i => v.getLsbD i).length

/-- The nine-bit columns with an odd number of ones, and more than one: distinct columns of odd weight, those of the check bits
with a single one among them, tell one bit in error from two. -/
def oddColumns : List (BitVec 9) :=
  ((List.range 512).map fun i => BitVec.ofNat 9 i).filter fun v => ones v % 2 = 1 ∧ 1 < ones v

/-- The columns of the 128 data bits and of bits [23:4] of the word's byte offset. -/
def secdedColumns : List (BitVec 9) := pickFrom Config.secdedPick 0 148 0 oddColumns

/-- The sum of the columns from `i` on whose bits are set. -/
def sumColumns (l : List (BitVec 9)) (bit : Nat → Bool) : BitVec 9 :=
  (l.zipIdx).foldl (fun acc e => if bit e.2 then acc ^^^ e.1 else acc) 0

/-- The nine check bits of a word at a byte offset. -/
def secdedCheck (d : BitVec 128) (off : Nat) : BitVec 9 :=
  sumColumns secdedColumns fun i => if i < 128 then d.getLsbD i else off.testBit (i - 128 + 4)

/-- The bit that a syndrome names: a data bit below 128, or a check bit from 128 on; none for a syndrome that matches no single
bit of the word. -/
def secdedLocate (y : BitVec 9) : Option Nat :=
  match (List.range 128).find? fun i => secdedColumns.getD i 0 == y with
  | some i => some i
  | none => ((List.range 9).find? fun j => (1 : BitVec 9) <<< j == y).map (128 + ·)

/-! ## The Reed-Solomon code (R384) -/

/-- A product in GF(2^8) modulo x^8 + x^4 + x^3 + x^2 + 1: the bits of `b` from the highest down, by Horner's rule. -/
def symMul (a b : Byte) : Byte :=
  (List.range 8).foldl (fun acc i =>
    let acc := if acc.msb then (acc <<< 1) ^^^ 0x1D else acc <<< 1
    if b.getMsbD i then acc ^^^ a else acc) 0

/-- A power of the primitive element. -/
def symPow2 : Nat → Byte
  | 0 => 1
  | n + 1 => symMul 2 (symPow2 n)

/-- The remainder of a polynomial of degree 2: the coefficients of 1, x and x^2. -/
structure Rem where
  c0 : Byte
  c1 : Byte
  c2 : Byte
  deriving DecidableEq, Repr

def Rem.add (r t : Rem) : Rem := { c0 := r.c0 ^^^ t.c0, c1 := r.c1 ^^^ t.c1, c2 := r.c2 ^^^ t.c2 }

def Rem.scale (e : Byte) (r : Rem) : Rem := { c0 := symMul e r.c0, c1 := symMul e r.c1, c2 := symMul e r.c2 }

def Rem.zero : Rem := { c0 := 0, c1 := 0, c2 := 0 }

/-- The low coefficients of the generator, the product of x - z over three consecutive powers z of the primitive element. -/
def rsGenerator : Rem :=
  let z0 := symPow2 (Config.rsFirstRoot % 255)
  let z1 := symMul 2 z0
  let z2 := symMul 2 z1
  { c0 := symMul z0 (symMul z1 z2), c1 := symMul z0 z1 ^^^ symMul z0 z2 ^^^ symMul z1 z2, c2 := z0 ^^^ z1 ^^^ z2 }

/-- x^n modulo the generator. -/
def rsPower : Nat → Rem
  | 0 => { c0 := 1, c1 := 0, c2 := 0 }
  | n + 1 =>
    let r := rsPower n
    Rem.add { c0 := 0, c1 := r.c0, c2 := r.c1 } (Rem.scale r.c2 rsGenerator)

/-- The places of the 64 data bytes, MARK and the five address symbols; the check symbols have places 0 to 2. -/
def rsPlaces : List Nat := pickFrom Config.rsPick 0 70 0 ((List.range 252).map (· + 3))

/-- The remainder that a symbol of value 1 contributes. -/
def rsUnit (i : Nat) : Rem := rsPower (rsPlaces.getD i 0)

/-- Symbol `i` of what the code covers: data bytes, MARK, then bits [41:6] of the byte address as five symbols. -/
def rsSymbol (d : BitVec 512) (mark : Byte) (a : Nat) (i : Nat) : Byte :=
  if i < 64 then d.extractLsb' (8 * i) 8
  else if i = 64 then mark
  else BitVec.ofNat 8 (a % 2 ^ 42 / 64 / 256 ^ (i - 65))

def Rem.bits (r : Rem) : BitVec 24 := r.c2 ++ r.c1 ++ r.c0

/-- C2, C1 and C0 of a code word, its MARK and its address. -/
def rsCheck (d : BitVec 512) (mark : Byte) (a : Nat) : BitVec 24 :=
  ((List.range 70).foldl (fun r i => Rem.add r (Rem.scale (rsSymbol d mark a i) (rsUnit i))) Rem.zero).bits

/-- The data symbol (0 to 63) or MARK (64), and the value in error, that a syndrome of one such symbol names (R385). -/
def rsLocate (y : BitVec 24) : Option (Nat × Byte) :=
  (List.range 65).findSome? fun i =>
    ((List.range 255).find? fun e => (Rem.scale (BitVec.ofNat 8 (e + 1)) (rsUnit i)).bits == y).map fun e =>
      (i, BitVec.ofNat 8 (e + 1))

end Sys2Proof.Machine
end

