-- ==== Sys2Proof/Machine/Envelope.lean ====
section
/-! DEFINITION. The envelope of the input current and what each die's ballast draws of it (R495 to R503, R507). -/

namespace Sys2Proof.Machine

/-- The launch level L in uA, from the mean input voltage in mV. -/
def launchLevel (c : ImgCfg) (mv : Nat) : Nat := min (c.ilimit * 1000000) (c.plimit * 1000000000 / mv)

/-- The base level I_B in uA. -/
def baseLevel (c : ImgCfg) (mv : Nat) : Nat := min (launchLevel c mv) (4000 * 1000000000 / mv)

/-- The target of I_env: L from the start of a launch ramp until the end of the launch or a halt, I_B at every other time while
the module is READY (R499); after a terminal failure the draw ramps down (R490), and before READY the envelope stands. -/
def targetLevel (s : State) : Nat :=
  match s.boot.phase with
  | .ready => if s.power.launch = 0 then baseLevel s.boot.cfg s.power.volts else launchLevel s.boot.cfg s.power.volts
  | .terminal => 0
  | _ => s.power.ienv

/-- Move a current toward a target by at most `step`. -/
def toward (v target step : Nat) : Nat := if v ≤ target then min (v + step) target else max (v - step) target

/-- I_env at this time: it moves toward its target at no more than SLEW, which is as many uA per ns as A per ms (R497). Whatever
changes the target does this first, so that the envelope reverses from its current value (R503). -/
def moveEnvelope (s : State) : State :=
  let p := s.power
  { s with power := { p with ienv := toward p.ienv (targetLevel s) (s.boot.cfg.slew * (elapsed s - p.ienvAt)),
                             ienvAt := elapsed s } }

/-- The ballast's minimum per die in uA (R498), and the most a die's ballast can draw in uA at a voltage (2,000 W). -/
def ballastMin : Nat := 500000
def ballastMax (mv : Nat) : Nat := 2000 * 1000000000 / mv

/-- The dies whose ballast banks take a share (R507). -/
def coolDies (p : Power) : List DieId := (List.finRange 4).filter fun d => !p.dies[d].hotBank

/-- I_env parted among dies: the shares add up to it (R496). -/
def sharesOf (ienv : Nat) : List DieId → Nat → List (DieId × Nat)
  | [], _ => []
  | [d], left => [(d, left)]
  | d :: e :: rest, left =>
    let q := min left (Config.dieShare d ienv)
    (d, q) :: sharesOf ienv (e :: rest) (left - q)

/-- A die's share of I_env; none for a die whose ballast bank is too hot (R507). -/
def shareOf (p : Power) (d : DieId) : Nat :=
  match (sharesOf p.ienv (coolDies p) p.ienv).find? fun e => e.1 == d with
  | some e => e.2
  | none => 0

/-- A die's part of the governor at a sample: its ballast draws the difference between its share and its work, and tokens are
withheld while the work exceeds the share less the ballast's minimum (R496, R498). -/
def samplePower (p : Power) (d : DieId) (work mv : Nat) : Power :=
  let q := p.dies[d]
  let share := shareOf p d
  { p with dies := p.dies.set d { q with work := work, ballast := min (share - work) (ballastMax mv),
                                         withheld := decide (share < work + ballastMin) } }

/-- A die whose domains go off: its ballast takes over what its work drew, so that the draw does not step (R490, R495, R510). The
rail and the temperature steps begin anew. -/
def takeOver (q : DiePower) : DiePower := { DiePower.reset with ballast := q.ballast + q.work, hotBank := q.hotBank }

/-- Tokens are withheld on some die. -/
def anyWithheld (p : Power) : Bool := (List.finRange 4).any fun d => p.dies[d].withheld

end Sys2Proof.Machine
end

