-- ==== Sys2Proof/Machine/Flits.lean ====
section
/-! DEFINITION. Flit headers (Tables 10.2, 9.10 and 11.1) and the queues of a port. -/

namespace Sys2Proof.Machine

/-! ## TYPE and PKIND codes -/

def tyDATA : BitVec 3 := 1
def tyRESP : BitVec 3 := 2
def tyCOLL : BitVec 3 := 3
def tyPAGE : BitVec 3 := 4
def tyCTRL : BitVec 3 := 5

def pkLendReq : BitVec 5 := 1
def pkLendAns : BitVec 5 := 2
def pkLendFree : BitVec 5 := 3
def pkRdReq : BitVec 5 := 4
def pkRdData : BitVec 5 := 5
def pkWrReq : BitVec 5 := 6
def pkDigestSet : BitVec 5 := 7
def pkTileReq : BitVec 5 := 8
def pkTileData : BitVec 5 := 9
def pkPassRec : BitVec 5 := 10

def ckVote : BitVec 4 := 1
def ckAbort : BitVec 4 := 2
def ckRebuild : BitVec 4 := 3

/-! ## Header fields -/

def hType (h : BitVec 128) : BitVec 3 := h.extractLsb' 125 3
def hVc (h : BitVec 128) : BitVec 3 := h.extractLsb' 122 3
def hLast (h : BitVec 128) : Bool := h.getLsbD 121
def hSeq (h : BitVec 128) : BitVec 14 := h.extractLsb' 107 14
def hTag (h : BitVec 128) : BitVec 16 := h.extractLsb' 91 16
def hGen (h : BitVec 128) : BitVec 4 := h.extractLsb' 87 4
def hRreg (h : BitVec 128) : BitVec 6 := h.extractLsb' 81 6
def hRen (h : BitVec 128) : Bool := h.getLsbD 80
def hRevt (h : BitVec 128) : BitVec 4 := h.extractLsb' 76 4
def hLen (h : BitVec 128) : Nat := (h.extractLsb' 68 8).toNat
def hOffset (h : BitVec 128) : Nat := (h.extractLsb' 44 24).toNat
def hCrc (h : BitVec 128) : W32 := h.extractLsb' 0 32

/-- PAGE: PKIND, CTX, POFF (Table 9.10). -/
def hPkind (h : BitVec 128) : BitVec 5 := h.extractLsb' 82 5
def hCtx (h : BitVec 128) : CtxId := (h.extractLsb' 80 2).toFin
def hPoff (h : BitVec 128) : Nat := (h.extractLsb' 46 22).toNat

/-- CTRL: CKIND, CTX, ALLCTX, AXIS, HOPS (Table 11.1). -/
def hCkind (h : BitVec 128) : BitVec 4 := h.extractLsb' 83 4
def hCctx (h : BitVec 128) : CtxId := (h.extractLsb' 81 2).toFin
def hAllCtx (h : BitVec 128) : Bool := h.getLsbD 80
def hAxis (h : BitVec 128) : BitVec 2 := h.extractLsb' 78 2
def hHops (h : BitVec 128) : Nat := (h.extractLsb' 63 5).toNat

/-- A header with SEQ and CRC still to be filled at transmission: `mid` is bits [86:76] and `low` bits [67:32]. -/
def mkHdr (ty vc : BitVec 3) (last : Bool) (tag : BitVec 16) (gen : BitVec 4) (mid : BitVec 11) (len : Nat)
    (low : BitVec 36) : BitVec 128 :=
  ty ++ vc ++ BitVec.ofBool last ++ (0 : BitVec 14) ++ tag ++ gen ++ mid ++ BitVec.ofNat 8 len ++ low ++ (0 : BitVec 32)

def pageMid (kind : BitVec 5) (c : CtxId) : BitVec 11 := kind ++ BitVec.ofNat 2 c.val ++ (0 : BitVec 4)

def pageLow (poff : Nat) : BitVec 36 := BitVec.ofNat 22 poff ++ (0 : BitVec 14)

def ctrlMid (kind : BitVec 4) (c : CtxId) (allCtx : Bool) (axis : BitVec 2) : BitVec 11 :=
  kind ++ BitVec.ofNat 2 c.val ++ BitVec.ofBool allCtx ++ axis ++ (0 : BitVec 2)

def ctrlLow (hops : Nat) : BitVec 36 := BitVec.ofNat 5 hops ++ (0 : BitVec 31)

/-- The 256 bytes of a flit with bits [31:0] of its header zero, over which its CRC is taken (R297). -/
def flitBytes (h : BitVec 128) (payload : List Byte) : List Byte :=
  leBytes 16 (h &&& ~~~(0xFFFFFFFF : BitVec 128)).toNat ++ padTo 240 payload

def flitCrc (h : BitVec 128) (payload : List Byte) : W32 := crc32 (flitBytes h payload)

/-- The header as it goes on the link: SEQ and CRC filled (R297, R298). -/
def sealHdr (h : BitVec 128) (seq : BitVec 14) (payload : List Byte) : BitVec 128 :=
  let h := setField h 107 14 (seq.setWidth 128)
  (h &&& ~~~(0xFFFFFFFF : BitVec 128)) ||| (flitCrc h payload).setWidth 128

/-- No reserved bit of the header is set, its TYPE and kind are not reserved, its VC is the one its TYPE travels on and
its LEN fits (Tables 10.2, 10.3, 9.10, 9.11, 11.1). -/
def hdrLegal (h : BitVec 128) : Bool :=
  let lenOk := decide (hLen h ≤ 240)
  match (hType h).toNat with
  | 1 => lenOk && decide (h.extractLsb' 32 12 = 0) && decide ((hVc h).toNat ≤ 5)
  | 2 => decide (h.extractLsb' 32 12 = 0) && decide (hLen h = 0) && decide ((hRreg h).toNat < 4)
  | 3 => lenOk && decide (h.extractLsb' 32 12 = 0)
  | 4 =>
    lenOk && decide (h.extractLsb' 76 4 = 0) && decide (h.extractLsb' 32 14 = 0) &&
      decide (1 ≤ (hPkind h).toNat) && decide ((hPkind h).toNat ≤ 10)
  | 5 =>
    let axisOk := if hCkind h = ckVote then decide (hAxis h ≠ 3) else decide (hAxis h = 0)
    let hopsOk := if hCkind h = ckVote then true else decide (hHops h = 0)
    let allOk := hCkind h = ckAbort || !hAllCtx h
    lenOk && decide (h.extractLsb' 76 2 = 0) && decide (h.extractLsb' 32 31 = 0) && axisOk && hopsOk && allOk &&
      decide (1 ≤ (hCkind h).toNat) && decide ((hCkind h).toNat ≤ 3)
  | _ => false

/-! ## Ports -/

/-- STATE of Table 15.23 reads trained. -/
def trained (s : State) (p : PortId) : Bool := s.ports[p].state == 2

/-- Ports that are trained, in port order. -/
def trainedPorts (s : State) : List PortId := (List.finRange 6).filter (trained s)

/-- Put a flit into the transmit queue of a link and virtual channel. -/
def sendOn (s : State) (l : Link) (vc : VcId) (hdr : BitVec 128) (payload : List Byte) : State :=
  updEnd s l fun q =>
    { q with txq := q.txq.set vc (q.txq[vc] ++ [{ hdr := hdr, payload := payload, coll := none, due := elapsed s, sent := none }]) }

def sendFlit (s : State) (p : PortId) (vc : VcId) (hdr : BitVec 128) (payload : List Byte) : State :=
  sendOn s (.port p) vc hdr payload

/-- The other direction of a link. -/
def backOf : Link → Link
  | .port p => .port p
  | .bridge a b => .bridge b a

/-- A RESP, against the direction of what it answers: on virtual channel 7 for a send (Table 10.3), on 6 for a page transaction
(R292, notes/assumptions/12). -/
def sendResp (s : State) (l : Link) (vc : VcId) (tag : BitVec 16) (gen : BitVec 4) (status : BitVec 6) : State :=
  sendOn s (backOf l) vc (mkHdr tyRESP (BitVec.ofNat 3 vc.val) true tag gen (status ++ (0 : BitVec 5)) 0 0) []

/-- Cut a byte string into pieces of at most `n` bytes, with the offset of each. -/
def pieces (n : Nat) : Nat → Nat → List Byte → List (Nat × List Byte)
  | 0, _, _ => []
  | fuel + 1, off, l =>
    if l.length ≤ n then [(off, l)] else (off, l.take n) :: pieces n fuel (off + n) (l.drop n)

/-- Send a request or answer as PAGE flits of up to 240 bytes, LAST in the last (R292). The first `blk` bytes are the
request block, which is no data: POFF counts from the byte after it (Table 9.10). -/
def sendPage (s : State) (p : PortId) (kind : BitVec 5) (c : CtxId) (tag : BitVec 16) (gen : BitVec 4) (blk : Nat)
    (bytes : List Byte) : State :=
  let ps := pieces 240 (bytes.length + 1) 0 bytes
  let last := ps.length - 1
  (ps.zipIdx).foldl (fun s e =>
    sendFlit s p 6
      (mkHdr tyPAGE 6 (decide (e.2 = last)) tag gen (pageMid kind c) e.1.2.length (pageLow (e.1.1 - blk))) e.1.2) s

/-- Send a CTRL flit. -/
def sendCtrl (s : State) (p : PortId) (mid : BitVec 11) (low : BitVec 36) (payload : List Byte) : State :=
  sendFlit s p 7 (mkHdr tyCTRL 7 true 0 0 mid payload.length low) payload

/-! ## Coordinates and ports of an axis -/

/-- The die that carries a port (Table 1.5). -/
def portDie (p : PortId) : Nat := p.val / 2 + 1

def axisLen (s : State) (a : Fin 3) : Nat :=
  match a with
  | 0 => s.boot.cfg.lx
  | 1 => s.boot.cfg.ly
  | 2 => s.boot.cfg.lz

def axisPos (s : State) (a : Fin 3) : Nat :=
  match a with
  | 0 => s.boot.cfg.x
  | 1 => s.boot.cfg.y
  | 2 => s.boot.cfg.z

def axisOf (p : PortId) : Fin 3 :=
  match p with
  | 0 => 0
  | 1 => 0
  | 2 => 1
  | 3 => 1
  | 4 => 2
  | 5 => 2

/-- The + or - port of an axis. -/
def axisPort (a : Fin 3) (plus : Bool) : PortId :=
  match a with
  | 0 => if plus then 0 else 1
  | 1 => if plus then 2 else 3
  | 2 => if plus then 4 else 5

/-- A port that leads in the + direction. -/
def portPlus (p : PortId) : Bool := p == 0 || p == 2 || p == 4

/-- Own coordinates as bytes X, Y, Z (low byte first), the form of REF and of an ABORT's origin. -/
def ownCoords (s : State) : BitVec 24 :=
  BitVec.ofNat 8 s.boot.cfg.z ++ BitVec.ofNat 8 s.boot.cfg.y ++ BitVec.ofNat 8 s.boot.cfg.x

/-- Coordinates of the neighbour on a port. -/
def neighbourCoords (s : State) (p : PortId) : BitVec 24 :=
  let stepOf (pos l : Nat) : Nat := if portPlus p then (pos + 1) % l else (pos + l - 1) % l
  let c := s.boot.cfg
  let x := if axisOf p = 0 then stepOf c.x c.lx else c.x
  let y := if axisOf p = 1 then stepOf c.y c.ly else c.y
  let z := if axisOf p = 2 then stepOf c.z c.lz else c.z
  BitVec.ofNat 8 z ++ BitVec.ofNat 8 y ++ BitVec.ofNat 8 x

/-- The module has a buddy (R34). -/
def hasBuddy (s : State) : Bool := decide (2 ≤ s.boot.cfg.lz)

/-- The port a TGT or PORT code of Table 8.15 names. -/
def portOfTgt (t : Nat) : Option PortId :=
  if h : 1 ≤ t ∧ t ≤ 6 then some ⟨t - 1, by omega⟩ else none

end Sys2Proof.Machine
end

