-- ==== Sys2Proof/Machine/Report.lean ====
section
/-! DEFINITION. What the module reports and how it stops: messages and their queues (R449 to R454), the Scree (R404 to
R410), raising a job fault with its flood and halt (R349 to R352) and HARD_FAULT (R411 to R413). -/

namespace Sys2Proof.Machine

/-! ## Codes -/

/-- Job-fault causes of Table 15.21. -/
abbrev Cause := BitVec 16

def cIllegalEncoding : Cause := 0x0001
def cPassShape : Cause := 0x0002
def cOperandLayout : Cause := 0x0003
def cScaleMismatch : Cause := 0x0004
def cChainBroken : Cause := 0x0005
def cReplayCapacity : Cause := 0x0006
def cReplayEmpty : Cause := 0x0007
def cAddressRange : Cause := 0x0008
def cVecShape : Cause := 0x0009
def cStreamOverlap : Cause := 0x000A
def cSmaxRowLength : Cause := 0x000B
def cImemRange : Cause := 0x000C
def cEventOverflow : Cause := 0x000D
def cSegmentDecl : Cause := 0x000E
def cNoSegment : Cause := 0x000F
def cPageUnmapped : Cause := 0x0010
def cWindowUnbound : Cause := 0x0011
def cWindowMismatch : Cause := 0x0012
def cMirrorMismatch : Cause := 0x0013
def cStepOrder : Cause := 0x0014
def cSegmentOverrun : Cause := 0x0020
def cRetryOverrun : Cause := 0x0021
def cRetryLength : Cause := 0x0022
def cBudgetExceeded : Cause := 0x0023
def cPromiseOverrun : Cause := 0x0024
def cMonitorDrift : Cause := 0x0025
def cBeatLimit : Cause := 0x0026
def cRailFloor : Cause := 0x0027
def cRemoteStall : Cause := 0x0028
def cLinkProtocol : Cause := 0x0030
def cLinkTimeout : Cause := 0x0031
def cFabricAddress : Cause := 0x0032
def cCollMismatch : Cause := 0x0033
def cCollHeadroom : Cause := 0x0034
def cG16ExpMismatch : Cause := 0x0035
def cCountSkew : Cause := 0x0036
def cStepMismatch : Cause := 0x0037
def cCommitRefused : Cause := 0x0038
def cWaveTimeout : Cause := 0x0039
def cResidueFault : Cause := 0x0040
def cImemError : Cause := 0x0041
def cBusError : Cause := 0x0042
def cRemoteBusError : Cause := 0x0043
def cCairnPoisoned : Cause := 0x0044
def cMirrorPoisoned : Cause := 0x0045
def cTablePoisoned : Cause := 0x0046
def cDigestMismatch : Cause := 0x0047
def cLockstepMismatch : Cause := 0x0048
def cHostAbort : Cause := 0x0050
def cInputUndervoltage : Cause := 0x0051
def cThermalTrip : Cause := 0x0052

/-- CLASS of a record (Table 13.7). -/
def clCorrected : Byte := 1
def clUncorrectable : Byte := 2
def clJobFault : Byte := 3
def clHardFault : Byte := 4

/-- SOURCE of a record (Table 13.8). -/
def srcResArray : BitVec 16 := 0x0001
def srcResVector : BitVec 16 := 0x0002
def srcResSolver : BitVec 16 := 0x0003
def srcResOther : BitVec 16 := 0x0004
def srcSramDemand : BitVec 16 := 0x0010
def srcSramMoth : BitVec 16 := 0x0011
def srcHbmDemand : BitVec 16 := 0x0020
def srcHbmMoth : BitVec 16 := 0x0021
def srcHbmRmw : BitVec 16 := 0x0022
def srcHbmRemote : BitVec 16 := 0x0023
def srcHbmPoisonIn : BitVec 16 := 0x0024
def srcFault : BitVec 16 := 0x0030

/-- Message types of Table 15.19. -/
def mtReady : Byte := 0x01
def mtAccept : Byte := 0x02
def mtReject : Byte := 0x03
def mtDone : Byte := 0x04
def mtCommit : Byte := 0x05
def mtFault : Byte := 0x06
def mtError : Byte := 0x07
def mtDigest : Byte := 0x08
def mtTelemetry : Byte := 0x09
def mtPower : Byte := 0x0A
def mtPresence : Byte := 0x0B
def mtAttest : Byte := 0x0C
def mtCont : Byte := 0x7F

def noAddr : W64 := BitVec.allOnes 64

/-! ## Message queues -/

/-- Remove the first element that satisfies `p`; none when there is none. -/
def dropFirst {α : Type} (p : α → Bool) : List α → Option (List α)
  | [] => none
  | a :: l => if p a then some l else (dropFirst p l).map (a :: ·)

/-- A queued ERROR_RECORD of CLASS CORRECTED. -/
def isCorrectedMsg (m : Msg) : Bool := m.type == mtError && m.payload.getD 2 0 == clCorrected

/-- Queue a message for a ring, with the drops of R450. -/
def ringPush (r : Ring) (m : Msg) : Ring :=
  if r.msgs.length < 256 then { r with msgs := r.msgs ++ [m] }
  else
    match dropFirst (fun q => q.type == mtTelemetry) r.msgs with
    | some l => { r with msgs := l ++ [m], mdrop := r.mdrop + 1 }
    | none =>
      match dropFirst isCorrectedMsg r.msgs with
      | some l => { r with msgs := l ++ [m], mdrop := r.mdrop + 1 }
      | none => { r with mdrop := r.mdrop + 1 }

/-- A message to the ring of one context (R452, R453). -/
def post (s : State) (c : CtxId) (type : Byte) (tag : W32) (gen : Byte) (payload : List Byte) : State :=
  updRing s c fun r =>
    ringPush r { type := type, gen := gen, tag := tag, stamp := s.cnt.count,
                 payload := padTo (if payload.length ≤ 48 then 48 else 96) payload }

/-- A message to the rings of the listed contexts. -/
def postAll (s : State) (cs : List CtxId) (type : Byte) (payload : List Byte) : State :=
  cs.foldl (fun s c => post s c type 0 0 payload) s

def openCtxs (s : State) : List CtxId := (List.finRange 4).filter fun c => s.ctxs[c].opened

/-- Rings whose EN is 1. -/
def enabledRings (s : State) : List CtxId := (List.finRange 4).filter fun c => s.host.rings[c].en

/-- A message of READY, TELEMETRY, POWER_LIMIT or PRESENCE_WINDOW goes to every enabled ring (R452). -/
def postEnabled (s : State) (type : Byte) (payload : List Byte) : State := postAll s (enabledRings s) type payload

/-! ## The Scree -/

/-- The 64 bytes of a record (Table 13.6). -/
def recBytes (r : Rec) : List Byte :=
  let fl : Byte := (0 : BitVec 1) ++ BitVec.ofBool r.acked ++ BitVec.ofBool r.coalesced ++ BitVec.ofBool r.rep ++
    BitVec.ofBool r.mirror ++ BitVec.ofBool r.cairn ++ BitVec.ofBool r.test ++ BitVec.ofBool r.nested
  let cx : Byte := (0 : BitVec 3) ++ r.stream ++ BitVec.ofBool r.ctx.isSome ++
    (match r.ctx with | some c => BitVec.ofNat 2 c.val | none => (0 : BitVec 2))
  leBytes 2 r.seq.toNat ++ [r.cls, fl] ++ leBytes 2 r.source.toNat ++ leBytes 2 r.cause.toNat ++
    leBytes 8 r.stamp.toNat ++ leBytes 8 r.paddr.toNat ++ leBytes 8 r.step.toNat ++
    [r.die, r.region, r.cluster, cx] ++ leBytes 4 r.count.toNat ++
    (match r.ref with | some v => leBytes 3 v.toNat ++ [1] | none => [0, 0, 0, 0]) ++
    leBytes 4 r.syndrome.toNat ++ leBytes 8 r.caddr.toNat ++ leBytes 4 r.lost.toNat ++ [0, 0, 0, 0]

/-- A record of CLASS UNCORRECTABLE, JOB_FAULT or HARD_FAULT that is not acknowledged (R408). -/
def unacked (r : Rec) : Bool := r.cls != clCorrected && !r.acked

def Scree.hasUnacked (q : Scree) : Bool := q.slots.any fun e => match e with | some r => unacked r | none => false

/-- Index of the first free slot; where none is free, of the record with the lowest SEQ among those that are CORRECTED
or ACKED (R410). -/
def screeSlot (q : Scree) : Option Nat :=
  match q.slots.findIdx? (fun e => e.isNone) with
  | some i => some i
  | none =>
    (q.slots.zipIdx.foldl (fun (best : Option (Nat × Nat)) e =>
      match e.1 with
      | some r =>
        if r.cls == clCorrected || r.acked then
          match best with
          | some b => if r.seq.toNat < b.1 then some (r.seq.toNat, e.2) else best
          | none => some (r.seq.toNat, e.2)
        else best
      | none => best) none).map (·.2)

/-- Send a record as an ERROR_RECORD message; with no context open it is held in the Scree only (R407). -/
def sendRec (s : State) (r : Rec) : State :=
  let p := (recBytes r).take 48
  match r.ctx with
  | some c => if (openCtxs s).isEmpty then s else post s c mtError 0 0 p
  | none => postAll s (openCtxs s) mtError p

/-- Make a record: number it, set NESTED, store it, count a loss, send it (R405, R407, R408, R410). -/
def makeRec (s : State) (r : Rec) : State × Rec :=
  let q := s.scree
  let nested := r.cls != clCorrected && q.hasUnacked
  let slot := screeSlot q
  let lost := if slot.isSome then q.lost else if q.lost = BitVec.allOnes 32 then q.lost else q.lost + 1
  let r := { r with seq := q.next, nested := nested, lost := lost }
  let slots := match slot with | some i => q.slots.set i (some r) | none => q.slots
  let windows := if r.cls == clCorrected then q.windows ++ [r.seq] else q.windows
  let s := { s with scree := { slots := slots, next := q.next + 1, lost := lost, windows := windows } }
  let h := s.host
  let s := { s with host := { h with nestedSeen := h.nestedSeen || nested,
                                     uncorrSeen := h.uncorrSeen || r.cls == clUncorrectable } }
  (sendRec s r, r)

/-- The 2 MiB frame of a record's PADDR. -/
def recFrame (r : Rec) : Nat := r.paddr.toNat / 2 ^ 21

/-- A corrected event: it adds to a record made less than 1 ms earlier at the same place, or makes one (R406). -/
def corrected (s : State) (r : Rec) : State :=
  let same (o : Rec) : Bool :=
    o.cls == clCorrected && s.scree.windows.contains o.seq && decide (now s < o.stamp.toNat + 1000000) &&
      o.source == r.source && o.die == r.die && o.region == r.region && o.cluster == r.cluster && recFrame o == recFrame r
  match s.scree.slots.findIdx? (fun e => match e with | some o => same o | none => false) with
  | some i =>
    let bump (o : Rec) : Rec :=
      { o with count := if o.count = BitVec.allOnes 32 then o.count else o.count + 1, coalesced := true }
    { s with scree := { s.scree with slots := s.scree.slots.modify i (fun e => e.map bump) } }
  | none => (makeRec s r).1

/-- A record with no place but die D0. -/
def blankRec (s : State) : Rec :=
  { seq := 0, cls := clCorrected, acked := false, coalesced := false, rep := false, mirror := false, cairn := false,
    test := false, nested := false, source := srcFault, cause := 0, stamp := s.cnt.count, paddr := noAddr, step := 0,
    die := 0, region := 0xFF, cluster := 0xFF, stream := 3, ctx := none, count := 1, ref := none, syndrome := 0,
    caddr := noAddr, lost := 0 }

/-- A record whose place is a region: its die and the context and step that the region runs. -/
def regionRec (s : State) (g : RegionId) : Rec :=
  { blankRec s with die := BitVec.ofNat 8 (dieOf s g), region := BitVec.ofNat 8 g.val, ctx := s.regions[g].ctx,
                    step := regionStep s g }

/-! ## Halting -/

/-- The step whose Chrysalis a fault of this module discards (R349, R352): CAIRN_STEP + 1 of the context, which before
the own flip of step s is s and after it s + 1. -/
def astepOf (s : State) (c : CtxId) : W64 := s.ctxs[c].cairnStep + 1

/-- A stripe with its Chrysalis discarded: its Cairn and its prior stay (R351). -/
def Stripe.discard (t : Stripe) : Stripe := { t with written := false, poison := false }

def defaultStripe : Stripe := { cairn := false, written := false, flipped := false, poison := false }

/-- Apply a change to every listed stripe, keeping the canonical form. -/
def mapStripes (f : Stripe → Stripe) (l : Sparse Stripe) : Sparse Stripe :=
  (l.map fun e => (e.1, f e.2)).filter fun e => decide (e.2 ≠ defaultStripe)

/-- Discard the Chrysalis of a context: its own versioned pages and the mirror of the same context of the Z-
neighbour (R351). -/
def discardChrysalis (h : Hbm) (c : CtxId) : Hbm :=
  { h with resids := h.resids.map fun r =>
             if r.ver && r.owner == c then { r with stripes := mapStripes Stripe.discard r.stripes } else r,
           mirrors := h.mirrors.map fun m =>
             if m.ctx == c then { m with stripes := mapStripes Stripe.discard m.stripes } else m }

/-- The registers of a stream at a halt (Table 15.12, DEBUG). -/
def snapOf (st : Stream) : DebugSnap :=
  { pc := st.pc.toNat, x := st.x, p := st.p, counter := (st.seg.map (·.counter)).getD 0,
    d := (st.seg.map (·.d)).getD 0, retries := (st.seg.map (·.retries)).getD 0, sum := st.sum }

def haltStream (st : Stream) : Stream :=
  { st with running := false, snap := snapOf st, seg := none, heldFrom := none, loadWait := 0 }

/-- A cluster with every queued and running operation abandoned (R351, notes/assumptions/11). -/
def haltCluster (c : Cluster) : Cluster :=
  { c with passQ := [], banks := Vector.replicate 2 Bank.reset, nextBank := 0, cur := none, chain := none, heldSeq := 0,
           drained := [], tileQ := [], replay := Replay.empty, vq := [], vrun := none, borrowed := false }

/-- A region with its streams halted and its operations abandoned. -/
def haltRegion (r : Region) : Region :=
  { r with streams := Vector.ofFn fun i : StreamId => haltStream r.streams[i],
           clusters := Vector.ofFn fun c : ClusterId => haltCluster r.clusters[c],
           mq := [], mrun := none, mfetched := [], masked := [],
           chans := Vector.replicate 12 Channel.reset, admitted := [], landed := [], evPend := Vector.replicate 64 EvPend.none,
           tadm := none }

/-- The link end of a module that halts: queued DATA and COLL flits go, and those held at a landing gate; their credits go back,
and CTRL flits stay (R302, R313). -/
def haltEnd (q : Port) : Port :=
  let goes (h : BitVec 128) : Bool := hType h == tyDATA || hType h == tyCOLL
  { q with held := Vector.ofFn fun v : VcId => q.held[v].filter fun f => !goes f.hdr, isOpen := Vector.replicate 8 false,
           toReturn := Vector.ofFn fun v : VcId => q.toReturn[v] + (q.held[v].filter fun f => goes f.hdr).length,
           txq := Vector.ofFn fun v : VcId => q.txq[v].filter fun t => !goes t.hdr, steps := [] }

/-- Flits that the landing gate holds at a port. -/
def gateHeld (q : Port) : Nat :=
  (List.finRange 8).foldl (fun n v => n + (q.held[v].filter fun f => hType f.hdr == tyDATA || hType f.hdr == tyCOLL).length) 0

/-- Free every tag with an outstanding transaction and step its generation; from here arriving DATA and COLL flits
are dropped, those held at a landing gate with them (R311, R313). -/
def haltFabric (s : State) : State :=
  let f := s.fab
  let gens := f.txns.foldl (fun g t => spPut (0 : BitVec 4) g t.tag.toNat (t.gen + 1)) f.gens
  let heldN := (List.finRange 6).foldl (fun n p => n + gateHeld s.ports[p]) 0
  { s with ports := Vector.ofFn fun p : PortId => haltEnd s.ports[p],
           fab := { f with txns := [], waiting := [], gens := gens, stale := f.stale + heldN, dropping := true,
                           bridges := f.bridges.map fun b => b.map haltEnd } }

/-- From the halt of a context no mirror write of its step leaves for the buddy: what is queued of them goes (R351). -/
def dropMirrorWrites (s : State) (c : CtxId) : State :=
  let its (t : Txn) : Bool := t.port == 4 && t.ask == .write && t.ctx == c &&
    (match t.who with | .chan _ _ => true | .solver _ => true | _ => false)
  let l := (s.fab.txns.filter its).map fun t => (t.tag, t.gen)
  updPort s 4 fun q => { q with txq := q.txq.set 6 (q.txq[(6 : Fin 8)].filter fun f => !l.contains (hTag f.hdr, hGen f.hdr)) }

/-- Collectives of the context's regions end with it. -/
def haltColls (s : State) (c : CtxId) : State :=
  let mine (g : RegionId) : Bool := s.regions[g].ctx == some c
  updFab s fun f => { f with colls := f.colls.filter (fun k => !mine k.g), early := f.early.filter (fun e => !mine e.g) }

/-- CMD_DONE (Table 15.19). -/
def doneBytes (opc : Byte) (status : BitVec 16) (count : W32) (ext last : Nat) : List Byte :=
  [opc, 0] ++ leBytes 2 status.toNat ++ leBytes 4 count.toNat ++ leBytes 8 ext ++ leBytes 8 last

/-- A bit for each context that has a launch armed or running. -/
def armedBits (s : State) : BitVec 4 :=
  BitVec.ofBool (busy s 3) ++ BitVec.ofBool (busy s 2) ++ BitVec.ofBool (busy s 1) ++ BitVec.ofBool (busy s 0)

/-- End the ARM_LAUNCH of a context with the given status (R447, R376). A target at L stays there while another context has a
launch armed or running (R501, R502). -/
def endLaunch (s : State) (c : CtxId) (status : BitVec 16) : State :=
  match s.ctxs[c].launch with
  | none => s
  | some l =>
    let s := moveEnvelope s
    let isIt (k : CmdRun) : Bool := k.opc == 0x08 && k.tag == l.tag && k.gen == l.gen
    let s := updRing s c fun r => { r with cmds := r.cmds.filter fun k => !isIt k }
    let s := post s c mtDone l.tag l.gen (doneBytes 0x08 status 0 l.ext (l.lastFlip.getD 0))
    let s := updCtx s c fun x => { x with launch := none }
    { s with power := { s.power with launch := if s.power.launch = 0 then 0 else armedBits s } }

/-- Steps 1 to 3 of R351 for one context: streams, operations, tags, Chrysalis. -/
def haltCtx (s : State) (c : CtxId) : State :=
  let s := { s with regions := Vector.ofFn fun g : RegionId =>
               if s.regions[g].ctx == some c then haltRegion s.regions[g] else s.regions[g] }
  let s := haltFabric (dropMirrorWrites (haltColls s c) c)
  let s := { s with hbm := discardChrysalis s.hbm c }
  let s := updCtx s c fun x => { x with tiles := [] }
  endLaunch s c 0x0003

/-! ## FAULT messages and the flood -/

def faultBytes (s : State) (c : CtxId) (a : AbortInfo) : List Byte :=
  let x := s.ctxs[c]
  let fl : Byte := (0 : BitVec 3) ++ BitVec.ofBool a.seq.isSome ++ BitVec.ofBool a.own ++ BitVec.ofBool a.all ++
    BitVec.ofBool a.hard ++ BitVec.ofBool x.priorValid
  leBytes 2 a.cause.toNat ++ leBytes 3 a.origin.toNat ++ [fl] ++ leBytes 2 (a.seq.getD 0).toNat ++
    leBytes 8 a.acount ++ leBytes 8 a.astep.toNat ++ leBytes 8 x.cairnStep.toNat ++ leBytes 1 a.lost

/-- FAULT messages: to the ring of the context, or of every open context for ALLCTX (R452, R349). -/
def sendFault (s : State) (c : CtxId) (a : AbortInfo) : State :=
  let cs := if a.all then openCtxs s else (openCtxs s).filter (· == c)
  cs.foldl (fun s c => post s c mtFault 0 0 (faultBytes s c a)) s

/-- ABORT payload (Table 11.2). -/
def abortBytes (a : AbortInfo) : List Byte :=
  leBytes 3 a.origin.toNat ++ [0] ++ leBytes 2 a.cause.toNat ++ [0, 0] ++ leBytes 8 a.acount ++ leBytes 8 a.astep.toNat

/-- An ABORT flit on each of the listed ports. -/
def floodAbort (s : State) (ps : List PortId) (c : CtxId) (a : AbortInfo) : State :=
  ps.foldl (fun s p => sendCtrl s p (ctrlMid ckAbort c a.all 0) (ctrlLow 0) (abortBytes a)) s

def busyCtxs (s : State) : List CtxId := (List.finRange 4).filter (busy s)

/-- Messages that one halt sends for the ABORTs it meets (R351). -/
def faultsPerHalt : Nat := 16

/-- A further distinct ABORT on a halted context: one more FAULT message, or one more lost fault (R351). The flag says that
a message is due. -/
def furtherAbort (h : Halt) (a : AbortInfo) (count : Nat) : Halt × Bool :=
  if h.faults < faultsPerHalt then ({ h with faults := h.faults + 1 }, true)
  else
    ({ h with lost := min 255 (h.lost + 1), lastAt := count, lastCause := a.cause, lastOrigin := a.origin,
              lastCount := a.acount, lastStep := a.astep.toNat, lastAll := a.all, reported := false }, false)

/-- A further distinct ABORT on a halted context, with its message when one is due. -/
def addAbort (s : State) (c : CtxId) (a : AbortInfo) : State :=
  match s.ctxs[c].halt with
  | none => s
  | some h =>
    let (h, due) := furtherAbort h a (now s)
    let s := updCtx s c fun x => { x with halt := some h }
    if due then sendFault s c a else s

/-- The record of a halt (R351) on a context that was halted by `a`, and the messages of the ABORTs that had waited for it. -/
def noteHalt (s : State) (c : CtxId) (a : AbortInfo) : State :=
  let ws := s.ctxs[c].waits
  let s := updCtx s c fun x =>
    { x with waits := [],
             halt := some { atCount := now s, faults := 1, lost := 0, lastAt := now s, lastCause := a.cause,
                            lastOrigin := a.origin, lastCount := a.acount, lastStep := a.astep.toNat, lastAll := a.all,
                            reported := false } }
  ws.foldl (fun s w => addAbort s c w) s

/-! ## Raising a job fault -/

/-- What a fault says: its cause, the context it belongs to (none: it lies outside the streams of one context, R349),
and the record it makes. -/
structure FaultInfo where
  cause : Cause
  ctx   : Option CtxId
  rcd   : Rec
  deriving DecidableEq, Repr

/-- The contexts a fault concerns: its own, or every busy or halted one. -/
def concerned (s : State) (f : FaultInfo) : List CtxId :=
  match f.ctx with
  | some c => [c]
  | none => (List.finRange 4).filter fun c => busy s c || s.ctxs[c].halt.isSome

/-- A ROLLBACK, a RESTORE_FROM_BUDDY or a rebuild is undoing or replacing committed state (R411). -/
def restoringNow (s : State) : Bool :=
  ((List.finRange 4).any fun c =>
    (match s.restoring[c] with
     | some r => !r.own || decide (0 < r.got)
     | none => false) || (s.hbm.rebuild[c]).isSome) ||
    (List.finRange 4).any fun c => s.host.rings[c].cmds.any fun k => k.opc == 0x0A || k.opc == 0x0B

/-- HARD_FAULT (R412): every stream and page operation stops, one record of its class, a FAULT message to every open
context. -/
def enterHardFault (s : State) (cause : Cause) (r : Rec) : State :=
  if s.hardFault then s
  else
    let s := haltFabric ((busyCtxs s).foldl haltCtx s)
    let s := { s with hardFault := true, restoring := Vector.replicate 4 none, hbm := { s.hbm with rebuild := Vector.replicate 4 none } }
    let (s, r) := makeRec s { r with cls := clHardFault, cause := cause }
    let a : AbortInfo := { cause := cause, origin := ownCoords s, acount := now s, astep := BitVec.allOnes 64, all := true,
                           own := true, hard := true, seq := some r.seq, lost := 0 }
    sendFault s 0 a

/-- An uncorrectable error that raises no job fault makes its record; while committed state is being undone or replaced it is
HARD_FAULT instead (R405, R411). -/
def noteBad (s : State) (r : Rec) : State :=
  if !s.hardFault && restoringNow s then enterHardFault s r.cause r else (makeRec s r).1

/-- Note the key of an ABORT, an own one too, so that the flood that returns is not taken for a new one; keys older than
1 ms are forgotten (R350). -/
def noteSeen (s : State) (origin : BitVec 24) (acount : Nat) (c : CtxId) : State :=
  updFab s fun f =>
    { f with seen := (origin, acount, c, now s) :: f.seen.filter fun e => decide (now s ≤ e.2.2.2 + 1000000) }

/-- Raise a job fault (R349, R351, R352, R405, R409, R411): one record; then, unless a halt covers every context it
concerns, the halt, the flood on every trained port and the FAULT messages. -/
def raiseFault (s : State) (f : FaultInfo) : State :=
  let cls := if f.rcd.cls == clUncorrectable then clUncorrectable else clJobFault
  if s.hardFault then (makeRec s { f.rcd with cls := cls, cause := f.cause }).1
  else if restoringNow s then enterHardFault s f.cause f.rcd
  else
    let cs := concerned s f
    let covered := !cs.isEmpty && cs.all fun c => s.ctxs[c].halt.isSome
    let (s, r) := makeRec s { f.rcd with cls := cls, cause := f.cause }
    if covered then s
    else
      let busyCs := cs.filter (busy s)
      let (c, astep) : CtxId × W64 :=
        match f.ctx with
        | some c => (c, astepOf s c)
        | none =>
          match busyCs with
          | c :: _ => (c, astepOf s c)
          | [] => (0, BitVec.allOnes 64)
      let a : AbortInfo := { cause := f.cause, origin := ownCoords s, acount := now s, astep := astep,
                             all := f.ctx.isNone, own := true, hard := false, seq := some r.seq, lost := 0 }
      let s := busyCs.foldl (fun s c => noteHalt (haltCtx s c) c a) s
      let s := floodAbort (noteSeen s a.origin a.acount c) (trainedPorts s) c a
      sendFault s c a

/-- A fault of a region's work: it belongs to the region's context (R349). -/
def regionFault (s : State) (g : RegionId) (cause : Cause) : State :=
  raiseFault s { cause := cause, ctx := s.regions[g].ctx, rcd := regionRec s g }

/-- A fault of one stream of a region. -/
def streamFault (s : State) (g : RegionId) (i : StreamId) (cause : Cause) : State :=
  raiseFault s { cause := cause, ctx := s.regions[g].ctx, rcd := { regionRec s g with stream := BitVec.ofNat 2 i.val } }

/-- A fault that lies outside the streams of one context, found on a die. -/
def dieFault (s : State) (d : Nat) (cause : Cause) : State :=
  raiseFault s { cause := cause, ctx := none, rcd := { blankRec s with die := BitVec.ofNat 8 d } }

/-- A fault that lies outside the streams of one context, found on D0. -/
def moduleFault (s : State) (cause : Cause) : State := dieFault s 0 cause

end Sys2Proof.Machine
end

