-- ==== Sys2Proof/Machine/Stores.lean ====
section
/-! DEFINITION. The protected stores: SEC-DED words of the on-die stores (R381 to R383), code words of HBM (R384 to
R391), narrow writes (R387) and what a finding does to the module. A word that lists no override holds valid check bits
for its data, and a read of it finds nothing. -/

namespace Sys2Proof.Machine

/-- What a check finds in a word: an error corrected, or an uncorrectable word, with the syndrome as decoded. -/
inductive Finding where
  | fixed (syndrome : W32)
  | bad (syndrome : W32)
  deriving DecidableEq, Repr

def Finding.isBad : Finding → Bool
  | .bad _ => true
  | .fixed _ => false

def Finding.synd : Finding → W32
  | .bad x => x
  | .fixed x => x

/-- The first uncorrectable word of a list of findings. -/
def firstBad (l : List (Nat × Finding)) : Option (Nat × Finding) := l.find? fun e => e.2.isBad

/-! ## On-die stores -/

def sramData (m : Sram) (w : Nat) : BitVec 128 := BitVec.ofNat 128 (memNat m.mem (16 * w) 16)

/-- The check of word `w`, and the word it delivers (R381). -/
def sramCheck (m : Sram) (w : Nat) : Option Finding × BitVec 128 :=
  let d := sramData m w
  match ovGet m.chk w with
  | none => (none, d)
  | some c =>
    let y := c ^^^ secdedCheck d (16 * w)
    if y = 0 then (none, d)
    else
      match secdedLocate y with
      | some b => (some (.fixed (y.setWidth 32)), if b < 128 then d ^^^ ((1 : BitVec 128) <<< b) else d)
      | none => (some (.bad (y.setWidth 32)), d)

/-- Findings of a read of `n` bytes from `a`, by word. -/
def sramFindings (m : Sram) (a n : Nat) : List (Nat × Finding) :=
  m.chk.filterMap fun e =>
    if 16 * e.1 < a + n && a < 16 * e.1 + 16 then ((sramCheck m e.1).1).map fun f => (e.1, f) else none

/-- The byte that a read delivers. -/
def sramByte (m : Sram) (a : Nat) : Byte :=
  match ovGet m.chk (a / 16) with
  | none => memGet m.mem a
  | some _ => ((sramCheck m (a / 16)).2).extractLsb' (8 * (a % 16)) 8

def sramBytes (m : Sram) (a : Nat) : Nat → List Byte
  | 0 => []
  | n + 1 => sramByte m a :: sramBytes m (a + 1) n

/-- Store the whole of word `w` with valid check bits. -/
def sramPutWord (m : Sram) (w : Nat) (d : BitVec 128) : Sram :=
  { mem := memPutBytes m.mem (16 * w) (leBytes 16 d.toNat), chk := ovDel m.chk w }

/-- Words that a write of `n` bytes from `a` covers in part and that are uncorrectable (R387). -/
def sramWriteBad (m : Sram) (a n : Nat) : Option (Nat × Finding) :=
  firstBad ((sramFindings m a n).filter fun e => !(a ≤ 16 * e.1 && 16 * e.1 + 16 ≤ a + n))

/-- Words that a write of `n` bytes from `a` covers in part and that its read of them corrects (R381, R387). -/
def sramWriteFixes (m : Sram) (a n : Nat) : List (Nat × Finding) :=
  (sramFindings m a n).filter fun e => !e.2.isBad && !(a ≤ 16 * e.1 && 16 * e.1 + 16 ≤ a + n)

/-- A write: words covered whole take the new data, words covered in part are corrected and merged; a word that is
uncorrectable and covered in part keeps its contents (R387). -/
def sramWrite (m : Sram) (a : Nat) (l : List Byte) : Sram :=
  let n := l.length
  let hit := m.chk.filter fun e => 16 * e.1 < a + n && a < 16 * e.1 + 16
  let kept := hit.filter fun e =>
    !(a ≤ 16 * e.1 && 16 * e.1 + 16 ≤ a + n) &&
      (match (sramCheck m e.1).1 with | some f => f.isBad | none => false)
  let m := hit.foldl (fun (q : Sram) e =>
    if kept.any (fun k => k.1 == e.1) then q else sramPutWord q e.1 (sramCheck m e.1).2) m
  if kept.isEmpty then { m with mem := memPutBytes m.mem a l }
  else
    { m with mem := (l.zipIdx).foldl (fun q e =>
        if kept.any (fun k => k.1 == (a + e.2) / 16) then q else memPut q (a + e.2) e.1) m.mem }

def sramOf (r : Region) : Store → Sram
  | .scratch => r.scratch
  | .imem => r.imem
  | .sdata => r.sdata

def setSram (r : Region) (st : Store) (m : Sram) : Region :=
  match st with
  | .scratch => { r with scratch := m }
  | .imem => { r with imem := m }
  | .sdata => { r with sdata := m }

/-- The bytes of checker test mode's scratchpad window (R399). -/
def inTestSram (s : State) (g : RegionId) (off : Nat) : Bool :=
  match s.test with
  | some t => t.region == g && decide (0xFF0000 ≤ off) && decide (off < 0x1000000)
  | none => false

/-- The record of a finding in an on-die store of a region, over the place and context given by `base`. -/
def sramRec (s : State) (base : Rec) (g : RegionId) (st : Store) (src : BitVec 16) (e : Nat × Finding) : Rec :=
  { base with cls := if e.2.isBad then clUncorrectable else clCorrected, source := src,
                       paddr := BitVec.ofNat 64 (16 * e.1), syndrome := e.2.synd,
                       test := st == .scratch && inTestSram s g (16 * e.1) }

/-- Corrected reads of an on-die store: their records, and the write-backs they leave to do (R381, R382). -/
def sramCorrected (s : State) (base : Rec) (g : RegionId) (st : Store) (src : BitVec 16) (fs : List (Nat × Finding)) : State :=
  (fs.filter fun e => !e.2.isBad).foldl (fun s e =>
    let s := corrected s (sramRec s base g st src e)
    updRegion s g fun r =>
      if r.writeBacks.contains (st, e.1) then r else { r with writeBacks := r.writeBacks ++ [(st, e.1)] }) s

/-! ## HBM -/

def frameBytes : Nat := 2097152

def framesPerDie : Nat := 393216

def frameCount : Nat := 1572864

/-- The die of a frame, and the stack of that die that holds the stripe of a byte (R255). -/
def frameDie (f : Nat) : Nat := f / framesPerDie

def stackOf (a : Nat) : Nat := a % frameBytes / 4096 % 8

def hbmData (h : Hbm) (w : Nat) : BitVec 512 := BitVec.ofNat 512 (memNat h.mem (64 * w) 64)

/-- The 32 bits of metadata of code word `w` as stored (Table 13.3). -/
def hbmMeta (h : Hbm) (w : Nat) : BitVec 32 :=
  match ovGet h.mdata w with
  | some m => m
  | none => rsCheck (hbmData h w) 0 (64 * w) ++ (0 : Byte)

/-- The check of code word `w`, and the data it delivers (R385). -/
def hbmCheck (h : Hbm) (w : Nat) : Option Finding × BitVec 512 :=
  let d := hbmData h w
  match ovGet h.mdata w with
  | none => (none, d)
  | some m =>
    let mark : Byte := m.extractLsb' 0 8
    let y := m.extractLsb' 8 24 ^^^ rsCheck d mark (64 * w)
    if y = 0 then (if mark = 0 then (none, d) else (some (.bad 0), d))
    else
      match rsLocate y with
      | some (i, e) =>
        if i < 64 then
          (if mark = 0 then (some (.fixed (y.setWidth 32)), d ^^^ (e.setWidth 512 <<< (8 * i)))
           else (some (.bad (y.setWidth 32)), d))
        else if mark ^^^ e = 0 then (some (.fixed (y.setWidth 32)), d)
        else (some (.bad (y.setWidth 32)), d)
      | none => (some (.bad (y.setWidth 32)), d)

def hbmFindings (h : Hbm) (a n : Nat) : List (Nat × Finding) :=
  h.mdata.filterMap fun e =>
    if 64 * e.1 < a + n && a < 64 * e.1 + 64 then ((hbmCheck h e.1).1).map fun f => (e.1, f) else none

def hbmByte (h : Hbm) (a : Nat) : Byte :=
  match ovGet h.mdata (a / 64) with
  | none => memGet h.mem a
  | some _ => ((hbmCheck h (a / 64)).2).extractLsb' (8 * (a % 64)) 8

def hbmBytes (h : Hbm) (a : Nat) : Nat → List Byte
  | 0 => []
  | n + 1 => hbmByte h a :: hbmBytes h (a + 1) n

/-- Store the whole of code word `w`, valid. -/
def hbmPutWord (h : Hbm) (w : Nat) (d : BitVec 512) : Hbm :=
  { h with mem := memPutBytes h.mem (64 * w) (leBytes 64 d.toNat), mdata := ovDel h.mdata w }

def hbmWriteBad (h : Hbm) (a n : Nat) : Option (Nat × Finding) :=
  firstBad ((hbmFindings h a n).filter fun e => !(a ≤ 64 * e.1 && 64 * e.1 + 64 ≤ a + n))

/-- Words that a write of `n` bytes from `a` covers in part and that its read of them corrects (R385, R387). -/
def hbmWriteFixes (h : Hbm) (a n : Nat) : List (Nat × Finding) :=
  (hbmFindings h a n).filter fun e => !e.2.isBad && !(a ≤ 64 * e.1 && 64 * e.1 + 64 ≤ a + n)

/-- A write to physical bytes (R387, R390); a pending write-back of a word that is written is dropped (R386). -/
def hbmWrite (h : Hbm) (a : Nat) (l : List Byte) : Hbm :=
  let n := l.length
  let hit := h.mdata.filter fun e => 64 * e.1 < a + n && a < 64 * e.1 + 64
  let kept := hit.filter fun e =>
    !(a ≤ 64 * e.1 && 64 * e.1 + 64 ≤ a + n) &&
      (match (hbmCheck h e.1).1 with | some f => f.isBad | none => false)
  let h' := hit.foldl (fun (q : Hbm) e =>
    if kept.any (fun k => k.1 == e.1) then q else hbmPutWord q e.1 (hbmCheck h e.1).2) h
  let mem :=
    if kept.isEmpty then memPutBytes h'.mem a l
    else (l.zipIdx).foldl (fun q e =>
      if kept.any (fun k => k.1 == (a + e.2) / 64) then q else memPut q (a + e.2) e.1) h'.mem
  { h' with mem := mem,
            writeBacks := h'.writeBacks.filter fun w =>
              !(64 * w < a + n && a < 64 * w + 64) || kept.any (fun k => k.1 == w) }

/-- Zero a physical range, with valid check bits. -/
def hbmZero (h : Hbm) (a n : Nat) : Hbm :=
  { h with mem := memZero h.mem a n, mdata := h.mdata.filter fun e => !(a ≤ 64 * e.1 && 64 * e.1 < a + n),
           writeBacks := h.writeBacks.filter fun w => !(a ≤ 64 * w && 64 * w < a + n) }

/-! ## Residencies, leaf entries and translation tables (R256, R257, Tables 9.3 and 9.4) -/

def residById (h : Hbm) (id : Nat) : Option Resid := h.resids.find? fun r => r.id == id

/-- The residency that holds the page of a context address. -/
def mapped (s : State) (c : CtxId) (a : Nat) : Option Resid :=
  match ovGet s.ctxs[c].pages (a / frameBytes) with
  | some id => residById s.hbm id
  | none => none

def updResid (h : Hbm) (id : Nat) (f : Resid → Resid) : Hbm :=
  { h with resids := h.resids.map fun r => if r.id == id then f r else r }

/-- Contexts that map a residency. -/
def mappers (s : State) (id : Nat) : List CtxId :=
  (List.finRange 4).filter fun c => s.ctxs[c].pages.any fun e => e.2 == id

def tierCode : Tier → Nat
  | .t1 => 0
  | .t2 => 1
  | .t3 => 2

/-- The leaf entry of a mapped page (Table 9.4). -/
def leafEntry (s : State) (r : Resid) : W64 :=
  let b (x : Bool) (i : Nat) : W64 := (BitVec.ofBool x).setWidth 64 <<< i
  b true 63 ||| (BitVec.ofNat 64 (tierCode r.loc.tier) <<< 61) ||| b (decide (1 < (mappers s r.id).length)) 60 |||
    b r.psn 59 ||| b r.mig.isSome 58 ||| b r.ver 55 |||
    (if r.loc.tier == .t2 then r.loc.port.setWidth 64 <<< 52 else 0) ||| BitVec.ofNat 64 (r.loc.frame % 2 ^ 31)

/-- The physical address of a table of a context: level 0 the top table, 1 and 2 the middle and leaf tables by index. -/
def tabOf (x : Ctx) (lvl i : Nat) : Option Nat := (x.tabs.find? fun e => e.1 == (lvl, i)).map (·.2)

/-- The physical addresses of the entries that a walk for a page reads, as far as their tables exist. -/
def walkAddrs (x : Ctx) (page : Nat) : List Nat :=
  ((tabOf x 0 0).map fun t => t + 8 * (page / 2 ^ 20)).toList ++
    ((tabOf x 1 (page / 2 ^ 20)).map fun t => t + 8 * (page / 2 ^ 10 % 2 ^ 10)).toList ++
    ((tabOf x 2 (page / 2 ^ 10)).map fun t => t + 8 * (page % 2 ^ 10)).toList

/-- Write an entry of a table. -/
def putEntry (s : State) (a : Nat) (v : W64) : State := updHbm s fun h => hbmWrite h a (leBytes 8 v.toNat)

/-- The leaf entry of a page as it is to read (Table 9.4); zero for a page that is not mapped. -/
def leafWord (s : State) (c : CtxId) (page : Nat) : W64 :=
  match mapped s c (page * frameBytes) with
  | some r => leafEntry s r
  | none => 0

/-- The leaf entry of a page in its table is written again. -/
def syncLeaf (s : State) (c : CtxId) (page : Nat) : State :=
  match tabOf s.ctxs[c] 2 (page / 2 ^ 10) with
  | some t => putEntry s (t + 8 * (page % 2 ^ 10)) (leafWord s c page)
  | none => s

/-- The leaf entries of every page that holds a residency of which `f` holds are written again. -/
def syncWhere (s : State) (f : Resid → Bool) : State :=
  (List.finRange 4).foldl (fun s c =>
    (s.ctxs[c].pages.filter fun e => match residById s.hbm e.2 with | some r => f r | none => false).foldl
      (fun s e => syncLeaf s c e.1) s) s

/-- The leaf entries of a residency are written again. -/
def syncResid (s : State) (id : Nat) : State := syncWhere s fun r => r.id == id

/-- A residency lies in a frame of T1. -/
def inFrame (r : Resid) (f : Nat) : Bool := r.loc.tier == .t1 && (r.loc.frame == f || (r.ver && r.loc.frame + 1 == f))

/-- Where a context's next table goes: the top table first, of 16 KiB, then the others of 8 KiB, one after another through the
table frames (R256, R257). -/
def nextTab (x : Ctx) : Option Nat :=
  let off := if x.tabs.isEmpty then 0 else 16384 + 8192 * (x.tabs.length - 1)
  (x.tables[off / frameBytes]?).map fun f => f * frameBytes + off % frameBytes

/-- A table exists, and the entry above it at `above` names it (Table 9.3). -/
def makeTab (s : State) (c : CtxId) (lvl i : Nat) (above : Option Nat) : State :=
  match tabOf s.ctxs[c] lvl i, nextTab s.ctxs[c] with
  | none, some a =>
    let s := updCtx s c fun x => { x with tabs := x.tabs ++ [((lvl, i), a)] }
    match above with
    | some e => putEntry s e ((1 : W64) <<< 63 ||| BitVec.ofNat 64 a)
    | none => s
  | _, _ => s

/-- The three tables of a page exist. -/
def makeTabs (s : State) (c : CtxId) (page : Nat) : State :=
  let s := makeTab s c 0 0 none
  let s := makeTab s c 1 (page / 2 ^ 20) ((tabOf s.ctxs[c] 0 0).map fun t => t + 8 * (page / 2 ^ 20))
  makeTab s c 2 (page / 2 ^ 10) ((tabOf s.ctxs[c] 1 (page / 2 ^ 20)).map fun t => t + 8 * (page / 2 ^ 10 % 2 ^ 10))

/-! ## What a code word holds -/

/-- What a stripe slot or frame of HBM holds (Table 13.4). -/
inductive Held where
  | cairn (c : CtxId) | prior (c : CtxId) | chrysalis (c : CtxId)
  | mcairn (c : CtxId) | mprior (c : CtxId) | mchrysalis (c : CtxId)
  | table (c : CtxId) | other
  deriving DecidableEq, Repr

/-- Which of its versions the slot `odd` of a stripe holds. -/
def slotIs (t : Stripe) (odd : Bool) : Nat := if odd == t.cairn then 0 else if t.written then 1 else 2

def stripeOf (l : Sparse Stripe) (i : Nat) : Stripe := spGet defaultStripe l i

/-- What the byte at a physical address belongs to. -/
def heldAt (s : State) (a : Nat) : Held :=
  let f := a / frameBytes
  let i := a % frameBytes / 4096
  let odd := decide (f % 2 = 1)
  let pair := f - f % 2
  match s.hbm.resids.find? fun r => r.ver && r.loc.tier == .t1 && r.loc.frame == pair with
  | some r =>
    let t := stripeOf r.stripes i
    match slotIs t odd with
    | 0 => .cairn r.owner
    | 1 => .chrysalis r.owner
    | _ => if t.flipped && s.ctxs[r.owner].priorValid then .prior r.owner else .other
  | none =>
    match s.hbm.mirrors.find? fun m => m.frame == pair with
    | some m =>
      let t := stripeOf m.stripes i
      match slotIs t odd with
      | 0 => .mcairn m.ctx
      | 1 => .mchrysalis m.ctx
      | _ => if t.flipped && s.hbm.mirrorPrior[m.ctx] then .mprior m.ctx else .other
    | none =>
      match (List.finRange 4).find? fun c => s.ctxs[c].tables.contains f with
      | some c => .table c
      | none => .other

/-- PSN in the leaf entry of every page that lies in a frame (R389). -/
def markPsn (h : Hbm) (f : Nat) : Hbm :=
  { h with resids := h.resids.map fun r =>
      if inFrame r f then { r with psn := true } else r }

/-- Write a word back as poisoned, with check symbols valid over the data as read (R389). -/
def poisonWord (h : Hbm) (w : Nat) : Hbm :=
  markPsn { h with mdata := ovPut h.mdata w (rsCheck (hbmData h w) 0xFF (64 * w) ++ (0xFF : Byte)) }
    (64 * w / frameBytes)

/-- The byte range of checker test mode's HBM window (R399). -/
def inTestHbm (s : State) (a : Nat) : Bool :=
  match s.test with
  | some t => decide (t.frame * frameBytes ≤ a) && decide (a < t.frame * frameBytes + 1048576)
  | none => false

/-- The record of a finding in HBM, over the place and context given by `base`. -/
def hbmRec (s : State) (base : Rec) (src : BitVec 16) (e : Nat × Finding) : Rec :=
  let a := 64 * e.1
  let f := a / frameBytes
  let k := heldAt s a
  let isC := match k with | .cairn _ => true | .prior _ => true | .mcairn _ => true | .mprior _ => true | _ => false
  let isM := match k with | .mcairn _ => true | .mprior _ => true | .mchrysalis _ => true | _ => false
  { base with cls := if e.2.isBad then clUncorrectable else clCorrected, source := src, paddr := BitVec.ofNat 64 a,
              die := BitVec.ofNat 8 (frameDie f), syndrome := e.2.synd, cairn := isC, mirror := isM,
              test := inTestHbm s a, rep := e.2.isBad && s.hbm.damaged.contains f }

/-- Corrected HBM reads: their records, and the write-backs they schedule (R385, R386). -/
def hbmCorrected (s : State) (base : Rec) (src : BitVec 16) (fs : List (Nat × Finding)) : State :=
  (fs.filter fun e => !e.2.isBad).foldl (fun s e =>
    let s := corrected s (hbmRec s base src e)
    updHbm s fun h => if h.writeBacks.contains e.1 then h else { h with writeBacks := h.writeBacks ++ [e.1] }) s

/-- An uncorrectable code word: it is poisoned, its frame noted, and its record is returned for the fault or the record
that the access makes of it (R389, R391). A word of the test window poisons no page outside the window (R401). -/
def hbmPoisoned (s : State) (base : Rec) (src : BitVec 16) (e : Nat × Finding) : State × Rec :=
  let r := hbmRec s base src e
  let f := 64 * e.1 / frameBytes
  let s := syncWhere (updHbm s fun h => poisonWord h e.1) fun q => inFrame q f
  let s := updHbm s fun h => if h.damaged.contains f then h else { h with damaged := f :: h.damaged }
  -- a Chrysalis found poisoned refuses the commit (R344)
  let i := 64 * e.1 % frameBytes / 4096
  let hit (l : Sparse Stripe) : Sparse Stripe := spPut defaultStripe l i { stripeOf l i with poison := true }
  let s :=
    match heldAt s (64 * e.1) with
    | .chrysalis _ => updHbm s fun h => { h with resids := h.resids.map fun q =>
        if q.ver && q.loc.tier == .t1 && q.loc.frame == f - f % 2 then { q with stripes := hit q.stripes } else q }
    | .mchrysalis _ => updHbm s fun h => { h with mirrors := h.mirrors.map fun q =>
        if q.frame == f - f % 2 then { q with stripes := hit q.stripes } else q }
    | _ => s
  (s, r)

/-- A narrow write that an uncorrectable word refuses: the word keeps its contents and mark (R387), its frame is noted, and its
record is returned for the bus error of the writer (R391, R397). -/
def hbmRefused (s : State) (base : Rec) (e : Nat × Finding) : State × Rec :=
  let r := hbmRec s base srcHbmRmw e
  let f := 64 * e.1 / frameBytes
  (updHbm s fun h => if h.damaged.contains f then h else { h with damaged := f :: h.damaged }, r)

/-- A write to HBM as its writer sees it: a word covered in part is read first, and a corrected read makes its record; a refused
write is not performed, and the record of the word that refuses it is returned (R385, R387, R405). -/
def hbmStore (s : State) (base : Rec) (a : Nat) (l : List Byte) : State × Option Rec :=
  match hbmWriteBad s.hbm a l.length with
  | some b =>
    let (s, r) := hbmRefused s base b
    (s, some r)
  | none =>
    let s := hbmCorrected s base srcHbmRmw (hbmWriteFixes s.hbm a l.length)
    (updHbm s fun h => hbmWrite h a l, none)

/-- A write to the pool: a word covered whole carries its poison no more (R390, notes/assumptions/20). -/
def poolPut (h : Hbm) (a : Nat) (l : List Byte) : Hbm :=
  { h with pool := memPutBytes h.pool a l, poolBad := h.poolBad.filter fun w => !(a ≤ 64 * w && 64 * w + 64 ≤ a + l.length) }

/-- Words of the pool that carry poison among `n` bytes from `a` (R389, R390). -/
def poolHits (h : Hbm) (a n : Nat) : List Nat := h.poolBad.filter fun w => 64 * w < a + n && a < 64 * w + 64

/-- The record of a poisoned word that the pool delivers. -/
def poolRec (base : Rec) (w : Nat) : Rec :=
  { base with cls := clUncorrectable, source := srcHbmPoisonIn, paddr := BitVec.ofNat 64 (64 * w) }

/-- Bytes with those of the affected 64-byte units as zeros (R397). -/
def zeroUnits (a : Nat) (ws : List Nat) (l : List Byte) : List Byte :=
  (l.zipIdx).map fun b => if ws.contains ((a + b.2) / 64) then 0 else b.1

/-- The bus error of an access to HBM (R397, Table 13.5): a job fault with the given cause, or in the test window the
record alone (R401). -/
def busFault (s : State) (cause : Cause) (ctx : Option CtxId) (r : Rec) : State :=
  if r.test then (makeRec s { r with cause := 0 }).1
  else raiseFault s { cause := cause, ctx := ctx, rcd := r }

end Sys2Proof.Machine
end

