-- ==== Sys2Proof/Machine/Pages.lean ====
section
/-! DEFINITION. Context ranges: residencies, leaf entries and quotas (Memory tiers), page transactions (PAGE flits),
versioned stripes (Steps, commit and restart) and the digests of channel writes (R421 to R423). -/

namespace Sys2Proof.Machine

/-! ## Residencies and translation -/

/-- Physical address of a byte of a T1 page: the Cairn slot, or for a program read the Chrysalis slot of a stripe that
the step has written (R336, R337). -/
def physOf (r : Resid) (off : Nat) (prog : Bool) : Nat :=
  if r.ver then
    let t := stripeOf r.stripes (off / 4096)
    let odd := if prog && t.written then !t.cairn else t.cairn
    (r.loc.frame + (if odd then 1 else 0)) * frameBytes + off
  else r.loc.frame * frameBytes + off

/-! ## Quotas -/

/-- Pages of T1 that a residency takes. -/
def weight (r : Resid) : Nat := if r.ver then 2 else 1

/-- Table pages of a context once pages are mapped beside those it maps: one top table of 16 KiB and tables of 8 KiB, in whole
pages (R256, R257). -/
def tablePages (x : Ctx) (more : List Nat) : Nat :=
  let new (lvl k : Nat) : Nat := ((more.map (· / k)).eraseDups.filter fun i => (tabOf x lvl i).isNone).length
  if more.isEmpty then x.tables.length
  else ceilDiv (16384 + 8192 * ((x.tabs.length - 1) + new 1 (2 ^ 20) + new 2 (2 ^ 10))) frameBytes

/-- Pages that a context owns in a tier: its residencies, the frames a migration is moving to, pages reserved for a
pending eviction, and in T1 its tables (R263, R267, R257). -/
def owned (s : State) (c : CtxId) (t : Tier) : Nat :=
  let per (r : Resid) : Nat :=
    if r.owner == c then
      (if r.loc.tier == t then weight r else 0) +
        (match r.mig with | some m => if m.dst.tier == t then 1 else 0 | none => 0) +
        (match r.evicting with | some l => if l.tier == t then 1 else 0 | none => 0)
    else 0
  (s.hbm.resids.map per).foldl (· + ·) 0 + (if t == .t1 then s.ctxs[c].tables.length else 0)

def quota (s : State) (c : CtxId) (t : Tier) : Nat :=
  match t with
  | .t1 => s.boot.cfg.qT1.getD c.val 0
  | .t2 => s.boot.cfg.qT2.getD c.val 0
  | .t3 => s.boot.cfg.qT3.getD c.val 0

/-- Pages this module lends: frames lent to borrowers and two for each mirrored page (Table 9.5, R336). -/
def lentPages (s : State) : Nat := s.hbm.lent.length + 2 * s.hbm.mirrors.length

/-! ## Frames -/

/-- Frames in use: pages, migration targets, tables, lent frames, mirrors and the test window. -/
def usedFrames (s : State) : List Nat :=
  (s.hbm.resids.flatMap fun r =>
    (if r.loc.tier == .t1 then (if r.ver then [r.loc.frame, r.loc.frame + 1] else [r.loc.frame]) else []) ++
      (match r.mig with | some m => if m.dst.tier == .t1 then [m.dst.frame] else [] | none => [])) ++
    ((List.finRange 4).flatMap fun c => s.ctxs[c].tables) ++
    (s.hbm.lent.map fun l => l.frame) ++ (s.hbm.mirrors.flatMap fun m => [m.frame, m.frame + 1]) ++
    (match s.test with | some t => [t.frame] | none => [])

/-- The first free unit (of `k` frames) from unit `u` on, wrapping round `n` units. -/
def findFree (usedL : List Nat) (k n : Nat) : Nat → Nat → Option Nat
  | 0, _ => none
  | fuel + 1, u =>
    let u := u % n
    if usedL.any fun f => f / k == u then findFree usedL k n fuel (u + 1) else some (u * k)

/-- A free frame; which one is a free choice (notes/assumptions/7). -/
def allocFrame (s : State) : Option (Nat × State) :=
  let usedL := usedFrames s
  (findFree usedL 1 frameCount (usedL.length + 1) (Config.freeFrame s.freeCtr)).map fun f => (f, { s with freeCtr := s.freeCtr + 1 })

/-- A free aligned pair of frames for a versioned page (R336) on a die, if it has one. -/
def pairOn (s : State) (d : Nat) : Option Nat :=
  let usedL := ((usedFrames s).filter fun f => frameDie f == d).map (· - d * framesPerDie)
  (findFree usedL 2 (framesPerDie / 2) (usedL.length + 1) (Config.freeFrame s.freeCtr)).map (· + d * framesPerDie)

/-- A free pair for a versioned page, on the die that an owner and its buddy both take for that page, or else on the next die
that has one (R336, R341, notes/assumptions/19). -/
def allocPair (s : State) (page : Nat) : Option (Nat × State) :=
  ((List.range 4).findSome? fun i => pairOn s ((page + i) % 4)).map fun f => (f, { s with freeCtr := s.freeCtr + 1 })

/-! ## Page transactions as requester (R292, R311) -/

/-- A free TAG and its generation, when one of the 65,536 is free (R311). -/
def drawTag (s : State) : Option (BitVec 16 × BitVec 4 × State) :=
  let usedL := s.fab.txns.map fun t => t.tag.toNat
  (findFree usedL 1 65536 (usedL.length + 1) (Config.freeTag s.freeCtr)).map fun t =>
    (BitVec.ofNat 16 t, spGet 0 s.fab.gens t, { s with freeCtr := s.freeCtr + 1 })

/-- Start a page transaction, or let it wait for a free tag: draw its tag, note it and send its request. -/
def beginTxn (s : State) (w : TxnWait) : State :=
  match drawTag s with
  | none => updFab s fun f => { f with waiting := f.waiting ++ [w] }
  | some (tag, gen, s) =>
    let t : Txn := { tag := tag, gen := gen, port := w.port, who := w.who, ask := w.ask, ctx := w.ctx, addr := w.addr,
                     len := w.len, data := [] }
    sendPage (updFab s fun f => { f with txns := f.txns ++ [t] }) w.port w.kind w.ctx tag gen w.blk w.bytes

def startTxn (s : State) (p : PortId) (who : Who) (ask : Ask) (c : CtxId) (addr len : Nat) (kind : BitVec 5)
    (blk : Nat) (bytes : List Byte) : State :=
  beginTxn s { port := p, who := who, ask := ask, ctx := c, addr := addr, len := len, kind := kind, blk := blk, bytes := bytes }

/-- A tag is free again: the transaction that has waited longest for one starts. -/
def nextWaiting (s : State) : State :=
  match s.fab.waiting with
  | [] => s
  | w :: rest => beginTxn (updFab s fun f => { f with waiting := rest }) w

/-- A transaction ends: its tag is free again (R311). -/
def freeTxn (s : State) (t : Txn) : State :=
  nextWaiting (updFab s fun b => { b with txns := b.txns.filter fun x => !(x.tag == t.tag && x.gen == t.gen) })

/-- Whether some transaction of `who` is outstanding, beside a send within a die. -/
def waitsFor (s : State) (who : Who) : Bool :=
  (s.fab.txns.any fun t => t.who == who && t.ask != .near) || s.fab.waiting.any fun w => w.who == who

/-- Address block of Table 9.12. -/
def addrBlock (addr len : Nat) (flags : Nat) : List Byte := leBytes 8 addr ++ leBytes 4 len ++ leBytes 4 flags

/-- FLAGS of an address block: SPACE LENT; MIRROR with SLOT STEP; MIRROR with SLOT CAIRN, without and with HOST. -/
def spLent : Nat := 0
def spStep : Nat := 1
def spCairn : Nat := 5
def spCairnHost : Nat := 21

/-- Join ascending 64-byte units into runs that stay within an aligned 16 KiB. -/
def unitRuns : List Nat → List (Nat × Nat)
  | [] => []
  | u :: rest =>
    match unitRuns rest with
    | (v, n) :: more =>
      if v == u + 64 && v / 16384 == u / 16384 then (u, n + 64) :: more else (u, 64) :: (v, n) :: more
    | [] => [(u, 64)]

def portCode (r : Resid) : Option PortId := portOfTgt r.loc.port.toNat

/-- Ask a lender for the 64-byte units of context addresses that lie in T2 (R293). -/
def fetchUnits (s : State) (who : Who) (c : CtxId) (units : List Nat) : State :=
  (unitRuns units).foldl (fun s e =>
    match mapped s c e.1 with
    | some r =>
      match portCode r with
      | some p =>
        startTxn s p who .read r.loc.lentTo e.1 e.2 pkRdReq 16
          (addrBlock (r.loc.frame * frameBytes + e.1 % frameBytes) e.2 spLent)
      | none => s
    | none => s) s

/-- Insert into an ascending list without repeats. -/
def insNat (x : Nat) : List Nat → List Nat
  | [] => [x]
  | a :: l => if x < a then x :: a :: l else if x = a then a :: l else a :: insNat x l

/-- The units of the listed addresses that lie in T2 pages. -/
def t2Units (s : State) (c : CtxId) (addrs : List Nat) : List Nat :=
  addrs.foldl (fun acc a =>
    match mapped s c a with
    | some r => if r.loc.tier == .t2 then insNat (a / 64 * 64) acc else acc
    | none => acc) []

/-! ## Digest ranges (R420 to R423) -/

/-- H of R420 for a layer identifier in a step. -/
def digestKey (ds : BitVec 128) (lid : BitVec 16) (step : Nat) : BitVec 128 :=
  let l := shake256 (leBytes 16 ds.toNat ++ leBytes 2 lid.toNat ++ leBytes 8 step) 32
  let h := BitVec.ofNat 128 (leNat (l.take 16))
  if h = 0 then BitVec.ofNat 128 (leNat (l.drop 16)) else h

def DigestEnt.tiles (d : DigestEnt) : Nat := d.len / frameBytes

/-- KIND 0x02. -/
def DigestEnt.replica (d : DigestEnt) : Bool := d.kind == 2

/-- Offsets of the digest records of a map in its digest area, and the length of the area (R423). -/
def digestOffsets (l : List DigestEnt) : List Nat × Nat :=
  l.foldl (fun acc d => (acc.1 ++ [acc.2], acc.2 + 64 + (if d.replica then 32 * d.tiles else 0))) ([], 0)

def inDigestArea (x : Ctx) (a : Nat) : Bool :=
  !x.dmap.isEmpty && decide (x.darea ≤ a) && decide (a < x.darea + (digestOffsets x.dmap).2)

/-- Add into the entry of a (range, tile) pair. -/
def tileAdd (l : List ((Nat × Nat) × TileDig)) (k : Nat × Nat) (d : BitVec 128) (n : Nat) :
    List ((Nat × Nat) × TileDig) :=
  match l with
  | [] => [(k, { digest := d, nonfin := n })]
  | e :: rest =>
    if e.1 == k then (k, { digest := e.2.digest ^^^ d, nonfin := min (e.2.nonfin + n) (2 ^ 32 - 1) }) :: rest
    else e :: tileAdd rest k d n

/-! ## Engine access -/

/-- Whether an operation's context writes are mirrored: not at all, as a DCOPY with MIR = 1, or as the sequencer
mirrors them (R339). -/
inductive MirMode where
  | off | dcopy | solver
  deriving DecidableEq, Repr

/-- A run of consecutive bytes that an operation is writing, from the lowest address up: the controller takes it as one
write, whole words of it whole and its ends as narrow writes (R387). The flag says that the byte is let through; `caddr`
is the context address of the first byte written. -/
structure WriteRun where
  lo    : Nat
  bytes : List (Byte × Bool)
  caddr : Nat
  deriving DecidableEq, Repr

def WriteRun.empty : WriteRun := { lo := 0, bytes := [], caddr := 0 }

/-- The run with the bytes `l` at `a` added at either end; none when they do not adjoin it. -/
def WriteRun.push (w : WriteRun) (a : Nat) (l : List Byte) (go : Bool) (caddr : Nat) : Option WriteRun :=
  let x := l.map fun b => (b, go)
  if w.bytes.isEmpty then some { lo := a, bytes := x, caddr := caddr }
  else if a == w.lo + w.bytes.length then some { w with bytes := w.bytes ++ x }
  else if a + l.length == w.lo then some { w with lo := a, bytes := x ++ w.bytes }
  else none

/-- The part of the run that is let through, with its address. -/
def WriteRun.through (w : WriteRun) : Nat × List Byte :=
  (w.lo + (w.bytes.takeWhile fun b => !b.2).length, (w.bytes.filter fun b => b.2).map (·.1))

/-- The run reaches into a `u`-byte word of the `n` bytes from `a`. -/
def WriteRun.meets (w : WriteRun) (u a n : Nat) : Bool :=
  !w.bytes.isEmpty && decide (w.lo / u * u < a + n) && decide (a / u * u < w.lo + w.bytes.length)

/-- An engine at work for one operation: the state, the region's scratchpad, and what the operation has met. Once it
has stopped it reads zeros and writes nothing (Table 13.5). -/
structure Eng where
  s     : State
  g     : RegionId
  m     : Sram
  base  : Rec
  mir   : MirMode
  /-- The job fault or bus error that stopped it. -/
  stop  : Option (Cause × Rec)
  /-- Writes still let through, for an operation that will stop (notes/assumptions/14). -/
  limit : Option Nat
  fixes : List (Nat × Finding)
  fetched : Mem
  /-- Bytes written to T2 pages and to mirrored pages, by context address. -/
  out   : Sparse Byte
  /-- Bytes written into digest ranges, by context address, and the key of each range. -/
  dig   : Sparse Byte
  keys  : List (BitVec 128)
  tiles : List ((Nat × Nat) × TileDig)
  flags : AF
  /-- The runs being written to scratchpad and to HBM, gathered while some word there may be in error. -/
  sbuf  : WriteRun
  hbuf  : WriteRun
  deriving DecidableEq, Repr

def engCtx (e : Eng) : Option CtxId := e.s.regions[e.g].ctx

/-- The step number that random draws and digests use. -/
def engStep (s : State) (g : RegionId) : Nat := (regionStep s g).toNat

/-- Open an engine on a region. -/
def engOpen (s : State) (g : RegionId) (cl : Byte) (i : StreamId) (mir : MirMode) (limit : Option Nat)
    (fetched : Mem) : Eng :=
  let keys :=
    match s.regions[g].ctx with
    | some c =>
      if (curStep s c).isSome then s.ctxs[c].dmap.map fun d => digestKey s.ctxs[c].ds d.lid (engStep s g) else []
    | none => []
  { s := s, g := g, m := s.regions[g].scratch,
    base := { regionRec s g with cluster := cl, stream := BitVec.ofNat 2 i.val },
    mir := mir, stop := none, limit := limit, fixes := [], fetched := fetched, out := [], dig := [],
    keys := keys, tiles := [], flags := 0, sbuf := WriteRun.empty, hbuf := WriteRun.empty }

def engStop (e : Eng) (cause : Cause) (r : Rec) : Eng :=
  match e.stop with
  | some _ => e
  | none => { e with stop := some (cause, r) }

/-- Spend one write of the limit; false when the write is not let through. -/
def engSpend (e : Eng) : Bool × Eng :=
  match e.limit with
  | none => (true, e)
  | some 0 => (false, e)
  | some (n + 1) => (true, { e with limit := some n })

def engFlag (e : Eng) (f : AF) : Eng := { e with flags := e.flags ||| f }

/-- Findings of scratchpad words that are corrected as they are read, each noted once for the record it makes. -/
def engFix (e : Eng) (fs : List (Nat × Finding)) : Eng :=
  { e with fixes := (fs.filter fun f => !f.2.isBad).foldl (fun l f => if l.any (fun k => k.1 == f.1) then l else l ++ [f]) e.fixes }

/-- An uncorrectable scratchpad word stops the operation (R397). -/
def engSramStop (e : Eng) (b : Nat × Finding) : Eng :=
  engStop e cBusError (sramRec e.s e.base e.g .scratch srcSramDemand b)

/-- Perform the gathered run of scratchpad writes (R387, R397). -/
def engFlushSram (e : Eng) : Eng :=
  if e.sbuf.bytes.isEmpty then e
  else
    let w := e.sbuf
    let e := { e with sbuf := WriteRun.empty }
    match sramWriteBad e.m w.lo w.bytes.length with
    | some b => engSramStop e b
    | none =>
      let e := engFix e (sramWriteFixes e.m w.lo w.bytes.length)
      { e with m := sramWrite e.m w.through.1 w.through.2 }

/-- Read scratchpad bytes (R381, R397). -/
def engRead (e : Eng) (off n : Nat) : List Byte × Eng :=
  if e.stop.isSome then (List.replicate n 0, e)
  else if e.m.chk.isEmpty then (memBytes e.m.mem off n, e)
  else
    let e := if e.sbuf.meets 16 off n then engFlushSram e else e
    let fs := sramFindings e.m off n
    let e := engFix e fs
    match firstBad fs with
    | some b => (List.replicate n 0, engSramStop e b)
    | none => (sramBytes e.m off n, e)

/-- Write scratchpad bytes (R387). -/
def engWrite (e : Eng) (off : Nat) (l : List Byte) : Eng :=
  if e.stop.isSome then e
  else
    let (go, e) := engSpend e
    if e.m.chk.isEmpty then (if go then { e with m := { e.m with mem := memPutBytes e.m.mem off l } } else e)
    else
      match e.sbuf.push off l go 0 with
      | some w => { e with sbuf := w }
      | none =>
        let e := engFlushSram e
        { e with sbuf := { lo := off, bytes := l.map fun b => (b, go), caddr := 0 } }

/-- Translation cache use: the entry of a page is the most recently used of at most 512 (R258). -/
def touchPage (r : Region) (p : Nat) (v : W64) : Region :=
  { r with tcache := ((p, v) :: r.tcache.filter (·.1 != p)).take 512 }

def caddrRec (r : Rec) (a : Nat) : Rec := { r with caddr := BitVec.ofNat 64 a }

/-- Settle the findings of an HBM access of an engine: corrections recorded; an uncorrectable word poisoned and the
engine stopped with the given cause (R385, R389, R397). -/
def engFindings (e : Eng) (src : BitVec 16) (cause : Cause) (a : Nat) (fs : List (Nat × Finding)) : Eng :=
  if fs.isEmpty then e
  else
    let e := { e with s := hbmCorrected e.s (caddrRec e.base a) src fs }
    match firstBad fs with
    | some b =>
      let (s, r) := hbmPoisoned e.s (caddrRec e.base a) src b
      engStop { e with s := s } cause r
    | none => e

/-- Perform the gathered run of HBM writes (R387, R397). -/
def engFlushHbm (e : Eng) : Eng :=
  if e.hbuf.bytes.isEmpty then e
  else
    let w := e.hbuf
    let e := { e with hbuf := WriteRun.empty }
    match hbmWriteBad e.s.hbm w.lo w.bytes.length with
    | some b =>
      let (s, r) := hbmRefused e.s (caddrRec e.base w.caddr) b
      engStop { e with s := s } cBusError r
    | none =>
      let s := hbmCorrected e.s (caddrRec e.base w.caddr) srcHbmRmw (hbmWriteFixes e.s.hbm w.lo w.bytes.length)
      { e with s := updHbm s fun h => hbmWrite h w.through.1 w.through.2 }

/-- Translate a context address through the region's cache (R258): an entry held there is used; otherwise the walk reads the
three tables, an uncorrectable word of which is a bus error of the operation (Table 13.5), and the leaf entry enters. -/
def engTranslate (e : Eng) (c : CtxId) (a : Nat) : Eng :=
  let p := a / frameBytes
  match e.s.regions[e.g].tcache.find? (·.1 == p) with
  | some k => { e with s := updRegion e.s e.g fun q => touchPage q p k.2 }
  | none =>
    let e := (walkAddrs e.s.ctxs[c] p).foldl (fun e w =>
      if e.stop.isSome then e else engFindings e srcHbmDemand cBusError a (hbmFindings e.s.hbm w 8)) e
    if e.stop.isSome then e
    else { e with s := updRegion e.s e.g fun q => touchPage q p (leafWord e.s c p) }

/-- Perform every gathered write. -/
def engFlush (e : Eng) : Eng := engFlushHbm (engFlushSram e)

/-- Read bytes at a context address, within one 64-byte unit (R256, R259, R270, R337, R397). -/
def engCtxRead (e : Eng) (a n : Nat) : List Byte × Eng :=
  if e.stop.isSome then (List.replicate n 0, e)
  else
    match engCtx e with
    | none => (List.replicate n 0, engStop e cPageUnmapped (caddrRec e.base a))
    | some c =>
      match mapped e.s c a with
      | none => (List.replicate n 0, engStop e cPageUnmapped (caddrRec e.base a))
      | some r =>
        let e := engTranslate e c a
        if e.stop.isSome then (List.replicate n 0, e)
        else
          match r.loc.tier with
          | .t1 =>
            let ph := physOf r (a % frameBytes) true
            let e := if e.hbuf.meets 64 ph n then engFlushHbm e else e
            let b := hbmBytes e.s.hbm ph n
            (b, if e.s.hbm.mdata.isEmpty then e
                else engFindings e srcHbmDemand cBusError a (hbmFindings e.s.hbm ph n))
          | .t2 => ((List.range n).map fun i => (ovGet e.out (a + i)).getD (memGet e.fetched (a + i)), e)
          | .t3 =>
            let ph := r.loc.frame * frameBytes + a % frameBytes
            match (poolHits e.s.hbm ph n).head? with
            | some w => (List.replicate n 0, engStop e cBusError (poolRec (caddrRec e.base a) w))
            | none => (memBytes e.s.hbm.pool ph n, e)

/-- The copy of a stripe's Cairn into its Chrysalis slot before the first write of a step (R338): the slots, what the
read of the Cairn finds, and the stripe afterwards. -/
def stripeCopy (h : Hbm) (frame : Nat) (t : Stripe) (i : Nat) : Hbm × List (Nat × Finding) :=
  let src := (frame + (if t.cairn then 1 else 0)) * frameBytes + i * 4096
  let dst := (frame + (if t.cairn then 0 else 1)) * frameBytes + i * 4096
  let fs := hbmFindings h src 4096
  let h' := { hbmZero h dst 4096 with mem := memCopy h.mem src dst 4096 }
  -- corrected words are copied as delivered
  let h' := (fs.filter fun f => !f.2.isBad).foldl (fun (q : Hbm) f =>
    { q with mem := memPutBytes q.mem (64 * f.1 - src + dst) (leBytes 64 (hbmCheck h f.1).2.toNat) }) h'
  (h', fs)

/-- The coordinates of the buddy, for REF (Table 13.4). -/
def buddyRef (s : State) : Option (BitVec 24) := if hasBuddy s then some (neighbourCoords s 4) else none

/-- The first write of a step to a versioned stripe (R338). -/
def engFirstWrite (e : Eng) (c : CtxId) (r : Resid) (a : Nat) (go : Bool) : Eng :=
  let i := a % frameBytes / 4096
  let t := stripeOf r.stripes i
  if t.written then e
  else
    let (h, fs) := stripeCopy e.s.hbm r.loc.frame t i
    let e := { e with s := hbmCorrected e.s (caddrRec e.base a) srcHbmDemand fs }
    match firstBad fs with
    | some b =>
      let (s, q) := hbmPoisoned e.s (caddrRec e.base a) srcHbmDemand b
      engStop { e with s := s } cCairnPoisoned { q with cairn := true, ref := buddyRef s }
    | none =>
      if !go then e else
      let s := { e.s with hbm := { h with writeBacks := e.s.hbm.writeBacks } }
      let s := updHbm s fun h => updResid h r.id fun q =>
        { q with stripes := spPut defaultStripe q.stripes i { t with written := true } }
      { e with s := if t.flipped then updCtx s c fun x => { x with priorValid := false } else s }

/-- Note a write for the digests of the context (R421). -/
def engDigest (e : Eng) (c : CtxId) (a : Nat) (l : List Byte) : Eng :=
  if e.keys.isEmpty then e
  else
    (e.s.ctxs[c].dmap.zipIdx).foldl (fun e k =>
      let d := k.1
      if d.base ≤ a && a < d.base + d.len then
        let j := (a - d.base) / 16
        let v : BitVec 128 := BitVec.ofNat 128 (leNat l) <<< (8 * (a % 16))
        let h := e.keys.getD k.2 0
        { e with tiles := tileAdd e.tiles (k.2, (a - d.base) / frameBytes) (gfMul v (gfPow h (j + 1))) 0,
                 dig := (l.zipIdx).foldl (fun q b => ovPut q (a + b.2) b.1) e.dig }
      else e) e

/-- Store into a T1 page at a physical address. -/
def engHbmWrite (e : Eng) (a ph : Nat) (l : List Byte) (go : Bool) : Eng :=
  if e.s.hbm.mdata.isEmpty then (if go then { e with s := updHbm e.s fun h => hbmWrite h ph l } else e)
  else
    match e.hbuf.push ph l go a with
    | some w => { e with hbuf := w }
    | none =>
      let e := engFlushHbm e
      { e with hbuf := { lo := ph, bytes := l.map fun b => (b, go), caddr := a } }

def noteOut (e : Eng) (a : Nat) (l : List Byte) : Eng :=
  { e with out := (l.zipIdx).foldl (fun q b => ovPut q (a + b.2) b.1) e.out }

/-- Write bytes at a context address, within one 16-byte block (R338, R339, R387, R421, R423). -/
def engCtxWrite (e : Eng) (a : Nat) (l : List Byte) : Eng :=
  if e.stop.isSome then e
  else
    let (go, e) := engSpend e
    match engCtx e with
    | none => engStop e cPageUnmapped (caddrRec e.base a)
    | some c =>
      match mapped e.s c a with
      | none => engStop e cPageUnmapped (caddrRec e.base a)
      | some r =>
        if inDigestArea e.s.ctxs[c] a then engStop e cAddressRange (caddrRec e.base a)
        else if (r.ver && e.mir == .off) || (!r.ver && e.mir == .dcopy) then
          engStop e cMirrorMismatch (caddrRec e.base a)
        else
          let e := engTranslate e c a
          let e := if e.stop.isSome then e else
            match r.loc.tier with
            | .t1 =>
              let e := if r.ver then engFirstWrite e c r a go else e
              if e.stop.isSome then e
              else
                match mapped e.s c a with
                | some r =>
                  let e := engHbmWrite e a (physOf r (a % frameBytes) true) l go
                  if r.ver && go then noteOut e a l else e
                | none => e
            | .t2 =>
              if !go then e
              else
                let e := noteOut e a l
                match r.mig with
                | some mg =>
                  { e with s := updHbm e.s fun h => updResid h r.id fun q =>
                      { q with mig := some { mg with late := (l.zipIdx).foldl (fun q b =>
                          ovPut q (a % frameBytes + b.2) b.1) mg.late } } }
                | none => e
            | .t3 =>
              if !go then e
              else
                { e with s := updHbm e.s fun h => poolPut h (r.loc.frame * frameBytes + a % frameBytes) l }
          if e.stop.isSome || !go then e else engDigest e c a l

/-- Non-finite elements among the bytes written into a digest range (R422): each element of the range's FMT all of whose
bytes were written. -/
def countNonfin (d : DigestEnt) (dig : Sparse Byte) : List (Nat × Nat) :=
  let w := fmtBits d.fmt / 8
  if w = 0 then []
  else
    dig.filterMap fun b =>
      let a := b.1
      if d.base ≤ a && a < d.base + d.len && (a - d.base) % w == 0 then
        let l := (List.range w).map fun i => ovGet dig (a + i)
        if l.all (·.isSome) && nonFinite d.fmt (leNat (l.map fun x => x.getD 0)) then
          some ((a - d.base) / frameBytes, 1)
        else none
      else none

/-- The units of bytes written. -/
def outUnits (o : Sparse Byte) : List Nat := o.foldl (fun l b => insNat (b.1 / 64 * 64) l) []

/-- Send what was written to T2 pages to their lenders, and to versioned pages to the buddy's mirror, in whole 64-byte
units (R293, R341). -/
def sendOut (s : State) (who : Who) (c : CtxId) (fetched : Mem) (o : Sparse Byte) : State :=
  (unitRuns (outUnits o)).foldl (fun s e =>
    match mapped s c e.1 with
    | none => s
    | some r =>
      let off := e.1 % frameBytes
      match r.loc.tier with
      | .t2 =>
        match portCode r with
        | some p =>
          let data := (List.range e.2).map fun i => (ovGet o (e.1 + i)).getD (memGet fetched (e.1 + i))
          startTxn s p who .write r.loc.lentTo e.1 e.2 pkWrReq 16
            (addrBlock (r.loc.frame * frameBytes + off) e.2 spLent ++ data)
        | none => s
      | _ =>
        if r.ver && hasBuddy s then
          startTxn s 4 who .write c e.1 e.2 pkWrReq 16
            (addrBlock e.1 e.2 spStep ++ hbmBytes s.hbm (physOf r off true) e.2)
        else s) s

/-- Close an engine: the scratchpad goes back into its region, corrections are recorded, writes bound for other modules
are sent, and the operation's digest contribution is returned (R421, R422). -/
def engClose (e : Eng) (who : Who) : State × List ((Nat × Nat) × TileDig) :=
  let s := updRegion e.s e.g fun r =>
    { r with scratch := e.m,
             writeBacks := r.writeBacks.filter fun w =>
               w.1 != .scratch || (ovGet e.m.chk w.2).isSome }
  let s := sramCorrected s e.base e.g .scratch srcSramDemand e.fixes
  match engCtx e with
  | none => (s, [])
  | some c =>
    let s := sendOut s who c e.fetched e.out
    let tiles := (s.ctxs[c].dmap.zipIdx).foldl (fun t k =>
      (countNonfin k.1 e.dig).foldl (fun t n => tileAdd t (k.2, n.1) 0 n.2) t) e.tiles
    (s, tiles)

/-- The fault or bus error that stopped an engine (Table 13.5, R401). -/
def engFault (s : State) (g : RegionId) (stop : Option (Cause × Rec)) : State :=
  match stop with
  | none => s
  | some (cause, r) => busFault s cause s.regions[g].ctx r

/-- What stopped an operation that was run again with a limit: what stops the second run, or else what stopped the
first. -/
def engStopped (e0 e : Eng) : Eng :=
  match e.stop with
  | some _ => e
  | none => { e with stop := e0.stop }

/-- Run an operation once; when something stops it, run it again with a free number of its writes let through
(notes/assumptions/14). -/
def engRun (s : State) (f : State → Option Nat → Eng) : Eng :=
  let e := engFlush (f s none)
  match e.stop with
  | none => e
  | some _ => engStopped e (engFlush (f { s with freeCtr := s.freeCtr + 1 } (some (Config.writesBeforeStop s.freeCtr))))

/-- Add an operation's digest contribution at its completion point: the tiles of the step, and the tile entries of
REPLICA ranges in the digest area (R423), each a narrow write to its word (R387, R390). -/
def addTiles (s : State) (base : Rec) (c : CtxId) (l : List ((Nat × Nat) × TileDig)) : State :=
  let x := s.ctxs[c]
  let tiles := l.foldl (fun t e => tileAdd t e.1 e.2.digest e.2.nonfin) x.tiles
  let s := updCtx s c fun x => { x with tiles := tiles }
  let offs := (digestOffsets x.dmap).1
  l.foldl (fun s e =>
    match x.dmap[e.1.1]? with
    | some d =>
      if d.replica then
        match tiles.find? fun t => t.1 == e.1, mapped s c (x.darea + offs.getD e.1.1 0 + 64 + 32 * e.1.2) with
        | some t, some r =>
          let a := x.darea + offs.getD e.1.1 0 + 64 + 32 * e.1.2
          let b := leBytes 16 t.2.digest.toNat ++ leBytes 8 ((curStep s c).getD 0) ++ leBytes 4 t.2.nonfin ++ [0, 0, 0, 0]
          match hbmStore s (caddrRec base a) (physOf r (a % frameBytes) true) b with
          | (s, some q) => busFault s cBusError (some c) q
          | (s, none) => s
        | _, _ => s
      else s
    | none => s) s

end Sys2Proof.Machine
end

