-- ==== Sys2Proof/Machine/Operands.lean ====
section
/-! DEFINITION. Operand forms: tensor descriptors with their addresses, runs and range checks (R105 to R109, R531), and
access to their elements. -/

namespace Sys2Proof.Machine

/-- A tensor descriptor, read (Table 4.1). -/
structure Td where
  kind : BitVec 4
  fmt  : BitVec 4
  rel  : Bool
  base : Nat
  s0 : Int
  s1 : Int
  s2 : Int
  s3 : Int
  e0 : Nat
  e1 : Nat
  e2 : Nat
  e3 : Nat
  deriving DecidableEq, Repr

def kSCRATCH : BitVec 4 := 0
def kCONTEXT : BitVec 4 := 1
def kWINDOW : BitVec 4 := 2
def kTILEQ : BitVec 4 := 3
def kHOLD : BitVec 4 := 4

/-- The fields of a descriptor register. -/
def tdOf (d : BitVec 256) : Td :=
  { kind := d.extractLsb' 60 4, fmt := d.extractLsb' 56 4, rel := d.getLsbD 55, base := (d.extractLsb' 0 52).toNat,
    s0 := (d.extractLsb' 224 32).toInt, s1 := (d.extractLsb' 192 32).toInt, s2 := (d.extractLsb' 160 32).toInt,
    s3 := (d.extractLsb' 128 32).toInt,
    e0 := (d.extractLsb' 112 16).toNat + 1, e1 := (d.extractLsb' 96 16).toNat + 1,
    e2 := (d.extractLsb' 80 16).toNat + 1, e3 := (d.extractLsb' 64 16).toNat + 1 }

/-- The long-count form: extent 3 replaced by n (R113). -/
def Td.withCount (d : Td) (n : Option Nat) : Td :=
  match n with
  | some k => { d with e3 := k }
  | none => d

/-- A WINDOW descriptor's T0 image, and its window number (R282). -/
def Td.image (d : Td) : Td := { d with base := d.base % 2 ^ 24 }

def Td.window (d : Td) : Fin 8 := ⟨d.base / 2 ^ 24 % 8, by omega⟩

def Td.count (d : Td) : Nat := d.e0 * d.e1 * d.e2 * d.e3

/-- Coordinates of a linear index (R107). -/
def Td.coords (d : Td) (i : Nat) : Nat × Nat × Nat × Nat :=
  (i / (d.e3 * d.e2 * d.e1), i / (d.e3 * d.e2) % d.e1, i / d.e3 % d.e2, i % d.e3)

/-- Element offset of coordinates (R107). -/
def Td.offAt (d : Td) (i0 i1 i2 i3 : Nat) : Int := i0 * d.s0 + i1 * d.s1 + i2 * d.s2 + i3 * d.s3

def Td.off (d : Td) (i : Nat) : Int :=
  let (a, b, c, k) := d.coords i
  d.offAt a b c k

/-- Byte address of an element offset; INT4 elements are half a byte (R107, R531). -/
def Td.addrOf (d : Td) (o : Int) : Int := d.base + Int.fdiv (o * fmtBits d.fmt) 8

def Td.addr (d : Td) (i : Nat) : Int := d.addrOf (d.off i)

/-- The lowest and the highest element offset over the iteration space. -/
def Td.offLo (d : Td) : Int :=
  min 0 ((d.e0 - 1 : Int) * d.s0) + min 0 ((d.e1 - 1 : Int) * d.s1) + min 0 ((d.e2 - 1 : Int) * d.s2) +
    min 0 ((d.e3 - 1 : Int) * d.s3)

def Td.offHi (d : Td) : Int :=
  max 0 ((d.e0 - 1 : Int) * d.s0) + max 0 ((d.e1 - 1 : Int) * d.s1) + max 0 ((d.e2 - 1 : Int) * d.s2) +
    max 0 ((d.e3 - 1 : Int) * d.s3)

/-- First byte, and one past the last byte, that the descriptor reaches. -/
def Td.lo (d : Td) : Int := d.addrOf d.offLo

def Td.hi (d : Td) : Int := d.base + Int.fdiv (d.offHi * fmtBits d.fmt + fmtBits d.fmt + 7) 8

/-- Alignment of BASE: the element size, 128 bytes for a G16 element plane, 16 for L128 (R108). -/
def alignOf (f : BitVec 4) : Nat :=
  if f == fG16 then 128 else if f == fL128 then 16 else max 1 (fmtBits f / 8)

/-- The first scratchpad byte above the buffer pool, and the end of scratchpad (R276). -/
def poolEnd : Int := 0x400000
def scratchEnd : Int := 0x1000000

/-- R108 and R276 for a SCRATCH descriptor or the image of a WINDOW descriptor. -/
def Td.scratchOk (d : Td) : Option Cause :=
  if d.lo < poolEnd ∨ scratchEnd < d.hi then some cAddressRange
  else if d.base % alignOf d.fmt ≠ 0 then some cOperandLayout else none

/-- R531: the lowest element of every run of an INT4 descriptor lies at an even offset. `run` is the run length along
dimension 3 when the innermost stride is 1 in magnitude. -/
def Td.int4Ok (d : Td) (run : Nat) : Bool :=
  d.fmt != fINT4 ||
    ((d.e0 == 1 || d.s0 % 2 == 0) && (d.e1 == 1 || d.s1 % 2 == 0) && (d.e2 == 1 || d.s2 % 2 == 0) &&
      (if d.s3 == 1 then run % 2 == 0 || decide (d.e3 ≤ run)
       else if d.s3 == -1 then
         -- the lowest element of a run is its last
         (List.range (ceilDiv d.e3 run)).all fun v => decide ((min ((v + 1) * run) d.e3 - 1) % 2 = 0)
       else d.e3 == 1 || d.s3 % 2 == 0))

/-- The checks at issue of a descriptor of kind SCRATCH or CONTEXT: bits [51:24] of a scratchpad BASE zero (Table 4.2),
its FMT not reserved (R42), R108, R276, R531. -/
def Td.issueOk (d : Td) (run : Nat) : Option Cause :=
  if fTW16.toNat < d.fmt.toNat then some cIllegalEncoding
  else if d.kind == kSCRATCH then
    if 2 ^ 24 ≤ d.base then some cIllegalEncoding
    else match d.scratchOk with
      | some c => some c
      | none => if d.int4Ok run then none else some cOperandLayout
  else if d.base % alignOf d.fmt ≠ 0 then some cOperandLayout
  else if d.int4Ok run then none else some cOperandLayout

/-- Identical in BASE, extents, strides and FMT (R118). -/
def Td.same (a b : Td) : Bool := decide ({ a with rel := false } = { b with rel := false })

/-- Byte ranges of two descriptors of one kind meet. -/
def Td.meets (a b : Td) : Bool := a.kind == b.kind && decide (a.lo < b.hi) && decide (b.lo < a.hi)

/-- R118 for one output against the listed inputs. -/
def overlapOk (o : Td) (ins : List Td) : Bool := ins.all fun i => !o.meets i || o.same i

/-- write_alias() of R142. -/
def writeAlias (d : Td) : Bool :=
  let dims := [(d.e0, d.s0.natAbs, 0), (d.e1, d.s1.natAbs, 1), (d.e2, d.s2.natAbs, 2), (d.e3, d.s3.natAbs, 3)].filter
    fun t => decide (1 < t.1)
  let lt (a b : Nat × Nat × Nat) : Bool := decide (a.2.1 < b.2.1) || (a.2.1 == b.2.1 && decide (a.2.2 < b.2.2))
  let ins (x : Nat × Nat × Nat) (l : List (Nat × Nat × Nat)) : List (Nat × Nat × Nat) :=
    l.takeWhile (fun y => lt y x) ++ [x] ++ l.dropWhile (fun y => lt y x)
  let sorted := dims.foldl (fun l x => ins x l) []
  (sorted.foldl (fun (acc : Bool × Nat) x =>
    (acc.1 || decide (x.2.1 ≤ acc.2), acc.2 + x.2.1 * (x.1 - 1))) (false, 0)).1

/-- First failing check of a list. -/
def firstFail : List (Option Cause) → Option Cause
  | [] => none
  | some c :: _ => some c
  | none :: l => firstFail l

/-- A check that fails with `c` when `b` is false. -/
def need (b : Bool) (c : Cause) : Option Cause := if b then none else some c

/-! ## Elements -/

/-- The pattern in element bytes; for INT4 the nibble that an odd or even offset selects (R45). -/
def elemOf (f : BitVec 4) (o : Int) (l : List Byte) : Nat :=
  if f == fINT4 then leNat l / (if o % 2 = 0 then 1 else 16) % 16 else leNat l

def elemBytes (f : BitVec 4) : Nat := max 1 (fmtBits f / 8)

/-- An address outside 0 to 2^52 lies in no page (R256, R259). -/
def ctxAddr (a : Int) : Nat := if a < 0 then 2 ^ 52 else a.toNat

/-- Read the element at an element offset of a SCRATCH or CONTEXT descriptor. -/
def engElem (e : Eng) (d : Td) (o : Int) : Nat × Eng :=
  let a := d.addrOf o
  let (l, e) := if d.kind == kCONTEXT then engCtxRead e (ctxAddr a) (elemBytes d.fmt)
    else engRead e a.toNat (elemBytes d.fmt)
  (elemOf d.fmt o l, e)

/-- Write bytes at an element's address. -/
def engPutBytes (e : Eng) (d : Td) (a : Int) (l : List Byte) : Eng :=
  if d.kind == kCONTEXT then engCtxWrite e (ctxAddr a) l else engWrite e a.toNat l

/-- The byte of offset `o` is the last of a tensor with an odd count: its bits [7:4] stand for no element and are written as
zero (R45). -/
def Td.oddEnd (d : Td) (o : Int) : Bool := d.count % 2 == 1 && o == d.offHi

/-- Write the element at an element offset; an INT4 write keeps the other nibble of its byte where that stands for another
element (R45). -/
def engPut (e : Eng) (d : Td) (o : Int) (v : Nat) : Eng :=
  let a := d.addrOf o
  if d.fmt == fINT4 then
    let (l, e) := if d.kind == kCONTEXT then engCtxRead e (ctxAddr a) 1 else engRead e a.toNat 1
    let old := leNat l
    let b := if o % 2 = 0 then (if d.oddEnd o then v % 16 else old / 16 * 16 + v % 16) else old % 16 + 16 * (v % 16)
    engPutBytes e d a [BitVec.ofNat 8 b]
  else engPutBytes e d a (leBytes (elemBytes d.fmt) v)

/-- Elements `i` and `i + 1` of an INT4 tensor are the two halves of one byte of a run (R45, R531). -/
def Td.paired (d : Td) (i : Nat) : Bool :=
  d.fmt == fINT4 && decide (i % d.e3 + 1 < d.e3) && d.off i != d.off (i + 1) && Int.fdiv (d.off i) 2 == Int.fdiv (d.off (i + 1)) 2

/-- Write the byte that two paired elements share, as one write. -/
def engPutPair (e : Eng) (d : Td) (i v w : Nat) : Eng :=
  let o := d.off i
  let b := if o % 2 = 0 then v % 16 + 16 * (w % 16) else w % 16 + 16 * (v % 16)
  engPutBytes e d (d.addrOf o) [BitVec.ofNat 8 b]

/-- Put elements in order at the offsets of linear indices `i`, `i + 1`, … -/
def engPutAll (e : Eng) (d : Td) (i : Nat) : List Nat → Eng
  | [] => e
  | v :: vs => engPutAll (engPut e d (d.off i) v) d (i + 1) vs

/-- The elements of linear indices `i` to `i + n - 1`. -/
def engElems (e : Eng) (d : Td) (i : Nat) : Nat → List Nat × Eng
  | 0 => ([], e)
  | n + 1 =>
    let (v, e) := engElem e d (d.off i)
    let (vs, e) := engElems e d (i + 1) n
    (v :: vs, e)

/-- Addresses of every element of a CONTEXT descriptor. -/
def Td.addrs (d : Td) : List Nat := (List.range d.count).map fun i => ctxAddr (d.addr i)

end Sys2Proof.Machine
end

