-- ==== Sys2Proof/Machine/Shougon.lean ====
section
/-! DEFINITION. The Shougon bundle: its fields (Tables 8.1 to 8.16) and every check that needs no register value (R8, R42,
R208, R226 to R228, R232, R235, R237 to R252). Such a check is made of every slot, predicated off or not (R215). -/

namespace Sys2Proof.Machine

/-- `n` bits from bit `l`, as a number. -/
def bits {w : Nat} (v : BitVec w) (l n : Nat) : Nat := (v.extractLsb' l n).toNat

/-! ## The bundle (Tables 8.1, 8.2) -/

def bForm (b : BitVec 512) : Nat := bits b 508 4
def bXp (b : BitVec 512) : BitVec 4 := b.extractLsb' 504 4
def bVp (b : BitVec 512) : BitVec 4 := b.extractLsb' 500 4
def bDp (b : BitVec 512) : BitVec 4 := b.extractLsb' 496 4
def bWait (b : BitVec 512) : BitVec 8 := b.extractLsb' 488 8
def bSig (b : BitVec 512) : BitVec 8 := b.extractLsb' 480 8
def bS0 (b : BitVec 512) : BitVec 64 := b.extractLsb' 416 64
def bS1 (b : BitVec 512) : BitVec 64 := b.extractLsb' 352 64
def bX (b : BitVec 512) : BitVec 128 := b.extractLsb' 224 128
def bV (b : BitVec 512) : BitVec 128 := b.extractLsb' 96 128
def bD (b : BitVec 512) : BitVec 64 := b.extractLsb' 32 64
def bC (b : BitVec 512) : BitVec 32 := b.extractLsb' 0 32

/-! ## Scalar slots (Tables 8.3, 8.4) -/

def sOpc (s : BitVec 64) : Nat := bits s 56 8
def sRd (s : BitVec 64) : BitVec 5 := s.extractLsb' 51 5
def sRa (s : BitVec 64) : BitVec 5 := s.extractLsb' 46 5
def sRb (s : BitVec 64) : BitVec 5 := s.extractLsb' 41 5
def sFn (s : BitVec 64) : BitVec 9 := s.extractLsb' 32 9
def sImm (s : BitVec 64) : BitVec 32 := s.extractLsb' 0 32

/-- What a scalar operation uses (Table 8.4): RD, RA, RB, and the used bits of FN and of IMM. -/
structure SUse where
  rd  : Bool
  ra  : Bool
  rb  : Bool
  fn  : BitVec 9
  imm : BitVec 32
  deriving DecidableEq, Repr

/-- The "Uses" column of Table 8.4; none for a reserved opcode. -/
def scalarUse (opc : Nat) : Option SUse :=
  let all : BitVec 32 := BitVec.allOnes 32
  if opc = 0 then some ⟨false, false, false, 0, 0⟩
  else if opc ≤ 0x0F then some ⟨true, true, true, 0, 0⟩
  else if opc = 0x10 ∨ opc = 0x16 ∨ opc = 0x17 ∨ opc = 0x18 then some ⟨true, true, false, 0, all⟩
  else if opc = 0x19 ∨ opc = 0x1A ∨ opc = 0x1B then some ⟨true, true, false, 0, 0x3F⟩
  else if opc = 0x1C then some ⟨true, false, false, 0, all⟩
  else if opc = 0x1D then some ⟨true, true, false, 0, all⟩
  else if opc = 0x20 then some ⟨true, true, true, 0xF, 0⟩
  else if opc = 0x21 then some ⟨true, true, false, 0xF, all⟩
  else if opc = 0x22 then some ⟨true, true, true, 0xF, 0⟩
  else if opc = 0x23 then some ⟨true, true, true, 0x3, 0⟩
  else if opc = 0x24 then some ⟨true, true, true, 0x7, 0⟩
  else if 0x28 ≤ opc ∧ opc ≤ 0x2C then some ⟨true, true, true, 0, 0⟩
  else if opc = 0x2D ∨ opc = 0x2E then some ⟨true, true, false, 0, 0⟩
  else if opc = 0x30 then some ⟨true, true, false, 0x7, all⟩
  else if opc = 0x31 then some ⟨false, true, true, 0x3, all⟩
  else if opc = 0x38 then some ⟨true, false, false, 0x3F, 0⟩
  else if opc = 0x39 then some ⟨false, false, false, 0x3F, all⟩
  else if opc = 0x3A then some ⟨false, false, false, 0x3F, 0xFFFF⟩
  else if opc = 0x40 then some ⟨true, false, false, 0, 0x3F⟩
  else if opc = 0x41 then some ⟨false, false, false, 0x1, 0x7F⟩
  else if opc = 0x48 then some ⟨true, false, false, 0x3, all⟩
  else if opc = 0x49 then some ⟨true, false, false, 0, 0x7F7F⟩
  else if opc = 0x50 then some ⟨true, false, false, 0x7, all⟩
  else if opc = 0x51 then some ⟨true, true, false, 0x7, 0⟩
  else if 0x52 ≤ opc ∧ opc ≤ 0x54 then some ⟨true, true, false, 0, 0⟩
  else none

/-- R227, R231, R232, R235 for one scalar slot. -/
def scalarLegal (s : BitVec 64) : Bool :=
  match scalarUse (sOpc s) with
  | none => false
  | some u =>
    let opc := sOpc s
    (u.rd || sRd s == 0) && (u.ra || sRa s == 0) && (u.rb || sRb s == 0) &&
      (sFn s &&& ~~~u.fn == 0) && (sImm s &&& ~~~u.imm == 0) &&
      -- predicate and mask indices, and reserved conditions and sources
      (if opc = 0x20 ∨ opc = 0x21 ∨ opc = 0x22 then decide ((sRd s).toNat < 8) && decide ((sFn s).toNat < 8)
       else if opc = 0x23 then
         decide ((sRd s).toNat < 8) && decide ((sRa s).toNat < 8) && decide ((sRb s).toNat < 8)
       else if opc = 0x48 ∨ opc = 0x49 then decide ((sRd s).toNat < 16)
       else if opc = 0x40 then
         let src := bits (sImm s) 0 4
         decide (src < 6) && (src == 2 || src == 3 || decide (bits (sImm s) 4 2 = 0))
       else true)

/-- Registers that a bundle writes, and counters that it sets, as R228 compares them. -/
inductive Dest where
  | x (r : Nat) | p (r : Nat) | m (r : Nat) | td (r : Nat) | mp (r : Nat) | evset (e : Nat)
  deriving DecidableEq, Repr

/-- A write that counts: one to x0, p0 or M0 does not (R228). -/
def Dest.counts : Dest → Bool
  | .x 0 => false
  | .p 0 => false
  | .m 0 => false
  | _ => true

def scalarDest (s : BitVec 64) : List Dest :=
  let opc := sOpc s
  let r := (sRd s).toNat
  if opc = 0x20 ∨ opc = 0x21 ∨ opc = 0x22 ∨ opc = 0x23 then [.p r]
  else if opc = 0x48 ∨ opc = 0x49 then [.m r]
  else if 0x50 ≤ opc ∧ opc ≤ 0x54 then [.td r]
  else if opc = 0x3A then [.evset (bits (sFn s) 0 6)]
  else
    match scalarUse opc with
    | some u => if u.rd then [.x r] else []
    | none => []

/-- Scalar registers that a scalar slot reads. -/
def scalarReads (s : BitVec 64) : List (BitVec 5) :=
  match scalarUse (sOpc s) with
  | some u =>
    if sOpc s = 0x23 ∨ sOpc s = 0x54 then [] else (if u.ra then [sRa s] else []) ++ (if u.rb then [sRb s] else [])
  | none => []

/-! ## The X slot (Tables 8.7 to 8.9) -/

def xOp (x : BitVec 128) : Nat := bits x 124 4
def xCl (x : BitVec 128) : ClusterId := (x.extractLsb' 122 2).toFin
def xF32c (x : BitVec 128) : Bool := x.getLsbD 121
def xFmtA (x : BitVec 128) : BitVec 4 := x.extractLsb' 117 4
def xFmtB (x : BitVec 128) : BitVec 4 := x.extractLsb' 113 4
def xSrcA (x : BitVec 128) : BitVec 2 := x.extractLsb' 111 2
def xTda (x : BitVec 128) : BitVec 5 := x.extractLsb' 106 5
def xSrcB (x : BitVec 128) : BitVec 2 := x.extractLsb' 104 2
def xTdb (x : BitVec 128) : BitVec 5 := x.extractLsb' 99 5
def xM (x : BitVec 128) : BitVec 5 := x.extractLsb' 94 5
def xN (x : BitVec 128) : BitVec 5 := x.extractLsb' 89 5
def xK (x : BitVec 128) : BitVec 5 := x.extractLsb' 84 5
def xSam (x : BitVec 128) : Bool := x.getLsbD 83
def xSa (x : BitVec 128) : BitVec 5 := x.extractLsb' 78 5
def xSbm (x : BitVec 128) : Bool := x.getLsbD 77
def xSb (x : BitVec 128) : BitVec 5 := x.extractLsb' 72 5
def xQ (x : BitVec 128) : BitVec 5 := x.extractLsb' 67 5
def xPre (x : BitVec 128) : BitVec 3 := x.extractLsb' 64 3
def xPreSrc (x : BitVec 128) : BitVec 5 := x.extractLsb' 59 5
def xDst (x : BitVec 128) : BitVec 2 := x.extractLsb' 57 2
def xTdd (x : BitVec 128) : BitVec 5 := x.extractLsb' 52 5
def xFmtOut (x : BitVec 128) : BitVec 4 := x.extractLsb' 48 4
def xSr (x : BitVec 128) : Bool := x.getLsbD 47
def xSat (x : BitVec 128) : Bool := x.getLsbD 46
def xFuse (x : BitVec 128) : BitVec 2 := x.extractLsb' 44 2
def xFuseSrc (x : BitVec 128) : BitVec 5 := x.extractLsb' 39 5
def xCapture (x : BitVec 128) : BitVec 2 := x.extractLsb' 37 2
def xMore (x : BitVec 128) : Bool := x.getLsbD 36
def xCont (x : BitVec 128) : Bool := x.getLsbD 35
def xTri (x : BitVec 128) : BitVec 2 := x.extractLsb' 33 2
def xTid (x : BitVec 128) : BitVec 16 := x.extractLsb' 17 16

def mOp (x : BitVec 128) : Nat := bits x 120 4
def mBm (x : BitVec 128) : BitVec 4 := x.extractLsb' 116 4
def mDa (x : BitVec 128) : BitVec 5 := x.extractLsb' 111 5
def mDb (x : BitVec 128) : BitVec 5 := x.extractLsb' 106 5
def mDc (x : BitVec 128) : BitVec 5 := x.extractLsb' 101 5
def mDd (x : BitVec 128) : BitVec 5 := x.extractLsb' 96 5
def mDe (x : BitVec 128) : BitVec 5 := x.extractLsb' 91 5
def mStage (x : BitVec 128) : BitVec 5 := x.extractLsb' 86 5
def mNr (x : BitVec 128) : BitVec 5 := x.extractLsb' 81 5
def mRr (x : BitVec 128) : BitVec 5 := x.extractLsb' 76 5
def mScm (x : BitVec 128) : Bool := x.getLsbD 75
def mScr (x : BitVec 128) : BitVec 5 := x.extractLsb' 70 5
def mCr (x : BitVec 128) : BitVec 5 := x.extractLsb' 65 5
def mBeta (x : BitVec 128) : BitVec 5 := x.extractLsb' 60 5
def mOmega (x : BitVec 128) : BitVec 5 := x.extractLsb' 55 5
def mInit (x : BitVec 128) : Bool := x.getLsbD 54
def mLam (x : BitVec 128) : BitVec 5 := x.extractLsb' 49 5
def mDmode (x : BitVec 128) : BitVec 2 := x.extractLsb' 47 2
def mNmode (x : BitVec 128) : BitVec 2 := x.extractLsb' 45 2
def mTaux (x : BitVec 128) : BitVec 5 := x.extractLsb' 40 5
def mPc (x : BitVec 128) : BitVec 2 := x.extractLsb' 38 2
def mStart (x : BitVec 128) : BitVec 2 := x.extractLsb' 36 2
def mNc (x : BitVec 128) : BitVec 5 := x.extractLsb' 31 5
def mNw (x : BitVec 128) : BitVec 4 := x.extractLsb' 27 4
def mPart (x : BitVec 128) : BitVec 5 := x.extractLsb' 22 5
def mOfmt (x : BitVec 128) : BitVec 2 := x.extractLsb' 20 2
def mRx (x : BitVec 128) : BitVec 5 := x.extractLsb' 15 5

/-- Operand pairs of the two modes (R51, R61). -/
def pairOk (f32c : Bool) (a b : BitVec 4) : Bool :=
  let fp8 (f : BitVec 4) : Bool := f == fE4M3 || f == fE5M2
  let int (f : BitVec 4) : Bool := f == fINT8 || f == fINT4
  let wide (f : BitVec 4) : Bool := f == fBF16 || f == fFP32
  if f32c then wide a && wide b
  else (a == fFP16 && b == fFP16) || (fp8 a && fp8 b) || (int a && int b)

/-- Output formats of Table 3.4. -/
def drainFmtOk (f32c : Bool) (dst : BitVec 2) (f : BitVec 4) : Bool :=
  if dst == 0 then isFloatFmt f || f == fINT8 || f == fINT32 || (f == fL128 && !f32c)
  else f == fFP32

/-- Field checks of a pass (R8, R51, R61, R87, R89, R152, R227, R239). -/
def passLegal (x : BitVec 128) : Bool :=
  let srcA := xSrcA x
  let srcB := xSrcB x
  srcA != 3 && srcB != 3 && (srcA == 0 || xTda x == 0) && (srcB == 0 || xTdb x == 0) &&
    pairOk (xF32c x) (xFmtA x) (xFmtB x) &&
    decide ((xPre x).toNat < 6) && (xPreSrc x == 0 || (xPre x != 0 && xPre x != 5)) && !(xPre x == 4 && xF32c x) &&
    xDst x != 3 && (xDst x == 0 || xTdd x == 0) && drainFmtOk (xF32c x) (xDst x) (xFmtOut x) &&
    xFuse x != 3 && (xFuse x != 0 || xFuseSrc x == 0) &&
    (xFuse x == 0 || (xDst x == 0 && isFloatFmt (xFmtOut x))) &&
    xTri x != 3 && (xSr x || xTid x == 0) && decide (bits x 0 17 = 0) &&
    (xTri x == 0 ||
      (!xF32c x && srcA == srcB && xSam x == xSbm x && xSa x == xSb x && xFuse x == 0 && xDst x != 1))

/-- Field checks of a macro (R174, R227, R240, R241 with Tables 6.4 and 8.9). -/
def macroLegal (x : BitVec 128) : Bool :=
  let op := mOp x
  let uses (l : List Nat) : Bool := l.contains op
  -- a field is used, or it is zero
  let z (isUsed isZero : Bool) : Bool := isUsed || isZero
  decide (op ≤ 6) && decide (bits x 0 15 = 0) &&
    z (uses [0, 1, 3, 4, 5, 6]) (mDb x == 0) &&
    (match op with
     | 0 => mScm x || mDc x == 0
     | 3 => true
     | 4 => true
     | 6 => true
     | _ => mDc x == 0) &&
    z (uses [4]) (mDd x == 0) && z (uses [3, 4, 5, 6]) (mDe x == 0) &&
    z (uses [4]) (mRr x == 0) &&
    (if op = 0 then !mScm x || mScr x == 0
     else !mScm x && mScr x == 0 && mCr x == 0 && mBeta x == 0 && mOmega x == 0 && !mInit x) &&
    z (uses [1]) (mLam x == 0) &&
    (if op = 1 ∨ op = 6 then mDmode x != 3 else mDmode x == 0) &&
    (if op = 1 ∨ op = 6 then mNmode x != 3 else if op = 2 then mNmode x == 1 || mNmode x == 2 else mNmode x == 0) &&
    z (uses [3, 5]) (mTaux x == 0) &&
    (if op = 6 then
       mPc x != 3 && mStart x != 3 && mNc x != 1 && mNw x != 1 && decide ((mOfmt x).toNat < 2) &&
         (mStart x != 0 || mDb x == 0)
     else mPc x == 0 && mStart x == 0 && mNc x == 0 && mNw x == 0 && mPart x == 0 && mOfmt x == 0) &&
    z (uses [2]) (mRx x == 0) &&
    (if op ≤ 2 then mBm x == 0 else mBm x != 0)

def xLegal (x : BitVec 128) : Bool :=
  match xOp x with
  | 0 => x == 0
  | 1 => passLegal x
  | 2 => macroLegal x
  | _ => false

def xDest (x : BitVec 128) : List Dest := if xOp x = 2 ∧ mOp x = 2 then [.x (mRx x).toNat] else []

/-- Scalar registers that the X slot reads (R212; STAGE only under R173, which `needStage` decides). -/
def xReads (x : BitVec 128) (needStage : Bool) : List (BitVec 5) :=
  match xOp x with
  | 1 => [xM x, xN x, xK x, xQ x] ++ (if xSam x then [] else [xSa x]) ++ (if xSbm x then [] else [xSb x])
  | 2 =>
    [mNr x] ++ (if needStage then [mStage x] else []) ++
      (match mOp x with
       | 0 => (if mScm x then [] else [mScr x]) ++ [mCr x, mBeta x, mOmega x]
       | 1 => [mLam x]
       | 4 => [mRr x]
       | 6 => [mPart x]
       | _ => [])
  | _ => []

/-! ## The V slot (Tables 8.10 to 8.12) -/

def vOp (v : BitVec 128) : Nat := bits v 124 4
def vCl (v : BitVec 128) : ClusterId := (v.extractLsb' 122 2).toFin
def vI0 (v : BitVec 128) : BitVec 6 := v.extractLsb' 116 6
def vI1 (v : BitVec 128) : BitVec 6 := v.extractLsb' 110 6
def vI2 (v : BitVec 128) : BitVec 6 := v.extractLsb' 104 6
def vO (v : BitVec 128) : BitVec 6 := v.extractLsb' 98 6
def vMask (v : BitVec 128) : BitVec 4 := v.extractLsb' 94 4
def vMp (v : BitVec 128) : BitVec 5 := v.extractLsb' 89 5
def vKx0 (v : BitVec 128) : BitVec 5 := v.extractLsb' 84 5
def vKx1 (v : BitVec 128) : BitVec 5 := v.extractLsb' 79 5
def vKx2 (v : BitVec 128) : BitVec 5 := v.extractLsb' 74 5
def vKx3 (v : BitVec 128) : BitVec 5 := v.extractLsb' 69 5
def vSr (v : BitVec 128) : Bool := v.getLsbD 68
def vSat (v : BitVec 128) : Bool := v.getLsbD 67
def vLc (v : BitVec 128) : BitVec 6 := v.extractLsb' 61 6
def vRdims (v : BitVec 128) : Nat := bits v 59 2 + 1
def vRx (v : BitVec 128) : BitVec 5 := v.extractLsb' 54 5
def vTid (v : BitVec 128) : BitVec 16 := v.extractLsb' 38 16
def vAux (v : BitVec 128) : BitVec 38 := v.extractLsb' 0 38

/-- VOP codes. -/
def opVMAP : Nat := 1
def opVRED : Nat := 2
def opVTOPK : Nat := 3
def opVCMPRS : Nat := 4
def opVEXPND : Nat := 5
def opVSMAX : Nat := 6
def opVGATH : Nat := 7
def opVSCAT : Nat := 8
def opVSCADD : Nat := 9
def opVL128 : Nat := 10
def opVG16 : Nat := 11
def opVTW16 : Nat := 12
def opVLDMP : Nat := 13

/-- How an operation uses a stream. -/
inductive Req where
  | no | opt | req
  deriving DecidableEq, Repr

def Req.ok (r : Req) (c : BitVec 6) : Bool :=
  match r with
  | .no => c == 0
  | .opt => true
  | .req => c != 0

/-- Used bits of AUX (Table 8.11). -/
def auxMask (op : Nat) : BitVec 38 :=
  match op with
  | 1 => 0x1
  | 2 => 0xF
  | 3 => 0xFF
  | 4 => 0x80
  | 5 => 0x100
  | 6 => 0x3
  | 10 => 0x3
  | 11 => 0x3F
  | 12 => 0x1
  | 13 => 0xF
  | _ => 0

/-- Use of I0, I1, I2 and O (Table 8.12, R130, R131, R133, R143). -/
def vStreams (v : BitVec 128) : Req × Req × Req × Req :=
  let a := (vAux v).toNat
  match vOp v with
  | 1 => (.opt, .opt, .opt, .req)
  | 2 => (.req, .opt, .opt, if vRdims v = 4 ∧ vRx v ≠ 0 then .opt else .req)
  | 3 => (.req, .opt, if a / 128 % 2 = 1 then .req else .no, .req)
  | 4 => (.req, .opt, if a / 128 % 2 = 1 then .req else .no, .req)
  | 5 => (.req, .opt, .opt, .req)
  | 6 => (.req, if a % 4 = 0 then .no else .req, .opt, if a % 4 = 0 ∨ a % 4 = 3 then .req else .no)
  | 7 => (.req, .req, .no, .req)
  | 8 => (.req, .req, .no, .req)
  | 9 => (.req, .req, .no, .req)
  | 10 => if a % 4 = 0 then (.req, .req, .opt, .req) else (.req, .no, .no, .req)
  | 11 =>
    match a % 4 with
    | 0 => (.req, .no, .req, .no)
    | 1 => (.req, .opt, .req, .req)
    | 2 => (.req, .req, .no, .req)
    | _ => (.req, .req, .req, .req)
  | 12 => (.req, .req, .req, .req)
  | _ => (.no, .no, .no, .no)

/-- Whether RND and SAT are used: an output is converted with them (R244). -/
def vConverts (v : BitVec 128) : Bool :=
  let a := (vAux v).toNat
  match vOp v with
  | 6 => decide (a % 4 = 0 ∨ a % 4 = 3)
  | 9 => false
  | 10 => decide (a % 4 = 1)
  | 11 => false
  | 12 => false
  | 13 => false
  | _ => true

/-- Field checks of a vector instruction (R227, R242 to R245). -/
def vecLegal (v : BitVec 128) : Bool :=
  let op := vOp v
  let a := (vAux v).toNat
  let code (c : BitVec 6) : Bool := c == 0 || decide (32 ≤ c.toNat)
  let (r0, r1, r2, ro) := vStreams v
  let hasMp := decide (op ≤ 6)
  code (vI0 v) && code (vI1 v) && code (vI2 v) && code (vO v) && code (vLc v) &&
    (vMp v == 0 || decide (16 ≤ (vMp v).toNat)) &&
    r0.ok (vI0 v) && r1.ok (vI1 v) && r2.ok (vI2 v) && ro.ok (vO v) &&
    (hasMp || vMp v == 0) && (op != opVLDMP || vLc v == 0) &&
    (op == opVRED || op == opVTOPK || op == opVSMAX || vRdims v == 1) &&
    (op == opVRED || op == opVCMPRS || op == opVEXPND || vRx v == 0) &&
    (vConverts v || (!vSr v && !vSat v)) && (vSr v || vMp v != 0 || vTid v == 0) &&
    (vAux v &&& ~~~auxMask op == 0) &&
    (match op with
     | 1 => !(decide (a % 2 = 1) && vSr v)
     | 2 => decide (a % 8 < 4)
     | 3 => decide (1 ≤ a % 128) && decide (a % 128 ≤ 64)
     | 10 => decide (a < 2)
     | 11 => decide (a % 4 = 1 ∨ a % 4 = 3) || decide (a / 4 = 0)
     | 13 => vCl v == 0 && vMask v == 0 && vKx1 v == 0 && vKx2 v == 0 && vKx3 v == 0
     | _ => true)

/-- The long-count form is the U stream's (R113). -/
def vLegal (v : BitVec 128) (i : StreamId) : Bool :=
  match vOp v with
  | 0 => v == 0
  | 14 => false
  | 15 => false
  | _ => vecLegal v && (vLc v == 0 || i == 2)

def vDest (v : BitVec 128) : List Dest :=
  match vOp v with
  | 2 => [.x (vRx v).toNat]
  | 4 => [.x (vRx v).toNat]
  | 5 => [.x (vRx v).toNat]
  | 13 => [.mp (bits (vAux v) 0 4)]
  | _ => []

def vReads (v : BitVec 128) : List (BitVec 5) :=
  if vOp v = 0 then []
  else [vKx0 v, vKx1 v, vKx2 v, vKx3 v] ++ (if vLc v == 0 then [] else [(vLc v).extractLsb' 0 5])

/-! ## The D slot (Tables 8.13, 8.14) -/

def dOp (d : BitVec 64) : Nat := bits d 60 4
def dCh (d : BitVec 64) : Nat := bits d 56 4
def dTds (d : BitVec 64) : BitVec 5 := d.extractLsb' 51 5
def dTdd (d : BitVec 64) : BitVec 5 := d.extractLsb' 46 5
def dMir (d : BitVec 64) : Bool := d.getLsbD 45
def dTqcl (d : BitVec 64) : ClusterId := (d.extractLsb' 43 2).toFin
def dDlr (d : BitVec 64) : BitVec 5 := d.extractLsb' 41 5
def dTgt (d : BitVec 64) : BitVec 4 := d.extractLsb' 42 4
def dRreg (d : BitVec 64) : BitVec 6 := d.extractLsb' 36 6
def dSendRen (d : BitVec 64) : Bool := d.getLsbD 35
def dSendRevt (d : BitVec 64) : BitVec 6 := d.extractLsb' 29 6
def dVc (d : BitVec 64) : BitVec 3 := d.extractLsb' 26 3
def dCop (d : BitVec 64) : BitVec 3 := d.extractLsb' 43 3
def dAxis (d : BitVec 64) : AxisId := (d.extractLsb' 41 2).toFin
def dWfmt (d : BitVec 64) : BitVec 4 := d.extractLsb' 37 4
def dCollRen (d : BitVec 64) : Bool := d.getLsbD 36
def dCollRevt (d : BitVec 64) : BitVec 6 := d.extractLsb' 30 6
def dH (d : BitVec 64) : BitVec 4 := d.extractLsb' 26 4

/-- R210 and R249: a remote event is none, or one of E48 to E63. -/
def revtOk (ren : Bool) (e : BitVec 6) : Bool := if ren then decide (48 ≤ e.toNat) else e == 0

/-- Field checks of a D-slot operation (R227, R246, R249). -/
def dLegal (d : BitVec 64) : Bool :=
  match dOp d with
  | 0 => d == 0
  | 1 => decide (dCh d < 12) && decide (bits d 0 43 = 0)
  | 2 => decide (dCh d < 12) && decide (bits d 0 41 = 0)
  | 3 =>
    decide (dCh d < 12) && decide ((dTgt d).toNat < 7) && decide ((dVc d).toNat < 6) &&
      revtOk (dSendRen d) (dSendRevt d) && decide (bits d 0 26 = 0)
  | 4 =>
    decide (dCh d < 12) && decide ((dCop d).toNat < 3) && decide ((dWfmt d).toNat ≤ 10) &&
      revtOk (dCollRen d) (dCollRevt d) && (dWfmt d == fG16 || dH d == 0) && decide (bits d 0 26 = 0)
  | _ => false

def dReads (d : BitVec 64) : List (BitVec 5) := if dOp d = 2 then [dDlr d] else []

/-! ## The C slot (Table 8.16) -/

def cOp (c : BitVec 32) : Nat := bits c 28 4
def cPred (c : BitVec 32) : BitVec 4 := c.extractLsb' 24 4
def cBrTarget (c : BitVec 32) : BitVec 14 := c.extractLsb' 10 14
def cXr (c : BitVec 32) : BitVec 5 := c.extractLsb' 23 5
def cLoopTarget (c : BitVec 32) : BitVec 14 := c.extractLsb' 9 14
def cEnd (c : BitVec 32) : Bool := c.getLsbD 27
def cDr (c : BitVec 32) : BitVec 5 := c.extractLsb' 22 5

def cLegal (c : BitVec 32) : Bool :=
  match cOp c with
  | 0 => c == 0
  | 1 => decide (bits c 0 10 = 0)
  | 2 => cXr c != 0 && decide (bits c 0 9 = 0)
  | 3 => (!cEnd c || cDr c == 0) && decide (bits c 0 22 = 0)
  | 4 => decide (bits c 0 28 = 0)
  | _ => false

def cDest (c : BitVec 32) : List Dest := if cOp c = 2 then [.x (cXr c).toNat] else []

def cReads (c : BitVec 32) : List (BitVec 5) :=
  match cOp c with
  | 2 => [cXr c]
  | 3 => if cEnd c then [] else [cDr c]
  | _ => []

/-- A segment is closed for good by this bundle (R219), or the step is marked (R343): the bundle waits until every
operation of the stream has completed. -/
def cDrains (c : BitVec 32) : Bool := (cOp c == 3 && cEnd c) || cOp c == 4

/-! ## The whole bundle -/

/-- WAIT codes 0xC0 to 0xFE are reserved (R208). -/
def waitLegal (b : BitVec 512) : Bool := decide ((bWait b).toNat < 0xC0) || bWait b == 0xFF

/-- No two slots write one register or set one counter (R228). -/
def destsOk : List (List Dest) → Bool
  | [] => true
  | l :: rest => (l.all fun d => !d.counts || rest.all fun m => !m.contains d) && destsOk rest

/-- Every check of a bundle that needs no register value, but for the wait field. -/
def bundleLegal (b : BitVec 512) (i : StreamId) : Bool :=
  decide (bForm b = 1) && scalarLegal (bS0 b) && scalarLegal (bS1 b) && xLegal (bX b) && vLegal (bV b) i &&
    dLegal (bD b) && cLegal (bC b) &&
    (xOp (bX b) != 0 || bXp b == 0) && (vOp (bV b) != 0 || bVp b == 0) && (dOp (bD b) != 0 || bDp b == 0) &&
    destsOk [scalarDest (bS0 b), scalarDest (bS1 b), xDest (bX b), vDest (bV b), cDest (bC b)]

end Sys2Proof.Machine
end

