-- ==== Sys2Proof/Machine/Array.lean ====
section
/-! DEFINITION. The matrix arrays (The matrix array, Curvature statistics): passes and chains from their start to their
completion point, preload and drain sweeps, direct feed, retries, and the borrowing of clusters. -/

namespace Sys2Proof.Machine

/-! ## Shared with the other engines -/

/-- A random draw of R48 for a stream of a region. -/
def draw (s : State) (g : RegionId) (i : StreamId) (tid : BitVec 16) (idx : Nat) : W32 :=
  match s.regions[g].ctx with
  | some c => vcg s.ctxs[c].js (engStep s g) i tid idx
  | none => 0

/-- The rounding of an output element: rne(), or sr() with its draw; integer formats draw nothing (R529). -/
def rndOf (s : State) (g : RegionId) (i : StreamId) (sr : Bool) (f : BitVec 4) (tid : BitVec 16) (idx : Nat) : Rnd :=
  if sr && isFloatFmt f then .sr (draw s g i tid idx) else .rne

/-- A residue retry of a stream's work (R222, R223, R367, R380): a CORRECTED record, the retry and its allowance in the
open segment, and the timing faults when the budget or LMAX is passed. -/
def chargeRetry (s : State) (g : RegionId) (cl : Byte) (i : StreamId) (source : BitVec 16) (len : Nat) : State :=
  let s := corrected s { regionRec s g with source := source, cluster := cl, stream := BitVec.ofNat 2 i.val }
  let r := s.regions[g]
  let st := r.streams[i]
  match st.seg with
  | none => s
  | some sg =>
    let s := updRegion s g fun r => updStream r i fun st =>
      { st with seg := some { sg with retries := sg.retries + 1, allowance := sg.allowance + len } }
    let s := if s.boot.cfg.rb < sg.retries + 1 then streamFault s g i cRetryOverrun else s
    if r.budget[i].lmax < len then streamFault s g i cRetryLength else s

/-- Signals of completed operations (R207). -/
def signalAll (r : Region) (l : List (Option (Fin 64) × StreamId)) : Region :=
  l.foldl (fun r e => evSignal r e.1 e.2) r

/-! ## Passes -/

/-- Whether every per-step vector of a side starts on a 128-byte boundary in scratchpad or, for a side that is fed directly, on
a 64-byte boundary of the page it comes from (R79). -/
def sideAligned (sd : Side) (k : Nat) : Bool :=
  if sd.src != 0 then true
  else
    let e3 := (tdOf sd.td).e3
    let (d, n) := if sd.direct then (tdOf sd.winSrc, 64) else (tdOf sd.td, 128)
    (List.range k).all fun i => decide ((d.addr (i * e3)) % n = 0)

/-- Accumulation beats of a pass (Table 3.2, R79). -/
def passBeats (p : PassOp) : Nat :=
  let a := if p.f32c then 2 * p.k else if p.a.fmt == fFP16 then p.k else ceilDiv p.k 2
  if sideAligned p.a p.k && sideAligned p.b p.k then a else 2 * a

/-- Length of a pass for the retry budget: a + P + C + S (Table 3.6). -/
def passLength (p : PassOp) : Nat :=
  let l128 := p.pre == 4 || (p.dst == 0 && p.fmtOut == fL128)
  passBeats p + 4 + 1 + (if l128 then 512 else 128)

/-- The steps of an operand side are fed from T0 as far as the window that it binds is filled (R285, R286). -/
def stepResident (r : Region) (sd : Side) (lanes k : Nat) : Bool :=
  let d := tdOf sd.td
  if sd.src != 0 || d.kind != kWINDOW then true
  else
    let w := r.wins[d.window]
    w.current == sd.winId && decide (k * d.e3 + lanes ≤ w.filled)

/-- Context addresses that a side's step reads when it is fed directly. -/
def stepAddrs (sd : Side) (lanes k : Nat) : List Nat :=
  let d := tdOf sd.winSrc
  (List.range lanes).map fun l => ctxAddr (d.addr (k * (tdOf sd.td).e3 + l))

/-- One per-step vector of an operand side, as element patterns (R77, R97, R99, R530). -/
def sideVec (e : Eng) (cl : Cluster) (sd : Side) (direct : Bool) (lanes k : Nat) : List Nat × Eng :=
  let replay (c : Option Capture) : List Nat × Eng :=
    match c with
    | some c =>
      (((List.range lanes).map fun l => (spGet 0 c.elems (k * 128 + l)).toNat),
        if cl.replay.bad then engStop e cBusError { e.base with cls := clUncorrectable, source := srcSramDemand } else e)
    | none => (List.replicate lanes 0, e)
  match sd.src.toNat with
  | 0 =>
    let d := tdOf sd.td
    if d.kind == kWINDOW then
      if direct then engElems e (tdOf sd.winSrc) (k * d.e3) lanes
      else engElems e { d.image with kind := kSCRATCH } (k * d.e3) lanes
    else engElems e d (k * d.e3) lanes
  | 1 => replay cl.replay.sideA
  | _ => replay cl.replay.sideB

/-- Cells of a pass (R151, R153): i < M, j < N, and i ≤ j for a triangle option. -/
def passCells (p : PassOp) : List (Nat × Nat) :=
  (List.range p.m).flatMap fun i =>
    ((List.range p.n).filter fun j => p.tri == 0 || decide (i ≤ j)).map fun j => (i, j)

/-- One contraction step into the cells of a bank (R52, R53, R62, R73). -/
def passStep (p : PassOp) (a b : List Nat) (cells : Sparse AccCell) : Sparse AccCell × AF :=
  let va := a.map (fmtDecode p.a.fmt)
  let vb := b.map (fmtDecode p.b.fmt)
  (passCells p).foldl (fun (acc : Sparse AccCell × AF) e =>
    let key := e.1 * 128 + e.2
    let x := va.getD e.1 Val.zero
    let y := vb.getD e.2 Val.zero
    let c := spGet AccCell.zero acc.1 key
    if p.f32c then (spPut AccCell.zero acc.1 key (accF32c c x y), acc.2)
    else
      let (c, f) := accProduct c x y
      (spPut AccCell.zero acc.1 key c, acc.2 ||| f)) (cells, 0)

/-- Write one step, at its full width of 128 elements, into the capture of a side (R95). -/
def captureStep (c : Option Capture) (k : Nat) (v : List Nat) : Option Capture :=
  c.map fun c =>
    { c with elems := (v.zipIdx).foldl (fun q x => spPut (0 : W32) q (k * 128 + x.2) (BitVec.ofNat 32 x.1))
               (spClear c.elems (k * 128) (k * 128 + 128)) }

/-- A capture starts to replace the contents of the buffer (R95). A pass that is itself fed from the buffer reads each step
before the capture overwrites it; what no later pass may name any more (R97) is left as it lies. -/
def openCapture (r : Replay) (p : PassOp) : Replay :=
  if p.capture == 0 then r
  else
    let fresh (f : BitVec 4) (old : Option Capture) : Option Capture :=
      some { fmt := f, steps := p.k, elems := match old with | some c => c.elems | none => [] }
    { r with sideA := if p.capture.getLsbD 0 then fresh p.a.fmt r.sideA else r.sideA,
             sideB := if p.capture.getLsbD 1 then fresh p.b.fmt r.sideB else r.sideB,
             bad := r.bad && (p.a.src != 0 || p.b.src != 0) }

/-- What the feeder of a cluster works on: the engine, the cluster, the bank's cells and its run. -/
structure Feed where
  e     : Eng
  cl    : Cluster
  cells : Sparse AccCell
  run   : PassRun
  deriving DecidableEq, Repr

/-- The last part of a run has taken a step directly on the sides that say so. -/
def noteDirect (parts : List PassOp) (a b : Bool) : List PassOp :=
  match parts.reverse with
  | [] => []
  | p :: rest =>
    ({ p with a := { p.a with direct := p.a.direct || a }, b := { p.b with direct := p.b.direct || b } } :: rest).reverse

/-- Feed step `run.step` of part `p`, with the sides directly that the feeder has found not resident (R99, R286). -/
def feedStep (f : Feed) (p : PassOp) : Feed :=
  let k := f.run.step
  let (da, db) := (f.run.directA, f.run.directB)
  let (a, e) := sideVec f.e f.cl p.a da p.m k
  let (b, e) := sideVec e f.cl p.b db p.n k
  let (cells, fl) := passStep p a b f.cells
  let cl :=
    if p.capture == 0 then f.cl
    else
      { f.cl with replay := { f.cl.replay with sideA := captureStep f.cl.replay.sideA k a,
                                               sideB := captureStep f.cl.replay.sideB k b } }
  { e := e, cl := cl, cells := cells,
    run := { f.run with parts := if da || db then noteDirect f.run.parts da db else f.run.parts, step := k + 1,
                        dfSteps := f.run.dfSteps + (if da || db then 1 else 0), flags := f.run.flags ||| fl,
                        feeding := false, directA := false, directB := false, asked := [] } }

/-- Feed steps from T0 until the pass has none left or one is not resident when it is requested (R99, R286). -/
def feedResident (p : PassOp) : Nat → Feed → Feed
  | 0, f => f
  | n + 1, f =>
    let r := f.e.s.regions[f.e.g]
    if f.run.step < p.k && f.e.stop.isNone then
      let (ra, rb) := (stepResident r p.a p.m f.run.step, stepResident r p.b p.n f.run.step)
      if ra && rb then feedResident p n (feedStep f p)
      else { f with run := { f.run with feeding := true, directA := !ra, directB := !rb } }
    else f

/-- The window that a side names, if any. -/
def sideWindow (sd : Side) : Option (Fin 8) :=
  let d := tdOf sd.td
  if sd.src == 0 && d.kind == kWINDOW then some d.window else none

/-- A pass has taken its last operand beat: it no longer uses its windows (R284). -/
def dropUsers (r : Region) (p : PassOp) : Region :=
  let one (r : Region) (sd : Side) : Region :=
    match sideWindow sd with
    | some w => { r with wins := r.wins.set w { r.wins[w] with users := r.wins[w].users - 1 } }
    | none => r
  one (one r p.a) p.b

/-- Put the feeder's work back: the bank lands when the last part of a pass has no step left (R80, R83). -/
def feedClose (f : Feed) (c : ClusterId) (b : Fin 2) (p : PassOp) : State :=
  let stop := f.e.stop
  let (s, _) := engClose f.e (.feed f.e.g c)
  let done := decide (p.k ≤ f.run.step) && !f.run.feeding
  let bank (k : Bank) : Bank :=
    { k with cells := f.cells, run := some f.run, phase := if done && !p.more then .landed else .busy }
  let s := updRegion s f.e.g fun r =>
    let r := if done then dropUsers r p else r
    updCluster r c fun _ =>
      updBank { f.cl with cur := if done && !p.more then none else some b } b bank
  engFault s f.e.g stop

/-- The operand scale of a side (R55): a register's, or the first of its tile scales when they all agree. -/
def sideScale (e : Eng) (sd : Side) (k : Nat) : Option W32 × Eng :=
  if sd.sarr then
    let (l, e) := engElems e (tdOf sd.sdesc) 0 (max 1 (ceilDiv k 128))
    match l with
    | [] => (some 0, e)
    | x :: rest => (if rest.all (· == x) then some (BitVec.ofNat 32 x) else none, e)
  else (some sd.sval, e)

/-- The bank that the next pass of the queue to start turns to, and whether it is ready (R80, R83, R84). -/
def startBank (cl : Cluster) (p : PassOp) : Option (Fin 2) :=
  if p.cont then
    match cl.cur with
    | some b =>
      match cl.banks[b].run with
      | some run =>
        match run.parts.getLast? with
        | some q => if !run.feeding && q.more && decide (q.k ≤ run.step) then some b else none
        | none => none
      | none => none
    | none => none
  else
    let k := cl.banks[cl.nextBank]
    if cl.cur.isNone && k.phase == .free && (p.pre == 0 || k.preloaded) then some cl.nextBank else none

/-- PASS_START: the head of the pass queue takes its first operand beat, and the feeder supplies every step that T0 holds
(R52 to R55, R73 to R77, R80 to R84, R95, R153, R156). -/
def execPassStart (g : RegionId) (c : ClusterId) (s : State) : Host.Outcome State Fault Refusal :=
  let r := s.regions[g]
  let cl := r.clusters[c]
  .next (if !beatToken s g then s else match cl.passQ with
  | [] => s
  | p :: rest =>
    match startBank cl p with
    | none => s
    | some b =>
      if cl.borrowed then s
      else
        let e := engOpen s g (BitVec.ofNat 8 c.val) p.stream .off none []
        let (sa, e) := sideScale e p.a p.k
        let (sb, e) := sideScale e p.b p.k
        let k := cl.banks[b]
        let cl := { cl with passQ := rest, replay := openCapture cl.replay p,
                            nextBank := if p.cont then cl.nextBank else 1 - b }
        match sa, sb with
        | some sa, some sb =>
          let run :=
            match k.run with
            | some run => { run with parts := run.parts ++ [p], step := 0, feeding := false, asked := [] }
            | none => { parts := [p], sa := sa, sb := sb, step := 0, feeding := false, directA := false, directB := false,
                        fetched := [], asked := [], retries := 0, dfSteps := 0, nonfin := 0, flags := k.preFlags, digest := 0 }
          let cl := updBank cl b fun k => { k with preloaded := false, preFlags := 0 }
          if run.sa != sa || run.sb != sb then streamFault s g p.stream cScaleMismatch
          else
            feedClose (feedResident p (p.k + 1) { e := e, cl := cl, cells := k.cells, run := run }) c b p
        | _, _ =>
          match e.stop with
          | some _ => engFault (engClose e (.feed g c)).1 g e.stop
          | none => streamFault s g p.stream cScaleMismatch)

/-- Bytes fed directly, added per tier: those at the byte addresses listed (R288). -/
def countDirect (s : State) (x : CtxId) (addrs : List Nat) (n : Vector Nat 3) : Vector Nat 3 :=
  addrs.foldl (fun (v : Vector Nat 3) a =>
    match mapped s x a with
    | some q =>
      match q.loc.tier with
      | .t1 => v.set 0 (v[0] + 1)
      | .t2 => v.set 1 (v[1] + 1)
      | .t3 => v.set 2 (v[2] + 1)
    | none => v) n

/-- Byte addresses that a side's step reads when it is fed directly; two INT4 elements share one. -/
def directBytes (direct : Bool) (sd : Side) (lanes k : Nat) : List Nat :=
  if direct then
    ((stepAddrs sd lanes k).flatMap fun a => (List.range (elemBytes sd.fmt)).map fun i => a + i).eraseDups
  else []

/-- Bytes that the waiting step of a run takes directly. -/
def runDirect (run : PassRun) (p : PassOp) : List Nat :=
  directBytes run.directA p.a p.m run.step ++ directBytes run.directB p.b p.n run.step

/-- DIRECT_FEED: the feeder supplies the step that waits from the tier that holds it, asking a lender for the parts that
lie in T2, and goes on with the steps that are resident (R99, R256, R259, R286, R288). -/
def execDirectFeed (g : RegionId) (c : ClusterId) (s : State) : Host.Outcome State Fault Refusal :=
  let r := s.regions[g]
  let cl := r.clusters[c]
  .next (if !beatToken s g then s else match cl.cur with
  | none => s
  | some b =>
    match cl.banks[b].run with
    | none => s
    | some run =>
      match run.parts.getLast? with
      | none => s
      | some p =>
        if !run.feeding then s
        else
          let addrs := runDirect run p
          let units := match r.ctx with | some x => t2Units s x addrs | none => []
          let want := units.filter fun u => !run.asked.contains u
          match r.ctx with
          | some x =>
            if !want.isEmpty then
              let s := fetchUnits s (.feed g c) x want
              updRegion s g fun r => updCluster r c fun cl => updBank cl b fun q =>
                { q with run := some { run with asked := run.asked ++ want } }
            else if waitsFor s (.feed g c) then s
            else
              let e := engOpen s g (BitVec.ofNat 8 c.val) p.stream .off none run.fetched
              let f := feedStep { e := e, cl := cl, cells := cl.banks[b].cells, run := run } p
              let f := { f with e := { f.e with s := { f.e.s with dfBytes := countDirect s x addrs s.dfBytes } } }
              feedClose (feedResident p (p.k + 1) f) c b p
          | none => engFault s g (some (cPageUnmapped, regionRec s g)))

/-! ## Preload -/

/-- The passes of the queue that take a bank of their own, in order. -/
def ownPasses (cl : Cluster) : List PassOp := cl.passQ.filter fun p => !p.cont

/-- The next pass, issued and not started, to use bank `b` (R83, R85). -/
def nextFor (cl : Cluster) (b : Fin 2) : Option PassOp :=
  (ownPasses cl)[if cl.nextBank = b then 0 else 1]?

/-- The passes of the queue before the `j`-th that takes a bank of its own. -/
def queueBefore : Nat → List PassOp → List PassOp
  | _, [] => []
  | j, q :: l =>
    if q.cont then q :: queueBefore j l
    else match j with
      | 0 => []
      | i + 1 => q :: queueBefore i l

/-- Passes issued to the cluster before the next pass for bank `b` whose drain has not run, but for what bank `b` itself holds. -/
def undrained (cl : Cluster) (b : Fin 2) : List PassOp :=
  let other := cl.banks[1 - b]
  (if other.phase == .held then [] else match other.run with | some run => run.parts | none => []) ++
    queueBefore (if cl.nextBank = b then 0 else 1) cl.passQ

/-- The preload of a pass lies where no earlier pass has still to drain: it sees every row that such a pass drains (R160,
notes/assumptions/74). -/
def preloadDrained (cl : Cluster) (b : Fin 2) (p : PassOp) : Bool :=
  p.pre == 0 || p.pre == 5 ||
    (undrained cl b).all fun q => q.more || q.dst != 0 || !(tdOf q.tdd).meets (tdOf p.preTd)

/-- The head of the tile queue is readable, and no consumer is reading it (R91). -/
def tileReady : List TileEnt → Bool
  | t :: _ => t.readable && !t.taken
  | [] => false

/-- A consumer begins its single read of the head of the tile queue (R91). -/
def takeTile : List TileEnt → List TileEnt
  | t :: rest => { t with taken := true } :: rest
  | [] => []

/-- The preload may be written now: a TILEQ preload needs a readable head (R85), any other its source drained (R160). -/
def preloadReady (cl : Cluster) (b : Fin 2) (p : PassOp) : Bool :=
  (p.pre != 5 || tileReady cl.tileQ) && preloadDrained cl b p

/-- The value that PRE gives cell (i, j), as a pattern with its format (Table 3.3, R530). -/
def preElem (e : Eng) (cl : Cluster) (p : PassOp) (i j : Nat) : BitVec 4 × Nat × Eng :=
  let d := tdOf p.preTd
  match p.pre.toNat with
  | 1 => let (v, e) := engElem e d (d.off j); (d.fmt, v, e)
  | 2 => let (v, e) := engElem e d (d.off i); (d.fmt, v, e)
  | 5 =>
    match cl.tileQ with
    | t :: _ =>
      let e := if t.bad then engStop e cBusError { e.base with cls := clUncorrectable, source := srcSramDemand } else e
      (fFP32, if i < t.m && j < t.n then (spGet 0 t.cells (i * 128 + j)).toNat else 0, e)
    | [] => (fFP32, 0, e)
  | _ => let (v, e) := engElem e d (d.off (i * d.e3 + j)); (d.fmt, v, e)

/-- One preload value in the bank (R59, R62, R87). -/
def preCell (p : PassOp) (f : BitVec 4) (v : Nat) : AccCell × AF :=
  if f == fL128 then cellOfL128 (BitVec.ofNat 128 v)
  else if p.f32c then ({ AccCell.zero with n := (toF32 (fmtDecode f v)).setWidth 128 }, 0)
  else preloadVal (fmtDecode f v)

/-- Every cell of the preload of a pass; cells outside M x N, and those a triangle option leaves out, take zero. -/
def preCells (e : Eng) (cl : Cluster) (p : PassOp) : Sparse AccCell × AF × Eng :=
  if p.pre == 0 then ([], 0, e)
  else
    (passCells p).foldl (fun (acc : Sparse AccCell × AF × Eng) ij =>
      let (cells, f, e) := acc
      let (fmt, v, e) := preElem e cl p ij.1 ij.2
      let (c, g) := preCell p fmt v
      (spPut AccCell.zero cells (ij.1 * 128 + ij.2) c, f ||| g, e)) ([], 0, e)

/-- Write a preload into bank `b`; a TILEQ preload frees the head entry (R87). -/
def putPreload (cl : Cluster) (b : Fin 2) (p : PassOp) (cells : Sparse AccCell) (f : AF) : Cluster :=
  let cl := if p.pre == 5 then { cl with tileQ := cl.tileQ.tail } else cl
  updBank cl b fun k => { k with cells := cells, preloaded := true, preFlags := f }

/-- PRELOAD_SWEEP: a sweep of its own writes the preload of the next pass into a bank in which nothing is drained (R59,
R85, R87, R91, R160). -/
def execPreloadSweep (g : RegionId) (c : ClusterId) (b : Fin 2) (s : State) : Host.Outcome State Fault Refusal :=
  let cl := s.regions[g].clusters[c]
  .next (if !beatToken s g then s else match nextFor cl b with
  | none => s
  | some p =>
    let k := cl.banks[b]
    if k.phase == .free && !k.preloaded && p.pre != 0 && preloadReady cl b p && !cl.borrowed then
      let e := engOpen s g (BitVec.ofNat 8 c.val) p.stream .off none []
      let (cells, f, e) := preCells e cl p
      let stop := e.stop
      let (s, _) := engClose e (.feed g c)
      engFault (updRegion s g fun r => updCluster r c fun cl => putPreload cl b p cells f) g stop
    else s)

/-! ## Drain -/

/-- The pattern that a cell of a finished pass resolves to in a format, without fuse (R56, R58, R63). -/
def resolveCell (p : PassOp) (run : PassRun) (c : AccCell) (f : BitVec 4) (rnd : Rnd) (sat : Bool) : Nat × AF :=
  if f == fL128 then ((drainRaw c).toNat, 0)
  else if p.f32c then drainF32c c run.sa run.sb p.q f rnd sat
  else drainExact c run.sa run.sb p.q f rnd sat

/-- drain_fused() of R90 for the other tensor's element `t`. -/
def fusedCell (p : PassOp) (run : PassRun) (c : AccCell) (t : Val) (rnd : Rnd) : Nat × AF :=
  let (x, f) := resolveCell p run c fFP32 .rne false
  let v := fmtDecode fFP32 x
  let z := if p.fuse == 1 then Val.add v t else Val.mul v t
  let (y, g) := fmtRound p.fmtOut rnd p.sat z
  (y, f ||| g)

/-- What a drain has written so far: the engine, the tile for the tile queue, and the run with its counts. -/
structure Drain where
  e    : Eng
  tile : Sparse W32
  run  : PassRun
  deriving DecidableEq, Repr

/-- One resolved element of cell (i, j), written at (i, j) and, for MIRROR, at (j, i) (R88, R90, R151, R155). -/
def drainCell (d : Drain) (p : PassOp) (cells : Sparse AccCell) (i j : Nat) : Drain :=
  let c := spGet AccCell.zero cells (i * 128 + j)
  let t := tdOf p.tdd
  let idx := if p.dst == 0 then i * t.e3 + j else i * 128 + j
  let rnd := rndOf d.e.s d.e.g p.stream p.sr p.fmtOut p.tid idx
  let (tv, e) : Val × Eng :=
    if p.fuse == 0 then (Val.zero, d.e)
    else
      let q := tdOf p.fuseTd
      let (v, e) := engElem d.e q (q.off (i * q.e3 + j))
      (fmtDecode q.fmt v, e)
  let (v, f) := if p.fuse == 0 then resolveCell p d.run c p.fmtOut rnd p.sat else fusedCell p d.run c tv rnd
  let both := p.tri == 2 && decide (i < j)
  let n := if nonFinite p.fmtOut v then (if both then 2 else 1) else 0
  let run := { d.run with nonfin := d.run.nonfin + n, flags := d.run.flags ||| f }
  if p.dst == 0 then
    let e := engPut e t (t.off idx) v
    let e := if both then engPut e t (t.off (j * t.e3 + i)) v else e
    { d with e := e, run := run }
  else { e := e, run := run, tile := spPut 0 d.tile (i * 128 + j) (BitVec.ofNat 32 v) }

/-- Row bytes of a pass digest (R428): row `r` of the written tile, in the destination format. -/
def rowBytes (elem : Nat → Nat → Nat) (w n r : Nat) : List Byte := (List.range n).flatMap fun j => leBytes w (elem r j)

/-- The pass digest of R428 over M rows of N elements of `w` bytes. -/
def passDigest (h : BitVec 128) (elem : Nat → Nat → Nat) (w m n : Nat) : BitVec 128 :=
  (List.range m).foldl (fun acc r =>
    let row := rowBytes elem w n r
    (List.range (ceilDiv row.length 16)).foldl (fun acc b =>
      acc ^^^ gfMul (BitVec.ofNat 128 (leNat ((row.drop (16 * b)).take 16))) (gfPow h (128 * r + b + 1))) acc) 0

/-- The digest of a finished pass, computed only in lock-step mode: scratchpad elements in the destination format, tile
and hold cells as their FP32 resolution. -/
def digestOfPass (s : State) (g : RegionId) (p : PassOp) (run : PassRun) (cells : Sparse AccCell) : BitVec 128 :=
  if !s.boot.cfg.lockEnable then 0
  else
    match s.regions[g].ctx with
    | none => 0
    | some c =>
      let h := digestKey s.ctxs[c].ds 0xFFFF (engStep s g)
      let f := if p.dst == 0 then p.fmtOut else fFP32
      let elem (i j : Nat) : Nat :=
        let cellAt (i j : Nat) : Nat :=
          let idx := if p.dst == 0 then i * (tdOf p.tdd).e3 + j else i * 128 + j
          let rnd := if p.dst == 2 then .rne else rndOf s g p.stream p.sr f p.tid idx
          let cell := spGet AccCell.zero cells (i * 128 + j)
          if p.fuse == 0 then (resolveCell p run cell f rnd (p.dst != 2 && p.sat)).1
          else
            let q := tdOf p.fuseTd
            let e := engOpen s g 0 p.stream .off none []
            (fusedCell p run cell (fmtDecode q.fmt (engElem e q (q.off (i * q.e3 + j))).1) rnd).1
        if p.tri == 0 || decide (i ≤ j) then cellAt i j
        else if p.tri == 2 then cellAt j i else 0
      passDigest h elem (elemBytes f) p.m p.n

/-- The check beat of a finished pass finds no mismatch in its cells (R88, R377). -/
def bankChecks (k : Bank) (p : PassOp) : Bool := k.cells.all fun e => e.2.checks p.f32c

/-- A rerun of a pass forms its accumulators, residues and both copies of the side flags anew; it reads the operands that the
program must leave unchanged (R101), so N and the flags come out as they were (R100). -/
def AccCell.rerun (f32c : Bool) (c : AccCell) : AccCell :=
  { c with rn := if f32c then 0 else resid c.n.toInt,
           dup := BitVec.ofBool c.nanf ++ BitVec.ofBool c.ninf ++ BitVec.ofBool c.pinf }

/-- The bank that is due for its drain sweep: the older of the two (R88). -/
def drainBank (cl : Cluster) : Option (Fin 2) :=
  let due (b : Fin 2) : Bool :=
    cl.banks[b].phase == .landed &&
      (match cl.banks[b].run with
       | some run => (match run.parts.getLast? with | some p => p.dst != 2 | none => false)
       | none => false)
  if due cl.nextBank then some cl.nextBank else if due (1 - cl.nextBank) then some (1 - cl.nextBank) else none

/-- DRAIN_SWEEP: resolve and write every row of a landed pass, with the preload of the next pass to use its bank in the
same sweep when that pass has been issued (R56 to R59, R63, R77, R85, R87 to R91, R153, R155, R160, R530). -/
def execDrainSweep (g : RegionId) (c : ClusterId) (s : State) : Host.Outcome State Fault Refusal :=
  let cl := s.regions[g].clusters[c]
  .next (if !beatToken s g then s else match drainBank cl with
  | none => s
  | some b =>
    match cl.banks[b].run with
    | none => s
    | some run =>
      match run.parts.getLast? with
      | none => s
      | some p =>
        if (p.dst == 1 && decide (8 ≤ cl.tileQ.length)) || !bankChecks cl.banks[b] p then s
        else
          let cells := cl.banks[b].cells
          let sharing := (nextFor cl b).filter fun q => preloadReady cl b q
          let work (s : State) (limit : Option Nat) : Drain :=
            let e := engOpen s g (BitVec.ofNat 8 c.val) p.stream .off limit []
            let d := (passCells p).foldl (fun d ij => drainCell d p cells ij.1 ij.2) { e := e, tile := [], run := run }
            { d with e := engFlush d.e }
          let d0 := work s none
          let d := if d0.e.stop.isNone then d0
            else
              let d := work { s with freeCtr := s.freeCtr + 1 } (some (Config.writesBeforeStop s.freeCtr))
              { d with e := engStopped d0.e d.e }
          let run := { d.run with digest := digestOfPass s g p run cells }
          let (pc, pf, e) := match sharing with
            | some q => preCells d.e cl q
            | none => ([], 0, d.e)
          let stop := e.stop
          let (s, _) := engClose e (.feed g c)
          let ent : TileEnt := { m := p.m, n := p.n, cells := d.tile, readable := false, taken := false, bad := false }
          let done (cl : Cluster) : Cluster :=
            let cl := if p.dst == 1 then { cl with tileQ := cl.tileQ ++ [ent] } else cl
            let cl := updBank { cl with drained := cl.drained ++ [run] } b fun _ => Bank.reset
            match sharing with
            | some q => if q.pre == 0 then cl else putPreload cl b q pc pf
            | none => cl
          engFault (updRegion s g fun r => updCluster r c done) g stop)

/-- What a retry of a pass on a borrowed cluster is charged for: the longest pass of the running macro (R100, R177,
notes/assumptions/75). -/
def macroRetry (s : State) (g : RegionId) (c : ClusterId) : State :=
  match s.regions[g].mrun with
  | some m => if s.regions[g].clusters[c].borrowed then
      chargeRetry s g (BitVec.ofNat 8 c.val) m.op.stream srcResArray (3 * (m.op.n + 133)) else s
  | none => s

/-- A retry of the run in bank `b`, which `k` leaves changed: one more in RETRIES, and the length of the pass or chain against the
open segment (R100, R102, R104, R222, R223, R367, R380). -/
def retryRun (s : State) (g : RegionId) (c : ClusterId) (b : Fin 2) (k : PassOp → Bank → Bank) : State :=
  match s.regions[g].clusters[c].banks[b].run with
  | none => s
  | some run =>
    match run.parts.getLast? with
    | none => s
    | some p =>
      let s := updRegion s g fun r => updCluster r c fun cl => updBank cl b fun q =>
        k p { q with run := some { run with retries := run.retries + 1 } }
      chargeRetry s g (BitVec.ofNat 8 c.val) p.stream srcResArray ((run.parts.map passLength).foldl (· + ·) 0)

/-- DRAIN_ROW_RECOMPUTE: a residue mismatch in the drain path recomputes the row from the bank before it is written, which
gives the same row, and counts as one pass retry (R102, R177, R223, R380). -/
def execDrainRowRecompute (g : RegionId) (c : ClusterId) (s : State) : Host.Outcome State Fault Refusal :=
  let cl := s.regions[g].clusters[c]
  .next (if !beatToken s g then s
  else if cl.borrowed then macroRetry s g c
  else match drainBank cl with
  | none => s
  | some b => retryRun s g c b fun _ k => k)

/-- PASS_RETRY: a residue mismatch found by the check beat rewrites the preload and reruns the pass or chain, which gives
the same accumulators (R100, R54, R62), and counts against the open segment (R177, R222, R223, R367, R377, R380). -/
def execPassRetry (g : RegionId) (c : ClusterId) (s : State) : Host.Outcome State Fault Refusal :=
  let cl := s.regions[g].clusters[c]
  let b := if cl.banks[cl.nextBank].phase == .landed then cl.nextBank else 1 - cl.nextBank
  .next (if !beatToken s g then s
  else if cl.borrowed then macroRetry s g c
  else if cl.banks[b].phase != .landed then s
  else retryRun s g c b fun p k => { k with cells := k.cells.map fun e => (e.1, e.2.rerun p.f32c) })

/-! ## Completion -/

/-- Cells of a hold whose FP32 resolution is non-finite (Table 3.5, NONFINITE). -/
def holdNonfin (p : PassOp) (run : PassRun) (cells : Sparse AccCell) : Nat :=
  ((passCells p).filter fun ij =>
    nonFinite fFP32 (resolveCell p run (spGet AccCell.zero cells (ij.1 * 128 + ij.2)) fFP32 .rne false).1).length

/-- The first entry not yet readable becomes readable (R91). -/
def markReadable : List TileEnt → List TileEnt
  | [] => []
  | t :: rest => if t.readable then t :: markReadable rest else { t with readable := true } :: rest

/-- The 32-byte pass record of R428. -/
def passRecordBytes (p : PassRecord) : List Byte :=
  leBytes 8 p.step.toNat ++ [p.region, p.cluster, p.stream, 0] ++ leBytes 2 p.seq.toNat ++ [0, 0] ++
    leBytes 16 p.digest.toNat

/-- The same pass of the same step (R429). -/
def samePass (a b : PassRecord) : Bool :=
  a.step == b.step && a.region == b.region && a.cluster == b.cluster && a.stream == b.stream && a.seq == b.seq

/-- The partner of lock-step mode lies on the + port of the axis (R427, R428). -/
def lockPort (s : State) : PortId := axisPort ⟨s.boot.cfg.lockAxis % 3, by omega⟩ true

/-- DIGEST_MISMATCH for two pass records that differ (Table 15.19). -/
def lockBytes (s : State) (own peer : PassRecord) : List Byte :=
  [2, 0] ++ leBytes 3 (ownCoords s).toNat ++ leBytes 3 (neighbourCoords s (lockPort s)).toNat ++ leBytes 8 own.step.toNat ++
    [0xFF, 0xFF, 0, 0] ++ leBytes 4 0 ++ leBytes 16 own.digest.toNat ++ leBytes 16 peer.digest.toNat ++
    [own.region, own.cluster, own.stream, 0] ++ leBytes 2 own.seq.toNat

/-- Two records of one pass: on a difference a job fault and the message that names the pass (R429). -/
def lockCompare (s : State) (own peer : PassRecord) : State :=
  if own.digest == peer.digest then s
  else
    let g : RegionId := ⟨own.region.toNat % 64, by omega⟩
    let i : StreamId := ⟨own.stream.toNat % 3, by omega⟩
    let c := s.regions[g].ctx
    let m := lockBytes s own peer
    let rcd := { regionRec s g with cluster := own.cluster, stream := BitVec.ofNat 2 i.val }
    let s := raiseFault s { cause := cLockstepMismatch, ctx := c, rcd := rcd }
    match c with
    | some c => post s c mtDigest 0 0 m
    | none => postAll s (openCtxs s) mtDigest m

/-- Form the pass record of lock-step mode, send it to the partner, and compare it with the partner's when that has come
(R428, R429). -/
def lockRecord (s : State) (g : RegionId) (c : ClusterId) (i : StreamId) (seq : BitVec 16) (digest : BitVec 128) : State :=
  if !s.boot.cfg.lockEnable then s
  else
    match s.regions[g].ctx with
    | none => s
    | some x =>
      let q : PassRecord := { step := regionStep s g, region := BitVec.ofNat 8 g.val, cluster := BitVec.ofNat 8 c.val,
                              stream := BitVec.ofNat 8 i.val, seq := seq, digest := digest, atCount := now s }
      let s := startTxn s (lockPort s) .lock .record x 0 32 pkPassRec 0 (passRecordBytes q)
      match s.peerRecs.find? (samePass q) with
      | some r => lockCompare { s with peerRecs := s.peerRecs.erase r } q r
      | none => { s with ownRecs := s.ownRecs ++ [q] }

/-- Status, flags, signals and record of a pass at its completion point (R93, R103, R428). -/
def passDone (s : State) (g : RegionId) (c : ClusterId) (run : PassRun) : State :=
  match run.parts.getLast? with
  | none => s
  | some p =>
    let seq := nextSeq s.regions[g].clusters[c].pstat[p.stream]
    let fl := run.flags &&& 0x1F
    let w := pstatWord seq run.nonfin run.retries run.dfSteps fl
    let s := updRegion s g fun r =>
      let r := updCluster r c fun cl => { cl with pstat := cl.pstat.set p.stream w }
      let r := updStream r p.stream fun st => raiseAflags st fl
      signalAll r (run.parts.map fun q => (q.sig, q.stream))
    lockRecord s g c p.stream seq run.digest

/-- PASS_COMPLETION: the last row of a drained pass is written, or the check beat of a hold pass comes and its bank is held
(R91 to R93, R103, R207, R428). -/
def execPassCompletion (g : RegionId) (c : ClusterId) (s : State) : Host.Outcome State Fault Refusal :=
  let cl := s.regions[g].clusters[c]
  .next (match cl.drained with
  | run :: rest =>
    let tq := match run.parts.getLast? with | some p => p.dst == 1 | none => false
    let s := updRegion s g fun r => updCluster r c fun cl =>
      { cl with drained := rest, tileQ := if tq then markReadable cl.tileQ else cl.tileQ }
    passDone s g c run
  | [] =>
    let isHold (b : Fin 2) : Bool :=
      cl.banks[b].phase == .landed &&
        (match cl.banks[b].run with
         | some run => (match run.parts.getLast? with | some p => p.dst == 2 | none => false)
         | none => false)
    let pick := if isHold cl.nextBank then some cl.nextBank
      else if isHold (1 - cl.nextBank) then some (1 - cl.nextBank) else none
    match pick with
    | none => s
    | some b =>
      match cl.banks[b].run with
      | none => s
      | some run =>
        match run.parts.getLast? with
        | none => s
        | some p =>
          if !bankChecks cl.banks[b] p then s else
          let cells := cl.banks[b].cells
          let run := { run with nonfin := run.nonfin + holdNonfin p run cells, digest := digestOfPass s g p run cells }
          let s := updRegion s g fun r => updCluster r c fun cl =>
            { updBank cl b (fun k => { k with phase := .held, heldAt := cl.heldSeq, run := some run }) with
                heldSeq := cl.heldSeq + 1 }
          passDone s g c run)

/-! ## Borrowing -/

/-- A borrow of the cluster may take effect: every pass issued to it has completed, no chain is open, neither bank is
held (R98). -/
def borrowable (cl : Cluster) : Bool :=
  cl.passQ.isEmpty && cl.cur.isNone && cl.chain.isNone && cl.drained.isEmpty &&
    cl.banks[(0 : Fin 2)].phase == .free && cl.banks[(1 : Fin 2)].phase == .free

/-- SOLVER_BORROW: a cluster that the macro at the head of the solver queue names is borrowed, in a beat that has a token (R98,
R175, R498). -/
def execSolverBorrow (g : RegionId) (c : ClusterId) (s : State) : Host.Outcome State Fault Refusal :=
  let r := s.regions[g]
  .next (if !beatToken s g then s else match r.mrun, r.mq with
  | none, m :: _ =>
    if m.bm.getLsbD c.val && borrowable r.clusters[c] then
      updRegion s g fun r => updCluster r c fun cl => { cl with borrowed := true }
    else s
  | _, _ => s)

end Sys2Proof.Machine
end

