-- ==== Sys2Proof/Machine/VectorEng.lean ====
section
/-! DEFINITION. The vector engine: lane microprograms (R120 to R125), the checks of a stream instruction at issue, and the
run of each instruction from its start to its completion point (R111 to R144, R325). -/

namespace Sys2Proof.Machine

/-! ## Lane microprograms -/

/-- Operation word `i` of a record (Table 4.5). -/
def mpWord (m : BitVec 2048) (i : Nat) : BitVec 32 := m.extractLsb' (32 * i) 32

/-- Constant K(4 + i) of a record. -/
def mpConst (m : BitVec 2048) (i : Nat) : W32 := m.extractLsb' (1024 + 32 * i) 32

/-- L of a record. -/
def mpLen (m : BitVec 2048) : Nat := bits m 1152 8

/-- R121: the check that VLDMP makes of a record. -/
def mpRecordOk (m : BitVec 2048) : Bool :=
  let l := mpLen m
  decide (1 ≤ l) && decide (l ≤ 32) && decide (m.extractLsb' 1160 888 = 0) &&
    (List.range 32).all fun i => decide (i < l) || mpWord m i == 0

def lwOpc (w : BitVec 32) : Nat := bits w 24 8
def lwDst (w : BitVec 32) : Nat := bits w 19 5
def lwA (w : BitVec 32) : Nat := bits w 14 5
def lwB (w : BitVec 32) : Nat := bits w 9 5
def lwC (w : BitVec 32) : Nat := bits w 4 5
def lwMod (w : BitVec 32) : Nat := bits w 0 4

/-- FCVT options in word bits [8:4] (Table 4.8). -/
def lwSr (w : BitVec 32) : Bool := w.getLsbD 4
def lwSat (w : BitVec 32) : Bool := w.getLsbD 5
def lwInt (w : BitVec 32) : Bool := w.getLsbD 6
def lwDraw (w : BitVec 32) : Nat := bits w 7 2

/-- Operands that a lane operation uses: a, b, c, and whether it uses MOD; none for a reserved opcode. -/
def lwUse (opc : Nat) : Option (Bool × Bool × Bool × Bool) :=
  if opc = 0 then some (false, false, false, false)
  else if opc = 1 ∨ opc = 0x0A ∨ opc = 0x0B ∨ (0x0C ≤ opc ∧ opc ≤ 0x0F) then some (true, false, false, false)
  else if (2 ≤ opc ∧ opc ≤ 4) ∨ opc = 6 ∨ opc = 7 ∨ (0x11 ≤ opc ∧ opc ≤ 0x1B) then some (true, true, false, false)
  else if opc = 5 ∨ opc = 9 then some (true, true, true, false)
  else if opc = 8 ∨ opc = 0x1C then some (true, true, false, true)
  else if opc = 0x10 then some (true, false, false, true)
  else if opc = 0x1D then some (false, false, false, true)
  else none

/-- A legal operand code, given which inputs are named (Table 4.7, R122). -/
def codeOk (c : Nat) (h0 h1 h2 : Bool) : Bool :=
  if c < 16 then true
  else if c = 16 then h0
  else if c = 17 then h1
  else if c = 18 then h2
  else decide (c = 19 ∨ c = 20 ∨ 24 ≤ c)

/-- R122 for one word. -/
def wordOk (w : BitVec 32) (h0 h1 h2 : Bool) : Bool :=
  let opc := lwOpc w
  match lwUse opc with
  | none => false
  | some (a, b, c, m) =>
    if opc = 0 then w == 0
    else
      decide (lwDst w ≤ 16) &&
        (if a then codeOk (lwA w) h0 h1 h2 else decide (lwA w = 0)) &&
        (if b then codeOk (lwB w) h0 h1 h2 else opc == 0x10 || decide (lwB w = 0)) &&
        (if c then codeOk (lwC w) h0 h1 h2 else opc == 0x10 || decide (lwC w = 0)) &&
        (m || decide (lwMod w = 0)) &&
        (match opc with
         | 0x08 => decide (lwMod w < 8)
         | 0x1C => decide (lwMod w < 6)
         | 0x1D => !w.getLsbD 2
         -- FCVT: options take SC and draw bit [8:7]; SB above them is unused
         | 0x10 => decide (lwMod w ≤ 7) && decide (bits w 9 5 = 0)
         | _ => true)

/-- A word that draws from the counter generator. -/
def wordDraws (w : BitVec 32) : Bool :=
  lwOpc w == 0x1D || (lwOpc w == 0x10 && lwSr w)

def mpWords (m : BitVec 2048) : List (BitVec 32) := (List.range (mpLen m)).map (mpWord m)

/-- R122 and R123 for a microprogram with the named inputs. -/
def mpOk (m : BitVec 2048) (h0 h1 h2 : Bool) : Bool :=
  (mpWords m).all (fun w => wordOk w h0 h1 h2) && (mpWords m).any fun w => lwOpc w != 0 && lwDst w == 16

/-- What one element gives its microprogram. -/
structure LaneIn where
  i0   : W32
  i1   : W32
  i2   : W32
  lane : Nat
  idx  : Nat
  ks   : List W32
  deriving DecidableEq, Repr

def laneOperand (x : LaneIn) (t : Vector W32 16) (c : Nat) : W32 :=
  if h : c < 16 then t[c]
  else if c = 16 then x.i0
  else if c = 17 then x.i1
  else if c = 18 then x.i2
  else if c = 19 then BitVec.ofNat 32 x.lane
  else if c = 20 then BitVec.ofNat 32 x.idx
  else x.ks.getD (c - 24) 0

def intVal (w : W32) : Val := valOfInt w.toInt 0

/-- FCVT: to the format in MOD and widened back (Table 4.8, R529). -/
def laneFcvt (w : BitVec 32) (a : W32) (r : W32) : W32 × AF :=
  let f := BitVec.ofNat 4 (lwMod w)
  let v := if lwInt w then intVal a else f32 a
  let (b, fl) := fmtRound f (if lwSr w then .sr r else .rne) (lwSat w) v
  if isFloatFmt f then (toF32 (fmtDecode f b), fl)
  else (BitVec.ofInt 32 (signedOf (fmtBits f) b), fl)

/-- One lane operation on its operands (Table 4.8); `r` is the draw that RAND or FCVT names. -/
def laneOp (w : BitVec 32) (a b c r : W32) : W32 × AF :=
  let bool (x : Bool) : W32 := if x then 1 else 0
  let sh := (b &&& 0x1F).toNat
  match lwOpc w with
  | 0x01 => (a, 0)
  | 0x02 => (fAdd a b, 0)
  | 0x03 => (fSub a b, 0)
  | 0x04 => (fMul a b, 0)
  | 0x05 => (fFma a b c, 0)
  | 0x06 => (fMin a b, 0)
  | 0x07 => (fMax a b, 0)
  | 0x08 => (bool (fCond (lwMod w) (f32 a) (f32 b)), 0)
  | 0x09 => (if c = 0 then b else a, 0)
  | 0x0A => (if isNan32 a then f32Nan else a &&& 0x7FFFFFFF, 0)
  | 0x0B => (if isNan32 a then f32Nan else a ^^^ 0x80000000, 0)
  | 0x0C => (fExp2 a, 0)
  | 0x0D => (fLog2 a, 0)
  | 0x0E => (fRcp a, 0)
  | 0x0F => (fRsqrt a, 0)
  | 0x10 => laneFcvt w a r
  | 0x11 => (a + b, 0)
  | 0x12 => (a - b, 0)
  | 0x13 => (a * b, 0)
  | 0x14 => (if a.toInt ≤ b.toInt then a else b, 0)
  | 0x15 => (if a.toInt ≤ b.toInt then b else a, 0)
  | 0x16 => (a &&& b, 0)
  | 0x17 => (a ||| b, 0)
  | 0x18 => (a ^^^ b, 0)
  | 0x19 => (a <<< sh, 0)
  | 0x1A => (a >>> sh, 0)
  | 0x1B => (a.sshiftRight sh, 0)
  | 0x1C => (bool (iCond (lwMod w) a.toInt b.toInt), 0)
  | 0x1D =>
    if w.getLsbD 3 then (toF32 (.fin false (r >>> 8).toNat (-24)), 0) else (r, 0)
  | _ => (0, 0)

/-- The residue check of a lane operation: every integer sum, difference and product, and the significand products and sums of
a floating operation before it rounds (R377). -/
def laneCheck (w : BitVec 32) (a b c : W32) : Bool :=
  let i (x : W32) : Val := intVal x
  match lwOpc w with
  | 0x02 => addCheck (f32 a) (f32 b)
  | 0x03 => addCheck (f32 a) (f32 b).negate
  | 0x04 => mulCheck (f32 a) (f32 b)
  | 0x05 => mulCheck (f32 a) (f32 b) && addCheck (Val.mul (f32 a) (f32 b)) (f32 c)
  | 0x11 => addCheck (i a) (i b)
  | 0x12 => addCheck (i a) (i b).negate
  | 0x13 => mulCheck (i a) (i b)
  | _ => true

/-- What the words of a microprogram leave: the result, the conversion flags, and whether every residue check held. -/
structure LaneOut where
  res : W32
  fl  : AF
  ok  : Bool
  deriving DecidableEq, Repr

/-- Run the words of a microprogram on one element (R123). -/
def runWords (x : LaneIn) (drawOf : Nat → W32) : List (BitVec 32) → Vector W32 16 → LaneOut → LaneOut
  | [], _, q => q
  | w :: ws, t, q =>
    if lwOpc w = 0 then runWords x drawOf ws t q
    else
      let d := if lwOpc w = 0x1D then bits w 0 2 else lwDraw w
      let (a, b, c) := (laneOperand x t (lwA w), laneOperand x t (lwB w), laneOperand x t (lwC w))
      let (v, g) := laneOp w a b c (drawOf d)
      let q := { q with fl := q.fl ||| g, ok := q.ok && laneCheck w a b c }
      if h : lwDst w < 16 then runWords x drawOf ws (t.set (lwDst w) v) q
      else runWords x drawOf ws t { q with res := v }

/-! ## Element conversions -/

/-- An input element as the microprogram sees it (R123). -/
def widen (f : BitVec 4) (v : Nat) : W32 :=
  if f == fFP32 || f == fINT32 then BitVec.ofNat 32 v
  else if isFloatFmt f then toF32 (fmtDecode f v)
  else BitVec.ofInt 32 (signedOf (fmtBits f) v)

/-- A 32-bit result into an output format: an FP32 value towards a floating format, an INT32 value towards an integer
format (R123, R140). -/
def convResult (f : BitVec 4) (rnd : Rnd) (sat : Bool) (v : W32) : Nat × AF :=
  if f == fFP32 || f == fINT32 then (v.toNat, 0)
  else if isIntFmt f then roundInt (fmtBits f) (intVal v)
  else fmtRound f rnd sat (f32 v)

/-- An FP32 value into any format. -/
def convF32 (f : BitVec 4) (rnd : Rnd) (sat : Bool) (v : W32) : Nat × AF :=
  if f == fFP32 then (v.toNat, 0) else fmtRound f rnd sat (f32 v)

/-- An INT32 value into any format. -/
def convI32 (f : BitVec 4) (rnd : Rnd) (sat : Bool) (v : W32) : Nat × AF :=
  if f == fINT32 then (v.toNat, 0) else fmtRound f rnd sat (intVal v)

/-- An element from one format to another; equal formats keep the bits (R44). -/
def convElem (fi fo : BitVec 4) (rnd : Rnd) (sat : Bool) (v : Nat) : Nat × AF :=
  if fi == fo then (v, 0) else fmtRound fo rnd sat (fmtDecode fi v)

/-! ## Streams of an instruction -/

def VecOp.op (v : VecOp) : Nat := v.vop.toNat

def VecOp.aux0 (v : VecOp) : Nat := v.aux.toNat

def tdOpt (x : Option (BitVec 256)) : Option Td := x.map tdOf

/-- I2 (or I1 of VTW16 TO) serves as an output (R130, R131, R136, R143). -/
def VecOp.i2Out (v : VecOp) : Bool :=
  match v.op with
  | 3 => decide (v.aux0 / 128 % 2 = 1)
  | 4 => decide (v.aux0 / 128 % 2 = 1)
  | 6 => true
  | 11 => decide (v.aux0 % 4 ≠ 2)
  | 12 => decide (v.aux0 % 2 = 0)
  | _ => false

def VecOp.i1Out (v : VecOp) : Bool := (v.op == 12 && decide (v.aux0 % 2 = 0)) || (v.op == 6 && decide (v.aux0 % 4 ≠ 0))

/-- The descriptor that gives the driving shape, before a long count (R137, R138, R143). -/
def VecOp.driver (v : VecOp) : Option Td :=
  match v.op with
  | 2 => tdOpt v.i0
  | 3 => tdOpt v.i0
  | 4 => tdOpt v.i0
  | 6 => tdOpt v.i0
  | 8 => tdOpt v.i0
  | 9 => tdOpt v.i0
  | 11 => if v.aux0 % 4 = 0 then tdOpt v.i0 else tdOpt v.o
  | _ => tdOpt v.o

/-- The driving shape with the long count in place of extent 3 (R113). -/
def VecOp.shape (v : VecOp) : Td :=
  ((v.driver).getD (tdOf 0)).withCount v.lc

/-- A stream with the driving extents. -/
def Td.like (d sh : Td) : Td := { d with e0 := sh.e0, e1 := sh.e1, e2 := sh.e2, e3 := sh.e3 }

/-- A stream with the driving extents 1 to 3 and its own extent 0 (R137, R138). -/
def Td.likeInner (d sh : Td) : Td := { d with e1 := sh.e1, e2 := sh.e2, e3 := sh.e3 }

/-- The extents over which each stream of an instruction is walked: I0, I1, I2, O. -/
def VecOp.walks (v : VecOp) : Option Td × Option Td × Option Td × Option Td :=
  let sh := v.shape
  let i0 := tdOpt v.i0
  let i1 := tdOpt v.i1
  let i2 := tdOpt v.i2
  let o := tdOpt v.o
  let l (x : Option Td) : Option Td := x.map fun d => d.like sh
  match v.op with
  | 1 => (l i0, l i1, l i2, l o)
  | 2 => (l i0, l i1, l i2, o)
  | 3 => (l i0, l i1, i2, o)
  | 4 => (l i0, l i1, if v.i2Out then i2 else l i2, o)
  | 5 => (i0, l i1, l i2, l o)
  | 6 => (l i0, i1, i2, l o)
  | 7 => (i0.map fun d => d.likeInner sh, l i1, none, l o)
  | 8 => (l i0, l i1, none, o.map fun d => d.likeInner sh)
  | 9 => (l i0, l i1, none, o.map fun d => d.likeInner sh)
  | 10 => (l i0, l i1, l i2, l o)
  | 11 => (l i0, i1, i2, l o)
  | 12 => (l i0, l i1, i2, l o)
  | _ => (none, none, none, none)

/-- Equal extents. -/
def Td.sameShape (a b : Td) : Bool := a.e0 == b.e0 && a.e1 == b.e1 && a.e2 == b.e2 && a.e3 == b.e3

/-- Equal extents, but for extent 3 under a long count. -/
def shapeOk (v : VecOp) (d : Option Td) : Bool :=
  match d, v.driver with
  | some a, some b => a.e0 == b.e0 && a.e1 == b.e1 && a.e2 == b.e2 && (v.lc.isSome || a.e3 == b.e3)
  | _, _ => true

/-- Elements of one group or row: the `rdims` innermost dimensions (R126, R133). -/
def groupSize (sh : Td) (rdims : Nat) : Nat :=
  match rdims with
  | 1 => sh.e3
  | 2 => sh.e2 * sh.e3
  | 3 => sh.e1 * sh.e2 * sh.e3
  | _ => sh.e0 * sh.e1 * sh.e2 * sh.e3

/-- The shape of an output with one element, or `k`, for each group (R126, R130). -/
def groupShape (sh : Td) (rdims k : Nat) : Nat × Nat × Nat × Nat :=
  match rdims with
  | 1 => (sh.e0, sh.e1, sh.e2, k)
  | 2 => (sh.e0, sh.e1, 1, k)
  | 3 => (sh.e0, 1, 1, k)
  | _ => (1, 1, 1, k)

def Td.exts (d : Td) : Nat × Nat × Nat × Nat := (d.e0, d.e1, d.e2, d.e3)

/-- A format that plain vector operations take: not L128, G16 or TW16 (R143). -/
def plainFmt (f : BitVec 4) : Bool := decide (f.toNat ≤ 7)

/-- R106, R108, R109, R531 for an input stream. -/
def inOk (d : Td) (w : Td) : Option Cause :=
  if d.kind == kSCRATCH then w.issueOk 128
  else if d.kind == kTILEQ || d.kind == kHOLD then
    firstFail [
      need (if d.kind == kTILEQ then d.base == 0 && d.fmt == fFP32
            else decide (d.base < 2) && (d.fmt == fFP32 || d.fmt == fL128)) cIllegalEncoding,
      need (d.s3 == 1) cOperandLayout,
      need (decide (0 ≤ w.offLo) && decide (w.offHi < 16384)) cAddressRange ]
  else some cIllegalEncoding

/-- R106, R108, R531 for an output stream. -/
def outOk (d : Td) (w : Td) : Option Cause :=
  if d.kind == kSCRATCH then w.issueOk 128 else some cIllegalEncoding

def checkOpt (f : Td → Option Cause) (d : Option Td) : Option Cause :=
  match d with
  | some d => f d
  | none => none

/-- An exponent byte plane (R143): INT8, one element per block. -/
def planeOk (d : Option Td) (blocks : Nat) : Option Cause :=
  match d with
  | some d => firstFail [need (d.fmt == fINT8) cIllegalEncoding, need (d.count == blocks) cVecShape]
  | none => none

/-- Formats of an instruction (R130, R133, R137 to R139, R141, R143). -/
def vecFmtOk (v : VecOp) : Bool :=
  let f (x : Option (BitVec 256)) (p : BitVec 4 → Bool) : Bool := match x with | some d => p (tdOf d).fmt | none => true
  let a := v.aux0
  match v.op with
  | 1 => f v.i0 plainFmt && f v.i1 plainFmt && f v.i2 plainFmt &&
         f v.o (fun o => plainFmt o && (a % 2 = 0 || o == fFP32 || o == fINT32))
  | 7 => f v.i0 plainFmt && f v.i1 (· == fINT32) && f v.o plainFmt
  | 8 => f v.i0 plainFmt && f v.i1 (· == fINT32) && f v.o plainFmt
  | 9 => f v.i1 (· == fINT32) &&
         ((f v.o (· == fFP32) && f v.i0 isFloatFmt) || (f v.o (· == fL128) && f v.i0 (fun x => x == fFP16 || x == fL128)))
  | 10 => f v.i0 (· == fL128) && f v.i1 (· == fL128) && f v.i2 (· == fL128) &&
          (if a % 4 = 0 then f v.o (· == fL128) else f v.o isFloatFmt)
  | 11 =>
    match a % 4 with
    | 0 => f v.i0 (· == fFP32)
    | 1 => f v.i0 (· == fFP32) && f v.o (· == fG16)
    | 2 => f v.i0 (· == fG16) && f v.o (· == fFP32)
    | _ => f v.i0 (· == fG16) && f v.o (· == fG16)
  | 12 =>
    if a % 2 = 0 then f v.i0 (· == fFP32) && f v.o (· == fTW16) && f v.i1 (· == fTW16) && f v.i2 (· == fFP32)
    else f v.i0 (· == fTW16) && f v.i1 (· == fTW16) && f v.i2 (· == fFP32) && f v.o (· == fFP32)
  | op =>
    f v.i0 plainFmt && (v.i1Out || f v.i1 plainFmt) && f v.o plainFmt &&
      (if op = 6 then f v.i2 (· == fINT8) else if v.i2Out then f v.i2 (· == fINT32) else f v.i2 plainFmt)

/-- Shapes of an instruction (R111, R112, R126, R130, R137, R138, R143). -/
def vecShapeOk (v : VecOp) : Bool :=
  let sh := v.shape
  let a := v.aux0
  let i0 := tdOpt v.i0
  let i1 := tdOpt v.i1
  let i2 := tdOpt v.i2
  let o := tdOpt v.o
  let ext (d : Option Td) (e : Nat × Nat × Nat × Nat) : Bool := match d with | some d => d.exts == e | none => true
  let blocked (n : Nat) (d : Option Td) : Bool := match d with | some d => (d.withCount v.lc).e3 % n == 0 | none => true
  let rows (d : Option Td) : Bool := match d with | some d => d.e2 % 128 == 0 | none => true
  (v.lc.isSome || decide (sh.e3 ≤ 128)) &&
  (match v.op with
   | 1 => shapeOk v i0 && shapeOk v i1 && shapeOk v i2
   | 2 => ext o (groupShape sh v.rdims 1)
   | 3 => ext o (groupShape sh v.rdims (a % 128)) && (!v.i2Out || ext i2 (groupShape sh v.rdims (a % 128)))
   | 4 => shapeOk v i1 && (v.i2Out || shapeOk v i2)
   | 6 => shapeOk v o &&
          (match i2 with | some d => d.count == sh.count / groupSize sh v.rdims | none => true)
   | 7 => shapeOk v i1
   | 8 => shapeOk v i1
   | 9 => shapeOk v i1
   | 11 => blocked 64 i0 && blocked 64 o
   | 12 => blocked 128 i0 && blocked 128 i1 && blocked 128 o && rows i0 && rows i1 && rows o &&
           (match i2 with | some d => decide (sh.count / 16384 ≤ d.count) | none => true)
   | _ => true)

/-- The state records of a VSMAX as a stream of bytes: 16 for each row, from the BASE of I1 (R133). -/
def VecOp.records (v : VecOp) : Option Td :=
  match tdOpt v.i1, v.op == 6 && decide (v.aux0 % 4 ≠ 0) with
  | some d, true =>
    some { d with fmt := fL128, e0 := 1, e1 := 1, e2 := 1, e3 := v.shape.count / groupSize v.shape v.rdims,
                  s0 := 0, s1 := 0, s2 := 0, s3 := 1 }
  | _, _ => none

/-- Outputs and inputs of an instruction as they are walked, for R118. STATS_INIT and STATS write the state records, STATS
and NORM read them. -/
def vecOverlapOk (v : VecOp) : Bool :=
  let (i0, i1, i2, o) := v.walks
  let phase := v.aux0 % 4
  let ins := i0.toList ++ (if v.i1Out then [] else i1.toList) ++ (if v.i2Out then [] else i2.toList) ++
    (if 2 ≤ phase then v.records.toList else [])
  let outs := o.toList ++ (if v.op == 12 && v.i1Out then i1.toList else []) ++ (if v.i2Out then i2.toList else []) ++
    (if phase = 3 then [] else v.records.toList)
  outs.all fun d => overlapOk d ins

/-- The named inputs that a microprogram may read: not an output, a state record, or VEXPND's I0 (R122, R132). -/
def mpInputs (v : VecOp) : Bool × Bool × Bool :=
  (v.i0.isSome && v.op != 5, v.i1.isSome && !v.i1Out, v.i2.isSome && !v.i2Out)

/-- Checks of a vector instruction at issue that need register values (R106 to R113, R118, R122, R123, R134, R143,
R244). -/
def vecIssue (v : VecOp) : Option Cause :=
  let (w0, w1, w2, wo) := v.walks
  let sh := v.shape
  let (h0, h1, h2) := mpInputs v
  let chk (f : Td → Td → Option Cause) (x : Option (BitVec 256)) (w : Option Td) : Option Cause :=
    match x, w with
    | some d, some w => f (tdOf d) w
    | _, _ => none
  let rows := sh.count / groupSize sh v.rdims
  let state := v.op == 6 && decide (v.aux0 % 4 ≠ 0)
  firstFail [
    need (match v.i0, v.i1, v.i2, v.o with
          | a, b, c, d => [a, b, c, d].all fun x => match x with | some y => decide ((tdOf y).fmt.toNat ≤ 10) | none => true)
      cIllegalEncoding,
    need (vecFmtOk v) cIllegalEncoding,
    (match v.mp with
     | some m =>
       need (mpOk m h0 h1 h2 && (v.sr || v.tid == 0 || (mpWords m).any wordDraws)) cIllegalEncoding
     | none => need (decide (6 < v.op) || h0) cIllegalEncoding),
    need (match v.lc with | some n => decide (1 ≤ n) && decide (n ≤ 65536) | none => true) cVecShape,
    chk inOk v.i0 w0,
    (if state then
       match v.i1 with
       | some d =>
         let t := tdOf d
         firstFail [need (t.kind == kSCRATCH && decide (t.base < 2 ^ 24)) cIllegalEncoding,
           need (decide (poolEnd ≤ t.base) && decide (t.base + 16 * rows ≤ scratchEnd)) cAddressRange,
           need (decide (t.base % 16 = 0)) cOperandLayout]
       | none => none
     else if v.i1Out then chk outOk v.i1 w1 else chk inOk v.i1 w1),
    (if v.i2Out then chk outOk v.i2 w2 else chk inOk v.i2 w2),
    chk outOk v.o wo,
    need (vecShapeOk v) cVecShape,
    (if v.op == 11 then
       let blocks := sh.count / 64
       firstFail [planeOk (tdOpt v.i1) blocks, planeOk (tdOpt v.i2) blocks]
     else none),
    need (!(v.op == 6 && decide (v.aux0 % 4 = 0) && decide (2 ^ 24 < groupSize sh v.rdims))) cSmaxRowLength,
    need (vecOverlapOk v) cStreamOverlap ]

/-! ## Running an instruction -/

/-- The running instruction: its engine, what it reads beside memory, and what its status will report. -/
structure VAcc where
  e     : Eng
  cl    : Cluster
  v     : VecOp
  oor   : Nat
  empty : Nat
  vf    : BitVec 7
  rx    : Option W64
  /-- Every residue check of its lanes and trees has held (R377). -/
  ok    : Bool
  deriving DecidableEq, Repr

def vCheck (a : VAcc) (ok : Bool) : VAcc := { a with ok := a.ok && ok }

def vFlag (a : VAcc) (f : AF) : VAcc := { a with e := engFlag a.e f }

/-- The held bank of an age: false older, true newer; a single one is both (R110). -/
def heldIndex (cl : Cluster) (newer : Bool) : Option (Fin 2) :=
  let b0 := cl.banks[(0 : Fin 2)]
  let b1 := cl.banks[(1 : Fin 2)]
  match b0.phase == .held, b1.phase == .held with
  | false, false => none
  | true, false => some 0
  | false, true => some 1
  | true, true => if (b0.heldAt < b1.heldAt) == newer then some 1 else some 0

def heldBank (cl : Cluster) (newer : Bool) : Option Bank := (heldIndex cl newer).map fun b => cl.banks[b]

/-- Cell (r, c) of a held bank as one reader sees it: FP32 or raw L128 (R92, R109, R154). -/
def holdElem (k : Bank) (f : BitVec 4) (r c : Nat) : Nat × AF :=
  match k.run with
  | none => (0, 0)
  | some run =>
    match run.parts.getLast? with
    | none => (0, 0)
    | some p =>
      if p.m ≤ r || p.n ≤ c then (0, 0)
      else if p.tri == 1 && c < r then (0, 0)
      else
        let key := if p.tri == 2 && c < r then c * 128 + r else r * 128 + c
        resolveCell p run (spGet AccCell.zero k.cells key) f .rne false

/-- Read an input element at an element offset (R109, R114). -/
def vRead (a : VAcc) (d : Td) (o : Int) : Nat × VAcc :=
  if d.kind == kTILEQ then
    match a.cl.tileQ with
    | t :: _ =>
      let u := o.toNat
      let a := if t.bad then { a with e := engStop a.e cBusError { a.e.base with cls := clUncorrectable, source := srcSramDemand } } else a
      (if u / 128 < t.m && u % 128 < t.n then (spGet 0 t.cells u).toNat else 0, a)
    | [] => (0, a)
  else if d.kind == kHOLD then
    match heldBank a.cl (d.base % 2 == 1) with
    | some k =>
      let u := o.toNat
      let (v, f) := holdElem k d.fmt (u / 128) (u % 128)
      (v, vFlag a f)
    | none => (0, a)
  else
    let (v, e) := engElem a.e d o
    (v, { a with e := e })

/-- Write an output element. -/
def vWrite (a : VAcc) (d : Td) (o : Int) (v : Nat) : VAcc := { a with e := engPut a.e d o v }

/-- Element offset of driving index `i` in a stream walked with the driving shape. -/
def vOff (sh d : Td) (i : Nat) : Int :=
  let (c0, c1, c2, c3) := sh.coords i
  d.offAt c0 c1 c2 c3

/-- The lane of driving index `i` (R112, R113). -/
def laneOf (sh : Td) (i : Nat) : Nat := i % sh.e3 % 128

def isActive (v : VecOp) (sh : Td) (i : Nat) : Bool := v.mask.getLsbD (laneOf sh i)

/-- Active elements of the driving shape, in stream order. -/
def actives (v : VecOp) (sh : Td) : List Nat := (List.range sh.count).filter (isActive v sh)

/-- The rounding of an output conversion (R48, R125). -/
def vRnd (a : VAcc) (f : BitVec 4) (idx : Nat) : Rnd := rndOf a.e.s a.e.g a.v.stream a.v.sr f a.v.tid idx

/-- A named input of the element at driving index `i`, widened; zero for a stream that is not an input (R123). -/
def vInput (a : VAcc) (sh : Td) (x : Option (BitVec 256)) (isIn : Bool) (i : Nat) : W32 × VAcc :=
  match x, isIn with
  | some d, true =>
    let t := tdOf d
    let (v, a) := vRead a t (vOff sh t i)
    (widen t.fmt v, a)
  | _, _ => (0, a)

/-- The result of the element at driving index `i` (R123, R125). -/
def vResult (a : VAcc) (sh : Td) (i : Nat) : W32 × VAcc :=
  let (h0, h1, h2) := mpInputs a.v
  let (x0, a) := vInput a sh a.v.i0 h0 i
  match a.v.mp with
  | none => (x0, a)
  | some m =>
    let (x1, a) := vInput a sh a.v.i1 h1 i
    let (x2, a) := vInput a sh a.v.i2 h2 i
    let ks := [a.v.k0, a.v.k1, a.v.k2, a.v.k3, mpConst m 0, mpConst m 1, mpConst m 2, mpConst m 3]
    let drawOf (d : Nat) : W32 := draw a.e.s a.e.g a.v.stream (a.v.tid + 1 + BitVec.ofNat 16 d) i
    let q := runWords { i0 := x0, i1 := x1, i2 := x2, lane := laneOf sh i, idx := i, ks := ks } drawOf (mpWords m)
      (Vector.replicate 16 0) { res := 0, fl := 0, ok := true }
    (q.res, vCheck (vFlag a q.fl) q.ok)

/-- Convert and write a 32-bit result at driving index `i` of O. -/
def putResult (a : VAcc) (sh o : Td) (i : Nat) (r : W32) (conv : BitVec 4 → Rnd → Bool → W32 → Nat × AF) : VAcc :=
  let (b, f) := conv o.fmt (vRnd a o.fmt i) a.v.sat r
  vWrite (vFlag a f) o (vOff sh o i) b

/-- VMAP (R123, R141). -/
def runVmap (a : VAcc) (sh o : Td) : VAcc :=
  (actives a.v sh).foldl (fun a i =>
    let (r, a) := vResult a sh i
    if a.v.aux0 % 2 = 1 then
      let (old, a) := vRead a o (vOff sh o i)
      let w := BitVec.ofNat 32 old
      vWrite a o (vOff sh o i) (if o.fmt == fFP32 then fAdd w r else w + r).toNat
    else putResult a sh o i r convResult) a

/-! ### Reductions -/

def treeLevel (f : W32 → W32 → W32) : List W32 → List W32
  | x :: y :: rest => f x y :: treeLevel f rest
  | l => l

/-- The lane tree of R127: seven levels over 128 values. -/
def laneTree (f : W32 → W32 → W32) (l : List W32) : W32 :=
  ((List.range 7).foldl (fun l _ => treeLevel f l) l).getD 0 0

/-- The checks of the sums of a tree level, and of the lane tree (R127, R377). -/
def levelCheck (sum : W32 → W32 → Bool) : List W32 → Bool
  | x :: y :: rest => sum x y && levelCheck sum rest
  | _ => true

def treeCheck (f : W32 → W32 → W32) (sum : W32 → W32 → Bool) (l : List W32) : Bool :=
  ((List.range 7).foldl (fun (acc : List W32 × Bool) _ => (treeLevel f acc.1, acc.2 && levelCheck sum acc.1)) (l, true)).2

/-- The check of one sum node: FP32, or INT32. -/
def sumCheck (int : Bool) (x y : W32) : Bool := if int then addCheck (intVal x) (intVal y) else addCheck (f32 x) (f32 y)

/-- The rank of R129 as an integer: higher is earlier. -/
def rankF (w : W32) : Int :=
  if isNan32 w then 2 ^ 32
  else if w.getLsbD 31 then -((w &&& 0x7FFFFFFF).toNat : Int) - 1 else (w.toNat : Int)

def rankOf (int : Bool) (w : W32) : Int := if int then w.toInt else rankF w

/-- Elements of group `q` in vectors of the driving shape: for each vector its first driving index and its lanes. -/
def groupVectors (sh : Td) (rdims q : Nat) : List (Nat × Nat) :=
  let n := groupSize sh rdims
  (List.range (n / sh.e3)).flatMap fun row =>
    (List.range (ceilDiv sh.e3 128)).map fun v => (q * n + row * sh.e3 + 128 * v, min 128 (sh.e3 - 128 * v))

/-- The results of the active lanes of one vector, each with its lane. -/
def vectorResults (a : VAcc) (sh : Td) (first n : Nat) : List (Nat × W32) × VAcc :=
  ((List.range n).filter fun l => isActive a.v sh (first + l)).foldl (fun (acc : List (Nat × W32) × VAcc) l =>
    let (r, a) := vResult acc.2 sh (first + l)
    (acc.1 ++ [(l, r)], a)) ([], a)

/-- 128 lanes with an identity where a lane is not listed. -/
def fillLanes (l : List (Nat × W32)) (ident : W32) : List W32 :=
  (List.range 128).map fun i => match l.find? fun e => e.1 == i with | some e => e.2 | none => ident

/-- The first of the highest-ranked (or, for MIN, lowest-ranked) candidates (R129). -/
def bestOf (int lowest : Bool) (l : List (Nat × W32)) : Option (Nat × W32) :=
  l.foldl (fun best x =>
    match best with
    | none => some x
    | some b =>
      if lowest then (if rankOf int x.2 < rankOf int b.2 then some x else best)
      else (if rankOf int b.2 < rankOf int x.2 then some x else best)) none

/-- The value of one group of a VRED: the value and whether the group had an active element (R126 to R129). -/
def reduceGroup (a : VAcc) (sh : Td) (q : Nat) : W32 × Bool × VAcc :=
  let kind := a.v.aux0 % 4
  let int := decide (a.v.aux0 / 8 % 2 = 1)
  let n := groupSize sh a.v.rdims
  let vecs := groupVectors sh a.v.rdims q
  let (perVec, a) := vecs.foldl (fun (acc : List (Nat × List (Nat × W32)) × VAcc) e =>
    let (r, a) := vectorResults acc.2 sh e.1 e.2
    (acc.1 ++ [(e.1 - q * n, r)], a)) ([], a)
  let all := perVec.flatMap fun e => e.2.map fun x => (e.1 + x.1, x.2)
  if kind = 0 then
    let f : W32 → W32 → W32 := if int then (· + ·) else fAdd
    let ident : W32 := if int then 0 else 0x80000000
    let a := vCheck a (perVec.all fun e => treeCheck f (sumCheck int) (fillLanes e.2 ident))
    let sums := perVec.map fun e => laneTree f (fillLanes e.2 ident)
    match sums with
    | [] => (ident, false, a)
    | x :: rest => (rest.foldl f x, !all.isEmpty, a)
  else
    match bestOf int (kind == 2) all with
    | some b =>
      if kind = 3 then (BitVec.ofNat 32 b.1, true, a)
      else (if !int && all.any (fun x => isNan32 x.2) then f32Nan else b.2, true, a)
    | none =>
      let ident : W32 :=
        if kind = 3 then 0xFFFFFFFF
        else if int then (if kind = 1 then 0x80000000 else 0x7FFFFFFF)
        else (if kind = 1 then 0xFF800000 else 0x7F800000)
      (ident, false, a)

/-- VRED (R126). -/
def runVred (a : VAcc) (sh : Td) (o : Option Td) : VAcc :=
  let intRes := decide (a.v.aux0 / 8 % 2 = 1 ∨ a.v.aux0 % 4 = 3)
  (List.range (sh.count / groupSize sh a.v.rdims)).foldl (fun a q =>
    let (r, any, a) := reduceGroup a sh q
    let a := if any then a else { a with empty := a.empty + 1 }
    let a := if a.v.rdims = 4 && a.v.rx != 0 then
        { a with rx := some (if intRes then r.signExtend 64 else r.setWidth 64) } else a
    match o with
    | some o =>
      let (b, f) := (if intRes then convI32 else convF32) o.fmt (vRnd a o.fmt q) a.v.sat r
      vWrite (vFlag a f) o (o.off q) b
    | none => a) a

/-- Insert into a list of descending rank, after equal ranks. -/
def insRank (x : Nat × W32) : List (Nat × W32) → List (Nat × W32)
  | [] => [x]
  | y :: l => if rankF y.2 < rankF x.2 then x :: y :: l else y :: insRank x l

/-- VTOPK (R130). -/
def runVtopk (a : VAcc) (sh o : Td) (pos : Option Td) : VAcc :=
  let k := a.v.aux0 % 128
  let n := groupSize sh a.v.rdims
  (List.range (sh.count / n)).foldl (fun a q =>
    let (l, a) := (groupVectors sh a.v.rdims q).foldl (fun (acc : List (Nat × W32) × VAcc) e =>
      let (r, a) := vectorResults acc.2 sh e.1 e.2
      (acc.1 ++ r.map fun x => (e.1 - q * n + x.1, x.2), a)) ([], a)
    let top := (l.foldl (fun acc x => insRank x acc) []).take k
    let a := if top.length < k then { a with vf := a.vf ||| vfTopkShort } else a
    (List.range k).foldl (fun a j =>
      let (p, r) := match top[j]? with | some e => (BitVec.ofNat 32 e.1, e.2) | none => ((0xFFFFFFFF : W32), (0xFF800000 : W32))
      let (b, f) := convF32 o.fmt (vRnd a o.fmt (q * k + j)) a.v.sat r
      let a := vWrite (vFlag a f) o (o.off (q * k + j)) b
      match pos with
      | some d => vWrite a d (d.off (q * k + j)) p.toNat
      | none => a) a) a

/-! ### Compress and expand -/

/-- A predicate result that holds (R131). -/
def holds (r : W32) : Bool := r != 0 && r != 0x80000000

/-- VCMPRS (R131). -/
def runVcmprs (a : VAcc) (sh i0 o : Td) (idx : Option Td) : VAcc :=
  let (a, kept) := (actives a.v sh).foldl (fun (acc : VAcc × Nat) i =>
    let (r, a) := vResult acc.1 sh i
    if !holds r then (a, acc.2)
    else if acc.2 < o.count then
      let (x, a) := vRead a i0 (vOff sh i0 i)
      let (b, f) := convElem i0.fmt o.fmt (vRnd a o.fmt i) a.v.sat x
      let a := vWrite (vFlag a f) o (o.off acc.2) b
      let a := match idx with
        | some d => if acc.2 < d.count then vWrite a d (d.off acc.2) (i % 2 ^ 32) else a
        | none => a
      (a, acc.2 + 1)
    else ({ a with vf := a.vf ||| vfCmprsTrunc }, acc.2 + 1)) (a, 0)
  if a.v.rx == 0 then a else { a with rx := some (BitVec.ofNat 64 kept) }

/-- K0 in the output format (R132, R140). -/
def fillElem (a : VAcc) (f : BitVec 4) (i : Nat) : Nat × AF := convResult f (vRnd a f i) a.v.sat a.v.k0

/-- VEXPND (R132). -/
def runVexpnd (a : VAcc) (sh i0 o : Td) : VAcc :=
  let fill := decide (a.v.aux0 / 256 % 2 = 1)
  let (a, used) := (actives a.v sh).foldl (fun (acc : VAcc × Nat) i =>
    let (r, a) := vResult acc.1 sh i
    if holds r && acc.2 < i0.count then
      let (x, a) := vRead a i0 (i0.off acc.2)
      let (b, f) := convElem i0.fmt o.fmt (vRnd a o.fmt i) a.v.sat x
      (vWrite (vFlag a f) o (vOff sh o i) b, acc.2 + 1)
    else
      let a := if holds r then { a with vf := a.vf ||| vfCmprsTrunc } else a
      if fill then
        let (b, f) := fillElem a o.fmt i
        (vWrite (vFlag a f) o (vOff sh o i) b, acc.2)
      else (a, acc.2)) (a, 0)
  if a.v.rx == 0 then a else { a with rx := some (BitVec.ofNat 64 used) }

/-! ### Soft maximum -/

/-- A state record of Table 4.9. -/
structure Smax where
  m    : W32
  sum  : W32
  kinf : W32
  nan  : Bool
  live : Bool
  cnt  : Nat
  deriving DecidableEq, Repr

def Smax.init : Smax := { m := 0xFF800000, sum := 0, kinf := 0, nan := false, live := false, cnt := 0 }

def smaxOf (l : List Byte) : Smax :=
  let w := BitVec.ofNat 32 (sliceNat l 12 4)
  { m := BitVec.ofNat 32 (sliceNat l 0 4), sum := BitVec.ofNat 32 (sliceNat l 4 4), kinf := BitVec.ofNat 32 (sliceNat l 8 4),
    nan := w.getLsbD 31, live := w.getLsbD 30, cnt := bits w 0 25 }

def Smax.bytes (t : Smax) : List Byte :=
  leBytes 4 t.m.toNat ++ leBytes 4 t.sum.toNat ++ leBytes 4 t.kinf.toNat ++
    leBytes 4 (t.cnt % 2 ^ 25 + (if t.live then 2 ^ 30 else 0) + (if t.nan then 2 ^ 31 else 0))

def negInf : W32 := 0xFF800000
def posInf : W32 := 0x7F800000

/-- The terms that a vector gives the lane tree of fold(): exp2(x - mv) of the finite lanes (R135). -/
def smaxTerms (mv : W32) (fin : List (Nat × W32)) : List W32 :=
  fillLanes (fin.map fun x => (x.1, fExp2 (fSub x.2 mv))) 0x80000000

/-- fold() of R135 for one vector of `n` lanes below extent 3. -/
def smaxFold (t : Smax) (n : Nat) (xs : List (Nat × W32)) : Smax :=
  let t := { t with cnt := t.cnt + n }
  let t := xs.foldl (fun (t : Smax) x =>
    if isNan32 x.2 then { t with nan := true }
    else if x.2 = posInf then { t with kinf := t.kinf + 1, live := true }
    else if x.2 = negInf then t else { t with live := true }) t
  let fin := xs.filter fun x => isFinite32 x.2
  match bestOf false false fin with
  | none => t
  | some b =>
    let mv := b.2
    let sv := laneTree fAdd (smaxTerms mv fin)
    if t.m = negInf then { t with m := mv, sum := sv }
    else if Val.lt (f32 t.m) (f32 mv) then
      { t with sum := fAdd (fMul t.sum (fExp2 (fSub t.m mv))) sv, m := mv }
    else { t with sum := fAdd t.sum (fMul sv (fExp2 (fSub mv t.m))) }

/-- norm() of R135. -/
def smaxNorm (t : Smax) (active : Bool) (x : W32) : W32 :=
  if t.nan then f32Nan
  else if !t.live then 0
  else if t.kinf != 0 then
    (if active && x == posInf then fRcp (toF32 (valOfInt t.kinf.toNat 0)) else 0)
  else if !active || x == negInf then 0
  else fMul (fExp2 (fSub x t.m)) (fRcp t.sum)

/-- Row status code (R136). -/
def smaxStatus (t : Smax) : Nat := if t.nan then 2 else if !t.live then 1 else if t.kinf != 0 then 3 else 0

/-- The outputs and the status of one row (R135, R136); each element is read for its output before that is written (R118). -/
def smaxWrite (a : VAcc) (sh o : Td) (q : Nat) (t : Smax) : VAcc :=
  let n := groupSize sh a.v.rdims
  let a := (List.range n).foldl (fun a j =>
    let i := q * n + j
    let act := isActive a.v sh i
    let (x, a) := if act then vResult a sh i else (0, a)
    putResult a sh o i (smaxNorm t act x) convF32) a
  let st := smaxStatus t
  let a := if st = 1 then { a with empty := a.empty + 1 } else a
  let a := { a with vf := a.vf ||| (if st = 2 then vfRowNan else 0) ||| (if st = 3 then vfRowInf else 0) }
  match tdOpt a.v.i2 with
  | some d => vWrite a d (d.off q) st
  | none => a

/-- The fold of one row's vectors into a state record (R135). -/
def smaxRow (a : VAcc) (sh : Td) (q : Nat) (t : Smax) : Smax × VAcc :=
  (groupVectors sh a.v.rdims q).foldl (fun (acc : Smax × VAcc) e =>
    let (r, a) := vectorResults acc.2 sh e.1 e.2
    let fin := r.filter fun x => isFinite32 x.2
    let ok := match bestOf false false fin with
      | some b => treeCheck fAdd (sumCheck false) (smaxTerms b.2 fin)
      | none => true
    (smaxFold acc.1 e.2 r, vCheck a ok)) (t, a)

/-- VSMAX (R133 to R136). -/
def runVsmax (a : VAcc) (sh : Td) (o rcds : Option Td) : VAcc :=
  let n := groupSize sh a.v.rdims
  let phase := a.v.aux0 % 4
  (List.range (sh.count / n)).foldl (fun a q =>
    let at0 : Nat := match rcds with | some d => d.base + 16 * q | none => 0
    let (old, a) : Smax × VAcc :=
      if phase = 2 ∨ phase = 3 then
        let (l, e) := engRead a.e at0 16
        (smaxOf l, { a with e := e })
      else (Smax.init, a)
    let (t, a) := if phase = 3 then (old, a) else smaxRow a sh q old
    if phase ≠ 3 ∧ 2 ^ 24 < t.cnt then { a with e := engStop a.e cSmaxRowLength a.e.base }
    else
      let a := if phase = 1 ∨ phase = 2 then { a with e := engWrite a.e at0 t.bytes } else a
      match o with
      | some o => if phase = 0 ∨ phase = 3 then smaxWrite a sh o q t else a
      | none => a) a

/-! ### Gather and scatter -/

def noteOor (a : VAcc) : VAcc := { a with oor := a.oor + 1 }

/-- The index of driving element `i` (R137, R138). -/
def vIndex (a : VAcc) (sh : Td) (i : Nat) : Int × VAcc :=
  match tdOpt a.v.i1 with
  | some d =>
    let (x, a) := vRead a d (vOff sh d i)
    ((BitVec.ofNat 32 x).toInt, a)
  | none => (0, a)

/-- VGATH (R137, R140). -/
def runVgath (a : VAcc) (sh i0 o : Td) : VAcc :=
  (actives a.v sh).foldl (fun a i =>
    let (idx, a) := vIndex a sh i
    let (_, c1, c2, c3) := sh.coords i
    if 0 ≤ idx ∧ idx < i0.e0 then
      let (x, a) := vRead a i0 (i0.offAt idx.toNat c1 c2 c3)
      let (b, f) := convElem i0.fmt o.fmt (vRnd a o.fmt i) a.v.sat x
      vWrite (vFlag a f) o (vOff sh o i) b
    else
      let (b, f) := fillElem a o.fmt i
      vWrite (vFlag (noteOor a) f) o (vOff sh o i) b) a

/-- VSCAT (R138, R140). -/
def runVscat (a : VAcc) (sh i0 o : Td) : VAcc :=
  (actives a.v sh).foldl (fun a i =>
    let (idx, a) := vIndex a sh i
    let (_, c1, c2, c3) := sh.coords i
    if 0 ≤ idx ∧ idx < o.e0 then
      let (x, a) := vRead a i0 (vOff sh i0 i)
      let (b, f) := convElem i0.fmt o.fmt (vRnd a o.fmt i) a.v.sat x
      vWrite (vFlag a f) o (o.offAt idx.toNat c1 c2 c3) b
    else noteOor a) a

/-- An FP16 pattern as a stored L128 value (R139). -/
def l128OfFp16 (x : Nat) : BitVec 128 := drainRaw (preloadVal (fmtDecode fFP16 x)).1

/-- VSCADD (R139, R140). -/
def runVscadd (a : VAcc) (sh i0 o : Td) : VAcc :=
  (actives a.v sh).foldl (fun a i =>
    let (idx, a) := vIndex a sh i
    let (_, c1, c2, c3) := sh.coords i
    if 0 ≤ idx ∧ idx < o.e0 then
      let (x, a) := vRead a i0 (vOff sh i0 i)
      let off := o.offAt idx.toNat c1 c2 c3
      let (old, a) := vRead a o off
      if o.fmt == fL128 then
        let y := if i0.fmt == fL128 then BitVec.ofNat 128 x else l128OfFp16 x
        let (n, f) := addL128 (BitVec.ofNat 128 old) y
        vWrite (vFlag a f) o off n.toNat
      else vWrite a o off (fAdd (BitVec.ofNat 32 old) (widen i0.fmt x)).toNat
    else noteOor a) a

/-! ### Format instructions -/

/-- VL128 (R143). -/
def runVl128 (a : VAcc) (sh i0 o : Td) : VAcc :=
  (actives a.v sh).foldl (fun a i =>
    let (x0, a) := vRead a i0 (vOff sh i0 i)
    if a.v.aux0 % 4 = 0 then
      let add (acc : BitVec 128 × VAcc) (d : Option Td) : BitVec 128 × VAcc :=
        match d with
        | some d =>
          let (y, a) := vRead acc.2 d (vOff sh d i)
          let (n, f) := addL128 acc.1 (BitVec.ofNat 128 y)
          (n, vFlag a f)
        | none => acc
      let (n, a) := add (add (BitVec.ofNat 128 x0, a) (tdOpt a.v.i1)) (tdOpt a.v.i2)
      vWrite a o (vOff sh o i) n.toNat
    else
      let v : Val :=
        match l128Class (BitVec.ofNat 128 x0) with
        | .nan => drainVal 0 false false true (f32 a.v.k0) (f32 a.v.k1) (f32 a.v.k2)
        | .pinf => drainVal 0 true false false (f32 a.v.k0) (f32 a.v.k1) (f32 a.v.k2)
        | .ninf => drainVal 0 false true false (f32 a.v.k0) (f32 a.v.k1) (f32 a.v.k2)
        | .fin n => drainVal n false false false (f32 a.v.k0) (f32 a.v.k1) (f32 a.v.k2)
      let (b, f) := fmtRound o.fmt (vRnd a o.fmt i) a.v.sat v
      vWrite (vFlag a f) o (vOff sh o i) b) a

/-- Active elements of block `b` of 64. -/
def blockActives (v : VecOp) (sh : Td) (b : Nat) : List Nat :=
  ((List.range 64).map fun j => 64 * b + j).filter (isActive v sh)

/-- The elements of the listed driving indices. -/
def vReads' (a : VAcc) (sh d : Td) (l : List Nat) : List Nat × VAcc :=
  l.foldl (fun (acc : List Nat × VAcc) i =>
    let (x, a) := vRead acc.2 d (vOff sh d i)
    (acc.1 ++ [x], a)) ([], a)

def vWrites (a : VAcc) (sh d : Td) (l : List (Nat × Nat)) : VAcc :=
  l.foldl (fun a e => vWrite a d (vOff sh d e.1) e.2) a

/-- shr_rne() of R323. -/
def shrRne (m : Int) (d : Nat) : Int := if 17 ≤ d then 0 else signedM (decide (m < 0)) (rneShift m.natAbs d)

/-- The rounds of g16_acc() (R325), on finite elements with `none` for the NaN code. -/
def g16Rounds (lim : Int) : Nat → List (Option Int) → Nat → AF → List (Option Int) × Nat × AF
  | 0, l, e, f => (l, e, f)
  | k + 1, l, e, f =>
    if l.any fun x => match x with | some v => decide (lim < v.natAbs) | none => false then
      if e = 255 then
        (l.map fun x => x.map fun v => if lim < v then lim else if v < -lim then -lim else v, e, f ||| afG16Sat)
      else g16Rounds lim k (l.map fun x => x.map fun v => shrRne v 1) (e + 1) (f ||| afG16Rescale)
    else (l, e, f)

def g16Code (x : Option Int) : BitVec 16 :=
  match x with
  | none => 0x8000
  | some v => if v = 32768 then Config.g16Edge false else if v = -32768 then Config.g16Edge true else BitVec.ofInt 16 v

def g16Int (m : BitVec 16) : Option Int := if m = 0x8000 then none else some m.toInt

/-- g16_acc() of R325 for the active elements of one block. -/
def g16Acc (ma : List (BitVec 16)) (ea : Nat) (mc : List (BitVec 16)) (ec h : Nat) : List (BitVec 16) × Nat × AF :=
  let e := max ea ec
  let s := (ma.zip mc).map fun p =>
    match g16Int p.1, g16Int p.2 with
    | some x, some y => some (shrRne x (e - ea) + shrRne y (e - ec))
    | _, _ => none
  let (l, e, f) := g16Rounds (2 ^ (15 - h)) 32 s e 0
  (l.map g16Code, e, f)

/-- VG16 (R66, R67, R143, R325). -/
def runVg16 (a : VAcc) (sh i0 : Td) (i1 i2 o : Option Td) : VAcc :=
  let mode := a.v.aux0 % 4
  let h := a.v.aux0 / 4 % 16
  let planeGet (a : VAcc) (d : Option Td) (b : Nat) : Nat × VAcc :=
    match d with | some d => vRead a d (d.off b) | none => (0, a)
  let planePut (a : VAcc) (d : Option Td) (b v : Nat) : VAcc :=
    match d with | some d => vWrite a d (d.off b) v | none => a
  let elemPut (a : VAcc) (l : List (Nat × Nat)) : VAcc :=
    match o with | some d => vWrites a sh d l | none => a
  (List.range (sh.count / 64)).foldl (fun a b =>
    let act := blockActives a.v sh b
    if act.isEmpty then a
    else
      let (xs, a) := vReads' a sh i0 act
      match mode with
      | 0 => planePut a i2 b (blockExp (xs.map (BitVec.ofNat 32))).toNat
      | 1 =>
        let ws := xs.map (BitVec.ofNat 32)
        let (eb, a) := if i1.isSome then planeGet a i1 b else ((blockExp ws).toNat, a)
        let (m, e, f) := toG16 ws (BitVec.ofNat 8 eb) h
        planePut (elemPut (vFlag a f) (act.zip (m.map (·.toNat)))) i2 b e.toNat
      | 2 =>
        let (e, a) := planeGet a i1 b
        elemPut a (act.zip (xs.map fun x => (g16Widen (BitVec.ofNat 16 x) (BitVec.ofNat 8 e)).toNat))
      | _ =>
        let (ea, a) := planeGet a i1 b
        let (ys, a) := match o with | some d => vReads' a sh d act | none => ([], a)
        let (ec, a) := planeGet a i2 b
        let (m, e, f) := g16Acc (xs.map (BitVec.ofNat 16)) ea (ys.map (BitVec.ofNat 16)) ec h
        planePut (elemPut (vFlag a f) (act.zip (m.map (·.toNat)))) i2 b e) a

/-- Active elements of tile `t` of 128 x 128 over dimensions 2 and 3. -/
def tileActives (v : VecOp) (sh : Td) (t : Nat) : List Nat :=
  let per := (sh.e2 / 128) * (sh.e3 / 128)
  let outer := t / per
  let p := t % per / (sh.e3 / 128)
  let q := t % per % (sh.e3 / 128)
  ((List.range 16384).map fun x =>
    (outer * sh.e2 + 128 * p + x / 128) * sh.e3 + 128 * q + x % 128).filter (isActive v sh)

/-- VTW16 (R68, R69, R143). -/
def runVtw16 (a : VAcc) (sh i0 i1 i2 o : Td) : VAcc :=
  (List.range (sh.count / 16384)).foldl (fun a t =>
    let act := tileActives a.v sh t
    let (xs, a) := vReads' a sh i0 act
    if a.v.aux0 % 2 = 0 then
      let ws := xs.map (BitVec.ofNat 32)
      let s := twScale (maxFinite ws)
      let tw := ws.map fun x => twElem x s
      let a := vWrites a sh o (act.zip (tw.map fun e => e.1.toNat))
      let a := vWrites a sh i1 (act.zip (tw.map fun e => e.2.toNat))
      vWrite a i2 (i2.off t) s.toNat
    else
      let (lo, a) := vReads' a sh i1 act
      let (s, a) := vRead a i2 (i2.off t)
      let rs := (xs.zip lo).map fun e =>
        fmtRound fFP32 .rne a.v.sat (twVal (BitVec.ofNat 16 e.1) (BitVec.ofNat 16 e.2) (BitVec.ofNat 32 s))
      vWrites (vFlag a ((rs.map (·.2)).foldl (· ||| ·) 0)) sh o (act.zip (rs.map (·.1)))) a

/-- The whole run of an instruction. -/
def runVec (a : VAcc) : VAcc :=
  let sh := a.v.shape
  let i0 := tdOpt a.v.i0
  let i1 := tdOpt a.v.i1
  let i2 := tdOpt a.v.i2
  let o := a.v.walks.2.2.2
  match a.v.op, i0, o with
  | 1, _, some o => runVmap a sh o
  | 2, _, o => runVred a sh o
  | 3, _, some o => runVtopk a sh o (if a.v.i2Out then i2 else none)
  | 4, some d, some o => runVcmprs a sh d o (if a.v.i2Out then i2 else none)
  | 5, some d, some o => runVexpnd a sh d o
  | 6, _, o => runVsmax a sh o i1
  | 7, some d, some o => runVgath a sh d o
  | 8, some d, some o => runVscat a sh d o
  | 9, some d, some o => runVscadd a sh d o
  | 10, some d, some o => runVl128 a sh d o
  | 11, some d, o => runVg16 a sh d i1 i2 o
  | 12, some d, some o =>
    match i1, i2 with
    | some d1, some d2 => runVtw16 a sh d d1 d2 o
    | _, _ => a
  | _, _, _ => a

/-! ## Start and completion -/

/-- The kinds of the input streams. -/
def vInputs (v : VecOp) : List Td :=
  (tdOpt v.i0).toList ++ (if v.i1Out then [] else (tdOpt v.i1).toList) ++ (if v.i2Out then [] else (tdOpt v.i2).toList)

/-- The instruction reads the head of the tile queue. -/
def usesTile (v : VecOp) : Bool := (vInputs v).any fun d => d.kind == kTILEQ

/-- The waits at the engine are over: each hold is held, each tile entry readable (R110). -/
def vecReady (cl : Cluster) (v : VecOp) : Bool :=
  (vInputs v).all fun d =>
    if d.kind == kHOLD then (heldBank cl (d.base % 2 == 1)).isSome
    else if d.kind == kTILEQ then tileReady cl.tileQ
    else true

/-- The held banks that an instruction releases: those that its inputs with RELEASE select when it starts (R110). -/
def releases (cl : Cluster) (v : VecOp) : List (Fin 2) :=
  ((vInputs v).filterMap fun d => if d.kind == kHOLD && d.rel then heldIndex cl (d.base % 2 == 1) else none).eraseDups

/-- Release held banks; a released bank is clear (R92, R110). -/
def releaseBanks (cl : Cluster) (l : List (Fin 2)) : Cluster := l.foldl (fun cl b => updBank cl b fun _ => Bank.reset) cl

/-- A HOLD read as L128 needs a bank of an EXACT pass (R109). -/
def holdModeOk (cl : Cluster) (v : VecOp) : Bool :=
  (vInputs v).all fun d =>
    if d.kind == kHOLD && d.fmt == fL128 then
      match heldBank cl (d.base % 2 == 1) with
      | some k => (match k.run with
        | some run => (match run.parts.getLast? with | some p => !p.f32c | none => true)
        | none => true)
      | none => true
    else true

/-- WRITE_ALIAS of R142, over the driving shape in the form it runs; of VG16 EXP, whose O is NONE, over the byte plane
(notes/assumptions/72). -/
def vecAlias (v : VecOp) : Bool :=
  if v.op = 8 ∨ v.op = 9 then false
  else
    match tdOpt v.o with
    | some d => writeAlias (d.like v.shape)
    | none => v.op == 11 && (match tdOpt v.i2 with | some d => writeAlias d | none => false)

/-- VECTOR_START: the engine starts the next queued instruction and runs it (R109 to R116, R118, R123 to R143). -/
def execVectorStart (g : RegionId) (c : ClusterId) (s : State) : Host.Outcome State Fault Refusal :=
  let cl := s.regions[g].clusters[c]
  .next (if !beatToken s g then s else match cl.vrun, cl.vq with
  | none, v :: rest =>
    if !vecReady cl v then s
    else if !holdModeOk cl v then streamFault s g v.stream cIllegalEncoding
    else
      let work (s : State) (limit : Option Nat) : VAcc :=
        let a := runVec { e := engOpen s g (BitVec.ofNat 8 c.val) v.stream .off limit [], cl := cl, v := v, oor := 0,
                          empty := 0, vf := if vecAlias v then vfWriteAlias else 0, rx := none, ok := true }
        { a with e := engFlush a.e }
      let a0 := work s none
      let a := if a0.e.stop.isNone then a0
        else
          let a := work { s with freeCtr := s.freeCtr + 1 } (some (Config.writesBeforeStop s.freeCtr))
          { a with e := engStopped a0.e a.e }
      let stop := a.e.stop
      let fl := a.vf ||| (if a.oor = 0 then 0 else vfOor) ||| (if a.empty = 0 then 0 else vfEmpty)
      let run : VecRun := { op := v, rxVal := a.rx, oor := a.oor, empty := a.empty, flags := fl, aflags := a.e.flags,
                            retries := 0, release := releases cl v, ok := a.ok, failed := stop.isSome }
      let (s, _) := engClose a.e (.feed g c)
      engFault (updRegion s g fun r => updCluster r c fun cl =>
        { cl with vq := rest, vrun := some run, tileQ := if usesTile v then takeTile cl.tileQ else cl.tileQ }) g stop
  | _, _ => s)

/-- VECTOR_RETRY: a residue mismatch in a lane or the tree recomputes the vector from what it has read, which writes the
same bits (R379), and counts against the open segment (R222, R223, R367, R380). -/
def execVectorRetry (g : RegionId) (c : ClusterId) (s : State) : Host.Outcome State Fault Refusal :=
  .next (if !beatToken s g then s else match s.regions[g].clusters[c].vrun with
  | some run =>
    if run.failed then s
    else
      let s := updRegion s g fun r => updCluster r c fun cl => { cl with vrun := some { run with retries := run.retries + 1, ok := true } }
      chargeRetry s g (BitVec.ofNat 8 c.val) run.op.stream srcResVector 40
  | none => s)

/-- VECTOR_COMPLETION: the completion point of the running instruction: VSTAT, VFLAGS, AFLAGS, RX, holds, the tile entry
and the signal (R91, R92, R110, R116, R119, R144). -/
def execVectorCompletion (g : RegionId) (c : ClusterId) (s : State) : Host.Outcome State Fault Refusal :=
  .next (match s.regions[g].clusters[c].vrun with
  | some run =>
    if run.failed || !run.ok then s
    else
      let v := run.op
      updRegion s g fun r =>
        let r := updCluster r c fun cl =>
          let cl := releaseBanks cl run.release
          { cl with vrun := none, tileQ := if usesTile v then cl.tileQ.tail else cl.tileQ,
                    vstat := cl.vstat.set v.stream (vstatWord (nextSeq cl.vstat[v.stream]) run.oor run.empty run.flags) }
        let r := updStream r v.stream fun st =>
          let st := raiseAflags { st with vflags := vflagsAfter st.vflags run.oor run.flags } run.aflags
          match run.rxVal with
          | some x => xWrite st v.rx x
          | none => st
        evSignal r v.sig v.stream
  | none => s)

end Sys2Proof.Machine
end

