-- ==== Sys2Proof/Machine/Channel.lean ====
section
/-! DEFINITION. Stream channels: the buffer pool (R277), the start and the completion point of DCOPY, DPREF, DSEND and
DCOLL (R147, R148, R278 to R286, R304 to R308), and what a send writes where it arrives. -/

namespace Sys2Proof.Machine

def dopDCOPY : BitVec 4 := 1
def dopDPREF : BitVec 4 := 2
def dopDSEND : BitVec 4 := 3
def dopDCOLL : BitVec 4 := 4

/-! ## The buffer pool -/

/-- Whether channel `k` may take one more buffer (R277). -/
def mayTake (minimum held : Nat → Nat) (k : Nat) : Bool :=
  let free := 256 - ((List.range 12).map held).foldl (· + ·) 0
  let owed := (((List.range 12).filter (· != k)).map fun j => minimum j - held j).foldl (· + ·) 0
  decide (0 < free) && decide (held k < 64) && (decide (held k < minimum k) || decide (owed + 1 ≤ free))

/-- Buffers a channel holds once it has taken as many as it may, up to `want` (R277). -/
def takeBuffers (minimum held : Nat → Nat) (k : Nat) : Nat → Nat
  | 0 => held k
  | want + 1 =>
    if mayTake minimum held k then takeBuffers minimum (fun j => if j = k then held k + 1 else held j) k want else held k

/-- Bytes that an operation moves. -/
def opBytes (op : ChanOp) : Nat :=
  let d := tdOf op.tds
  ceilDiv (d.count * fmtBits d.fmt) 8

/-! ## Addresses -/

/-- Bytes of a CONTEXT descriptor, by context address, without repeats. -/
def touched (d : Td) : List Nat :=
  if d.kind == kCONTEXT then
    (d.addrs.flatMap fun a => (List.range (elemBytes d.fmt)).map fun i => a + i).eraseDups
  else []

/-- 64-byte units in T2 that an operation must fetch: those it reads, and those it writes in part. -/
def chanUnits (s : State) (c : CtxId) (op : ChanOp) : List Nat :=
  let dst := tdOf op.tdd
  let writes := if op.dop == dopDCOPY then touched dst else []
  let halves := dst.fmt == fINT4 && (List.range dst.count).any fun i => !dst.paired i && !(0 < i && dst.paired (i - 1))
  let part := if halves then writes else writes.filter fun a => (writes.filter fun b => b / 64 == a / 64).length < 64
  t2Units s c (touched (tdOf op.tds) ++ part)

/-! ## DCOPY and DPREF -/

/-- The element that a copy writes (R148). -/
def copyElem (src dst : BitVec 4) (v : Nat) : Nat × AF :=
  if src == dst then (v, 0) else fmtRound dst .rne true (fmtDecode src v)

/-- An element of the head entry of a tile queue (R91, R109). -/
def tileElem (e : Eng) (t : TileEnt) (o : Int) : Nat × Eng :=
  let u := o.toNat
  let e := if t.bad then engStop e cBusError { e.base with cls := clUncorrectable, source := srcSramDemand } else e
  (if u / 128 < t.m && u % 128 < t.n then (spGet 0 t.cells u).toNat else 0, e)

/-- Element `i` of a copy's source. -/
def copyRead (e : Eng) (d : Td) (tile : Option TileEnt) (i : Nat) : Nat × Eng :=
  if d.kind == kTILEQ then
    match tile with
    | some t => tileElem e t (d.off i)
    | none => (0, e)
  else engElem e d (d.off i)

/-- The element that a copy writes at position `i`, with its flag. -/
def copyStep (src dst : Td) (tile : Option TileEnt) (i : Nat) (e : Eng) : Nat × Eng :=
  let (v, e) := copyRead e src tile i
  let (w, f) := copyElem src.fmt dst.fmt v
  (w, engFlag e f)

/-- Copy elements `i`, `i + 1`, … in order (R147); the two INT4 elements of one byte arrive as one write (R45). -/
def copyFrom (src dst : Td) (tile : Option TileEnt) : Nat → Nat → Eng → Eng
  | 0, _, e => e
  | 1, i, e =>
    let (w, e) := copyStep src dst tile i e
    engPut e dst (dst.off i) w
  | n + 2, i, e =>
    let (w, e) := copyStep src dst tile i e
    if dst.paired i then
      let (x, e) := copyStep src dst tile (i + 1) e
      copyFrom src dst tile n (i + 2) (engPutPair e dst i w x)
    else copyFrom src dst tile (n + 1) (i + 1) (engPut e dst (dst.off i) w)

/-! ## Sends -/

/-- Join the two nibbles of a byte that come one after the other. -/
def joinNibbles : List (Nat × Byte) → List (Nat × Byte)
  | [] => []
  | (a, b) :: rest =>
    match joinNibbles rest with
    | (c, x) :: more => if c == a then (a, b ||| x) :: more else (a, b) :: (c, x) :: more
    | [] => [(a, b)]

/-- The destination bytes of a send in the order of its elements: byte address and byte (R45, R304). An INT4 element that
shares its byte with no neighbour leaves the other nibble zero (notes/assumptions/33). -/
def sendBytes (d : Td) (l : List Nat) : List (Nat × Byte) :=
  if d.fmt == fINT4 then
    joinNibbles ((l.zipIdx).map fun e =>
      ((d.addr e.2).toNat, BitVec.ofNat 8 (if d.off e.2 % 2 = 0 then e.1 % 16 else e.1 % 16 * 16)))
  else
    (l.zipIdx).flatMap fun e =>
      (leBytes (elemBytes d.fmt) e.1).zipIdx.map fun b => ((d.addr e.2).toNat + b.2, b.1)

/-- Gather bytes into runs of consecutive addresses of at most 240 bytes: one flit each. -/
def sendRuns : List (Nat × Byte) → List (Nat × List Byte)
  | [] => []
  | (a, b) :: rest =>
    match sendRuns rest with
    | (c, l) :: more => if c == a + 1 && l.length < 240 then (a, b :: l) :: more else (a, [b]) :: (c, l) :: more
    | [] => [(a, [b])]

/-- The landing gate of R307 for event E48 + `e` of region `t`: COUNT as the beat began plus the sends admitted, and not completed
before this beat, lies below LAND_DEPTH (R308). -/
def gateOpen (s : State) (t : RegionId) (e : Nat) : Bool :=
  let r := s.regions[t]
  match (if h : 48 + e < 64 then some (⟨48 + e, h⟩ : Fin 64) else none) with
  | some i => decide ((r.ev[i]).toNat + spGet 0 r.admitted (48 + e) + spGet 0 r.landed (48 + e) < s.boot.cfg.landDepth)
  | none => true

/-- A send is admitted to event E48 + `e` of region `t`. -/
def noteAdmitted (s : State) (t : RegionId) (e : Nat) : State :=
  updRegion s t fun r => { r with admitted := spPut 0 r.admitted (48 + e) (spGet 0 r.admitted (48 + e) + 1) }

/-- Increment fabric event E48 + `e` of a region, by no stream of it (R210, R211). -/
def fabricEvent (s : State) (t : RegionId) (e : Nat) : State :=
  if h : 48 + e < 64 then updRegion s t fun r => evAdd r ⟨48 + e, h⟩ 1 none else s

/-- A send to event E48 + `e` of region `t` is complete: its event is incremented when REN is set, and one that the gate admitted
counts there until COUNT does (R306, R307, R211). -/
def sendLanded (s : State) (t : RegionId) (e : Nat) (gate ren : Bool) : State :=
  let s := if gate then
      updRegion s t fun r =>
        { r with admitted := spPut 0 r.admitted (48 + e) (spGet 0 r.admitted (48 + e) - 1),
                 landed := spPut 0 r.landed (48 + e) (spGet 0 r.landed (48 + e) + 1) }
    else s
  if ren then fabricEvent s t e else s

/-- Write the bytes of a send into a region's scratchpad (R306); a narrow write corrects the word it merges with, and one to an
uncorrectable word is refused and faults at the module that holds it (R387, R397). -/
def landBytes (s : State) (t : RegionId) (a : Nat) (l : List Byte) : State × Bool :=
  let m := s.regions[t].scratch
  match sramWriteBad m a l.length with
  | some b => (busFault s cBusError s.regions[t].ctx (sramRec s (regionRec s t) t .scratch srcSramDemand b), false)
  | none =>
    let s := sramCorrected s (regionRec s t) t .scratch srcSramDemand (sramWriteFixes m a l.length)
    (updRegion s t fun r => { r with scratch := sramWrite m a l }, true)

/-- Write several runs, stopping at the first that is refused. -/
def landRuns (s : State) (t : RegionId) : List (Nat × List Byte) → State × Bool
  | [] => (s, true)
  | (a, l) :: rest =>
    match landBytes s t a l with
    | (s, true) => landRuns s t rest
    | (s, false) => (s, false)

/-- The region of the module that RREG names, when it is enabled (R305). -/
def targetRegion (s : State) (rreg : BitVec 6) : Option RegionId :=
  let t : RegionId := rreg.toFin
  if enabled s t then some t else none

/-- A send is subject to the landing gate: REN = 1 on VC 0 to 4 (R307, R308). -/
def gated (ren : Bool) (vc : BitVec 3) : Bool := ren && decide (vc.toNat ≤ 4)

/-! ## Start -/

def chanWho (g : RegionId) (k : ChanId) : Who := .chan g k

def setRun (s : State) (g : RegionId) (k : ChanId) (run : ChanRun) : State :=
  updRegion s g fun r => updChan r k fun c => { c with run := some run }

/-- A DPREF waits until every pass issued before it that names its window has taken its last operand beat (R284). -/
def windowFree (r : Region) (w : Fin 8) (seq : Nat) : Bool :=
  let early (p : PassOp) : Bool :=
    (sideWindow p.a == some w && decide (p.a.winId < seq)) || (sideWindow p.b == some w && decide (p.b.winId < seq))
  let running (cl : Cluster) : Bool :=
    match cl.cur with
    | none => false
    | some b =>
      match cl.banks[b].run with
      | none => false
      | some run => match run.parts.getLast? with
        | some p => early p && decide (run.step < p.k)
        | none => false
  let pass := (List.finRange 4).any fun c => r.clusters[c].passQ.any early || running r.clusters[c]
  let fill := (List.finRange 12).any fun k =>
    let c := r.chans[k]
    let earlier (op : ChanOp) : Bool :=
      op.dop == dopDPREF && (tdOf op.tdd).window == w && decide (op.seq < seq)
    c.q.any earlier || (match c.run with | some q => earlier q.op | none => false)
  !pass && !fill

/-- Launch count from which DEADLINE is counted: the start count of the running step (Table 9.8). -/
def launchCount (s : State) (g : RegionId) : Nat :=
  match s.regions[g].ctx with
  | some c => match s.ctxs[c].launch with
    | some l => l.sStep
    | none => 0
  | none => 0

/-- Whether what the operation waits for at its channel has come: a readable tile, a free window, a free tag (R91, R110, R284,
R311). -/
def chanReady (s : State) (g : RegionId) (op : ChanOp) : Bool :=
  let r := s.regions[g]
  if op.dop == dopDCOPY && (tdOf op.tds).kind == kTILEQ then
    tileReady r.clusters[op.tqcl].tileQ
  else if op.dop == dopDPREF then windowFree r (tdOf op.tdd).window op.seq
  else if op.dop == dopDSEND then (drawTag s).isSome
  else true

/-- The window state at the start of a fill (R284). -/
def openWindow (s : State) (g : RegionId) (op : ChanOp) : State :=
  let w := (tdOf op.tdd).window
  let dl := BitVec.ofNat 64 (launchCount s g) + op.dlr
  updRegion s g fun r =>
    { r with wins := r.wins.set w { r.wins[w] with current := op.seq, src := op.tds, dst := op.tdd,
                                                   count := (tdOf op.tdd).count, filled := 0, deadline := dl, late := false } }

/-- Move the elements of a DCOPY or DPREF from element `i` on (R147, R148, R283): the state, what stopped it, and the digest
contribution. -/
def moveElems (s : State) (g : RegionId) (k : ChanId) (run : ChanRun) (i n : Nat) :
    State × Option (Cause × Rec) × List ((Nat × Nat) × TileDig) :=
  let op := run.op
  let src := tdOf op.tds
  let dst := if op.dop == dopDPREF then { (tdOf op.tdd).image with kind := kSCRATCH } else tdOf op.tdd
  let tile := s.regions[g].clusters[op.tqcl].tileQ.head?
  let mir := if op.mir then MirMode.dcopy else MirMode.off
  let e := engRun s fun s limit =>
    copyFrom src dst tile (n - i) i (engOpen s g 0xFF op.stream mir limit run.fetched)
  let (s, tiles) := engClose e (chanWho g k)
  (updRegion s g fun r => updStream r op.stream fun st => raiseAflags st e.flags, e.stop, tiles)

/-- A buffer goes back to the pool when the last of its data has been written out: with an operation that has moved all of its
data and waits for no write, every one (R277). -/
def settle (s : State) (g : RegionId) (k : ChanId) (run : ChanRun) : State :=
  updRegion s g fun r => updChan r k fun c =>
    { c with run := some run, held := if run.phase == .moved && !waitsFor s (chanWho g k) then 0 else c.held }

/-- Move the data of a DCOPY. -/
def moveData (s : State) (g : RegionId) (k : ChanId) (run : ChanRun) : State :=
  let (s, stop, tiles) := moveElems s g k run 0 (tdOf run.op.tds).count
  let run := { run with phase := if stop.isSome then .failed else .moved, tiles := tiles, fetched := [], asked := [] }
  engFault (settle s g k run) g stop

/-- The bytes of a unit asked for have not come yet. -/
def unitWaits (s : State) (who : Who) (u : Nat) : Bool :=
  (s.fab.txns.any fun t => t.who == who && t.ask == .read && decide (t.addr ≤ u) && decide (u < t.addr + t.len)) ||
    s.fab.waiting.any fun w => w.who == who && w.ask == .read && decide (w.addr ≤ u) && decide (u < w.addr + w.len)

/-- The elements of a fill, from the first, whose source bytes are here (R284); a pair of INT4 elements in one byte arrives
together. -/
def fillReach (s : State) (g : RegionId) (k : ChanId) (op : ChanOp) : Nat :=
  let src := tdOf op.tds
  let here (i : Nat) : Bool :=
    (List.range (elemBytes src.fmt)).all fun b =>
      !unitWaits s (chanWho g k) (ctxAddr (src.addr i + (b : Int)) / 64 * 64)
  let n := ((List.range src.count).find? fun i => !here i).getD src.count
  if n < src.count && 0 < n && (tdOf op.tdd).image.paired (n - 1) then n - 1 else n

/-- Go on with a fill: FILLED advances over the elements that are here, once they are in T0 (R283, R284). -/
def fillData (s : State) (g : RegionId) (k : ChanId) (run : ChanRun) : State :=
  let w := (tdOf run.op.tdd).window
  let n := fillReach s g k run.op
  let i := s.regions[g].wins[w].filled
  if n ≤ i && i < (tdOf run.op.tds).count then setRun s g k run
  else
    let (s, stop, tiles) := moveElems s g k run i n
    let all := decide ((tdOf run.op.tds).count ≤ n)
    let s := if stop.isSome then s
      else updRegion s g fun r => { r with wins := r.wins.set w { r.wins[w] with filled := n } }
    let run := { run with phase := if stop.isSome then .failed else if all then .moved else .fetching, tiles := tiles,
                          fetched := if all then [] else run.fetched, asked := if all then [] else run.asked }
    engFault (settle s g k run) g stop

/-- The elements of a send's source, read in its row-major order. -/
def sendSource (s : State) (g : RegionId) (op : ChanOp) : List Nat × Eng :=
  let d := tdOf op.tds
  engElems (engOpen s g 0xFF op.stream .off none []) d 0 d.count

/-- Note the transaction of a channel's send with its tag (R311). -/
def noteSend (s : State) (g : RegionId) (k : ChanId) (tag : BitVec 16) (gen : BitVec 4) (p : PortId) (ask : Ask) : State :=
  updFab s fun f =>
    { f with txns := f.txns ++ [{ tag := tag, gen := gen, port := p, who := chanWho g k, ask := ask,
                                  ctx := (s.regions[g].ctx).getD 0, addr := 0, len := 0, data := [] }] }

/-- A send over a link: its flits, in order, on its virtual channel (R296, R304, R311). -/
def sendAway (s : State) (g : RegionId) (k : ChanId) (run : ChanRun) (link : Link) : State :=
  let op := run.op
  let (l, e) := sendSource s g op
  let (s, _) := engClose e (chanWho g k)
  match e.stop, drawTag s with
  | some _, _ => engFault (setRun s g k { run with phase := .failed }) g e.stop
  | none, none => setRun s g k { run with phase := .waiting }
  | none, some (tag, gen, s) =>
    let runs := sendRuns (sendBytes (tdOf op.tdd) l)
    let s := match link with
      | .port p => noteSend s g k tag gen p .send
      | .bridge _ _ => noteSend s g k tag gen 0 .cross
    let mid : BitVec 11 := op.rreg ++ BitVec.ofBool op.ren ++ op.revt.extractLsb' 0 4
    let last := runs.length - 1
    let s := (runs.zipIdx).foldl (fun s e =>
      let low : BitVec 36 := BitVec.ofNat 24 e.1.1 ++ (0 : BitVec 12)
      sendOn s link op.vc.toFin (mkHdr tyDATA op.vc (decide (e.2 = last)) tag gen mid e.1.2.length low) e.1.2) s
    setRun s g k { run with phase := .moved }

/-- The bridge from one region's die to another's, for regions of different dies (R27). -/
def bridgeTo (s : State) (g t : RegionId) : Option Link :=
  if dieOf s g == dieOf s t then none else some (.bridge ⟨dieOf s g % 4, by omega⟩ ⟨dieOf s t % 4, by omega⟩)

/-- A send to a region of this module (TGT 0b0000), once the landing gate lets it through: over the bridge to another die, or
within its own die at once (R305 to R308, R311). -/
def sendHere (s : State) (g : RegionId) (k : ChanId) (run : ChanRun) : State :=
  let op := run.op
  match targetRegion s op.rreg with
  | none => streamFault (setRun s g k { run with phase := .failed }) g op.stream cFabricAddress
  | some t =>
    let ev := op.revt.toNat % 16
    let gate := gated op.ren op.vc
    let entered (s : State) : State := if gate then noteAdmitted s t ev else s
    if gate && !gateOpen s t ev then setRun s g k { run with phase := .waiting }
    else
      match bridgeTo s g t, drawTag s with
      | _, none => setRun s g k { run with phase := .waiting }
      | some l, some _ => entered (sendAway s g k run l)
      | none, some (tag, gen, s) =>
        let (l, e) := sendSource s g op
        let (s, _) := engClose e (chanWho g k)
        match e.stop with
        | some _ => engFault (setRun s g k { run with phase := .failed }) g e.stop
        | none =>
          let s := entered (noteSend (setRun s g k { run with phase := .moved }) g k tag gen 0 .near)
          let (s, ok) := landRuns s t (sendRuns (sendBytes (tdOf op.tdd) l))
          if ok then s
          else updRegion s g fun r => updChan r k fun c => { c with run := c.run.map fun q => { q with phase := .failed } }

/-- Begin or go on with the running operation of a channel. -/
def chanWork (s : State) (g : RegionId) (k : ChanId) (run : ChanRun) : State :=
  let op := run.op
  if op.dop == dopDCOLL then setRun s g k { run with phase := .waiting }
  else if op.dop == dopDSEND then
    match portOfTgt op.tgt.toNat with
    | some p => sendAway s g k run (.port p)
    | none => sendHere s g k run
  else
    let want := match s.regions[g].ctx with
      | some c => (chanUnits s c op).filter fun u => !run.asked.contains u
      | none => []
    let run' := { run with phase := .fetching, asked := run.asked ++ want }
    let s := match s.regions[g].ctx, want with
      | some c, _ :: _ => fetchUnits (setRun s g k run') (chanWho g k) c want
      | _, _ => s
    if op.dop == dopDPREF then fillData s g k run'
    else if waitsFor s (chanWho g k) then s else moveData s g k run

/-- The buffers that a channel holds once it has taken what it may for an operation (R277). -/
def buffersFor (s : State) (g : RegionId) (k : ChanId) (bytes : Nat) : Nat :=
  let minimum (j : Nat) : Nat := s.boot.cfg.chmin.getD j 0
  let held (j : Nat) : Nat := ((s.regions[g].chans.toList)[j]?.map (·.held)).getD 0
  takeBuffers minimum held k.val (ceilDiv bytes 16384 - held k.val)

/-- A running operation may go on: it has asked other modules for data, and a fill goes on with each part that comes. -/
def mayGoOn (s : State) (g : RegionId) (k : ChanId) (run : ChanRun) : Bool :=
  (run.phase == .fetching && (run.op.dop == dopDPREF || !waitsFor s (chanWho g k))) ||
    (run.phase == .waiting && run.op.dop == dopDSEND && (portOfTgt run.op.tgt.toNat).isSome)

/-- CHANNEL_OP_START: an idle channel starts the next operation of its queue, and an operation that has asked for data of
other modules goes on once it has come (R277, R278, R284); its beat takes a token (R498). -/
def execChannelOpStart (g : RegionId) (k : ChanId) (s : State) : Host.Outcome State Fault Refusal :=
  let r := s.regions[g]
  let c := r.chans[k]
  .next (if !beatToken s g then s else match c.run, c.q with
  | some run, _ =>
    if mayGoOn s g k run then
      let s := updRegion s g fun r => updChan r k fun c => { c with held := buffersFor s g k (opBytes run.op) }
      chanWork s g k run
    else s
  | none, op :: rest =>
    if !chanReady s g op then s
    else
      let run : ChanRun := { op := op, phase := .waiting, fetched := [], asked := [], tiles := [] }
      let s := updRegion s g fun r => updChan r k fun c =>
        { c with q := rest, run := some run, held := buffersFor s g k (opBytes op) }
      let s := if op.dop == dopDPREF then openWindow s g op
        else if op.dop == dopDCOPY && (tdOf op.tds).kind == kTILEQ then
          updRegion s g fun r => updCluster r op.tqcl fun cl => { cl with tileQ := takeTile cl.tileQ }
        else s
      chanWork s g k run
  | none, [] => s)

/-! ## Completion -/

/-- The completion point of the running operation has come: its transfers are made, every answer it needs has arrived, and
for a DCOLL its engine has finished (R279, R306, R321). -/
def chanDone (s : State) (g : RegionId) (k : ChanId) (run : ChanRun) : Bool :=
  run.phase == .moved && !waitsFor s (chanWho g k)

/-- What an operation leaves at its completion point beside its signal. -/
def chanEffects (s : State) (g : RegionId) (k : ChanId) (op : ChanOp) : State :=
  if op.dop == dopDPREF then
    let w := (tdOf op.tdd).window
    updRegion s g fun r =>
      let win := r.wins[w]
      let late := decide (win.deadline.toNat < now s)
      { r with wins := r.wins.set w { win with late := late }, lateFills := r.lateFills + (if late then 1 else 0) }
  else if op.dop == dopDCOPY && (tdOf op.tds).kind == kTILEQ then
    updRegion s g fun r => updCluster r op.tqcl fun cl => { cl with tileQ := cl.tileQ.tail }
  else if op.dop == dopDSEND then
    match s.fab.txns.find? fun t => t.who == chanWho g k && t.ask == .near, targetRegion s op.rreg with
    | some x, some t => sendLanded (freeTxn s x) t (op.revt.toNat % 16) (gated op.ren op.vc) op.ren
    | _, _ => s
  else if op.dop == dopDCOLL && op.ren then fabricEvent s g (op.revt.toNat % 16)
  else s

/-- CHANNEL_OP_COMPLETION: at its completion point the operation's event is signalled, its buffers go back to the pool and
its contribution is added to the context's digests (R91, R207, R277, R279, R288, R306, R321, R423). -/
def execChannelOpCompletion (g : RegionId) (k : ChanId) (s : State) : Host.Outcome State Fault Refusal :=
  .next (match s.regions[g].chans[k].run with
  | none => s
  | some run =>
    if !chanDone s g k run then s
    else
      let s := match s.regions[g].ctx with | some c => addTiles s (regionRec s g) c run.tiles | none => s
      let s := chanEffects s g k run.op
      updRegion s g fun r => evSignal (updChan r k fun c => { c with run := none, held := 0 }) run.op.sig run.op.stream)

end Sys2Proof.Machine
end

