-- ==== Sys2Proof/Machine/Collective.lean ====
section
/-! DEFINITION. Collective engines (R314 to R327): a collective's start at its engine, the ring steps its member sends and
receives, and what it writes at the end. Steps of axis TG travel over the bridges. -/

namespace Sys2Proof.Machine

def copRS : BitVec 3 := 0
def copAG : BitVec 3 := 1
def copMAX : BitVec 3 := 2

/-! ## Members (R314) -/

def perDie (s : State) : Nat := nreg s / 4

/-- Axis TG. -/
def isTg (a : AxisId) : Bool := a == 3

/-- The ring axis of X, Y or Z. -/
def ringAxis (a : AxisId) : Fin 3 :=
  match a with
  | 0 => 0
  | 1 => 1
  | 2 => 2
  | 3 => 0

def collN (s : State) (a : AxisId) : Nat := if isTg a then 4 else axisLen s (ringAxis a)

def collPos (s : State) (g : RegionId) (a : AxisId) : Nat := if isTg a then dieOf s g else axisPos s (ringAxis a)

/-- The member of the same rank on die `d`. -/
def tgMember (s : State) (g : RegionId) (d : Nat) : RegionId := ⟨(d * perDie s + g.val % perDie s) % 64, by omega⟩

/-- Order of FP32 and FP16 sums on TG: D0, D1, D2, D3 (R319). -/
def tgOrdered (run : CollRun) : Bool :=
  isTg run.axis && run.op.cop == copRS && (run.op.wfmt == fFP32 || run.op.wfmt == fFP16)

/-! ## Arithmetic -/

/-- Elements of the source of a collective. -/
def collCount (op : ChanOp) : Nat := (tdOf op.tds).count

/-- biased_exponent() of a finite FP32 value; zero for zero, subnormals, and what is not finite (R326). -/
def biasedExp (w : W32) : Nat := if isFinite32 w then (w.extractLsb' 23 8).toNat else 0

/-- The scale of an E4M3 wire block: 2^(s - 127). -/
def e4Scale (sc : Nat) : Val := .fin false 1 ((sc : Int) - 127)

/-- to_e4m3_block() of R326. -/
def toE4m3Block (x : List W32) : Nat × List Nat :=
  let sc := (x.map biasedExp).foldl max 0 - 7
  (sc, x.map fun w => (fmtRound fE4M3 .rne false (Val.mul (f32 w) (.fin false 1 (127 - (sc : Int))))).1)

/-- A group of elements at a time. -/
def groupsOf {α : Type} (n : Nat) (l : List α) : List (List α) :=
  (List.range (ceilDiv l.length n)).map fun i => (l.drop (n * i)).take n

/-- Limit a finite G16 element to ±2^(15 - H) (R324). -/
def g16Limit (h : Nat) (m : BitVec 16) : BitVec 16 × AF :=
  if m = 0x8000 then (m, 0)
  else
    let lim : Int := 2 ^ (15 - h)
    if m.toInt < -lim then (BitVec.ofInt 16 (-lim), afG16Sat)
    else if lim < m.toInt then (BitVec.ofInt 16 (min lim 32767), afG16Sat)
    else (m, 0)

/-- Own source in the wire format: elements, exponents or scales, and flags (R324, R326). -/
def collSource (op : ChanOp) (elems : List Nat) (plane : List Byte) : List (BitVec 128) × List Byte × AF :=
  let src := (tdOf op.tds).fmt
  let bits (l : List Nat) : List (BitVec 128) := l.map (BitVec.ofNat 128)
  if op.cop == copRS && op.wfmt == fG16 then
    let l := elems.map fun m => g16Limit op.h.toNat (BitVec.ofNat 16 m)
    (l.map fun e => e.1.setWidth 128, plane, l.foldl (fun f e => f ||| e.2) 0)
  else if op.cop == copMAX then
    if src == fG16 then (plane.map fun b => b.setWidth 128, [], 0) else (bits elems, [], 0)
  else if op.cop == copAG && src == fFP32 && op.wfmt == fFP16 then
    let l := elems.map fun v => fmtRound fFP16 .rne true (fmtDecode fFP32 v)
    (l.map fun e => BitVec.ofNat 128 e.1, [], l.foldl (fun f e => f ||| e.2) 0)
  else if op.cop == copAG && op.wfmt == fE4M3 then
    let l := (groupsOf 32 (elems.map (BitVec.ofNat 32))).map toE4m3Block
    (l.flatMap fun b => bits b.2, l.map fun b => BitVec.ofNat 8 b.1, 0)
  else (bits elems, plane, 0)

/-- One addition or maximum of a ring step: acc then the own contribution (Table 10.5). -/
def collCombine (op : ChanOp) (acc own : BitVec 128) : BitVec 128 × AF :=
  if op.cop == copMAX then (if acc.toNat < own.toNat then own else acc, 0)
  else if op.wfmt == fG16 then
    let a : BitVec 16 := acc.setWidth 16
    let b : BitVec 16 := own.setWidth 16
    (if a = 0x8000 ∨ b = 0x8000 then (0x8000 : BitVec 128) else ((BitVec.ofInt 16 (a.toInt + b.toInt)).setWidth 128), 0)
  else if op.wfmt == fL128 then addL128 acc own
  else (BitVec.ofNat 128 (fmtRound op.wfmt .rne false (Val.add (fmtDecode op.wfmt acc.toNat) (fmtDecode op.wfmt own.toNat))).1, 0)

def collCombineAll (op : ChanOp) (acc own : List (BitVec 128)) : List (BitVec 128) × AF :=
  let l := (acc.zip own).map fun e => collCombine op e.1 e.2
  (l.map (·.1), l.foldl (fun f e => f ||| e.2) 0)

/-- The final exact sums of one G16 block at position p, with its exponent (R324). -/
def g16Finish (acc own : List (BitVec 16)) (e : Byte) : List (BitVec 16) × Byte × AF :=
  let sum : List (Option Int) := (acc.zip own).map fun x =>
    if x.1 = 0x8000 ∨ x.2 = 0x8000 then none else some (x.1.toInt + x.2.toInt)
  let wide := sum.any fun x => match x with | some m => decide (32767 < m.natAbs) | none => false
  let code (x : Option Int) : BitVec 16 := match x with | some m => BitVec.ofInt 16 m | none => 0x8000
  if !wide then (sum.map code, e, 0)
  else if e = 255 then
    (sum.map fun x => code (x.map fun m => max (-32767) (min 32767 m)), e, afG16Sat)
  else (sum.map fun x => code (x.map fun m => shrRne m 1), e + 1, afG16Rescale)

/-- g16Finish() over the blocks of a half chunk. -/
def g16FinishAll (acc own : List (BitVec 128)) (exps : List Byte) : List (BitVec 128) × List Byte × AF :=
  let a := groupsOf 64 (acc.map fun x => x.setWidth 16)
  let b := groupsOf 64 (own.map fun x => x.setWidth 16)
  let l := ((a.zip b).zip exps).map fun x => g16Finish x.1.1 x.1.2 x.2
  (l.flatMap fun x => x.1.map fun m => m.setWidth 128, l.map fun x => x.2.1, l.foldl (fun f x => f ||| x.2.2) 0)

/-! ## Pieces: the halves of the chunks (R317, R319) -/

/-- Position of a piece among the 2N halves. -/
def pieceNo (chunk : Nat) (upper : Bool) : Nat := 2 * chunk + (if upper then 1 else 0)

/-- Values to a block of the maximum's list: 64 elements to an exponent of a G16 tensor. -/
def maxBlock (op : ChanOp) : Nat := if (tdOf op.tds).fmt == fG16 then 64 else 1

/-- Elements to one exponent or scale byte of the wire format. -/
def expBlock (op : ChanOp) : Nat := if op.wfmt == fE4M3 then 32 else 64

/-- The member's own elements and exponents of a piece. -/
def ownPiece (run : CollRun) (n chunk : Nat) (upper : Bool) : List (BitVec 128) × List Byte :=
  let op := run.op
  let q := pieceNo chunk upper
  if op.cop == copMAX then
    let size := collCount op / (2 * n)
    (((run.elems.zipIdx).filter fun e => e.2 * maxBlock op / size == q).map (·.1), [])
  else
    let (size, q) := if op.cop == copAG then (collCount op / 2, if upper then 1 else 0) else (collCount op / (2 * n), q)
    let k := size / expBlock op
    ((run.elems.drop (q * size)).take size, (run.exps.drop (q * k)).take k)

/-! ## Sending -/

def sameColl (a b : CollRun) : Bool := a.g == b.g && a.axis == b.axis && a.seq == b.seq

def putColl (s : State) (run : CollRun) : State :=
  updFab s fun f => { f with colls := f.colls.map fun r => if sameColl r run then run else r }

/-- The position a piece goes to next: lower halves travel +, upper halves - (R319). -/
def nextPos (n me : Nat) (upper : Bool) : Nat := if upper then (me + n - 1) % n else (me + 1) % n

/-- Bytes of an element of a ring step: the exponents of a maximum are single bytes (R318, Table 10.6). -/
def wireBytes (st : CollStep) : Nat := if st.cop == copMAX then 1 else elemBytes st.wfmt

/-- The payload bytes of a ring step, in the parts that begin a flit: elements, then exponents; for E4M3 per group one scale
byte and 32 elements (R322, R326, Table 10.6). -/
def stepBytes (st : CollStep) : List Byte × List Byte :=
  if st.cop == copAG && st.wfmt == fE4M3 then
    ((((groupsOf 32 st.elems).zip st.exps).flatMap fun g => g.2 :: g.1.map fun q => q.setWidth 8), [])
  else (st.elems.flatMap fun q => leBytes (wireBytes st) q.toNat, st.exps)

/-- A ring step with the elements and exponents that its payload bytes hold (R316, R322, R326). -/
def stepData (st : CollStep) (l : List Byte) : CollStep :=
  if st.cop == copAG && st.wfmt == fE4M3 then
    let gs := groupsOf 33 l
    { st with elems := gs.flatMap fun g => g.tail.map fun b => b.setWidth 128, exps := gs.map fun g => g.headD 0 }
  else
    let n := if st.cop != copMAX && st.wfmt == fG16 then l.length * 64 / 129 else l.length / wireBytes st
    { st with elems := (groupsOf (wireBytes st) (l.take (n * wireBytes st))).map fun g => BitVec.ofNat 128 (leNat g),
              exps := l.drop (n * wireBytes st) }

/-- Where the piece of a step lies in the destination, in elements (Table 10.2, R317). -/
def stepElement (run : CollRun) (n chunk : Nat) (upper : Bool) : Nat :=
  let op := run.op
  let per := if op.cop == copAG then collCount op / 2 else collCount op / (2 * n)
  if op.cop == copRS then (if upper then per else 0) else pieceNo chunk upper * per

/-- OFFSET of the flit that holds payload bytes from `off` of a step's elements, or of its exponents (Table 10.2, R322,
notes/assumptions/37). -/
def stepOffset (run : CollRun) (st : CollStep) (n : Nat) (ofExps : Bool) (off : Nat) : Nat :=
  let d := tdOf run.op.tdd
  let e := stepElement run n st.chunk st.upper
  if ofExps then 2 * d.count + e / 64 + off
  else if st.cop == copMAX && d.fmt == fG16 then 2 * d.count + e / 64 + off
  else
    let i := if st.cop == copAG && st.wfmt == fE4M3 then off / 33 * 32 + (off % 33 - 1) else off / wireBytes st
    (e + i) * elemBytes d.fmt

/-- The flits of one ring step: header fields and payloads in order, LAST in the last; the first carries beside it what R316
names (R296, Table 10.2, Table 10.6). -/
def stepFlits (run : CollRun) (st : CollStep) (n : Nat) (rreg : RegionId) : List (BitVec 128 × List Byte × Option CollStep) :=
  let op := run.op
  let (a, b) := stepBytes st
  let cut (x : Bool) (l : List Byte) : List (Bool × Nat × List Byte) :=
    if l.isEmpty then [] else (pieces 240 (l.length + 1) 0 l).map fun q => (x, q.1, q.2)
  let l := match cut false a ++ cut true b with
    | [] => [(false, 0, [])]
    | l => l
  let mid : BitVec 11 := BitVec.ofNat 6 rreg.val ++ BitVec.ofBool op.ren ++ op.revt.extractLsb' 0 4
  (l.zipIdx).map fun q =>
    (mkHdr tyCOLL 5 (decide (q.2 + 1 = l.length)) (BitVec.ofNat 16 run.seq) 0 mid q.1.2.2.length
        (BitVec.ofNat 24 (stepOffset run st n q.1.1 q.1.2.1) ++ (0 : BitVec 12)),
      q.1.2.2, if q.2 = 0 then some { st with elems := [], exps := [] } else none)

/-- The link that a ring step takes: the port of its direction, or the bridge to the die of member `dest` (R314, R319). -/
def stepLink (s : State) (run : CollRun) (dest : Nat) (upper : Bool) : Link :=
  if isTg run.axis then .bridge ⟨dieOf s run.g % 4, by omega⟩ ⟨dest % 4, by omega⟩
  else .port (axisPort (ringAxis run.axis) (!upper))

/-- Send one ring step to the member at position `dest`. -/
def sendStep (s : State) (run : CollRun) (dest chunk : Nat) (upper gather : Bool) (elems : List (BitVec 128))
    (exps : List Byte) : State :=
  let op := run.op
  let st : CollStep := { cop := op.cop, wfmt := op.wfmt, h := op.h, count := collCount op, gather := gather, chunk := chunk,
                         upper := upper, elems := elems, exps := exps }
  let peer := if isTg run.axis then tgMember s run.g dest else run.g
  let out := (stepFlits run st (collN s run.axis) peer).map fun e =>
    ({ hdr := e.1, payload := e.2.1, coll := e.2.2, due := elapsed s, sent := none } : TxFlit)
  updEnd s (stepLink s run dest upper) fun q => { q with txq := q.txq.set 5 (q.txq[5] ++ out) }

/-- What a member sends when its collective starts (R319, R320). -/
def firstSteps (s : State) (run : CollRun) (n me : Nat) : State :=
  let send (s : State) (dest chunk : Nat) (upper gather : Bool) : State :=
    let (x, e) := ownPiece run n chunk upper
    sendStep s run dest chunk upper gather x e
  if run.op.cop == copAG then send (send s (nextPos n me false) me false true) (nextPos n me true) me true true
  else if tgOrdered run then
    if me == 0 then
      (List.range 8).foldl (fun s q => send s 1 (q / 2) (q % 2 == 1) false) s
    else s
  else
    send (send s (nextPos n me false) ((me + n - 1) % n) false false) (nextPos n me true) ((me + 1) % n) true false

/-- Ring steps that a member receives. -/
def stepsToCome (run : CollRun) (n me : Nat) : Nat :=
  if n ≤ 1 then 0
  else if tgOrdered run then (if me == 0 then 2 else if me == 3 then 8 else 10)
  else if run.op.cop == copMAX then 4 * (n - 1)
  else 2 * (n - 1)

/-! ## Writing the destination (R317, R320, R322, R323, R327) -/

/-- A piece of the result; its own place in the destination's order. -/
def partOf (run : CollRun) (chunk : Nat) (upper : Bool) : List (BitVec 128) × List Byte :=
  match run.parts.find? fun p => p.1 == (chunk, upper) with
  | some p => p.2
  | none => ([], [])

/-- The pieces of the result in destination order. -/
def resultOf (run : CollRun) (n me : Nat) : List (BitVec 128) × List Byte :=
  let chunks := if run.op.cop == copRS then [me] else List.range n
  let l := chunks.flatMap fun c => [partOf run c false, partOf run c true]
  (l.flatMap (·.1), l.flatMap (·.2))

/-- Elements of the destination, its exponent plane, and flags. -/
def collResult (run : CollRun) (n me : Nat) (own : List Nat) (plane : List Byte) : List Nat × List Byte × AF :=
  let op := run.op
  let dst := (tdOf op.tdd).fmt
  let (x, e) := resultOf run n me
  if op.cop == copMAX then
    if dst == fG16 then
      let ec := x.map fun v => v.toNat
      let l := (own.zipIdx).map fun m =>
        let v := BitVec.ofNat 16 m.1
        if v = 0x8000 then v.toNat
        else
          let d := ec.getD (m.2 / 64) 0 - (plane.getD (m.2 / 64) 0).toNat
          (BitVec.ofInt 16 (shrRne v.toInt d)).toNat
      (l, ec.map (BitVec.ofNat 8), 0)
    else (x.map fun v => v.toNat, [], 0)
  else if op.cop == copAG && op.wfmt == fE4M3 then
    let l := ((groupsOf 32 x).zip e).flatMap fun b =>
      b.1.map fun q => fmtRound dst .rne (dst == fFP16) (Val.mul (fmtDecode fE4M3 q.toNat) (e4Scale b.2.toNat))
    (l.map (·.1), [], l.foldl (fun f r => f ||| r.2) 0)
  else if op.cop == copAG && op.wfmt != dst then
    ((x.map fun q => (fmtRound dst .rne false (fmtDecode op.wfmt q.toNat)).1), [], 0)
  else (x.map fun v => v.toNat, e, 0)

/-- The own source of a collective: its elements, and for G16 its exponent plane (R322). -/
def collRead (e : Eng) (op : ChanOp) : List Nat × List Byte × Eng :=
  let d := tdOf op.tds
  let (l, e) := engElems e d 0 d.count
  if d.fmt == fG16 then
    let (p, e) := engRead e (d.base + 2 * d.count) (ceilDiv d.count 64)
    (l, p, e)
  else (l, [], e)

/-- Mark the channel's running operation. -/
def chanPhase (s : State) (g : RegionId) (k : ChanId) (p : ChanPhase) : State :=
  updRegion s g fun r => updChan r k fun c => { c with run := c.run.map fun q => { q with phase := p } }

/-- Every piece of the result is there: write the destination (R321). -/
def collFinish (s : State) (run : CollRun) (n me : Nat) : State :=
  let op := run.op
  let d := tdOf op.tdd
  let flags (own : List Nat) (plane : List Byte) : AF := (collResult run n me own plane).2.2
  let e := engRun s fun s limit =>
    let e := engOpen s run.g 0xFF op.stream .off limit []
    let (own, plane, e) := if op.cop == copMAX && d.fmt == fG16 then collRead e op else ([], [], e)
    let (l, x, _) := collResult run n me own plane
    let e := engFlag (engPutAll e d 0 l) (flags own plane)
    if d.fmt == fG16 then engWrite e (d.base + 2 * d.count) x else e
  let (s, _) := engClose e (chanWho run.g run.k)
  let s := updRegion s run.g fun r => updStream r op.stream fun st => raiseAflags st e.flags
  let s := updFab s fun f => { f with colls := f.colls.filter fun r => !sameColl r run }
  engFault (chanPhase s run.g run.k (if e.stop.isSome then .failed else .moved)) run.g e.stop

/-! ## Receiving -/

/-- Values of a received step that differ from the member's own (R316), or a piece that the collective does not have. -/
def stepMatches (run : CollRun) (n : Nat) (st : CollStep) : Bool :=
  st.cop == run.op.cop && st.wfmt == run.op.wfmt && st.h == run.op.h && st.count == collCount run.op && decide (st.chunk < n)

/-- Take a ring step into a running collective: combine and forward it, or keep it (R316, R319, R320, R323, R324). -/
def takeStep (s : State) (run : CollRun) (st : CollStep) : State :=
  let n := collN s run.axis
  let me := collPos s run.g run.axis
  let op := run.op
  let fault (cause : Cause) : State := streamFault s run.g op.stream cause
  if !stepMatches run n st then fault cCollMismatch
  else
    let run := { run with left := run.left - 1 }
    let keep (run : CollRun) (x : List (BitVec 128)) (e : List Byte) : CollRun :=
      { run with parts := ((st.chunk, st.upper), (x, e)) :: run.parts }
    let flag (s : State) (f : AF) : State := updRegion s run.g fun r => updStream r op.stream fun t => raiseAflags t f
    let done (s : State) (run : CollRun) : State :=
      let s := putColl s run
      if run.left == 0 then collFinish s run n me else s
    let dest := nextPos n me st.upper
    if st.gather then
      let run := keep run st.elems st.exps
      let s := if tgOrdered run || dest == st.chunk then s else sendStep s run dest st.chunk st.upper true st.elems st.exps
      done s run
    else
      let (x, e) := ownPiece run n st.chunk st.upper
      if op.cop == copRS && op.wfmt == fG16 && st.exps != e then fault cG16ExpMismatch
      else
        let last := if tgOrdered run then me == 3 else me == st.chunk
        if last && op.cop == copRS && op.wfmt == fG16 then
          let (y, ye, f) := g16FinishAll st.elems x e
          done (flag s f) (keep run y ye)
        else
          let (y, f) := collCombineAll op st.elems x
          let s := flag s f
          if !last then
            let dest := if tgOrdered run then me + 1 else dest
            done (sendStep s run dest st.chunk st.upper false y st.exps) run
          else if tgOrdered run && st.chunk != me then
            done (sendStep s run st.chunk st.chunk st.upper true y st.exps) run
          else
            let run := keep run y st.exps
            let s := if op.cop == copMAX then sendStep s run dest st.chunk st.upper true y st.exps else s
            done s run

/-- A step for a collective that runs here, if it does. -/
def findColl (s : State) (g : RegionId) (a : AxisId) (seq : Nat) : Option CollRun :=
  s.fab.colls.find? fun r => r.g == g && r.axis == a && r.seq % 65536 == seq % 65536

/-- Take the steps that came before the collective started. -/
def takeEarly (s : State) (g : RegionId) (a : AxisId) (seq : Nat) : State :=
  let mine (e : CollEarly) : Bool := e.g == g && e.axis == a && e.seq % 65536 == seq % 65536
  let l := s.fab.early.filter mine
  let s := updFab s fun f => { f with early := f.early.filter fun e => !mine e }
  l.foldl (fun s e =>
    match findColl s g a seq with
    | some run => takeStep s run e.step
    | none => s) s

/-- The channel of a region whose running operation is the collective next in order on an axis. -/
def collChan (r : Region) (a : AxisId) : Option (ChanId × ChanRun) :=
  ((List.finRange 12).filterMap fun k =>
    match r.chans[k].run with
    | some run =>
      if run.op.dop == dopDCOLL && run.op.axis == a && run.phase == .waiting && run.op.seq == r.collStarted[a] then some (k, run)
      else none
    | none => none).head?

/-- COLLECTIVE_START: the collective next in the issue order of a region and axis starts at its engine: it reads its source
and sends its first ring steps, or on an axis of length 1 writes its result (R32, R314, R315, R319, R320, R326). -/
def execCollectiveStart (g : RegionId) (a : AxisId) (s : State) : Host.Outcome State Fault Refusal :=
  .next (match collChan s.regions[g] a with
  | none => s
  | some (k, cr) =>
    let op := cr.op
    let n := collN s a
    let me := collPos s g a
    let (own, plane, e) := collRead (engOpen s g 0xFF op.stream .off none []) op
    let (s, _) := engClose e (chanWho g k)
    let s := updRegion s g fun r => { r with collStarted := r.collStarted.set a (op.seq + 1) }
    match e.stop with
    | some _ => engFault (chanPhase s g k .failed) g e.stop
    | none =>
      let (x, xe, f) := collSource op own plane
      let s := updRegion s g fun r => updStream r op.stream fun t => raiseAflags t f
      let run : CollRun := { g := g, k := k, axis := a, seq := op.seq, op := op, elems := x, exps := xe, parts := [], left := 0,
                             done := false }
      let run := { run with left := stepsToCome run n me }
      let piece (u : Bool) : (Nat × Bool) × (List (BitVec 128) × List Byte) := ((me, u), ownPiece run n me u)
      if n ≤ 1 then
        let final (u : Bool) : (List (BitVec 128) × List Byte) × AF :=
          let (y, ye) := ownPiece run 1 0 u
          if op.cop == copRS && op.wfmt == fG16 then
            let (z, ze, h) := g16FinishAll (y.map fun v => if v = 0x8000 then v else 0) y ye
            ((z, ze), h)
          else ((y, ye), 0)
        let run := { run with parts := [((0, false), (final false).1), ((0, true), (final true).1)] }
        let s := updRegion s g fun r => updStream r op.stream fun t => raiseAflags t ((final false).2 ||| (final true).2)
        collFinish (updFab s fun f => { f with colls := f.colls ++ [run] }) run n me
      else
        let run := if op.cop == copAG then { run with parts := [piece false, piece true] } else run
        let s := updFab s fun f => { f with colls := f.colls ++ [run] }
        takeEarly (firstSteps s run n me) g a op.seq)

end Sys2Proof.Machine
end

