-- ==== Sys2Proof/Machine/Fabric.lean ====
section
/-! DEFINITION. The torus ports (R295 to R313, R525, R533): acceptance of flits, arriving sends and the landing gate, ring
steps of collectives, credits, acknowledgement, replay, training and its loss. -/

namespace Sys2Proof.Machine

/-! ## Acceptance (R296 to R298) -/

/-- A link carries flits: a port that is trained and whose domain has power, or a bridge between two dies. -/
def linkUp (s : State) : Link → Bool
  | .port p => trained s p && s.ports[p].powered
  | .bridge a b => a != b

/-- The CRC is correct and SEQ is the next one expected (R297, R298). -/
def flitGood (s : State) (l : Link) (f : Flit) : Bool :=
  decide (f.payload.length ≤ 240) && hCrc f.hdr == flitCrc f.hdr f.payload && hSeq f.hdr == (endOf s l).rxNext

/-- What a good flit that arrives on a bridge is: one that the bridge's other end has sent. -/
def wasSent (s : State) (l : Link) (f : Flit) : Option TxFlit :=
  (endOf s l).unacked.find? fun t => t.hdr == f.hdr && t.payload == f.payload

/-- A good flit of a bridge has been sent there; what arrives on a port is the neighbour's. -/
def onLink (s : State) (l : Link) (f : Flit) : Bool :=
  match l with
  | .port _ => true
  | .bridge _ _ => (wasSent s l f).isSome

/-- A discarded flit: the receiver goes on discarding until the sender replays (R298). -/
def discardFlit (s : State) (l : Link) : State := updEnd s l fun q => { q with rxDrop := true }

/-- An accepted flit takes the next sequence number. -/
def acceptFlit (s : State) (l : Link) : State := updEnd s l fun q => { q with rxNext := q.rxNext + 1, rxDrop := false }

/-- A flit leaves the receive buffer: its credit goes back (R302). -/
def giveCredit (s : State) (l : Link) (vc : VcId) : State :=
  updEnd s l fun q => { q with toReturn := q.toReturn.set vc (q.toReturn[vc] + 1) }

/-- The dies at the sending and at the receiving end of a link, of those this module has (Table 1.5). -/
def sendDie : Link → Nat
  | .port p => portDie p
  | .bridge a _ => a.val

def receiveDie : Link → Nat
  | .port p => portDie p
  | .bridge _ b => b.val

/-- Arrival of a flit of the kind `want` tells: `k` acts on a good one. A flit that is not good is discarded; a good one
that breaks the header's layout raises LINK_PROTOCOL (R296). -/
def receive (s : State) (l : Link) (f : Flit) (want : BitVec 128 → Bool) (k : State → State) : State :=
  if !linkUp s l then s
  else if !flitGood s l f then discardFlit s l
  else if !onLink s l f then s
  else if !hdrLegal f.hdr then dieFault (giveCredit (acceptFlit s l) l (hVc f.hdr).toFin) (receiveDie l) cLinkProtocol
  else if !want f.hdr then s
  else k (acceptFlit s l)

/-- The same for a flit that leaves the receive buffer at once. -/
def receiveNow (s : State) (l : Link) (f : Flit) (want : BitVec 128 → Bool) (k : State → State) : State :=
  receive s l f want fun s => k (giveCredit s l (hVc f.hdr).toFin)

def isPage (kind : BitVec 5) (h : BitVec 128) : Bool := hType h == tyPAGE && hPkind h == kind
def isCtrl (kind : BitVec 4) (h : BitVec 128) : Bool := hType h == tyCTRL && hCkind h == kind

/-- A DATA or COLL flit that arrives after a halt or in HARD_FAULT: discarded and counted (R313, R412). -/
def dropStale (s : State) (l : Link) (vc : VcId) : State :=
  giveCredit (updFab s fun f => { f with stale := f.stale + 1 }) l vc

def dropsTraffic (s : State) : Bool := s.fab.dropping || s.hardFault

/-- FLIT_DISCARD: a flit whose CRC is wrong or whose SEQ is not the next expected (R298). -/
def execFlitDiscard (l : Link) (f : Flit) (s : State) : Host.Outcome State Fault Refusal :=
  .next (if linkUp s l && !flitGood s l f then discardFlit s l else s)

/-! ## Arriving sends (R305 to R308) -/

/-- Whether the first flit of a send must wait at the landing gate. -/
def gateHolds (s : State) (h : BitVec 128) : Bool :=
  match targetRegion s (hRreg h) with
  | some t => gated (hRen h) (hVc h) && !gateOpen s t (hRevt h).toNat
  | none => false

/-- One DATA flit that leaves the receive buffer: its payload is written; the last one increments the event and is answered
(R305, R306, R307, R211). A send over a bridge was admitted where it began (R308). -/
def landFlit (s : State) (l : Link) (f : Flit) : State :=
  let h := f.hdr
  let vc : VcId := (hVc h).toFin
  let ev := (hRevt h).toNat
  let first := !(endOf s l).isOpen[vc]
  let s := giveCredit s l vc
  let s := updEnd s l fun q => { q with isOpen := q.isOpen.set vc (!hLast h) }
  match targetRegion s (hRreg h) with
  | none => if hLast h then sendResp s l 7 (hTag h) (hGen h) 1 else s
  | some t =>
    let gate := gated (hRen h) (hVc h)
    let s := if first && gate && (match l with | .port _ => true | .bridge _ _ => false) then noteAdmitted s t ev else s
    let (s, ok) := landBytes s t (hOffset h) (f.payload.take (hLen h))
    if !ok || !hLast h then s
    else sendResp (sendLanded s t ev gate (hRen h)) l 7 (hTag h) (hGen h) 0

/-- The flit at the head of a virtual channel's receive buffer must wait: it begins a send that the gate holds. -/
def headWaits (s : State) (p : PortId) (f : Flit) : Bool :=
  !s.ports[p].isOpen[(hVc f.hdr).toFin] && gateHolds s f.hdr

/-- DATA_RECEIVE: a DATA flit arrives; behind a held one, or held itself, it stays in the receive buffer (R305 to R308,
R313). -/
def execDataReceive (l : Link) (f : Flit) (s : State) : Host.Outcome State Fault Refusal :=
  .next (receive s l f (fun h => hType h == tyDATA) fun s =>
    let vc : VcId := (hVc f.hdr).toFin
    if dropsTraffic s then dropStale s l vc
    else
      match l with
      | .port p =>
        if !(s.ports[p].held[vc]).isEmpty || headWaits s p f then
          updPort s p fun q => { q with held := q.held.set vc (q.held[vc] ++ [f]) }
        else landFlit s l f
      | .bridge _ _ => landFlit s l f)

/-- Let held flits through until the next send that must wait. -/
def drainHeld (p : PortId) (vc : VcId) : Nat → State → State
  | 0, s => s
  | n + 1, s =>
    match s.ports[p].held[vc] with
    | [] => s
    | f :: rest =>
      if headWaits s p f then s
      else drainHeld p vc n (landFlit (updPort s p fun q => { q with held := q.held.set vc rest }) (.port p) f)

/-- A receive buffer that holds flits of sends. -/
def holdsSends (s : State) (p : PortId) (vc : VcId) : Bool := (s.ports[p].held[vc]).all fun f => hType f.hdr == tyDATA

/-- LANDING_GATE_ADMIT: the send that is held, in a port's receive buffer or in a channel of this module, is admitted once
the gate opens (R307, R308). -/
def execLandingGateAdmit (src : GateSrc) (s : State) : Host.Outcome State Fault Refusal :=
  .next (match src with
  | .port p vc => if holdsSends s p vc then drainHeld p vc ((s.ports[p].held[vc]).length) s else s
  | .chan g k =>
    match s.regions[g].chans[k].run with
    | some run => if run.phase == .waiting && run.op.dop == dopDSEND then sendHere s g k run else s
    | none => s)

/-! ## Ring steps (R316) -/

/-- A residue mismatch in a collective engine (R378). -/
def collResidue (s : State) (g : RegionId) (op : ChanOp) : State :=
  raiseFault s { cause := cResidueFault, ctx := s.regions[g].ctx,
                 rcd := { regionRec s g with source := srcResOther, stream := BitVec.ofNat 2 op.stream.val } }

/-- A ring step for region `g` on an axis with sequence number `seq`: into the collective that runs, or kept for one that has
not started; a number whose turn has passed differs from the member's own (R315, R316). -/
def arriveStep (s : State) (g : RegionId) (a : AxisId) (l : Link) (seq : Nat) (st : CollStep) (resid : Bool) : State :=
  match findColl s g a seq with
  | some run => if resid then collResidue s g run.op else takeStep s run st
  | none =>
    let ahead := (seq + 65536 - s.regions[g].collStarted[a] % 65536) % 65536
    if ahead < 32768 then updFab s fun f => { f with early := f.early ++ [{ g := g, axis := a, link := l, seq := seq, step := st }] }
    else regionFault s g cCollMismatch

/-- The values that R316 names in the first flit of a ring step, held against those of the collective that runs. -/
def firstFlit (s : State) (g : RegionId) (a : AxisId) (seq : Nat) (st : CollStep) : State :=
  match findColl s g a seq with
  | some run => if stepMatches run (collN s a) st then s else streamFault s g run.op.stream cCollMismatch
  | none => s

/-- Gather the flits of a ring step until LAST: the step then (R315, R316). What the first flit carries beside its payload is
`r`, on a bridge what its sender gave it. -/
def gatherStep (s : State) (g : RegionId) (a : AxisId) (l : Link) (f : Flit) (r : CollStep) : State × Option CollStep :=
  let h := f.hdr
  let key (e : BitVec 16 × BitVec 6 × CollStep × List Byte) : Bool := e.1 == hTag h && e.2.1 == hRreg h
  let rest := (endOf s l).steps.filter fun e => !key e
  let old := (endOf s l).steps.find? key
  let st := match old with
    | some e => e.2.2.1
    | none => match l with
      | .port _ => r
      | .bridge _ _ => ((wasSent s l f).bind (·.coll)).getD r
  let s := if old.isNone then firstFlit s g a (hTag h).toNat st else s
  let bytes := ((old.map (·.2.2.2)).getD []) ++ f.payload.take (hLen h)
  if hLast h then (updEnd s l fun q => { q with steps := rest }, some (stepData st bytes))
  else (updEnd s l fun q => { q with steps := rest ++ [(hTag h, hRreg h, st, bytes)] }, none)

/-- A link that leads to the member of region `g` on an axis: a port of the axis, or a bridge to the region's die (R314). -/
def linkOfAxis (s : State) (g : RegionId) (a : AxisId) : Link → Bool
  | .port p => !isTg a && axisOf p == ringAxis a
  | .bridge _ d => isTg a && d.val == dieOf s g

/-- COLL_RECEIVE: a member receives a flit of a ring step; with the last one it checks the step's parameters, combines and
forwards it (R313, R316, R318 to R320, R323, R324, R327, R378). -/
def execCollReceive (g : RegionId) (a : AxisId) (l : Link) (f : Flit) (r : CollStep) (resid : Bool) (s : State) :
    Host.Outcome State Fault Refusal :=
  .next (if !linkOfAxis s g a l then s
  else
    receive s l f (fun h => hType h == tyCOLL && (hRreg h).toNat == g.val) fun s =>
      let vc : VcId := (hVc f.hdr).toFin
      if dropsTraffic s then dropStale s l vc
      else
        match gatherStep (giveCredit s l vc) g a l f r with
        | (s, some st) => arriveStep s g a l (hTag f.hdr).toNat st resid
        | (s, none) => s)

/-! ## Transmission, credits, acknowledgement (R298, R301, R302) -/

/-- A flit waits on a virtual channel that holds a credit. -/
def sendable (q : Port) (vc : VcId) : Bool := !(q.txq[vc]).isEmpty && decide (0 < q.credits[vc])

/-- FLIT_TRANSMIT: the flit at the head of a virtual channel goes out with its SEQ and CRC, spending a credit; virtual
channel 7 goes before every other, and 8,192 flits may be unacknowledged (R297, R298, R301, R302). -/
def execFlitTransmit (l : Link) (vc : VcId) (s : State) : Host.Outcome State Fault Refusal :=
  let q := endOf s l
  .next (if linkUp s l && sendable q vc && decide (q.unacked.length < 8192) && (vc == 7 || !sendable q 7) then
    match q.txq[vc] with
    | f :: rest =>
      let f := { f with hdr := sealHdr f.hdr q.seq f.payload, sent := some (elapsed s) }
      updEnd s l fun q =>
        { q with txq := q.txq.set vc rest, credits := q.credits.set vc (q.credits[vc] - 1), seq := q.seq + 1,
                 unacked := q.unacked ++ [f] }
    | [] => s
  else s)

/-- CREDIT_RETURN: a credit for a virtual channel comes back (R302); a link's sender holds no more than the receive buffer
has (Table 10.3), and over a bridge what its other end has given back. -/
def execCreditReturn (l : Link) (vc : VcId) (s : State) : Host.Outcome State Fault Refusal :=
  let q := endOf s l
  let back := match l with
    | .port _ => true
    | .bridge _ _ => decide (0 < q.toReturn[vc])
  .next (if linkUp s l && decide (q.credits[vc] < Port.fullCredits[vc]) && back then
    updEnd s l fun q =>
      { q with credits := q.credits.set vc (q.credits[vc] + 1),
               toReturn := match l with
                 | .port _ => q.toReturn
                 | .bridge _ _ => q.toReturn.set vc (q.toReturn[vc] - 1) }
  else s)

/-- Flits that an acknowledgement may cover, with `f` the first of the replay store: on a bridge those received. -/
def mayAck (l : Link) (q : Port) (f : TxFlit) (n : Nat) : Bool :=
  decide (n ≤ q.unacked.length) &&
    (match l with
     | .port _ => true
     | .bridge _ _ => decide (n ≤ (q.rxNext - hSeq f.hdr).toNat))

/-- ACKNOWLEDGEMENT: every flit before `seq` is acknowledged and leaves the replay store (R298). -/
def execAcknowledgement (l : Link) (seq : BitVec 14) (s : State) : Host.Outcome State Fault Refusal :=
  .next (if linkUp s l then
    match (endOf s l).unacked with
    | [] => s
    | f :: _ =>
      let n := (seq - hSeq f.hdr).toNat
      if mayAck l (endOf s l) f n then updEnd s l fun q => { q with unacked := q.unacked.drop n } else s
  else s)

/-- LINK_REPLAY: the sender sends its unacknowledged flits again from the first that was discarded, unchanged (R298); the
count of replays goes into TELEMETRY. -/
def execLinkReplay (l : Link) (s : State) : Host.Outcome State Fault Refusal :=
  .next (if linkUp s l && !((endOf s l).unacked).isEmpty then updEnd s l fun q => { q with replays := q.replays + 1 } else s)

/-- A flit that R533 names: DATA, COLL or PAGE. -/
def waitsForPort (t : TxFlit) : Bool := hType t.hdr == tyDATA || hType t.hdr == tyCOLL || hType t.hdr == tyPAGE

/-- The bound of R299. -/
def ackBound : Link → Nat
  | .port _ => 1000
  | .bridge _ _ => 100

/-- A flit due on a port that its axis has but that is not trained is past its bound (R533). -/
def dueLate (s : State) : Link → Bool
  | .port p => !trained s p && decide (2 ≤ axisLen s (axisOf p)) &&
      (List.finRange 8).any fun v => (s.ports[p].txq[v]).any fun f => waitsForPort f && decide (f.due + 1000 ≤ elapsed s)
  | .bridge _ _ => false

/-- Some flit of a link is past its bound: transmitted and not acknowledged, or due while its port is not trained
(R299, R533). -/
def linkLate (s : State) (l : Link) : Bool :=
  ((endOf s l).unacked.any fun f => match f.sent with | some t => decide (t + ackBound l ≤ elapsed s) | none => false) ||
    dueLate s l

/-- LINK_TIMEOUT: a flit not acknowledged in its bound raises the fault at the die that sends (R26, R299, R349, R533). -/
def execLinkTimeout (l : Link) (s : State) : Host.Outcome State Fault Refusal :=
  .next (if running s && linkLate s l then dieFault s (sendDie l) cLinkTimeout else s)

/-! ## Training (R32, R33, R466, R489, R525, R533) -/

/-- The port code of the opposite port of the same axis (Table 8.15). -/
def oppositeCode (p : PortId) : Nat :=
  match p with
  | 0 => 2
  | 1 => 1
  | 2 => 4
  | 3 => 3
  | 4 => 6
  | 5 => 5

/-- Every port whose domain is on is trained. -/
def allTrained (s : State) : Bool := (List.finRange 6).all fun p => !s.ports[p].powered || trained s p

/-- LINK_TRAINING: the partner's identity comes; the port is trained when it is the opposite port of the neighbour that TOPO
names, and shows a mismatch otherwise (R466, R489, R525). What the port has sent or holds stays: training again loses no flit (R298,
notes/assumptions/41). -/
def execLinkTraining (p : PortId) (px py pz : BitVec 5) (pport : BitVec 3) (s : State) : Host.Outcome State Fault Refusal :=
  .next (if (s.boot.phase == .linking || s.boot.phase == .ready) && s.ports[p].powered && !trained s p then
    let id : BitVec 24 := pz.setWidth 8 ++ py.setWidth 8 ++ px.setWidth 8
    let ok := id == neighbourCoords s p && pport.toNat == oppositeCode p
    let st : BitVec 2 := if ok then 2 else 3
    let s := updPort s p fun q =>
      { q with state := st, pv := true, px := px, py := py, pz := pz, pport := pport }
    if !allTrained s then s
    else
      let b := s.boot
      let b := { b with bootfail := if b.bootfail = 0x80 then 0 else b.bootfail }
      { s with boot := { b with trainedAt := if b.trainedAt.isNone then some (elapsed s) else b.trainedAt } }
  else s)

/-- PORT_TRAINING_LOST: a trained port trains again; flits due on it wait, and those it has sent are not acknowledged
(R533). Start-up that waits for its links waits for this one again. -/
def execPortTrainingLost (p : PortId) (s : State) : Host.Outcome State Fault Refusal :=
  .next (if linkUp s (.port p) then
    let s := updPort s p fun q => { q with state := 1 }
    if s.boot.phase == .linking then { s with boot := { s.boot with trainedAt := none } } else s
  else s)

/-! ## Page requests (R291, R292) -/

/-- Gather the flits of a page request until LAST: its bytes then. -/
def gatherPage (s : State) (p : PortId) (f : Flit) : State × Option (List Byte) :=
  let h := f.hdr
  let key (e : BitVec 16 × BitVec 4 × BitVec 128 × List Byte) : Bool := e.1 == hTag h && e.2.1 == hGen h
  let old := match s.ports[p].gather.find? key with | some e => e.2.2.2 | none => []
  let bytes := old ++ f.payload.take (hLen h)
  let rest := s.ports[p].gather.filter fun e => !key e
  if hLast h then (updPort s p fun q => { q with gather := rest }, some bytes)
  else (updPort s p fun q => { q with gather := rest ++ [(hTag h, hGen h, h, bytes)] }, none)

/-- A page request arrives: once its last flit is here, `k` serves it; in HARD_FAULT the answer is ERROR (R294, R412). -/
def servePage (s : State) (p : PortId) (f : Flit) (kind : BitVec 5) (k : State → List Byte → State) : State :=
  receiveNow s (.port p) f (isPage kind) fun s =>
    match gatherPage s p f with
    | (s, none) => s
    | (s, some l) => if s.hardFault then sendResp s (.port p) 6 (hTag f.hdr) (hGen f.hdr) 1 else k s l

/-- Answer a page request: OK is 0, ERROR 1, a shortfall of LEND 3 (Table 10.2, R292). -/
def answerPage (s : State) (p : PortId) (f : Flit) (status : BitVec 6) : State :=
  sendResp s (.port p) 6 (hTag f.hdr) (hGen f.hdr) status

end Sys2Proof.Machine
end

