-- ==== Sys2Proof/Machine/Lending.lean ====
section
/-! DEFINITION. The answering side of page transactions (R291 to R294): frames lent to neighbours, the mirror held for the
Z- neighbour (R336, R338, R340, R341), and the data that comes back to a requester. -/

namespace Sys2Proof.Machine

/-! ## Lend blocks (Table 9.12) -/

def lendPages (l : List Byte) : Nat := sliceNat l 0 4
def lendFlags (l : List Byte) : Nat := sliceNat l 4 4
def lendCaddr (l : List Byte) : Nat := sliceNat l 8 8
def lendMirror (l : List Byte) : Bool := lendFlags l % 2 == 1

/-- The reserved fields of a lend block are zero and its fields are in range. -/
def lendBlockOk (l : List Byte) : Bool :=
  decide (1 ≤ lendPages l) && decide (lendPages l ≤ 2 ^ 31) && decide (lendFlags l < 2) &&
    (if lendMirror l then lendCaddr l % frameBytes == 0 && decide (lendCaddr l / frameBytes + lendPages l ≤ 2 ^ 31)
     else lendCaddr l == 0)

/-- Pages that a lend block with MIRROR = 1 names. -/
def mirrorPages (l : List Byte) : List Nat := (List.range (lendPages l)).map fun i => lendCaddr l / frameBytes + i

def findMirror (h : Hbm) (c : CtxId) (page : Nat) : Option MirrorPage := h.mirrors.find? fun m => m.ctx == c && m.page == page

def updMirror (h : Hbm) (c : CtxId) (page : Nat) (f : MirrorPage → MirrorPage) : Hbm :=
  { h with mirrors := h.mirrors.map fun m => if m.ctx == c && m.page == page then f m else m }

/-- Allocate `n` frames for a borrower, filled with zeros and valid check bits. -/
def lendFrames (p : PortId) (c : CtxId) : Nat → State → Option (List Nat × State)
  | 0, s => some ([], s)
  | n + 1, s =>
    match allocFrame s with
    | none => none
    | some (f, s) =>
      let s := updHbm s fun h => { hbmZero h (f * frameBytes) frameBytes with lent := h.lent ++ [{ frame := f, port := p, ctx := c }] }
      (lendFrames p c n s).map fun r => (f :: r.1, r.2)

/-- Reserve a pair of frames for the mirror of each listed page (R341). -/
def mirrorFrames (c : CtxId) : List Nat → State → Option State
  | [], s => some s
  | page :: rest, s =>
    match allocPair s page with
    | none => none
    | some (f, s) =>
      mirrorFrames c rest (updHbm s fun h =>
        { hbmZero h (f * frameBytes) (2 * frameBytes) with
            mirrors := h.mirrors ++ [{ ctx := c, page := page, frame := f, stripes := [] }] })

/-- LEND_REQ: grant frames to a borrower, or reserve the mirror of versioned pages, within LEND (R261, R293, R294, R336). A
page whose mirror is held already keeps it (notes/assumptions/42). -/
def execLendReq (p : PortId) (f : Flit) (s : State) : Host.Outcome State Fault Refusal :=
  .next (servePage s p f pkLendReq fun s l =>
    let c := hCtx f.hdr
    if !lendBlockOk l then answerPage s p f 1
    else if lendMirror l then
      let fresh := (mirrorPages l).filter fun q => (findMirror s.hbm c q).isNone
      if s.boot.cfg.lend < lentPages s + 2 * fresh.length then answerPage s p f 3
      else if p != 5 then answerPage s p f 1
      else
        match mirrorFrames c fresh s with
        | some s => answerPage s p f 0
        | none => answerPage s p f 1
    else if s.boot.cfg.lend < lentPages s + lendPages l then answerPage s p f 3
    else
      match lendFrames p c (lendPages l) s with
      | some (fs, s) =>
        answerPage (sendPage s p pkLendAns c (hTag f.hdr) (hGen f.hdr) 0 (fs.flatMap (leBytes 4))) p f 0
      | none => answerPage s p f 1)

/-- Frame numbers, 4 bytes each. -/
def frameList (l : List Byte) (n : Nat) : List Nat := (List.range n).map fun i => sliceNat l (16 + 4 * i) 4

/-! ## Asking the Z- neighbour to write its mirror here again (R356) -/

/-- Versioned pages of a context, in ascending order, with their residencies. -/
def versionedPages (s : State) (c : CtxId) : List (Nat × Resid) :=
  s.ctxs[c].pages.filterMap fun e =>
    match residById s.hbm e.2 with
    | some r => if r.ver then some (e.1, r) else none
    | none => none

/-- Versioned pages of the Z- neighbour that this module expects to mirror: those whose mirror it holds, or, where it holds
none after a reset, as many as the context has here (R413, Table 11.2, notes/assumptions/71). -/
def expectPages (s : State) (c : CtxId) : Nat :=
  match (s.hbm.mirrors.filter fun m => m.ctx == c).length with
  | 0 => (versionedPages s c).length
  | n => n

/-- MIRROR_REBUILD to the Z- neighbour, with the number of pages expected; `r` waits for them (R356, Table 11.2). -/
def askRebuild (s : State) (c : CtxId) (r : Restore) : State :=
  sendCtrl { s with restoring := s.restoring.set c (some { r with left := expectPages s c * frameBytes }) } 5
    (ctrlMid ckRebuild c false 0) (ctrlLow 0) (leBytes 8 (expectPages s c))

/-- After MIRROR_POISONED the mirror is asked for again, once (R395 and the text after Table 13.4, notes/assumptions/71). -/
def rebuildMirror (s : State) (c : CtxId) : State :=
  if s.hardFault || (s.restoring[c]).isSome then s
  else askRebuild s c { step := s.hbm.mirrorStep[c], got := 0, own := true, left := 0 }

/-- `n` more bytes of the mirror's Cairn have come. A rebuild that no RESTORE_FROM_BUDDY asked for ends with the last. -/
def noteRebuilt (s : State) (c : CtxId) (n : Nat) : State :=
  match s.restoring[c] with
  | none => s
  | some r =>
    let q : Restore := { r with left := r.left - n, got := if r.own then max r.got 1 else r.got }
    let done := q.own && q.left == 0 && !s.host.rings[c].cmds.any fun k => k.opc == 0x0B
    { s with restoring := s.restoring.set c (if done then none else some q) }

/-- The neighbour has given up the last mirrored page of a context: nothing more is to come of its rebuild. -/
def mirrorGone (s : State) (c : CtxId) : State :=
  if s.hbm.mirrors.any fun m => m.ctx == c then s else noteRebuilt s c (((s.restoring[c]).map (·.left)).getD 0)

/-! ## Serving requests -/

/-- LEND_FREE: frames come back from a borrower, or the mirror of versioned pages is given up (R291, R294). -/
def execLendFree (p : PortId) (f : Flit) (s : State) : Host.Outcome State Fault Refusal :=
  .next (servePage s p f pkLendFree fun s l =>
    let c := hCtx f.hdr
    if !lendBlockOk l then answerPage s p f 1
    else if lendMirror l then
      let ps := mirrorPages l
      if ps.all (fun q => (findMirror s.hbm c q).isSome) then
        let s := updHbm s fun h => { h with mirrors := h.mirrors.filter fun m => !(m.ctx == c && ps.contains m.page) }
        answerPage (mirrorGone s c) p f 0
      else answerPage s p f 1
    else
      let fs := frameList l (lendPages l)
      let mine (x : Lent) : Bool := x.port == p && x.ctx == c && fs.contains x.frame
      if fs.all (fun q => s.hbm.lent.any fun x => x.port == p && x.ctx == c && x.frame == q) then
        answerPage (updHbm s fun h => { h with lent := h.lent.filter fun x => !mine x }) p f 0
      else answerPage s p f 1)

/-! ## Address blocks (Table 9.12) -/

def adAddr (l : List Byte) : Nat := sliceNat l 0 8
def adLen (l : List Byte) : Nat := sliceNat l 8 4
def adFlags (l : List Byte) : Nat := sliceNat l 12 4
def adMirror (l : List Byte) : Bool := adFlags l % 4 == 1
def adCairn (l : List Byte) : Bool := adFlags l / 4 % 4 == 1
def adHost (l : List Byte) : Bool := adFlags l / 16 % 2 == 1

/-- An address block in range, with reserved values absent; `wr` for a write, which alone may carry HOST, with SLOT CAIRN. -/
def addrBlockOk (l : List Byte) (wr : Bool) : Bool :=
  decide (64 ≤ adLen l) && decide (adLen l ≤ 16384) && adLen l % 64 == 0 &&
    decide (adAddr l / frameBytes = (adAddr l + adLen l - 1) / frameBytes) && decide (adFlags l < 32) &&
    decide (adFlags l % 4 ≤ 1) && decide (adFlags l / 4 % 4 ≤ 1) && (adMirror l || adFlags l == 0) &&
    (!adHost l || (wr && adCairn l))

/-- The bytes lie in a frame lent to the requester's context over that port. -/
def inLent (s : State) (p : PortId) (c : CtxId) (a : Nat) : Bool :=
  s.hbm.lent.any fun x => x.port == p && x.ctx == c && x.frame == a / frameBytes

/-- Pieces of a byte range that stay within one 4 KiB stripe. -/
def stripePieces : Nat → Nat → Nat → List (Nat × Nat)
  | 0, _, _ => []
  | fuel + 1, a, n =>
    if n = 0 then []
    else
      let k := min n (4096 - a % 4096)
      (a, k) :: stripePieces fuel (a + k) (n - k)

/-- Physical address of an offset in a mirrored page: the Cairn slot, or as the program reads it (R337, R341). -/
def mirrorPhys (m : MirrorPage) (off : Nat) (prog : Bool) : Nat :=
  let t := stripeOf m.stripes (off / 4096)
  let odd := if prog && t.written then !t.cairn else t.cairn
  (m.frame + (if odd then 1 else 0)) * frameBytes + off

/-- The physical pieces that an address block names; none when it falls outside (R293, R294). The mirror serves the Z-
neighbour, on its port. -/
def blockPieces (s : State) (p : PortId) (c : CtxId) (l : List Byte) : Option (List (Nat × Nat)) :=
  if adMirror l then
    if p != 5 then none
    else
      match findMirror s.hbm c (adAddr l / frameBytes) with
      | none => none
      | some m =>
        some ((stripePieces 6 (adAddr l % frameBytes) (adLen l)).map fun e => (mirrorPhys m e.1 (!adCairn l), e.2))
  else if inLent s p c (adAddr l) then some [(adAddr l, adLen l)] else none

/-- The bus error that an answering module raises for a remote request (Table 13.5). -/
def remoteBusError (s : State) (src : BitVec 16) (e : Nat × Finding) : State :=
  let (s, r) := hbmPoisoned s (blankRec s) src e
  busFault s cBusError none r

/-- RD_REQ: data of lent frames or of the mirror goes back, then the answer (R292 to R294, R356, R397). -/
def execRdReq (p : PortId) (f : Flit) (s : State) : Host.Outcome State Fault Refusal :=
  .next (servePage s p f pkRdReq fun s l =>
    let c := hCtx f.hdr
    if !addrBlockOk l false then answerPage s p f 1
    else
      match blockPieces s p c l with
      | none => answerPage s p f 1
      | some ps =>
        let fs := ps.flatMap fun e => hbmFindings s.hbm e.1 e.2
        let data := ps.flatMap fun e => hbmBytes s.hbm e.1 e.2
        let s := hbmCorrected s (blankRec s) srcHbmDemand fs
        match firstBad fs with
        | some b => remoteBusError (answerPage s p f 1) srcHbmDemand b
        | none => answerPage (sendPage s p pkRdData c (hTag f.hdr) (hGen f.hdr) 0 data) p f 0)

/-- The copy before the first write of a step to a mirrored stripe, made by the buddy (R338, R341). -/
def mirrorFirstWrite (s : State) (c : CtxId) (m : MirrorPage) (i : Nat) : State × Bool :=
  let t := stripeOf m.stripes i
  if t.written then (s, true)
  else
    let (h, fs) := stripeCopy s.hbm m.frame t i
    let s := hbmCorrected s (blankRec s) srcHbmDemand fs
    match firstBad fs with
    | some b =>
      let (s, q) := hbmPoisoned s (blankRec s) srcHbmDemand b
      (rebuildMirror (raiseFault s
        { cause := cMirrorPoisoned, ctx := none,
          rcd := { q with cairn := true, mirror := true, ref := some (neighbourCoords s 5) } }) c, false)
    | none =>
      let s := { s with hbm := { h with writeBacks := s.hbm.writeBacks } }
      let s := updHbm s fun h => updMirror h c m.page fun q =>
        { q with stripes := spPut defaultStripe q.stripes i { t with written := true } }
      (if t.flipped then updHbm s fun h => { h with mirrorPrior := h.mirrorPrior.set c false } else s, true)

/-- First writes of every stripe that a mirror write touches. -/
def mirrorOpen (s : State) (c : CtxId) (page : Nat) : List (Nat × Nat) → State × Bool
  | [] => (s, true)
  | (off, _) :: rest =>
    match findMirror s.hbm c page with
    | none => (s, false)
    | some m =>
      match mirrorFirstWrite s c m (off / 4096) with
      | (s, true) => mirrorOpen s c page rest
      | (s, false) => (s, false)

/-- Write data over physical pieces; false with the fault raised when a narrow write is refused (R387). -/
def writePieces (s : State) : List (Nat × Nat) → List Byte → State × Bool
  | [], _ => (s, true)
  | (a, n) :: rest, l =>
    match hbmStore s (blankRec s) a (l.take n) with
    | (s, some r) => (busFault s cBusError none r, false)
    | (s, none) => writePieces s rest (l.drop n)

/-- Context `c` is halted here: no mirror write of its step takes effect (R351, notes/assumptions/38). -/
def mirrorHalted (s : State) (c : CtxId) : Bool := s.ctxs[c].halt.isSome && !busy s c

/-- A restore here waits for the Z- neighbour to rewrite the mirror of context `c` (R356). -/
def rebuildOpen (s : State) (c : CtxId) : Bool :=
  match s.restoring[c] with
  | some r => decide (0 < r.left)
  | none => false

/-- WR_REQ: a write of lent frames, a mirror write of the running step, or a write of the mirror's Cairn (R292 to R294, R338,
R340, R341, R351, R356, R387, R397). -/
def execWrReq (p : PortId) (f : Flit) (s : State) : Host.Outcome State Fault Refusal :=
  .next (servePage s p f pkWrReq fun s l =>
    let c := hCtx f.hdr
    let data := l.drop 16
    if !addrBlockOk l true || data.length != adLen l then answerPage s p f 1
    else if adMirror l && adCairn l && !adHost l && !rebuildOpen s c then answerPage s p f 1
    else
      match blockPieces s p c l with
      | none => answerPage s p f 1
      | some _ =>
        if adMirror l && !adCairn l && mirrorHalted s c then answerPage s p f 0
        else
          let page := adAddr l / frameBytes
          let (s, ok) := if adMirror l && !adCairn l then
              mirrorOpen s c page (stripePieces 6 (adAddr l % frameBytes) (adLen l)) else (s, true)
          if !ok then answerPage s p f 1
          else
            let (s, ok) := writePieces s ((blockPieces s p c l).getD []) data
            if !ok then answerPage s p f 1
            else
              let s := if adHost l then updHbm s fun h => { h with mirrorPrior := h.mirrorPrior.set c false } else s
              let s := if adMirror l && adCairn l && !adHost l then noteRebuilt s c (adLen l) else s
              answerPage s p f 0)

/-! ## Data for a requester -/

/-- The outstanding transaction with a flit's TAG and GEN (R311). -/
def findTxn (s : State) (h : BitVec 128) : Option Txn := s.fab.txns.find? fun t => t.tag == hTag h && t.gen == hGen h

/-- The transaction that a RESP on a link answers (R306, R312). -/
def respTxn (s : State) (l : Link) (h : BitVec 128) : Option Txn :=
  s.fab.txns.find? fun t => t.tag == hTag h && t.gen == hGen h && t.ask != .near &&
    (t.ask == .cross) == (match l with | .port _ => false | .bridge _ _ => true)

def updTxn (s : State) (t : Txn) (f : Txn → Txn) : State :=
  updFab s fun b => { b with txns := b.txns.map fun x => if x.tag == t.tag && x.gen == t.gen then f x else x }

/-- Keep the data of an answer flit with its transaction, by offset within the transaction's data (POFF). -/
def keepData (s : State) (f : Flit) (asks : Ask → Bool) : State :=
  match findTxn s f.hdr with
  | some t =>
    if asks t.ask then updTxn s t fun x => { x with data := memPutBytes x.data (hPoff f.hdr) (f.payload.take (hLen f.hdr)) }
    else s
  | none => s

/-- RD_DATA: data of a read that this module has asked for (R291, R292). -/
def execRdData (p : PortId) (f : Flit) (s : State) : Host.Outcome State Fault Refusal :=
  .next (receiveNow s (.port p) f (isPage pkRdData) fun s => keepData s f (· == .read))

/-- LEND_ANS: frame numbers that a lender grants, kept for the command that asked (R261, R291). -/
def execLendAns (p : PortId) (f : Flit) (s : State) : Host.Outcome State Fault Refusal :=
  .next (receiveNow s (.port p) f (isPage pkLendAns) fun s => keepData s f (· == .lend false))

end Sys2Proof.Machine
end

