-- ==== Sys2Proof/Machine/Repro.lean ====
section
/-! DEFINITION. Digests of a step, replica comparison with the neighbour and lock-step (R420 to R429). -/

namespace Sys2Proof.Machine

/-! ## Digests of a step -/

/-- The tiles of digest-map entry `k` that the step has written. -/
def tilesOf (x : Ctx) (k : Nat) : List (Nat × TileDig) := (x.tiles.filter fun t => t.1.1 == k).map fun t => (t.1.2, t.2)

/-- Range digest: the sum of the tile digests (R421). -/
def rangeDigest (x : Ctx) (k : Nat) : BitVec 128 := (tilesOf x k).foldl (fun d t => d ^^^ t.2.digest) 0

/-- Non-finite elements written in a range (R422). -/
def rangeNonfin (x : Ctx) (k : Nat) : Nat := min ((tilesOf x k).foldl (fun n t => n + t.2.nonfin) 0) (2 ^ 32 - 1)

/-- Update digest: the sum of the range digests of the MASTER ranges (R424). -/
def updateDigest (x : Ctx) : BitVec 128 :=
  (x.dmap.zipIdx).foldl (fun d e => if e.1.replica then d else d ^^^ rangeDigest x e.2) 0

/-- A digest record (Table 14.4). -/
def recordBytes (x : Ctx) (d : DigestEnt) (k step : Nat) : List Byte :=
  leBytes 2 d.lid.toNat ++ [d.kind, d.fmt.setWidth 8] ++ leBytes 4 (rangeNonfin x k) ++ leBytes 8 step ++
    leBytes 16 (rangeDigest x k).toNat ++ leBytes 4 d.tiles ++ List.replicate 28 0

/-- Write the digest records of a step into the digest area (R423). -/
def writeRecords (s : State) (c : CtxId) (step : Nat) : State :=
  let x := s.ctxs[c]
  ((x.dmap.zip (digestOffsets x.dmap).1).zipIdx).foldl (fun s e =>
    let a := x.darea + e.1.2
    match mapped s c a with
    | some r => updHbm s fun h => hbmWrite h (physOf r (a % frameBytes) true) (recordBytes x e.1.1 e.2 step)
    | none => s) s

/-! ## Replica comparison (R425, R426) -/

/-- LID, TILES, range digest and place in the map of every REPLICA range. -/
def replicas (x : Ctx) : List (BitVec 16 × Nat × BitVec 128 × Nat) :=
  (x.dmap.zipIdx).filterMap fun e => if e.1.replica then some (e.1.lid, e.1.tiles, rangeDigest x e.2, e.2) else none

/-- A comparison step (R425). -/
def comparisonStep (s : State) (step : Nat) : Bool :=
  s.boot.cfg.digestInterval != 0 && step % s.boot.cfg.digestInterval == 0

/-- Digest set of Table 9.13. -/
def digestSetBytes (x : Ctx) (step : Nat) : List Byte :=
  let l := replicas x
  leBytes 8 step ++ leBytes 2 l.length ++ List.replicate 6 0 ++
    l.flatMap fun e => leBytes 2 e.1.toNat ++ [0, 0] ++ leBytes 4 e.2.1 ++ leBytes 16 e.2.2.1.toNat

/-- Send the step's replica digests to the buddy (R425). -/
def sendDigestSet (s : State) (c : CtxId) (step : Nat) : State :=
  if comparisonStep s step && hasBuddy s then
    let l := digestSetBytes s.ctxs[c] step
    startTxn s 4 (.digest c) .digest c 0 l.length pkDigestSet 0 l
  else s

def parseDigestSet (l : List Byte) : DigestSetRec :=
  { step := BitVec.ofNat 64 (sliceNat l 0 8),
    ents := (List.range (sliceNat l 8 2)).map fun e =>
      (BitVec.ofNat 16 (sliceNat l (16 + 24 * e) 2), sliceNat l (20 + 24 * e) 4, BitVec.ofNat 128 (sliceNat l (24 + 24 * e) 16)) }

/-- The bytes of a digest set that must be zero are, and its count is in range (R294, Table 9.13). -/
def digestSetOk (l : List Byte) : Bool :=
  decide (sliceNat l 8 2 ≤ 256) && sliceNat l 10 6 == 0 && (List.range (sliceNat l 8 2)).all fun e => sliceNat l (18 + 24 * e) 2 == 0

/-- DIGEST_MISMATCH for a replica range (Table 15.19). -/
def replicaBytes (s : State) (q : DigestCmp) (tile : Nat) : List Byte :=
  [1, 0] ++ leBytes 3 (ownCoords s).toNat ++ leBytes 3 (neighbourCoords s 5).toNat ++ leBytes 8 q.step.toNat ++
    leBytes 2 q.lid.toNat ++ [0, 0] ++ leBytes 4 tile ++ leBytes 16 q.own.toNat ++ leBytes 16 q.peer.toNat

/-- Report a comparison that has found its tile, and end it. -/
def reportCmp (s : State) (q : DigestCmp) (tile : Nat) : State :=
  post { s with digestCmps := s.digestCmps.filter (· != q) } q.ctx mtDigest 0 0 (replicaBytes s q tile)

/-- Ask the Z- neighbour for the next tile entries of a comparison, at most 65,536 at a time. -/
def askTiles (s : State) (q : DigestCmp) : State :=
  let n := min 65536 (q.tiles - q.next)
  startTxn s 5 (.tile q.ctx) .tile q.ctx q.next n pkTileReq 16
    (leBytes 2 q.lid.toNat ++ [0, 0] ++ leBytes 4 q.next ++ leBytes 4 n ++ leBytes 4 0)

/-- LIDs whose ranges do not agree: held on one side only, or with TILES or DIGEST that differ. -/
def disagree (mine theirs : List (BitVec 16 × Nat × BitVec 128)) : List (BitVec 16) :=
  (mine.filter fun e => !theirs.contains e).map (·.1) ++ (theirs.filter fun e => !mine.contains e).map (·.1)

/-- The sets of LIDs are equal, with equal TILES (R425, R426). -/
def sameSets (a b : List (BitVec 16 × Nat)) : Bool := (a.all fun e => b.contains e) && b.all fun e => a.contains e

/-- Compare a digest set of the Z- neighbour with the own ranges of the step: on a mismatch a job fault, and for the lowest
LID the search for the first tile that differs (R425, R426). -/
def compareSet (s : State) (c : CtxId) (q : DigestSetRec) : State :=
  let x := s.ctxs[c]
  let mine := replicas x
  match disagree (mine.map fun e => (e.1, e.2.1, e.2.2.1)) q.ents with
  | [] => s
  | l :: ls =>
    let lid := ls.foldl (fun a b => if b.toNat < a.toNat then b else a) l
    let own := mine.find? fun e => e.1 == lid
    let peer := q.ents.find? fun e => e.1 == lid
    let cmp : DigestCmp :=
      { ctx := c, lid := lid, step := q.step, tiles := (own.map (·.2.1)).getD 0,
        mine := match own with
          | some e => (tilesOf x e.2.2.2).map fun t => (t.1, t.2.digest)
          | none => [],
        own := (own.map (·.2.2.1)).getD 0, peer := (peer.map (·.2.2)).getD 0, next := 0 }
    let same := sameSets (mine.map fun e => (e.1, e.2.1)) (q.ents.map fun e => (e.1, e.2.1))
    let s := raiseFault s { cause := cDigestMismatch, ctx := some c, rcd := { blankRec s with ctx := some c, step := q.step } }
    if !same then reportCmp s cmp 0xFFFFFFFF else askTiles { s with digestCmps := s.digestCmps ++ [cmp] } cmp

/-- The running step of the context is complete here (R344). -/
def stepComplete (s : State) (c : CtxId) (step : W64) : Bool :=
  match s.ctxs[c].launch with
  | some l => l.started && BitVec.ofNat 64 l.step == step && l.wave.tOwn.isSome
  | none => false

/-- DIGEST_SET: the Z- neighbour's replica digests are stored, answered, and compared once the own step is complete (R292,
R294, R425). -/
def execDigestSet (p : PortId) (f : Flit) (s : State) : Host.Outcome State Fault Refusal :=
  .next (servePage s p f pkDigestSet fun s l =>
    let c := hCtx f.hdr
    let q := parseDigestSet l
    if !digestSetOk l then answerPage s p f 1 else
    let s := answerPage s p f 0
    if stepComplete s c q.step then compareSet s c q
    else { s with digestSets := (s.digestSets.filter fun e => e.1 != c) ++ [(c, q)] })

/-- The tile entries FIRST to FIRST + COUNT - 1 of a REPLICA range, at their place in the digest area; none when the map
holds no such range or tiles (R294, R426). -/
def tileEntries (s : State) (c : CtxId) (l : List Byte) : Option (List (Nat × Nat)) :=
  let x := s.ctxs[c]
  let lid := BitVec.ofNat 16 (sliceNat l 0 2)
  let n := sliceNat l 8 4
  match (x.dmap.zip (digestOffsets x.dmap).1).find? fun e => e.1.lid == lid && e.1.replica with
  | none => none
  | some e =>
    if sliceNat l 2 2 != 0 || sliceNat l 12 4 != 0 || n == 0 || decide (65536 < n) || decide (e.1.tiles < sliceNat l 4 4 + n) then none
    else
      (List.range n).mapM fun i =>
        let a := x.darea + e.2 + 64 + 32 * (sliceNat l 4 4 + i)
        (mapped s c a).map fun r => (physOf r (a % frameBytes) true, 32)

/-- TILE_REQ: the tile entries of a digest range go back (R292, R294, R426). -/
def execTileReq (p : PortId) (f : Flit) (s : State) : Host.Outcome State Fault Refusal :=
  .next (servePage s p f pkTileReq fun s l =>
    let c := hCtx f.hdr
    match tileEntries s c l with
    | none => answerPage s p f 1
    | some ps =>
      let fs := ps.flatMap fun e => hbmFindings s.hbm e.1 e.2
      let data := ps.flatMap fun e => hbmBytes s.hbm e.1 e.2
      let s := hbmCorrected s (blankRec s) srcHbmDemand fs
      match firstBad fs with
      | some b => remoteBusError (answerPage s p f 1) srcHbmDemand b
      | none => answerPage (sendPage s p pkTileData c (hTag f.hdr) (hGen f.hdr) 0 data) p f 0)

/-- The lowest tile from `first` on whose digest differs from the neighbour's entry; an entry of another step counts as
zero (R423, R426). -/
def differingTile (q : DigestCmp) (first n : Nat) (data : Mem) : Option Nat :=
  (List.range n).findSome? fun i =>
    let own := match q.mine.find? fun t => t.1 == first + i with | some t => t.2 | none => 0
    let peer : BitVec 128 := if memNat data (32 * i + 16) 8 == q.step.toNat then BitVec.ofNat 128 (memNat data (32 * i) 16) else 0
    if own == peer then none else some (first + i)

/-- Go on with a comparison whose tile entries have come: report the tile that differs, or ask for more (R426). -/
def tilesAnswered (s : State) (t : Txn) : State :=
  match s.digestCmps.find? fun q => q.ctx == t.ctx with
  | none => s
  | some q =>
    match differingTile q t.addr t.len t.data with
    | some tile => reportCmp s q tile
    | none =>
      let q' := { q with next := t.addr + t.len }
      if q'.next < q.tiles then
        askTiles { s with digestCmps := s.digestCmps.map fun z => if z == q then q' else z } q'
      else reportCmp s q 0xFFFFFFFF

/-- TILE_DATA: tile entries that this module has asked for; the first differing tile is found and reported when the last of
them is here (R426). The answer's RESP then frees the tag. A question whose tag a halt has freed is put again
(notes/assumptions/11). -/
def execTileData (p : PortId) (f : Flit) (s : State) : Host.Outcome State Fault Refusal :=
  .next (receiveNow s (.port p) f (isPage pkTileData) fun s =>
    let s := keepData s f (· == .tile)
    if !hLast f.hdr then s
    else
      match findTxn s f.hdr with
      | some t => if t.ask == .tile then tilesAnswered s t else s
      | none => (s.digestCmps.filter fun q => !waitsFor s (.tile q.ctx)).foldl askTiles s)

/-! ## Lock-step (R428, R429) -/

def parsePassRec (l : List Byte) (at_ : Nat) : PassRecord :=
  { step := BitVec.ofNat 64 (sliceNat l 0 8), region := l.getD 8 0, cluster := l.getD 9 0, stream := l.getD 10 0,
    seq := BitVec.ofNat 16 (sliceNat l 12 2), digest := BitVec.ofNat 128 (sliceNat l 16 16), atCount := at_ }

/-- PASS_REC: the partner's pass record is stored, answered, and compared with the own record of the pass once there is one
(R294, R429). -/
def execPassRec (p : PortId) (f : Flit) (s : State) : Host.Outcome State Fault Refusal :=
  .next (servePage s p f pkPassRec fun s l =>
    let q := parsePassRec l (now s)
    if sliceNat l 11 1 != 0 || sliceNat l 14 2 != 0 then answerPage s p f 1 else
    let s := answerPage s p f 0
    match s.ownRecs.find? (samePass q) with
    | some own => lockCompare { s with ownRecs := s.ownRecs.erase own } own q
    | none => { s with peerRecs := s.peerRecs ++ [q] })

/-- LOCKSTEP_TIMEOUT: a record that has found no counterpart within the stall limit (R429). -/
def execLockstepTimeout (g : RegionId) (c : ClusterId) (i : StreamId) (seq : BitVec 16) (s : State) :
    Host.Outcome State Fault Refusal :=
  let late (r : PassRecord) : Bool :=
    r.region.toNat == g.val && r.cluster.toNat == c.val && r.stream.toNat == i.val && r.seq == seq &&
      decide (r.atCount + stallNs s < now s)
  .next (if s.ownRecs.any late || s.peerRecs.any late then
    let s := { s with ownRecs := s.ownRecs.filter (!late ·), peerRecs := s.peerRecs.filter (!late ·) }
    raiseFault s { cause := cRemoteStall, ctx := s.regions[g].ctx,
                   rcd := { regionRec s g with cluster := BitVec.ofNat 8 c.val, stream := BitVec.ofNat 2 i.val } }
  else s)

end Sys2Proof.Machine
end

