-- ==== Sys2Proof/Machine/Commit.lean ====
section
/-! DEFINITION. Steps and their commit (R328 to R352): the global count, the start of a step, the commit wave, the flip, the
abort flood as it arrives, and what ends a wave otherwise. -/

namespace Sys2Proof.Machine

/-! ## The global count (R328 to R331, R518) -/

/-- Ticks by which a correction moves the count while `n` reference ticks pass: at most one for each microsecond (R331). -/
def pacedTicks (c : CountSt) (n : Nat) : Nat := min (min c.corr.natAbs ((c.elapsed + n - c.corrAt) / 1000)) n

/-- The count after `n` reference ticks: one tick each (R328), but for those that are withheld while the count waits for the
neighbour that it is ahead of, and those that a correction adds or withholds (R331). -/
def tickCount (c : CountSt) (n : Nat) : CountSt :=
  let held := min c.ahead n
  let k := pacedTicks c (n - held)
  let up := decide (0 < c.corr)
  let base := c.count.toNat + (n - held)
  { c with on := true, count := BitVec.ofNat 64 (if up then base + k else base - k), ahead := c.ahead - held,
           elapsed := c.elapsed + n, corr := if up then c.corr - k else c.corr + k, corrAt := c.corrAt + 1000 * k }

/-- Time in which flits of a trained port wait for a credit (R310). -/
def tickPort (q : Port) (n : Nat) : Port :=
  let one (v : VcId) : Nat :=
    q.creditWait[v] + (if q.state == 2 && !(q.txq[v]).isEmpty && q.credits[v] == 0 then n else 0)
  { q with creditWait := Vector.ofFn one }

/-- The direction of the shorter way round a ring from one position to another; equal distances go the - way (R329). -/
def ringStep (src dst l : Nat) : Option Bool :=
  if src = dst then none
  else
    let d := (dst + l - src) % l
    some (decide (d < l - d))

/-- The parent's port in the alignment tree; none for the timing root (R329). -/
def parentPort (c : ImgCfg) : Option PortId :=
  match ringStep c.z c.rz c.lz with
  | some up => some (axisPort 2 up)
  | none =>
    match ringStep c.y c.ry c.ly with
    | some up => some (axisPort 1 up)
    | none => (ringStep c.x c.rx c.lx).map fun up => axisPort 0 up

/-- The neighbour to align to: the parent, or for the timing root the first aligned neighbour in port order (R330). -/
def alignPort (s : State) (aligned : BitVec 6) : Option PortId :=
  let ok (p : PortId) : Bool := trained s p && aligned.getLsbD p.val
  match parentPort s.boot.cfg with
  | some p => if ok p then some p else none
  | none => (List.finRange 6).find? ok

/-- The count has become aligned: ALIGN_WAIT clears (R489). -/
def nowAligned (s : State) (c : CountSt) : State :=
  let b := s.boot
  { s with cnt := { c with aligned := true }, boot := { b with bootfail := if b.bootfail = 0x81 then 0 else b.bootfail } }

/-- The neighbour's count has come as `target`: the count takes it and is aligned. A count that is ahead stands still instead,
for it never decreases, until an alignment finds it no longer ahead (R328, R330, notes/assumptions/44). -/
def alignTo (s : State) (p : PortId) (target : W64) : State :=
  let c := s.cnt
  if target < c.count then { s with cnt := { c with ahead := c.count.toNat - target.toNat } }
  else
    nowAligned s { c with toPort := some p, count := target, corr := 0, corrAt := c.elapsed, ahead := 0, measAt := c.elapsed }

/-- COUNT_ALIGN: the count takes the neighbour's stamp plus the link delay; the timing root with no aligned neighbour counts
as aligned on its own (R330). -/
def execCountAlign (alignedAt : BitVec 6) (stamp : W64) (delay : Nat) (s : State) : Host.Outcome State Fault Refusal :=
  .next (if s.cnt.aligned || !s.cnt.on || s.boot.phase == .off then s
  else
    match alignPort s alignedAt with
    | some p => alignTo s p (stamp + BitVec.ofNat 64 delay)
    | none => if (parentPort s.boot.cfg).isNone then nowAligned s { s.cnt with toPort := none, ahead := 0 } else s)

/-- Ticks by which an offset of `ps` picoseconds is corrected: the whole ticks in it, or one more when it holds a part of a
tick (R331, notes/assumptions/39). -/
def offsetTicks (ps : Int) : Nat :=
  ps.natAbs / 1000 + (if ps.natAbs % 1000 ≠ 0 ∧ Config.alignUp ps = true then 1 else 0)

/-- COUNT_REMEASURE: every 1 ms an aligned module measures its offset again: above 4 ns it is a job fault, else the count is
corrected by adding or withholding ticks (R331). -/
def execCountRemeasure (offsetPs : Int) (s : State) : Host.Outcome State Fault Refusal :=
  .next (if !s.cnt.aligned || s.cnt.toPort.isNone || decide (elapsed s < s.cnt.measAt + 1000000) then s
  else
    let s := { s with cnt := { s.cnt with measAt := elapsed s } }
    if 4000 < offsetPs.natAbs then moduleFault s cCountSkew
    else
      let k : Int := offsetTicks offsetPs
      { s with cnt := { s.cnt with corr := if 0 < offsetPs then -k else k, corrAt := elapsed s } })

/-- GREF_LOSS: the reference has been absent for more than 1 us after READY: the count goes on from the internal oscillator
(R518). -/
def execGrefLoss (ns : Nat) (s : State) : Host.Outcome State Fault Refusal :=
  .next (if s.boot.phase == .ready && decide (1000 < ns) then
    moduleFault { s with cnt := { s.cnt with osc := true } } cCountSkew
  else s)

/-! ## Step start (R200, R333) -/

/-- A stream at the start of a step (Table 7.1): it issues from its entry point. The registers of its last halt and its
telemetry count stay. -/
def armStream (old : Stream) (entry : BitVec 14) (step : Nat) (g : RegionId) (i : StreamId) : Stream :=
  let x := ((Stream.reset.x.set 1 (BitVec.ofNat 64 step)).set 2 (BitVec.ofNat 64 g.val)).set 3 (BitVec.ofNat 64 i.val)
  { Stream.reset with running := true, pc := entry, x := x, creditBeats := old.creditBeats, snap := old.snap }

/-- A cluster at the start of a step: its status registers read zero and its replay buffer holds nothing (R97, R103,
R144). -/
def armCluster (c : Cluster) : Cluster :=
  { c with pstat := Vector.replicate 3 0, vstat := Vector.replicate 3 0, replay := Replay.empty }

/-- A region at the start of a step (Table 7.1, R200, R213, Table 9.8, R315). -/
def armRegion (r : Region) (g : RegionId) (step : Nat) : Region :=
  { r with sdata := { mem := r.sinit, chk := [] }, writeBacks := r.writeBacks.filter (fun w => w.1 != .sdata),
           ev := Vector.replicate 64 0, evPend := Vector.replicate 64 EvPend.none, admitted := [], landed := [], lastIssue := 2,
           streams := Vector.ofFn fun i : StreamId => armStream r.streams[i] r.entry[i] step g i,
           clusters := Vector.ofFn fun c : ClusterId => armCluster r.clusters[c],
           wins := Vector.replicate 8 Window.reset, dprefs := 0, collIssued := Vector.replicate 4 0,
           collStarted := Vector.replicate 4 0 }

def Wave.reset (step : Nat) : Wave :=
  { tOwn := none, ownOk := true, phase := 0, acc := { step := BitVec.ofNat 64 step, t := 0, digest := 0, ok := true },
    got := 0, early := [] }

/-- STEP_START: at count A or S the armed step starts in every region of its context (R200, R313, R333, R351). While the input
is under voltage the launch halts there instead (R508). -/
def execStepStart (c : CtxId) (s : State) : Host.Outcome State Fault Refusal :=
  .next (match s.ctxs[c].launch with
  | none => s
  | some l =>
    if l.started || !isReady s || decide (now s < l.due) then s
    else if s.power.under then
      -- recorded in the Scree only (R409, R508)
      let r := { blankRec s with cls := clJobFault, cause := cInputUndervoltage, step := BitVec.ofNat 64 l.step }
      let a : AbortInfo := { cause := cInputUndervoltage, origin := ownCoords s, acount := now s, astep := astepOf s c,
                             all := true, own := true, hard := false, seq := none, lost := 0 }
      noteHalt (haltCtx (makeRec s r).1 c) c a
    else
      let mine (g : RegionId) : Bool := s.regions[g].ctx == some c
      let l := { l with started := true, sStep := l.due, wave := Wave.reset l.step }
      let s := { s with regions := Vector.ofFn fun g : RegionId =>
                   if mine g then armRegion s.regions[g] g l.step else s.regions[g] }
      let s := updCtx s c fun x => { x with launch := some l, halt := none, tiles := [] }
      updFab s fun f => { f with dropping := false, colls := f.colls.filter (fun k => !mine k.g),
                                 early := f.early.filter fun e => !mine e.g })

/-! ## The commit wave (R343 to R348) -/

/-- Every stream of every region of the context has issued STEPMARK (R343). -/
def stepMarked (s : State) (c : CtxId) : Bool :=
  (regionsOf s c).all fun g => (List.finRange 3).all fun i => s.regions[g].streams[i].marked

/-- Some code word of a stripe's slot in a frame is marked poisoned still; a write of all of it would have cleared the mark
(R390). -/
def slotPoisoned (h : Hbm) (frame i : Nat) : Bool :=
  h.mdata.any fun e => e.1 / 64 == frame * 512 + i && (e.2.extractLsb' 0 8 : Byte) != 0

/-- No Chrysalis stripe and no mirror stripe that the step has written is poisoned here (R344). -/
def chrysalisClean (s : State) (c : CtxId) : Bool :=
  let clean (frame : Nat) (l : Sparse Stripe) : Bool := l.all fun e =>
    !(e.2.written && e.2.poison && slotPoisoned s.hbm (frame + (if e.2.cairn then 0 else 1)) e.1)
  (s.hbm.resids.all fun r => !(r.ver && r.owner == c) || clean r.loc.frame r.stripes) &&
    s.hbm.mirrors.all fun m => m.ctx != c || clean m.frame m.stripes

def voteBytes (v : Vote) : List Byte :=
  leBytes 8 v.step.toNat ++ leBytes 8 v.t.toNat ++ leBytes 16 v.digest.toNat ++ [if v.ok then 1 else 0]

/-- Send a vote along an axis ring (R345, Tables 11.1, 11.2). -/
def sendVote (s : State) (c : CtxId) (axis : Fin 3) (plus : Bool) (hops : Nat) (v : Vote) : State :=
  sendCtrl s (axisPort axis plus) (ctrlMid ckVote c false (BitVec.ofNat 2 axis.val)) (ctrlLow hops) (voteBytes v)

/-- Combining takes OK by AND, DIGEST by XOR and T by maximum (R345). -/
def combineVote (a b : Vote) : Vote :=
  { step := a.step, t := if a.t.toNat < b.t.toNat then b.t else a.t, digest := a.digest ^^^ b.digest, ok := a.ok && b.ok }

def setWave (s : State) (c : CtxId) (w : Wave) : State :=
  updCtx s c fun x => { x with launch := x.launch.map fun l => { l with wave := w } }

/-- Votes of the other members of a ring of length `l`, combined and sent onward. -/
def takeVotes (s : State) (c : CtxId) (w : Wave) : List VoteMsg → State × Wave
  | [] => (s, w)
  | m :: ms =>
    let s := if 1 < m.hops then sendVote s c m.axis m.plus (m.hops - 1) m.vote else s
    takeVotes s c { w with acc := combineVote w.acc m.vote, got := w.got + 1 } ms

/-- Enter the phases of the wave from the present one on, as far as the votes at hand allow: each sends the vote both ways
and takes the votes of its axis that have come early (R345). -/
def enterPhases (c : CtxId) : Nat → State → Wave → State × Wave
  | 0, s, w => (s, w)
  | n + 1, s, w =>
    if h : w.phase < 3 then
      let a : Fin 3 := ⟨w.phase, h⟩
      let l := axisLen s a
      if l ≤ 1 then enterPhases c n s { w with phase := w.phase + 1, got := 0 }
      else
        let s := sendVote s c a true (ceilDiv (l - 1) 2) w.acc
        let s := if 0 < (l - 1) / 2 then sendVote s c a false ((l - 1) / 2) w.acc else s
        let (s, w) := takeVotes s c { w with got := 0, early := w.early.filter fun m => m.axis != a }
          (w.early.filter fun m => m.axis == a)
        if l - 1 ≤ w.got then enterPhases c n s { w with phase := w.phase + 1, got := 0 } else (s, w)
    else (s, w)

/-- STEP_COMPLETE: the module is step-complete: it writes its digest records, sends its replica digests, compares those that
have come, and starts the commit wave with its vote (R343 to R345, R423 to R425). -/
def execStepComplete (c : CtxId) (s : State) : Host.Outcome State Fault Refusal :=
  .next (match s.ctxs[c].launch with
  | none => s
  | some l =>
    if !l.started || l.wave.tOwn.isSome || !stepMarked s c || s.hardFault then s
    else
      let own : Vote := { step := BitVec.ofNat 64 l.step, t := s.cnt.count, digest := updateDigest s.ctxs[c],
                          ok := chrysalisClean s c }
      let w := { l.wave with tOwn := some (now s), ownOk := own.ok, acc := own }
      let s := sendDigestSet (writeRecords s c l.step) c l.step
      let (s, w) := enterPhases c 4 s w
      let s := setWave s c w
      match s.digestSets.find? fun e => e.1 == c with
      | some e =>
        let s := { s with digestSets := s.digestSets.filter fun e => e.1 != c }
        if e.2.step == BitVec.ofNat 64 l.step then compareSet s c e.2 else s
      | none => s)

/-- The vote that a flit carries, with its way. -/
def parseVote (p : PortId) (f : Flit) : VoteMsg :=
  let l := f.payload
  { axis := ⟨(hAxis f.hdr).toNat % 3, by omega⟩, plus := !portPlus p, hops := hHops f.hdr,
    vote := { step := BitVec.ofNat 64 (sliceNat l 0 8), t := BitVec.ofNat 64 (sliceNat l 8 8),
              digest := BitVec.ofNat 128 (sliceNat l 16 16), ok := (l.getD 32 0).getLsbD 0 } }

/-- VOTE: a vote arrives; one of another step is a job fault, and one that is ahead of its phase is kept (R345). A module in
HARD_FAULT takes part in no wave (R412). -/
def execVote (p : PortId) (f : Flit) (s : State) : Host.Outcome State Fault Refusal :=
  .next (receiveNow s (.port p) f (isCtrl ckVote) fun s =>
    let c := hCctx f.hdr
    let m := parseVote p f
    match s.ctxs[c].launch with
    | none => s
    | some l =>
      if s.hardFault then s
      else if m.vote.step != BitVec.ofNat 64 l.step then
        raiseFault s { cause := cStepMismatch, ctx := some c, rcd := { blankRec s with ctx := some c, step := BitVec.ofNat 64 l.step } }
      else
        let w := l.wave
        if w.tOwn.isSome && m.axis.val == w.phase then
          let (s, w) := takeVotes s c w [m]
          let (s, w) :=
            if axisLen s m.axis - 1 ≤ w.got then enterPhases c 4 s { w with phase := w.phase + 1, got := 0 } else (s, w)
          setWave s c w
        else setWave s c { w with early := w.early ++ [m] })

/-- K of R345 for the combined vote. -/
def waveBound (s : State) (w : Wave) : Nat := w.acc.t.toNat + 1000 * diameter s.boot.cfg

/-- F of R346. -/
def flipCount (s : State) (w : Wave) : Nat := waveBound s w + 4000

/-- The combined vote of a finished wave of the running step of a context. -/
def finishedWave (s : State) (c : CtxId) : Option (Launch × Wave) :=
  match s.ctxs[c].launch with
  | some l => if l.started && l.wave.tOwn.isSome && decide (3 ≤ l.wave.phase) then some (l, l.wave) else none
  | none => none

/-- X_s of a stream at a count (R375). -/
def holdTicks (st : Stream) (count : Nat) : Nat :=
  st.xs + (match st.heldFrom with | some t => count - t | none => 0)

/-- e_k of R376. -/
def externalDelay (s : State) (c : CtxId) (w : Wave) : Nat :=
  let late (g : RegionId) (i : StreamId) : Nat :=
    s.regions[g].streams[i].xs - 1000 * (s.regions[g].budget[i].hops)
  let x := (regionsOf s c).foldl (fun m g => (List.finRange 3).foldl (fun m i => max m (late g i)) m) 0
  w.acc.t.toNat - w.tOwn.getD 0 + x

/-- A stripe at the flip: what the step wrote becomes the Cairn and leaves its former Cairn as prior (R346). -/
def Stripe.flip (t : Stripe) : Stripe :=
  { cairn := if t.written then !t.cairn else t.cairn, written := false, flipped := t.written, poison := false }

/-- The flip of every versioned page of a context and of the mirror of the same context (R346). -/
def flipHbm (h : Hbm) (c : CtxId) (step : W64) : Hbm :=
  { h with resids := h.resids.map (fun r => if r.ver && r.owner == c then { r with stripes := mapStripes Stripe.flip r.stripes } else r),
           mirrors := h.mirrors.map (fun m => if m.ctx == c then { m with stripes := mapStripes Stripe.flip m.stripes } else m),
           mirrorStep := h.mirrorStep.set c step, mirrorPrior := h.mirrorPrior.set c true }

/-- FLIP: at count F the Chrysalis becomes the Cairn, COMMIT is sent, and the launch goes on to its next step, or ends: after
its last step, or in the halt that an ABORT of the next step has left waiting (R335, R346, R352, R376). -/
def execFlip (c : CtxId) (s : State) : Host.Outcome State Fault Refusal :=
  .next (match finishedWave s c with
  | none => s
  | some (l, w) =>
    let f := flipCount s w
    if !w.acc.ok || decide (now s < f) || s.hardFault then s
    else
      let step := BitVec.ofNat 64 l.step
      let e := externalDelay s c w
      let s := updHbm s fun h => flipHbm h c step
      let l := { l with ext := l.ext + e, lastFlip := some l.step }
      let s := updCtx s c fun x => { x with cairnStep := step, priorValid := true, launch := some l }
      let s := post s c mtCommit 0 0 (leBytes 8 l.step ++ leBytes 8 f ++ leBytes 16 w.acc.digest.toNat ++ leBytes 8 e)
      let last := decide (l.s0 + l.n ≤ l.step + 1)
      let s := if last then endLaunch s c 0x0000 else s
      match s.ctxs[c].waits with
      | a :: rest =>
        let s := updCtx s c fun x => { x with waits := rest }
        sendFault (noteHalt (haltCtx s c) c a) c a
      | [] =>
        if last then s
        else
          let next := { l with step := l.step + 1, started := false, due := f + 1000 * diameter s.boot.cfg + 2000,
                               wave := Wave.reset (l.step + 1) }
          updCtx s c fun x => { x with launch := some next })

/-- COMMIT_REFUSED: at count K of a wave whose combined OK is 0 the context halts; only a module whose own vote refused makes
a record and says that it raised the fault (R347). -/
def execCommitRefused (c : CtxId) (s : State) : Host.Outcome State Fault Refusal :=
  .next (match finishedWave s c with
  | none => s
  | some (l, w) =>
    let k := waveBound s w
    if w.acc.ok || decide (now s < k) || s.hardFault then s
    else
      let step := BitVec.ofNat 64 l.step
      let (s, seq) : State × Option (BitVec 16) :=
        if w.ownOk then (s, none)
        else
          let (s, r) := makeRec s { blankRec s with cls := clJobFault, cause := cCommitRefused, ctx := some c, step := step }
          (s, some r.seq)
      let a : AbortInfo := { cause := cCommitRefused, origin := ownCoords s, acount := k, astep := step, all := false,
                             own := !w.ownOk, hard := false, seq := seq, lost := 0 }
      sendFault (noteHalt (haltCtx s c) c a) c a)

/-- WAVE_TIMEOUT: a module that has voted has not finished the wave by its wave deadline (R348). -/
def execWaveTimeout (c : CtxId) (s : State) : Host.Outcome State Fault Refusal :=
  .next (match s.ctxs[c].launch with
  | none => s
  | some l =>
    match l.wave.tOwn with
    | none => s
    | some t =>
      if l.wave.phase < 3 && decide (t + 1000 * diameter s.boot.cfg + stallNs s ≤ now s) then
        raiseFault s { cause := cWaveTimeout, ctx := some c,
                       rcd := { blankRec s with ctx := some c, step := BitVec.ofNat 64 l.step } }
      else s)

/-! ## The abort flood as it arrives (R350 to R352) -/

/-- What an ABORT flit says. -/
def parseAbort (f : Flit) : AbortInfo :=
  let l := f.payload
  { cause := BitVec.ofNat 16 (sliceNat l 4 2), origin := BitVec.ofNat 24 (sliceNat l 0 3), acount := sliceNat l 8 8,
    astep := BitVec.ofNat 64 (sliceNat l 16 8), all := hAllCtx f.hdr, own := false, hard := false, seq := none, lost := 0 }

/-- The key has been seen within the last 1 ms (R350). -/
def seenAbort (s : State) (a : AbortInfo) (c : CtxId) : Bool :=
  s.fab.seen.any fun e => e.1 == a.origin && e.2.1 == a.acount && e.2.2.1 == c && decide (now s ≤ e.2.2.2 + 1000000)

/-- Act on an ABORT for one context (Table 11.3): halt it, or let it flip first when the ABORT is of the step after the running
one; what a halt does then waits for the flip. The flag says that a FAULT message is due. -/
def abortCtx (s : State) (c : CtxId) (a : AbortInfo) : State × Bool :=
  match s.ctxs[c].launch, s.ctxs[c].halt with
  | some l, h =>
    if l.started && a.astep == BitVec.ofNat 64 (l.step + 1) then (updCtx s c fun x => { x with waits := x.waits ++ [a] }, false)
    else
      match h with
      | none => (noteHalt (haltCtx s c) c a, true)
      | some h =>
        let (h, due) := furtherAbort h a (now s)
        (updCtx (haltCtx s c) c fun x => { x with halt := some h }, due)
  | none, some h =>
    let (h, due) := furtherAbort h a (now s)
    (updCtx s c fun x => { x with halt := some h }, due)
  | none, none =>
    -- the mirror held for the neighbour's context follows its owner (R341)
    if s.hbm.mirrorStep[c] + 1 == a.astep then
      (updHbm s fun h => { h with mirrors := h.mirrors.map fun m =>
        if m.ctx == c then { m with stripes := mapStripes Stripe.discard m.stripes } else m }, false)
    else (s, false)

/-- The ASTEP under which Table 11.3 applies to a context that an ALLCTX abort does not name (R349). -/
def otherStep (s : State) (c : CtxId) : W64 :=
  match s.ctxs[c].launch with
  | some l => BitVec.ofNat 64 l.step
  | none => astepOf s c

/-- Act on an ABORT: for its context, and with ALLCTX for each other context that is busy or halted (R349, R351, R352). -/
def abortAll (s : State) (c : CtxId) (a : AbortInfo) : State :=
  let others := if a.all then (List.finRange 4).filter fun d => d != c && (busy s d || s.ctxs[d].halt.isSome) else []
  let (s, due) := abortCtx s c a
  let (s, due) := others.foldl (fun (e : State × Bool) d =>
    let (s, x) := abortCtx e.1 d { a with astep := otherStep e.1 d }
    (s, e.2 || x)) (s, due)
  if due then sendFault s c a else s

/-- ABORT_RECEIVE: an ABORT arrives: one whose key has been seen is discarded, a new one is forwarded on every other trained
port and acted on (R350 to R352). A module in HARD_FAULT forwards it and does no more (R412). -/
def execAbortReceive (p : PortId) (f : Flit) (s : State) : Host.Outcome State Fault Refusal :=
  .next (receiveNow s (.port p) f (isCtrl ckAbort) fun s =>
    let c := hCctx f.hdr
    let a := parseAbort f
    if seenAbort s a c then s
    else
      let s := noteSeen s a.origin a.acount c
      let s := floodAbort s ((trainedPorts s).filter (· != p)) c a
      if s.hardFault then s else abortAll s c a)

/-- LOST_FAULTS_REPORT: 1 ms after the last ABORT beyond the 16th, one further FAULT message describes it and carries the
count of lost faults (R351). -/
def execLostFaultsReport (c : CtxId) (s : State) : Host.Outcome State Fault Refusal :=
  .next (match s.ctxs[c].halt with
  | none => s
  | some h =>
    if h.lost = 0 || h.reported || decide (now s < h.lastAt + 1000000) then s
    else
      let a : AbortInfo := { cause := h.lastCause, origin := h.lastOrigin, acount := h.lastCount,
                             astep := BitVec.ofNat 64 h.lastStep, all := h.lastAll, own := false, hard := false, seq := none,
                             lost := h.lost }
      sendFault (updCtx s c fun x => { x with halt := some { h with reported := true } }) c a)

end Sys2Proof.Machine
end

