-- ==== Sys2Proof/Machine/Paging.lean ====
section
/-! DEFINITION. The page engine (R253 to R272, R336): residencies made and unmade, lenders and buddy asked and released,
migrations, and the copies of versioned pages between a module and its buddy's mirror (R356). -/

namespace Sys2Proof.Machine

/-! ## Lenders and the buddy -/

/-- Lend block (Table 9.12). -/
def lendBlock (pages flags caddr : Nat) : List Byte := leBytes 4 pages ++ leBytes 4 flags ++ leBytes 8 caddr

/-- Frames of lenders that go back, by port and by the context they were granted for. -/
abbrev Frees := List (PortId × CtxId × Nat)

/-- One LEND_FREE to each lender and context, for all the frames it gets back (R291). -/
def sendFrees (s : State) (who : Who) (l : Frees) : State :=
  (List.finRange 6).foldl (fun s p =>
    (List.finRange 4).foldl (fun s c =>
      let fs := (l.filter fun e => e.1 == p && e.2.1 == c).map fun e => e.2.2
      if fs.isEmpty then s
      else startTxn s p who .free c 0 0 pkLendFree 16 (lendBlock fs.length 0 0 ++ fs.flatMap (leBytes 4))) s) s

/-- The lender's frame of a place in T2. -/
def freesOf (l : Loc) : Frees :=
  match l.tier, portOfTgt l.port.toNat with
  | .t2, some p => [(p, l.lentTo, l.frame)]
  | _, _ => []

/-- The buddy gives up the mirror of one versioned page (R294, R336). -/
def freeMirror (s : State) (who : Who) (c : CtxId) (page : Nat) : State :=
  if hasBuddy s then startTxn s 4 who .free c 0 0 pkLendFree 16 (lendBlock 1 1 (page * frameBytes)) else s

/-! ## Tables and mappings -/

/-- The page engine carries out a page operation: it waits for a lender's answer or moves a residency (R269). -/
def pageBusy (s : State) : Bool :=
  ((List.finRange 4).any fun c => s.host.rings[c].lend.isSome) || s.hbm.resids.any fun r => r.mig.isSome

/-- Enter a command in the order of arrival; of commands that arrive in one tick the lower context index comes first (R269). -/
def arriveAt (x : Nat × CtxId) : List (Nat × CtxId) → List (Nat × CtxId)
  | [] => [x]
  | y :: l => if y.1 < x.1 || (y.1 == x.1 && decide (y.2.val ≤ x.2.val)) then y :: arriveAt x l else x :: y :: l

/-- Whether the page operation at the head of a context's ring may run now: the engine is free and no operation has come before
it. One that may not takes its place in the order of arrival (R269). In HARD_FAULT none waits: each is rejected (R441). -/
def pageTurn (s : State) (c : CtxId) : State × Bool :=
  if s.hardFault || (s.pageQ.isEmpty && !pageBusy s) then (s, true)
  else
    let q := if s.pageQ.any fun e => e.2 == c then s.pageQ else arriveAt (now s, c) s.pageQ
    if !pageBusy s && (q.head?.map (·.2)) == some c then ({ s with pageQ := q.drop 1 }, true)
    else ({ s with pageQ := q }, false)

def residAt (s : State) (c : CtxId) (page : Nat) : Option Resid :=
  match ovGet s.ctxs[c].pages page with
  | some id => residById s.hbm id
  | none => none

/-- Give a context `n` more frames for its tables (R257). -/
def growTables (c : CtxId) : Nat → State → Option State
  | 0, s => some s
  | n + 1, s =>
    match allocFrame s with
    | none => none
    | some (f, s) =>
      growTables c n (updCtx (updHbm s fun h => hbmZero h (f * frameBytes) frameBytes) c fun x => { x with tables := x.tables ++ [f] })

/-- The table frames that a context lacks for its mappings and the pages `more`. -/
def tablesLacking (s : State) (c : CtxId) (more : List Nat) : Nat :=
  tablePages s.ctxs[c] more - s.ctxs[c].tables.length

/-- A page leaves the translation caches of a context's regions (R270). -/
def dropCached (s : State) (c : CtxId) (page : Nat) : State :=
  { s with regions := Vector.ofFn fun g : RegionId =>
      if s.regions[g].ctx == some c then { s.regions[g] with tcache := s.regions[g].tcache.filter (·.1 != page) } else s.regions[g] }

/-- Enter a residency in a context's tables. -/
def mapIn (s : State) (c : CtxId) (page id : Nat) : State :=
  syncResid (makeTabs (updCtx s c fun x => { x with pages := ovPut x.pages page id }) c page) id

def ctxBit (c : CtxId) : BitVec 4 := (1 : BitVec 4) <<< c.val

/-- Remove a context's mapping of a page: its hold ends, and a residency that no context maps any more is freed (Table 9.6,
R266, R336). -/
def unmapPage (s : State) (c : CtxId) (page : Nat) : State × Frees :=
  match residAt s c page with
  | none => (s, [])
  | some r =>
    let s := syncLeaf (dropCached (updCtx s c fun x => { x with pages := ovDel x.pages page }) c page) c page
    let s := updHbm s fun h => updResid h r.id fun q => { q with holds := q.holds &&& ~~~(ctxBit c) }
    if (mappers s r.id).isEmpty then
      let s := updHbm s fun h => { h with resids := h.resids.filter fun q => q.id != r.id }
      let s := if r.ver then freeMirror s (.host c) c page else s
      (s, freesOf r.loc ++ (match r.evicting with | some l => freesOf l | none => []))
    else (syncResid s r.id, [])

/-- Forget the poison of the pool's words from byte `a` on. -/
def poolClear (h : Hbm) (a n : Nat) : Hbm := { h with poolBad := h.poolBad.filter fun w => !(a ≤ 64 * w && 64 * w < a + n) }

/-- Make a residency for a page of a context, filled with zeros (Table 9.6, MAP). `frames`: the frames a lender has granted
and those not yet used. -/
def makeResid (s : State) (c : CtxId) (page : Nat) (l : Loc) (ver hostvis : Bool) : State :=
  let id := s.hbm.nextId
  let r : Resid := { id := id, owner := c, loc := l, ver := ver, hostvis := hostvis, holds := 0, evicting := none, psn := false,
                     mig := none, stripes := [] }
  let s := updHbm s fun h =>
    let h := match l.tier with
      | .t1 => hbmZero h (l.frame * frameBytes) (if ver then 2 * frameBytes else frameBytes)
      | .t2 => h
      | .t3 => poolClear { h with pool := memZero h.pool (l.frame * frameBytes) frameBytes } (l.frame * frameBytes) frameBytes
    { h with resids := h.resids ++ [r], nextId := id + 1 }
  mapIn s c page id

/-! ## Migration (R268, R270 to R272) -/

/-- Bytes of a page request. -/
def reqBytes : Nat := 16384

/-- Ask the lender for the next part of a page that leaves T2. -/
def pumpMig (s : State) (id : Nat) : State :=
  match residById s.hbm id with
  | none => s
  | some r =>
    match r.mig, portOfTgt r.loc.port.toNat with
    | some m, some p =>
      if r.loc.tier == .t2 && decide (m.got < frameBytes) then
        startTxn s p (.page id) .read r.loc.lentTo m.got reqBytes pkRdReq 16
          (addrBlock (r.loc.frame * frameBytes + m.got) reqBytes spLent)
      else s
    | _, _ => s

/-- A part of a page that leaves T2 has come. -/
def takeMig (s : State) (id : Nat) (data : Mem) : State :=
  pumpMig (updHbm s fun h => updResid h id fun q =>
    { q with mig := q.mig.map fun m => { m with moved := memPutBytes m.moved m.got (memBytes data 0 reqBytes), got := m.got + reqBytes } })
    id

/-- A migration begins (R270). -/
def startMig (s : State) (id : Nat) (dst : Loc) : State :=
  pumpMig (syncResid (updHbm s fun h => updResid h id fun q =>
    { q with mig := some { dst := dst, moved := [], got := 0, late := [] } }) id) id

/-- `n` bytes of one memory from `a`, laid over those of another at `b`. -/
def memMove (src : Mem) (a : Nat) (dst : Mem) (b n : Nat) : Mem :=
  ((src.filter fun e => a ≤ e.1 && e.1 < a + n).map fun e => (e.1 - a + b, e.2)).foldl (fun m e => memPut m e.1 e.2)
    (spClear dst b (b + n))

/-- A frame of HBM as it reads: corrected words as corrected, uncorrectable ones as stored. -/
def frameImage (h : Hbm) (frame : Nat) : Mem :=
  let a := frame * frameBytes
  (hbmFindings h a frameBytes).foldl (fun m f =>
    if f.2.isBad then m else memPutBytes m (64 * f.1 - a) (leBytes 64 (hbmCheck h f.1).2.toNat)) (memMove h.mem a [] 0 frameBytes)

/-- Bytes written to a page since its migration began, laid over the bytes copied. -/
def overlay (m : Mem) (late : Sparse Byte) : Mem := late.foldl (fun q e => memPut q e.1 e.2) m

/-- What a residency holds. -/
def residImage (s : State) (r : Resid) (m : Mig) : Mem :=
  match r.loc.tier with
  | .t1 => frameImage s.hbm r.loc.frame
  | .t2 => overlay m.moved m.late
  | .t3 => memMove s.hbm.pool (r.loc.frame * frameBytes) [] 0 frameBytes

/-- Records of uncorrectable words that a copy carries: CLASS UNCORRECTABLE and no job fault (R389, R405, Table 13.5). -/
def carried (s : State) (fs : List (Nat × Finding)) : State :=
  (fs.filter fun f => f.2.isBad).foldl (fun s f =>
    let (s, r) := hbmPoisoned s (blankRec s) srcHbmPoisonIn f
    noteBad s r) s

/-- The poison of words of a page, by word within the page, at the page's new place: a frame of T1, or a page of the pool (R389).
A request to a lender has no field for it (notes/assumptions/20). -/
def poisonAt (h : Hbm) (dst : Loc) (ws : List Nat) : Hbm :=
  match dst.tier with
  | .t1 => ws.foldl (fun h w => poisonWord h (dst.frame * frameBytes / 64 + w)) h
  | .t2 => h
  | .t3 => { h with poolBad := h.poolBad ++ ws.map (dst.frame * frameBytes / 64 + ·) }

/-- The words of a residency that carry poison, by word within its page. -/
def residBad (s : State) (r : Resid) : List Nat :=
  let a := r.loc.frame * frameBytes
  match r.loc.tier with
  | .t1 => ((hbmFindings s.hbm a frameBytes).filter fun f => f.2.isBad).map fun f => f.1 - a / 64
  | .t2 => []
  | .t3 => (s.hbm.poolBad.filter fun w => a / 64 ≤ w && w < (a + frameBytes) / 64).map (· - a / 64)

/-- Write a page to its new place. -/
def putPage (s : State) (id : Nat) (dst : Loc) (img : Mem) : State :=
  match dst.tier, portOfTgt dst.port.toNat with
  | .t1, _ =>
    updHbm s fun h =>
      let h := hbmZero h (dst.frame * frameBytes) frameBytes
      { h with mem := memMove img 0 h.mem (dst.frame * frameBytes) frameBytes }
  | .t2, some p =>
    (List.range (frameBytes / reqBytes)).foldl (fun s i =>
      startTxn s p (.page id) .write dst.lentTo (i * reqBytes) reqBytes pkWrReq 16
        (addrBlock (dst.frame * frameBytes + i * reqBytes) reqBytes spLent ++ memBytes img (i * reqBytes) reqBytes)) s
  | .t2, none => s
  | .t3, _ => updHbm s fun h =>
    poolClear { h with pool := memMove img 0 h.pool (dst.frame * frameBytes) frameBytes } (dst.frame * frameBytes) frameBytes

/-- The copy of a page has come as far as its last stripe. -/
def migReady (r : Resid) (m : Mig) : Bool := r.loc.tier != .t2 || decide (frameBytes ≤ m.got)

/-- The context of an operation that a transaction serves, if the address in it is one of that context. -/
def whoCtx (s : State) : Who → Option CtxId
  | .chan g _ => s.regions[g].ctx
  | .solver g => s.regions[g].ctx
  | .feed g _ => s.regions[g].ctx
  | .host c => some c
  | _ => none

/-- An access that has translated to a residency's frames waits for its lender (R270). -/
def accessed (s : State) (id : Nat) : Bool :=
  let its (who : Who) (ask : Ask) (a : Nat) : Bool := (ask == .read || ask == .write) &&
    (match whoCtx s who with
     | some c => ovGet s.ctxs[c].pages (a / frameBytes) == some id
     | none => false)
  (s.fab.txns.any fun t => its t.who t.ask t.addr) || s.fab.waiting.any fun w => its w.who w.ask w.addr

/-- MIGRATION_COMPLETE: after the last stripe every mapping's leaf entry switches in one step, its translation-cache entries
go, and the old frames are freed (R270, R389); it waits for the accesses to the page that are under way
(notes/assumptions/78). A page request that a halt has cut off is made again (notes/assumptions/11). -/
def execMigrationComplete (id : Nat) (s : State) : Host.Outcome State Fault Refusal :=
  .next (match residById s.hbm id with
  | none => s
  | some r =>
    match r.mig with
    | none => s
    | some m =>
      if s.hardFault then s
      else if !migReady r m then (if waitsFor s (.page id) then s else pumpMig s id)
      else if accessed s id then s
      else
        let fs := if r.loc.tier == .t1 then hbmFindings s.hbm (r.loc.frame * frameBytes) frameBytes else []
        let img := residImage s r m
        let bad := residBad s r
        let s := carried (hbmCorrected s (blankRec s) srcHbmDemand fs) fs
        let s := putPage s id m.dst img
        let s := updHbm s fun h => poisonAt (updResid h id fun q => { q with loc := m.dst, mig := none, psn := false }) m.dst bad
        let s := syncResid s id
        let s := (List.finRange 4).foldl (fun s c =>
          (s.ctxs[c].pages.filter fun e => e.2 == id).foldl (fun s e => dropCached s c e.1) s) s
        sendFrees s (.page id) (freesOf r.loc))

/-- PENDING_EVICTION: the last hold has ended and no mapping context is busy: the eviction begins, charged against the page
reserved for it (R268, R271). -/
def execPendingEviction (id : Nat) (s : State) : Host.Outcome State Fault Refusal :=
  .next (match residById s.hbm id with
  | none => s
  | some r =>
    match r.evicting with
    | none => s
    | some dst =>
      if s.hardFault || pageBusy s || r.holds != 0 || (mappers s id).any (busy s) then s
      else startMig (updHbm s fun h => updResid h id fun q => { q with evicting := none }) id dst)

/-! ## Versioned pages and their mirrors (R356) -/

/-- Bytes of the versioned Cairn of a context. -/
def cairnBytes (s : State) (c : CtxId) : Nat := (versionedPages s c).length * frameBytes

/-- The page and the offset in it of byte `n` of the versioned Cairn. -/
def cairnAt (s : State) (c : CtxId) (n : Nat) : Option (Nat × Resid × Nat) :=
  ((versionedPages s c)[n / frameBytes]?).map fun e => (e.1, e.2, n % frameBytes)

/-- Physical pieces of `n` bytes of a versioned page's Cairn from an offset. -/
def cairnPieces (r : Resid) (off n : Nat) : List (Nat × Nat) :=
  (stripePieces (n / 4096 + 2) off n).map fun e => (physOf r e.1 false, e.2)

/-- Ask the buddy for the next part of its mirror Cairn. -/
def pumpRestore (s : State) (c : CtxId) : State :=
  match s.restoring[c] with
  | none => s
  | some r =>
    match cairnAt s c r.got with
    | none => { s with restoring := s.restoring.set c (some { r with own := true }) }
    | some (page, _, off) =>
      startTxn s 4 (.restore c) .read c (page * frameBytes + off) reqBytes pkRdReq 16
        (addrBlock (page * frameBytes + off) reqBytes spCairn)

/-- Write a part of the buddy's mirror Cairn over the own Cairn, and ask for the next (R356, R390). -/
def takeRestore (s : State) (c : CtxId) (a : Nat) (data : Mem) : State :=
  match residAt s c (a / frameBytes) with
  | none => s
  | some r =>
    let s := ((cairnPieces r (a % frameBytes) reqBytes).foldl (fun (e : State × Nat) p =>
      (updHbm e.1 fun h => hbmWrite h p.1 (memBytes data e.2 p.2), e.2 + p.2)) (s, 0)).1
    pumpRestore { s with restoring := s.restoring.set c (s.restoring[c].map fun r => { r with got := r.got + reqBytes }) } c

/-- Send the buddy the next part of the own versioned Cairn, for the mirror it holds (R356); an uncorrectable word in it is
HARD_FAULT (R411). -/
def sendRebuild (s : State) (c : CtxId) : State :=
  match s.hbm.rebuild[c] with
  | none => s
  | some n =>
    match cairnAt s c n with
    | none => updHbm s fun h => { h with rebuild := h.rebuild.set c none }
    | some (page, r, off) =>
      let ps := cairnPieces r off reqBytes
      let fs := ps.flatMap fun e => hbmFindings s.hbm e.1 e.2
      let data := ps.flatMap fun e => hbmBytes s.hbm e.1 e.2
      let s := hbmCorrected s (blankRec s) srcHbmDemand fs
      match firstBad fs with
      | some b =>
        let (s, q) := hbmPoisoned s (blankRec s) srcHbmDemand b
        raiseFault s { cause := cBusError, ctx := some c, rcd := q }
      | none =>
        startTxn (updHbm s fun h => { h with rebuild := h.rebuild.set c (some (n + reqBytes)) }) 4 (.rebuild c) .write c
          (page * frameBytes + off) reqBytes pkWrReq 16 (addrBlock (page * frameBytes + off) reqBytes spCairn ++ data)

/-- Go on with the copy of the own Cairn into the buddy's mirror. Before a page's first part, LEND_REQ with MIRROR = 1 reserves
its mirror there, which a buddy that holds it keeps (R294, notes/assumptions/42, 71). -/
def pumpRebuild (s : State) (c : CtxId) : State :=
  match s.hbm.rebuild[c] with
  | none => s
  | some n =>
    match cairnAt s c n with
    | some (page, _, 0) => startTxn s 4 (.rebuild c) (.lend true) c 0 0 pkLendReq 16 (lendBlock 1 1 (page * frameBytes))
    | _ => sendRebuild s c

/-- Begin to copy the own Cairn into the mirror that the Z+ neighbour holds. -/
def startRebuild (s : State) (c : CtxId) : State :=
  pumpRebuild (updHbm s fun h => { h with rebuild := h.rebuild.set c (some 0) }) c

/-- The request that waits in a port's receive buffer until its context is not busy. -/
def takeHeldRebuild (s : State) (p : PortId) (f : Flit) : Option State :=
  if s.ports[p].held[(7 : Fin 8)].contains f then
    some (giveCredit (updPort s p fun q => { q with held := q.held.set (7 : Fin 8) (q.held[(7 : Fin 8)].erase f) }) (.port p) 7)
  else none

/-- MIRROR_REBUILD: the Z+ neighbour restores itself and asks for its mirror of a context again; the request is answered
when that context is not busy, and waits until then (R356). A rebuild whose request a halt has cut off goes on
(notes/assumptions/11). -/
def execMirrorRebuild (p : PortId) (f : Flit) (s : State) : Host.Outcome State Fault Refusal :=
  let c := hCctx f.hdr
  .next (if (s.hbm.rebuild[c]).isSome && !waitsFor s (.rebuild c) then pumpRebuild s c
  else match takeHeldRebuild s p f with
  | some s' => if busy s c || s.hardFault then s else startRebuild s' c
  | none =>
    receive s (.port p) f (isCtrl ckRebuild) fun s =>
      if s.hardFault || p != 4 then giveCredit s (.port p) 7
      else if busy s c then updPort s p fun q => { q with held := q.held.set (7 : Fin 8) (q.held[(7 : Fin 8)] ++ [f]) }
      else startRebuild (giveCredit s (.port p) 7) c)

end Sys2Proof.Machine
end

