-- ==== Sys2Proof/Machine/Timing.lean ====
section
/-! DEFINITION. The timing promise (R358 to R376): worst beat times from the delay monitors, the admission bound, and the
faults of a breach. -/

namespace Sys2Proof.Machine

/-! ## Domains (Table 1.6)

The model numbers the switched domains: 5 g to 5 g + 4 are those of logical region g (those of disabled regions come last
below 320), 320 + 9 d to 320 + 9 d + 8 those of die d, 356 + p that of port p, and 362 that of the host port. -/

/-- The region that a domain belongs to. -/
def domainRegion (s : State) (d : Nat) : Option RegionId :=
  if h : d / 5 < 64 then (if d / 5 < nreg s then some ⟨d / 5, h⟩ else none) else none

/-- The domain is powered (R30, R510, Tables 16.11 and 17.3): those of enabled regions, of dies and of HBM controllers while
stage 5 has put them on, D0's fabric and the host port from stage 1, and powered ports. -/
def domainOn (s : State) (d : Nat) : Bool :=
  if d < 320 then s.power.fabricOn && (domainRegion s d).isSome
  else if h : 356 ≤ d ∧ d < 362 then s.ports[d - 356].powered
  else if d = 320 ∨ d = 362 then s.boot.phase != .off
  else s.power.fabricOn

/-- The die that carries a domain (Table 1.5, R26). -/
def domainDie (s : State) (d : Nat) : Nat :=
  if d < 320 then (match domainRegion s d with | some g => dieOf s g | none => 0)
  else if d < 356 then (d - 320) / 9
  else if d < 362 then (d - 356) / 2 + 1
  else 0

/-! ## Worst beat time (R360 to R363) -/

/-- FP64 constants of R360. -/
def f64One : W64 := 0x3FF0000000000000
def f64115 : W64 := 0x405CC00000000000

/-- The resolution guards 2 ps and 8 ps, in ns (R361, R362). -/
def epsStartup : W64 := 0x3F60624DD2F1A9FC
def epsRunning : W64 := 0x3F80624DD2F1A9FC

def add64 (a b : W64) : W64 := toF64 (Val.add (f64 a) (f64 b))
def sub64 (a b : W64) : W64 := toF64 (Val.sub (f64 a) (f64 b))
def mul64 (a b : W64) : W64 := toF64 (Val.mul (f64 a) (f64 b))

/-- An FP64 number of nanoseconds in whole picoseconds, rounded up; none when it is not finite. -/
def ceilPs (w : W64) : Option Nat :=
  match f64 w with
  | .fin false m e =>
    match e with
    | .ofNat k => some (m * 2 ^ k * 1000)
    | .negSucc k => some (ceilDiv (m * 1000) (2 ^ (k + 1)))
  | .fin true _ _ => some 0
  | _ => none

/-- One ring's term of R360, in the order of its operations as written (notes/assumptions/39). -/
def ringBeat (alpha : W32) (k p t eps : W64) : W64 :=
  add64 (mul64 (mul64 k p) (add64 f64One (mul64 (toF64 (f32 alpha)) (sub64 f64115 t)))) eps

/-- t_w(d) in ps; none when a reading gives no finite number. -/
def worstBeat (alpha : W32) (d : Nat) (m : DomainMeas) (eps : W64) : Option Nat :=
  ((List.range 4).mapM fun r =>
    match m.periods[r]? with
    | some p => ceilPs (ringBeat alpha (Config.ringRatio d r) p m.temp eps)
    | none => none).map fun (l : List Nat) => l.foldl max 0

/-- The largest t_w allowed, 0.660 ns (R363). -/
def beatLimit : Nat := 660

/-- t_w(g) in ps: the largest of the region's five domains (R364). -/
def regionBeat (s : State) (g : RegionId) : Nat :=
  (List.range 5).foldl (fun m k => max m (s.boot.tw.getD (5 * g.val + k) 0)) 0

/-! ## Admission (R364, R370, R371) -/

/-- t_adm(g) in 1/256 ps. -/
def admBeat (s : State) (g : RegionId) : Nat := regionBeat s g * (256 + s.boot.cfg.guard)

/-- The background share q in 1/1,024 (Table 12.2). -/
def bgShare (c : ImgCfg) : Nat := c.shMothSp + c.shCal + c.shMirror + c.shMothHbm + 41

/-- W_s and R_s of R370. -/
def boundBeats (c : ImgCfg) (b : Budget) : Nat :=
  let w := b.stepBeats + b.nseg * c.rb * b.lmax
  let q := bgShare c
  w + ceilDiv (q * (w + 1024)) (1024 - q)

/-- B_s in ns, rounded up (R370). -/
def streamBound (c : ImgCfg) (tadm : Nat) (b : Budget) : Nat :=
  ceilDiv (tadm * boundBeats c b) 256000 + 1000 * b.hops

/-- U of R371 for a context, at the beat times of now. -/
def stepBound (s : State) (c : CtxId) : Nat :=
  (regionsOf s c).foldl (fun m g =>
    (List.finRange 3).foldl (fun m i => max m (streamBound s.boot.cfg (admBeat s g) s.regions[g].budget[i])) m) 0

/-- PROMISE of R371. -/
def promiseOf (s : State) (a n u : Nat) : Nat :=
  let d := diameter s.boot.cfg
  a + n * (u + 2000 * d + 6000) - (1000 * d + 2000)

/-! ## Faults -/

/-- A fault of a power domain: of its region's context, or of none (R349). -/
def domainFault (s : State) (d : Nat) (cause : Cause) : State :=
  match domainRegion s d with
  | some g => regionFault s g cause
  | none => raiseFault s { cause := cause, ctx := none, rcd := { blankRec s with die := BitVec.ofNat 8 (domainDie s d) } }

/-- A recalibrated domain is slower than an admission that runs on it (R365). -/
def drifted (s : State) (d : Nat) (tw : Nat) : Bool :=
  match domainRegion s d with
  | some g => match s.regions[g].tadm, s.regions[g].ctx with
    | some t, some c => busy s c && decide (t < tw * 256)
    | _, _ => false
  | none => false

/-- RECALIBRATION: the window of a domain ends: its new t_w replaces the old one, and is checked (R360, R362, R363, R365). -/
def execRecalibration (d : Fin 363) (m : DomainMeas) (s : State) : Host.Outcome State Fault Refusal :=
  .next (if s.boot.phase != .ready || !domainOn s d.val then s
  else
    match worstBeat s.boot.cfg.alpha d.val m epsRunning with
    | none => domainFault s d.val cBeatLimit
    | some tw =>
      let drift := drifted s d.val tw
      let s := { s with boot := { s.boot with tw := s.boot.tw.set d.val tw } }
      let s := if beatLimit < tw then domainFault s d.val cBeatLimit else s
      if drift then domainFault s d.val cMonitorDrift else s)

/-- RAIL_FLOOR: a core rail below V_floor - 10 mV for more than 1 us (R359, R349). -/
def execRailFloor (d : DieId) (mv ns : Nat) (s : State) : Host.Outcome State Fault Refusal :=
  .next (if running s && decide (mv < 690) && decide (1000 < ns) then
    raiseFault s { cause := cRailFloor, ctx := none, rcd := { blankRec s with die := BitVec.ofNat 8 d.val } }
  else s)

/-- The count by which a stream must have ended its step (R375). -/
def streamDue (s : State) (g : RegionId) (i : StreamId) (l : Launch) (tadm : Nat) : Nat :=
  let b := s.regions[g].budget[i]
  l.sStep + streamBound s.boot.cfg tadm b + (holdTicks s.regions[g].streams[i] (now s) - 1000 * b.hops)

/-- PROMISE_OVERRUN: a stream has not issued the SEGMENT with END that follows its STEPMARK by its stream bound (R375). -/
def execPromiseOverrun (g : RegionId) (i : StreamId) (s : State) : Host.Outcome State Fault Refusal :=
  let r := s.regions[g]
  .next (match r.ctx, r.tadm with
  | some c, some t =>
    match s.ctxs[c].launch with
    | some l =>
      if l.started && !(r.streams[i].marked && r.streams[i].ended) && decide (streamDue s g i l t < now s) then
        streamFault s g i cPromiseOverrun
      else s
    | none => s
  | _, _ => s)

end Sys2Proof.Machine
end

