-- ==== Sys2Proof/Machine/Views.lean ====
section
/-! DEFINITION. What the host reads in BAR0 (Tables 15.3 to 15.8 and 15.23), as a function of the state, and the two status
pins (R519). Reading a register changes nothing but where a command of its own says so (GCOUNT, MDROP). -/

namespace Sys2Proof.Machine

/-- GRADE of ID0 (Table 18.9). -/
def gradeCode : Grade → Byte
  | .a => 0x0A
  | .b => 0x0B
  | .c => 0x0C

/-- ID0 (Table 15.4). -/
def regId0 (s : State) : W64 :=
  (0 : BitVec 16) ++ gradeCode s.fuses.grade ++ BitVec.ofNat 8 (nreg s) ++ s.fuses.silicon ++ (0x4C34 : BitVec 16)

/-- IMGVER (Table 15.4). -/
def regImgver (s : State) : W64 :=
  s.boot.imageVer ++ s.fuses.romVer ++ (0 : Byte) ++ BitVec.ofBool s.boot.slotB ++ BitVec.ofBool s.boot.cosigned ++ (0 : BitVec 6)

/-- TOPO (Table 15.4). -/
def regTopo (s : State) : W64 :=
  let c := s.boot.cfg
  let five (n : Nat) : BitVec 5 := BitVec.ofNat 5 n
  (0 : BitVec 34) ++ five (c.lx - 1) ++ five (c.ly - 1) ++ five (c.lz - 1) ++ five c.x ++ five c.y ++ five c.z

/-- A bit for each context that satisfies a condition, context 0 lowest. -/
def ctxBits (f : CtxId → Bool) : BitVec 4 :=
  BitVec.ofBool (f 3) ++ BitVec.ofBool (f 2) ++ BitVec.ofBool (f 1) ++ BitVec.ofBool (f 0)

/-- BOOTFAIL as shown: a terminal or waiting code before the image code (R489). -/
def bootfailShown (s : State) : Byte := if s.boot.bootfail = 0 then s.boot.imageCode else s.boot.bootfail

/-- STATUS (Table 15.5). -/
def regStatus (s : State) : W64 :=
  (0 : BitVec 40) ++ ctxBits (busy s) ++ ctxBits (fun c => s.ctxs[c].opened) ++ bootfailShown s ++ BitVec.ofBool s.test.isSome ++
    BitVec.ofBool s.debug ++ BitVec.ofBool s.boot.sealBroken ++ BitVec.ofBool s.boot.jumper ++
    BitVec.ofBool s.presence.isOpen ++ BitVec.ofBool s.cnt.aligned ++ BitVec.ofBool s.hardFault ++ BitVec.ofBool (isReady s)

/-- ERRSUM (Table 15.6). -/
def regErrsum (s : State) : W64 :=
  let n := (s.scree.slots.filter fun e => match e with | some r => unacked r | none => false).length
  s.scree.lost ++ BitVec.ofNat 8 n ++ (0 : BitVec 20) ++ BitVec.ofBool s.host.dbOverrun ++ BitVec.ofBool s.host.hdmDenied ++
    BitVec.ofBool s.host.nestedSeen ++ BitVec.ofBool s.host.uncorrSeen

/-- REMAIN of PRESENCE: whole seconds left in the window, 0xFFFF with the jumper (Table 15.6). -/
def presenceLeft (s : State) : BitVec 16 :=
  if !s.presence.isOpen then 0
  else if s.presence.byJumper then 0xFFFF
  else BitVec.ofNat 16 ((s.presence.till - elapsed s) / 1000000000)

/-- PRESENCE (Table 15.6). -/
def regPresence (s : State) : W32 :=
  (0 : BitVec 15) ++ BitVec.ofBool (s.presence.isOpen && s.presence.byJumper) ++ presenceLeft s

/-- PORTST of a port (Table 15.23). -/
def regPortst (s : State) (p : PortId) : W64 :=
  let q := s.ports[p]
  (0 : BitVec 32) ++ q.state ++ BitVec.ofBool q.pv ++ (0 : BitVec 5) ++ q.px ++ q.py ++ q.pz ++ q.pport ++ (0 : BitVec 6)

/-- CHEAD of a context block (Table 15.8). -/
def regChead (s : State) (c : CtxId) : W32 := (s.host.rings[c].head).setWidth 32

/-- MRSIZE and MRCTL of a context block (Table 15.8). -/
def regMrsize (s : State) (c : CtxId) : W32 := (s.host.rings[c].mrsize).setWidth 32

def regMrctl (s : State) (c : CtxId) : W32 :=
  let r := s.host.rings[c]
  (0 : BitVec 23) ++ BitVec.ofBool r.en ++ (0 : BitVec 5) ++ r.vec

/-! ### Reads of BAR0 (R10, R436, R487) -/

/-- BAR0 and the memory window answer: the module has power and the host port has trained (R487). -/
def hostUp (s : State) : Bool := s.boot.phase != .off && s.host.trained

/-- A word of a context block (Table 15.8); DB is write-only and reads as zero. -/
def ringWord (s : State) (c : CtxId) (off : Nat) : W32 :=
  let r := s.host.rings[c]
  match off with
  | 0x04 => regChead s c
  | 0x08 => r.mrbase.extractLsb' 0 32
  | 0x0C => r.mrbase.extractLsb' 32 32
  | 0x10 => regMrsize s c
  | 0x14 => regMrctl s c
  | 0x18 => r.mrhead
  | 0x1C => r.mrtail
  | 0x20 => r.mdrop
  | _ => 0

/-- A register outside the context blocks, by the offset of its first word (Table 15.3); RST is write-only and reads as zero, as
every reserved offset does. -/
def barReg (s : State) (off : Nat) : W64 :=
  match off with
  | 0x00 => regId0 s
  | 0x08 => s.fuses.serial
  | 0x10 => regImgver s
  | 0x18 => regTopo s
  | 0x20 => regStatus s
  | 0x28 => s.cnt.count
  | 0x30 => regErrsum s
  | 0x38 => (regPresence s).setWidth 64
  | 0x48 => s.host.tlmbase
  | 0x50 => s.host.msimod.setWidth 64
  | _ => if h : 0x60 ≤ off ∧ off < 0x90 then regPortst s ⟨(off - 0x60) / 8, by omega⟩ else 0

/-- The 32-bit word at a BAR0 offset; none until the host port has trained. What else a read of GCOUNT or MDROP does, their
commands give. -/
def barRead (s : State) (off : Nat) : Option W32 :=
  if !hostUp s then none
  else if h : 0x100 ≤ off ∧ off < 0x200 then some (ringWord s ⟨(off - 0x100) / 0x40, by omega⟩ (off % 0x40))
  else some ((barReg s (off - off % 8)).extractLsb' (8 * (off % 8)) 32)

/-! ### Configuration space (R431, R487, R528) -/

/-- SUBSYSTEM ID of a grade (Table 18.9). -/
def subsystemId : Grade → BitVec 16
  | .a => 0x000A
  | .b => 0x000B
  | .c => 0x000C

/-- How the host port answers a configuration request: with configuration-request-retry status until it has trained (R487). -/
inductive CfgReply where
  | retry
  | word (v : W32)
  deriving DecidableEq, Repr

/-- The words of the configuration header that the manual gives: vendor and device ID, the addresses of BAR0, BAR2 and BAR4, and
the subsystem IDs, at the places of the PCI header (notes/assumptions/77). -/
def cfgWord (s : State) (off : Nat) : W32 :=
  let b := s.host.pci.bars
  match off with
  | 0x00 => 0x4C341F5C
  | 0x10 => b[0].extractLsb' 0 32
  | 0x14 => b[0].extractLsb' 32 32
  | 0x18 => b[1].extractLsb' 0 32
  | 0x1C => b[1].extractLsb' 32 32
  | 0x20 => b[2].extractLsb' 0 32
  | 0x24 => b[2].extractLsb' 32 32
  | 0x2C => subsystemId s.fuses.grade ++ (0x1F5C : BitVec 16)
  | _ => 0

def cfgRead (s : State) (off : Nat) : CfgReply := if hostUp s then .word (cfgWord s off) else .retry

/-- The pending-bit array of MSI-X: a vector whose message is due. -/
def msixPending (s : State) (v : Fin 8) : Bool := s.host.msix[v].due

/-- BOOTFAIL holds a terminal code exactly when start-up or a trip has ended in a terminal failure (R490). -/
def terminal (s : State) : Bool := s.boot.phase == .terminal

/-- READY_N is driven low (R519). -/
def readyPin (s : State) : Bool := isReady s

/-- FAULT_N is driven low (R519). -/
def faultPin (s : State) : Bool := s.hardFault || terminal s

end Sys2Proof.Machine
end

