-- ==== Sys2Proof/Machine/Startup.lean ====
section
/-! DEFINITION. Configuration memory, image verification and start-up (R467 to R491): the choice of a slot, the checks of Table
16.10, the stages of Table 16.11, READY, terminal failures, module reset and fundamental reset. -/

namespace Sys2Proof.Machine

/-! ## The configuration memory (R467, Table 16.2) -/

/-- A byte of the main array; an erased byte reads as 0xFF. -/
def flashByte (f : Flash) (a : Nat) : Byte := spGet (0xFF : Byte) f.main a

/-- `n` bytes of the main array from `a`. -/
def flashBytes (f : Flash) (a n : Nat) : List Byte := (List.range n).map fun i => flashByte f (a + i)

/-- `n` bytes of a security register from `a`. -/
def secBytes (f : Flash) (i a n : Nat) : List Byte :=
  (List.range n).map fun k => (f.sec.getD i []).getD (a + k) 0xFF

/-- Bytes of one slot. -/
def slotSize : Nat := 2 ^ 25

/-- First byte of a slot. -/
def slotBase (b : Bool) : Nat := if b then slotSize else 0

/-- The security register that holds a slot's record. -/
def slotSec (b : Bool) : Nat := if b then 1 else 0

/-! ### Slot records (Table 16.3) -/

/-- The first 16 bytes of a complete record. -/
def recordHead (stamp len : Nat) : List Byte :=
  [0x53, 0x4C, 0x4F, 0x54] ++ leBytes 4 stamp ++ leBytes 4 len ++ [0xA5, 0, 0, 0]

/-- A complete record. -/
def slotRecord (stamp len : Nat) : List Byte :=
  recordHead stamp len ++ shake256 (recordHead stamp len) 32 ++ List.replicate 16 0

/-- MAGIC, STATE and CHECK of a record hold (R471). -/
def slotComplete (f : Flash) (b : Bool) : Bool :=
  let l := secBytes f (slotSec b) 0 48
  l.take 4 == [0x53, 0x4C, 0x4F, 0x54] && l.getD 12 0 == 0xA5 && l.drop 16 == shake256 (l.take 16) 32

def slotStamp (f : Flash) (b : Bool) : W32 := BitVec.ofNat 32 (leNat (secBytes f (slotSec b) 4 4))

def slotLen (f : Flash) (b : Bool) : Nat := leNat (secBytes f (slotSec b) 8 4)

/-- Stamp `x` is newer than stamp `y` (R472, R474). -/
def stampNewer (x y : W32) : Bool := x != y && decide ((x - y).toNat < 2 ^ 31)

/-- The slots in the order in which boot tries them (R472). -/
def slotOrder (f : Flash) : List Bool :=
  if slotComplete f false && slotComplete f true then
    (if stampNewer (slotStamp f true) (slotStamp f false) then [true, false] else [false, true])
  else [false, true].filter (slotComplete f)

/-! ### Writing a slot (R473) -/

/-- Program bytes of the main array. -/
def flashProgram (m : List Host.Cell) : Nat → List Byte → List Host.Cell
  | _, [] => m
  | a, b :: rest => flashProgram (spPut (0xFF : Byte) m a b) (a + 1) rest

/-- A security register that holds `l` and is erased beyond it. -/
def secHolding (l : List Byte) : List Byte := l ++ List.replicate (1024 - l.length) 0xFF

/-- The slot's record is erased: the slot is invalid from here on. -/
def flashInvalidate (f : Flash) (b : Bool) : Flash := { f with sec := f.sec.set (slotSec b) (secHolding []) }

/-- An image written into a slot whose record has been erased: only the sectors that the image needs are erased. -/
def flashImage (f : Flash) (b : Bool) (l : List Byte) : Flash :=
  let base := slotBase b
  { flashInvalidate f b with main := flashProgram (spClear f.main base (base + ceilDiv l.length 65536 * 65536)) base l }

/-- The complete record of a slot. -/
def flashRecord (f : Flash) (b : Bool) (len : Nat) (stamp : W32) : Flash :=
  { f with sec := f.sec.set (slotSec b) (secHolding (slotRecord stamp.toNat len)) }

/-! ### The owner block (Table 16.4) -/

/-- A copy is valid when MAGIC holds and DIGEST is correct (R474). -/
def ownerValid (f : Flash) (i : Nat) : Bool :=
  let l := secBytes f (2 + i) 0 200
  l.take 4 == [0x4F, 0x57, 0x4E, 0x42] && l.drop 136 == shake256 (l.take 136) 64

def ownerSeq (f : Flash) (i : Nat) : W32 := BitVec.ofNat 32 (leNat (secBytes f (2 + i) 4 4))

/-- The copy in force, if any (R474). -/
def ownerCopy (f : Flash) : Option Nat :=
  match ownerValid f 0, ownerValid f 1 with
  | true, true => some (if stampNewer (ownerSeq f 1) (ownerSeq f 0) then 1 else 0)
  | true, false => some 0
  | false, true => some 1
  | false, false => none

/-- A key of all zeros is absent (R474). -/
def keyOf (l : List Byte) : Option (List Byte) := if l.all (· == 0) then none else some l

/-- The enrolled owner key and the previous one (R474). -/
def ownerKeys (f : Flash) : Option (List Byte) × Option (List Byte) :=
  match ownerCopy f with
  | some i => (keyOf (secBytes f (2 + i) 8 57), keyOf (secBytes f (2 + i) 72 57))
  | none => (none, none)

/-! ## Verification (R477 to R483) -/

abbrev Reason := BitVec 3

def rsRecord : Reason := 1
def rsHeader : Reason := 2
def rsTable : Reason := 3
def rsRom : Reason := 4
def rsVendor : Reason := 5
def rsOwner : Reason := 6
def rsField : Reason := 7

def allZero (l : List Byte) (a n : Nat) : Bool := (sliceBytes l a n).all (· == 0)

def imgTotal (l : List Byte) : Nat := sliceNat l 8 4
def imgSigoff (l : List Byte) : Nat := imgTotal l - 320

/-- Check 2: the header (Table 16.5) and TOTAL against the length of the record. -/
def headerOk (l : List Byte) (len : Nat) : Bool :=
  let t := imgTotal l
  l.take 4 == [0x43, 0x48, 0x53, 0x4B] && sliceNat l 4 2 == 1 && sliceNat l 6 2 == 0x100 && t % 64 == 0 && decide (1024 ≤ t) &&
    decide (t ≤ slotSize) && t == len && sliceNat l 16 4 == t - 320 && sliceNat l 22 2 == 9 && allZero l 24 40

/-- Offset and length of a section, from its entry (Table 16.6). -/
def secOff (l : List Byte) (i : Nat) : Nat := sliceNat l (64 + 16 * i + 4) 4
def secLen (l : List Byte) (i : Nat) : Nat := sliceNat l (64 + 16 * i + 8) 4

/-- LENGTH of each section (Table 16.7). -/
def secWant (l : List Byte) (i : Nat) : Nat :=
  if i = 0 then 64 + ceilDiv (sliceNat l (secOff l 0 + 4) 4) 64 * 64 else if i = 4 then 128 else 64

/-- Entry `i` of the section table holds. -/
def entryOk (l : List Byte) (i : Nat) : Bool :=
  sliceNat l (64 + 16 * i) 2 == i + 1 && allZero l (64 + 16 * i + 2) 2 && allZero l (64 + 16 * i + 12) 4 &&
    secOff l i % 64 == 0 && decide (256 ≤ secOff l i) && decide (secOff l i + secLen l i ≤ imgSigoff l) && secLen l i == secWant l i

/-- Check 3: the section table (R478). -/
def tableOk (l : List Byte) : Bool :=
  (List.range 9).all (entryOk l) && allZero l (64 + 144) 48 &&
    (List.range 9).all fun i => (List.range i).all fun j =>
      decide (secOff l i + secLen l i ≤ secOff l j) || decide (secOff l j + secLen l j ≤ secOff l i)

/-- The digest that the signatures of an image cover (R480). -/
def imgDigest (l : List Byte) : List Byte := shake256 (l.take (imgSigoff l)) 64

/-- `n` bytes of the signature block from `a` (Table 16.9). -/
def sigBytes (l : List Byte) (a n : Nat) : List Byte := sliceBytes l (imgSigoff l + a) n

/-- Check 5: the vendor key and signature (R480). -/
def vendorOk (fu : Fuses) (l : List Byte) : Bool :=
  shake256 (sigBytes l 0 57) 64 == leBytes 64 fu.vendorHash.toNat &&
    edVerify (sigBytes l 0 57) (ascii "VLB-LX4-IMAGE") (imgDigest l) (sigBytes l 64 114)

/-- COSIGN. -/
def cosign (l : List Byte) : Byte := (sigBytes l 178 1).getD 0 0

/-- The owner key that the image names. -/
def imgKey (l : List Byte) : List Byte := sliceBytes l (secOff l 8) 57

/-- The owner co-signature verifies under a key. -/
def cosignedBy (l : List Byte) (k : List Byte) : Bool :=
  edVerify k (ascii "VLB-LX4-OWNER") (imgDigest l) (sigBytes l 192 114)

/-- Check 6: the owner rule (R482). -/
def ownerOk (k p : Option (List Byte)) (l : List Byte) : Bool :=
  let key := imgKey l
  let named := (keyOf key).isSome
  match k with
  | some k =>
    cosign l == 1 && ((named && cosignedBy l k) || (key == k && (match p with | some p => cosignedBy l p | none => false)))
  | none =>
    (cosign l == 1 && named && cosignedBy l key) || (cosign l == 0 && !named && (keyOf (sigBytes l 192 114)).isNone)

/-- The bytes of a section. -/
def section_ (l : List Byte) (i : Nat) : List Byte := sliceBytes l (secOff l i) (secLen l i)

/-- `n` 32-bit words of a section from byte `a`. -/
def words4 (l : List Byte) (a n : Nat) : List Nat := (List.range n).map fun i => sliceNat l (a + 4 * i) 4

/-- The fields of Table 16.8. -/
def imgCfg (l : List Byte) : ImgCfg :=
  let cal := section_ l 1
  let t := section_ l 2
  let p := section_ l 3
  let q := section_ l 4
  let m := section_ l 5
  let b (s : List Byte) (i : Nat) : Nat := sliceNat s i 1
  { alpha := BitVec.ofNat 32 (sliceNat cal 0 4), preset := (List.range 6).map fun i => b cal (4 + i),
    x := b t 0, y := b t 1, z := b t 2, lx := b t 3, ly := b t 4, lz := b t 5, rx := b t 6, ry := b t 7, rz := b t 8,
    bx := b t 9, bY := b t 10, bz := b t 11, plimit := sliceNat p 0 2, ilimit := b p 2, slew := b p 3, lead := sliceNat p 4 2,
    qT1 := words4 q 0 4, qT2 := words4 q 16 4, qT3 := words4 q 32 4, lend := sliceNat q 48 4, lendBw := b q 52,
    t3Rate := b q 53, t3Lat := sliceNat q 56 4, chmin := (List.range 12).map fun i => b q (60 + i), rb := b m 0,
    landDepth := b m 1, guard := b m 2, shMothSp := b m 3, shCal := b m 4, shMirror := b m 5, shMothHbm := b m 6,
    stallLimit := sliceNat m 8 4, mothHbm := b (section_ l 6) 0, digestInterval := sliceNat (section_ l 6) 2 2,
    lockEnable := b (section_ l 7) 0 == 1, lockAxis := b (section_ l 7) 1, ownerKey := imgKey l }

def within (v lo hi : Nat) : Bool := decide (lo ≤ v) && decide (v ≤ hi)

/-- Every field lies in its range (Table 16.8). -/
def rangesOk (l : List Byte) (c : ImgCfg) : Bool :=
  let boot := section_ l 0
  let codelen := sliceNat boot 4 4
  let entry := sliceNat boot 8 4
  within codelen 1 (boot.length - 64) && decide (entry < codelen) && entry % 4 == 0 && decide (c.alpha.toNat ≤ 0x3B83126F) &&
    (c.preset.all fun v => decide (v ≤ 10)) && within c.lx 1 32 && within c.ly 1 32 && within c.lz 1 32 &&
    decide (c.x < c.lx) && decide (c.y < c.ly) && decide (c.z < c.lz) && decide (c.rx < c.lx) && decide (c.ry < c.ly) &&
    decide (c.rz < c.lz) && within c.plimit 1000 8000 && within c.ilimit 20 180 && within c.slew 5 40 && within c.lead 5 1000 &&
    (c.qT1.all fun v => decide (v ≤ 1572864)) && (c.qT2.all fun v => decide (v ≤ 2 ^ 31)) &&
    (c.qT3.all fun v => decide (v ≤ 2 ^ 31)) && decide (c.lend ≤ 1572864) && decide (c.lendBw ≤ 8) && within c.t3Rate 1 60 &&
    within c.t3Lat 1000 100000 && (c.chmin.all fun v => within v 1 64) && decide (c.rb ≤ 15) && within c.landDepth 1 64 &&
    decide (c.guard ≤ 64) && within c.shMothSp 1 64 && within c.shCal 1 16 && decide (c.shMirror ≤ 128) &&
    within c.shMothHbm 1 64 && within c.stallLimit 1 600000 && within c.mothHbm 1 168 &&
    decide (sliceNat (section_ l 7) 0 1 ≤ 1) && decide (c.lockAxis ≤ 2)

/-- The reserved bytes of every section but BOOT, and the zero bytes of the signature block, are zero (R9, R479). -/
def reservedZero (l : List Byte) : Bool :=
  allZero (section_ l 1) 10 54 && allZero (section_ l 2) 12 52 && allZero (section_ l 3) 6 58 && allZero (section_ l 4) 54 2 &&
    allZero (section_ l 4) 72 56 && allZero (section_ l 5) 7 1 && allZero (section_ l 5) 12 52 && allZero (section_ l 6) 1 1 &&
    allZero (section_ l 6) 4 60 && allZero (section_ l 7) 2 62 && allZero (section_ l 8) 57 7 &&
    (sigBytes l 57 7).all (· == 0) && (sigBytes l 179 13).all (· == 0) && (sigBytes l 306 14).all (· == 0)

def axisLenOf (c : ImgCfg) (a : Nat) : Nat := if a = 0 then c.lx else if a = 1 then c.ly else c.lz

/-- The cross-checks of R483, with those of R260 and R427. -/
def crossOk (c : ImgCfg) : Bool :=
  (if 2 ≤ c.lz then c.bx == c.x && c.bY == c.y && c.bz == (c.z + 1) % c.lz else c.bx == 0xFF && c.bY == 0xFF && c.bz == 0xFF) &&
    decide (ceilDiv c.ilimit c.slew + 1 ≤ c.lead) && decide (c.qT1.sum + c.lend ≤ 1572864) && decide (c.chmin.sum ≤ 256) &&
    (if c.lockEnable then axisLenOf c c.lockAxis == 2 && decide (c.lx * c.ly * c.lz ≤ 512) else c.lockAxis == 0)

/-- The checks of Table 16.10 from the second on: the reason of the first that fails, or none. -/
def imageReason (fu : Fuses) (k p : Option (List Byte)) (l : List Byte) (len : Nat) : Option Reason :=
  if !headerOk l len then some rsHeader
  else if !tableOk l then some rsTable
  else if fu.romVer.toNat < sliceNat l 20 2 then some rsRom
  else if !vendorOk fu l then some rsVendor
  else if !ownerOk k p l then some rsOwner
  else if !(rangesOk l (imgCfg l) && reservedZero l && crossOk (imgCfg l)) then some rsField
  else none

/-! ## The choice of a slot (R472) -/

/-- The image of a slot as boot reads it: as many bytes as its record says, within the slot. -/
def slotImage (f : Flash) (b : Bool) : List Byte := flashBytes f (slotBase b) (min (slotLen f b) slotSize)

/-- The reason that verification gives the image of a slot; none when it passes (R481). -/
def slotReason (fu : Fuses) (f : Flash) (b : Bool) : Option Reason :=
  imageReason fu (ownerKeys f).1 (ownerKeys f).2 (slotImage f b) (slotLen f b)

/-- The first slot that passes, and the reasons of those before it. -/
def firstSlot (f : Flash) : List (Bool × Option Reason) → List (Bool × Reason) → Option (Bool × List Byte) × List (Bool × Reason)
  | [], acc => (none, acc)
  | (b, none) :: _, acc => (some (b, slotImage f b), acc)
  | (b, some e) :: rest, acc => firstSlot f rest (acc ++ [(b, e)])

/-- Try slots in order: the first that passes, and what each tried slot's reason is (R472). -/
def trySlots (fu : Fuses) (f : Flash) (order : List Bool) (acc : List (Bool × Reason)) :
    Option (Bool × List Byte) × List (Bool × Reason) :=
  firstSlot f (order.map fun b => (b, slotReason fu f b)) acc

/-- The reasons that boot finds without reading a slot: an incomplete record (R472). -/
def recordReasons (f : Flash) : List (Bool × Reason) := ([false, true].filter fun b => !slotComplete f b).map fun b => (b, rsRecord)

/-- The image code of Table 16.12: the reason of slot A in bits [5:3], of slot B in bits [2:0]; zero when no slot failed. -/
def imageCodeOf (l : List (Bool × Reason)) : Byte :=
  let of (b : Bool) : Reason := match l.find? fun e => e.1 == b with | some e => e.2 | none => 0
  if l.isEmpty then 0 else (1 : BitVec 2) ++ of false ++ of true

/-! ## BOOTFAIL codes (Table 16.12) -/

def bfRail : Byte := 0x01
def bfFlash : Byte := 0x02
def bfCalibration : Byte := 0x03
def bfHbmTraining : Byte := 0x04
def bfMemoryInit : Byte := 0x05
def bfThermal : Byte := 0x06
def bfInput : Byte := 0x07
def bfFuse : Byte := 0x08
def bfPortWait : Byte := 0x80
def bfAlignWait : Byte := 0x81

/-! ## Terminal failure (R490) -/

/-- A port whose domain is off: STATE shows it, the identity that the partner sent stays (Table 15.23). -/
def portOff (q : Port) : Port := { Port.reset with pv := q.pv, px := q.px, py := q.py, pz := q.pz, pport := q.pport }

/-- A terminal failure: every domain but D0's core and the host port goes off, and what it held with it; no descriptor is
fetched; the code stays until a module reset or power-off. -/
def terminate (s : State) (code : Byte) : State :=
  let s := moveEnvelope ((busyCtxs s).foldl (fun s c => haltCtx s c) s)
  { s with boot := { s.boot with phase := .terminal, bootfail := code }, ports := Vector.ofFn fun p : PortId => portOff s.ports[p],
           regions := Vector.replicate 64 Region.reset,
           hbm := { Hbm.reset with pool := s.hbm.pool, poolBad := s.hbm.poolBad }, fab := Fabric.reset,
           test := none, restoring := Vector.replicate 4 none,
           power := { s.power with fabricOn := false, launch := 0, dies := s.power.dies.map takeOver, trip := none,
                                   throttled := false } }

/-! ## The stages of start-up (Table 16.11) -/

/-- t_w of every domain (R361): zero for one that is off; none when a ring does not run or a beat time is above the limit. -/
def calibrate (s : State) (meas : List DomainMeas) : Option (List Nat) :=
  (List.range 363).mapM fun d =>
    if !domainOn s d then some 0
    else
      match meas[d]? with
      | none => none
      | some m =>
        match worstBeat s.boot.cfg.alpha d m epsStartup with
        | some t => if t ≤ beatLimit then some t else none
        | none => none

/-- Stage 5: the sections of the image apply, and the domains of regions, dies and of ports on axes of length 2 or more are
powered (R32, R510, Table 16.11). -/
def applyImage (s : State) (slotB : Bool) (l : List Byte) : State :=
  let s := { s with boot := { s.boot with slotB := slotB, imageVer := BitVec.ofNat 32 (sliceNat l 12 4), cosigned := cosign l == 1,
                                          measured := l.take (imgSigoff l), cfg := imgCfg l } }
  let port (p : PortId) : Port :=
    if 2 ≤ axisLen s (axisOf p) then { s.ports[p] with powered := true, state := 1 } else s.ports[p]
  { s with ports := Vector.ofFn port, power := { s.power with fabricOn := true } }

/-- Stage 2: the configuration memory answers, and both owner copies are read (R469, R474). -/
def flashStage (s : State) (env : BootEnv) : State :=
  if !env.inputOk then terminate s bfInput
  else if !env.flashOk then terminate s bfFlash
  else { s with boot := { s.boot with ownerK := (ownerKeys s.flash).1, ownerP := (ownerKeys s.flash).2 } }

/-- Stages 3 and 4: the slots are read and verified in the order of R472 (R481, R489). -/
def verifyStage (s : State) : State :=
  let (pick, reasons) := trySlots s.fuses s.flash (slotOrder s.flash) (recordReasons s.flash)
  let code := imageCodeOf reasons
  let s := { s with boot := { s.boot with imageCode := code } }
  match pick with
  | none => terminate s code
  | some (b, _) => { s with boot := { s.boot with pick := some b } }

/-- Stage 5, with the slot that passed. -/
def domainStage (s : State) (env : BootEnv) : State :=
  match s.boot.pick with
  | none => terminate s s.boot.imageCode
  | some b =>
    let s := applyImage s b (slotImage s.flash b)
    if env.domainsOk then s else terminate s bfRail

/-- Stage 6 (R361). -/
def monitorStage (s : State) (env : BootEnv) : State :=
  match calibrate s env.meas with
  | none => terminate s bfCalibration
  | some tw => { s with boot := { s.boot with tw := tw } }

/-- Stage 8, after which stage 9 begins (R485). -/
def memoryStage (s : State) (env : BootEnv) : State :=
  if !env.initOk then terminate s bfMemoryInit
  else if !env.coolOk then terminate s bfThermal
  else
    { s with boot := { s.boot with phase := .linking, env := none, stage9 := elapsed s,
                                   trainedAt := if allTrained s then some (elapsed s) else none } }

/-- The work of a stage of Table 16.11, at its end. -/
def stageWork (s : State) (env : BootEnv) (k : Nat) : State :=
  match k with
  | 2 => flashStage s env
  | 3 => s
  | 4 => verifyStage s
  | 5 => domainStage s env
  | 6 => monitorStage s env
  | 7 => if env.hbmOk then s else terminate s bfHbmTraining
  | _ => memoryStage s env

/-- The stage under way ends, and the next one begins (R484). How long a stage lasts the module does not fix; here each ends at
the next COUNT_TICK (notes/assumptions/76). -/
def endStage (s : State) : State :=
  match s.boot.env with
  | none => s
  | some env =>
    let t := stageWork s env s.boot.stage
    if t.boot.phase == .starting then { t with boot := { t.boot with stage := s.boot.stage + 1 } } else t

/-- Stage 2 begins, in a module whose registers and stores hold their reset values (R484, R491). -/
def beginStages (s : State) (env : BootEnv) : State :=
  { s with boot := { s.boot with phase := .starting, stage := 2, env := some env } }

/-- COUNT_TICK: `n` nanoseconds of the reference pass (R310, R328, R331); the stage of start-up that is under way ends. -/
def execCountTick (n : Nat) (s : State) : Host.Outcome State Fault Refusal :=
  .next (if s.boot.phase == .off then s
  else
    let s := { s with cnt := tickCount s.cnt n, ports := Vector.ofFn fun p : PortId => tickPort s.ports[p] n }
    if s.boot.phase == .starting then endStage s else s)

/-! ## POWER_ON -/

/-- The module with its input gone: every value that it held is lost (R509). What lies outside its power stays: the fuses, the
configuration memory, the address straps, and the memories of the host and of the pool. -/
def powerLost (s : State) : State :=
  { State.reset with pending := s.pending, fuses := s.fuses, flash := s.flash, hostMem := s.hostMem, freeCtr := s.freeCtr,
                     hbm := { Hbm.reset with pool := s.hbm.pool, poolBad := s.hbm.poolBad },
                     i3c := { State.reset.i3c with straps := s.i3c.straps } }

/-- POWER_ON: the input rises above 46 V: stage 1 raises the rails of D0, detects the reference, reads the fuses, and senses the
seal and the jumper; then stages 2 to 8 follow (R328, R457, R460, R470, R484). -/
def execPowerOn (mv : Nat) (env : BootEnv) (s : State) : Host.Outcome State Fault Refusal :=
  .next (if s.boot.phase != .off || decide (mv ≤ 46000) then s
  else
    let s := powerLost s
    let s := { s with flash := env.device.getD s.flash, cnt := { s.cnt with on := true }, power := { s.power with volts := mv },
                      boot := { s.boot with sealBroken := !env.sealed, jumper := env.jumper } }
    if !env.railOk then terminate s bfRail
    else if !env.inputOk then terminate s bfInput
    else if !env.fuseOk then terminate s bfFuse
    else beginStages s env)

/-! ## READY, PORT_WAIT, ALIGN_WAIT, HOST_PORT_TRAINING -/

/-- READY message (Table 15.19). -/
def readyBytes (s : State) : List Byte :=
  leBytes 8 (regStatus s).toNat ++ leBytes 8 (regImgver s).toNat ++ leBytes 8 s.boot.readyAt

/-- PRESENCE_WINDOW message (Table 15.19). -/
def sayPresence (s : State) (isOpen jumper : Bool) (remain : Nat) : State :=
  postEnabled s mtPresence ([BitVec.ofNat 8 isOpen.toNat, BitVec.ofNat 8 jumper.toNat] ++ leBytes 2 remain)

/-- The jumper's window opens at READY (R457). -/
def openJumper (s : State) : State :=
  if s.boot.jumper && !s.presence.byJumper then
    sayPresence { s with presence := { isOpen := true, byJumper := true, till := 0 } } true true 0xFFFF
  else s

/-- READY: every powered port is trained and the count is aligned (R486, R489). -/
def execReady (s : State) : Host.Outcome State Fault Refusal :=
  .next (if s.boot.phase != .linking || !allTrained s || !s.cnt.aligned then s
  else
    let s := { s with boot := { s.boot with phase := .ready, bootfail := 0, readyAt := now s },
                      host := { s.host with tlmStart := now s }, power := { s.power with ienvAt := elapsed s } }
    openJumper (postEnabled s mtReady (readyBytes s)))

/-- PORT_WAIT: a port has not trained 2 s after stage 9 began (R489). -/
def execPortWait (p : PortId) (s : State) : Host.Outcome State Fault Refusal :=
  .next (if s.boot.phase == .linking && s.ports[p].powered && !trained s p && decide (s.boot.stage9 + 2000000000 ≤ elapsed s) then
    { s with boot := { s.boot with bootfail := bfPortWait } }
  else s)

/-- ALIGN_WAIT: every port is trained and the count has not aligned 2 s later (R489). -/
def execAlignWait (s : State) : Host.Outcome State Fault Refusal :=
  .next (match s.boot.trainedAt with
  | some t =>
    if s.boot.phase == .linking && allTrained s && !s.cnt.aligned && decide (t + 2000000000 ≤ elapsed s) then
      { s with boot := { s.boot with bootfail := bfAlignWait } }
    else s
  | none => s)

/-- HOST_PORT_TRAINING: the host port has trained: configuration requests are answered and BAR0 is readable (R487). -/
def execHostPortTraining (s : State) : Host.Outcome State Fault Refusal :=
  .next (if s.boot.phase == .off then s else { s with host := { s.host with trained := true } })

/-! ## Resets (R437, R457, R491, R520) -/

/-- A context block at a module reset: MRBASE, MRSIZE, MRCTL and MRHEAD stay (R437). -/
def resetRing (r : Ring) : Ring :=
  { Ring.reset with slots := r.slots, mrbase := r.mrbase, mrsize := r.mrsize, en := r.en, vec := r.vec, mrhead := r.mrhead, k := r.k }

/-- The host interface at a module reset: the link, configuration space, BAR assignments and the MSI-X table stay too (R437). -/
def resetHost (h : HostIf) : HostIf :=
  { HostIf.reset with trained := h.trained, pci := h.pci, tlmbase := h.tlmbase, msimod := h.msimod,
                      rings := Vector.ofFn fun c : CtxId => resetRing h.rings[c],
                      msix := Vector.ofFn fun v : Fin 8 => { h.msix[v] with due := false } }

/-- The host interface at a fundamental reset: a power-on for every register; the bytes of BAR2 are no register. -/
def coldHost (h : HostIf) : HostIf :=
  { HostIf.reset with rings := Vector.ofFn fun c : CtxId => { Ring.reset with slots := h.rings[c].slots } }

/-- What a module reset leaves before stage 2 begins: the rails of stage 1, the count, the measured input and the jumper's window
stay, and a window that the button opened closes (R13, R457, R491). -/
def resetCore (s : State) (h : HostIf) (env : BootEnv) : State :=
  let p := (moveEnvelope s).power
  let button := s.presence.isOpen && !s.presence.byJumper
  let t := { powerLost s with
    host := h, i3c := s.i3c, cnt := { s.cnt with aligned := false, toPort := none, corr := 0 },
    presence := if button then State.reset.presence else s.presence,
    boot := { Boot.reset with sealBroken := !env.sealed, jumper := s.boot.jumper },
    power := { Power.reset with ienv := p.ienv, ienvAt := p.ienvAt, volts := p.volts, dies := p.dies.map takeOver,
                                under := p.under, low := p.low, high := p.high, lastEvt := p.lastEvt, unsent := p.unsent } }
  if button then sayPresence t false false 0 else t

/-- MODULE_RESET: RST is written with its key (Table 15.6, R437, R491). -/
def execModuleReset (value : W32) (env : BootEnv) (s : State) : Host.Outcome State Fault Refusal :=
  .next (if s.boot.phase == .off || !s.host.trained || value != 0x5A5A then s
  else beginStages (resetCore s (resetHost s.host) env) env)

/-- FUNDAMENTAL_RESET: PERST_N has been low for at least 100 us and rises (R437, R520). -/
def execFundamentalReset (ns : Nat) (env : BootEnv) (s : State) : Host.Outcome State Fault Refusal :=
  .next (if s.boot.phase == .off || decide (ns < 100000) then s
  else beginStages (resetCore s (coldHost s.host) env) env)

end Sys2Proof.Machine
end

