-- ==== Sys2Proof/Machine/HostCmd.lean ====
section
/-! DEFINITION. Host commands (R438 to R448): the rings, the descriptor and its checks, acceptance, rejection, time bounds and
completion, and the commands that need no image and move no page. -/

namespace Sys2Proof.Machine

/-! ## Codes (Tables 15.10, 15.16, 15.17) -/

def opOPEN : Nat := 0x01
def opCLOSE : Nat := 0x02
def opLOAD : Nat := 0x03
def opREAD : Nat := 0x04
def opWRITE : Nat := 0x05
def opMAP : Nat := 0x06
def opSEEDS : Nat := 0x07
def opARM : Nat := 0x08
def opABORT : Nat := 0x09
def opROLLBACK : Nat := 0x0A
def opRESTORE : Nat := 0x0B
def opQUERY : Nat := 0x0C
def opATTEST : Nat := 0x0D
def opACK : Nat := 0x0E
def opCFG : Nat := 0x20
def opTEST : Nat := 0x21
def opDEBUG : Nat := 0x22
def opOWNER : Nat := 0x23

abbrev Reject := BitVec 16

def rjReserved : Reject := 0x0001
def rjCtx : Reject := 0x0002
def rjPresence : Reject := 0x0003
def rjNotOpen : Reject := 0x0004
def rjAlreadyOpen : Reject := 0x0005
def rjBusy : Reject := 0x0006
def rjHardFault : Reject := 0x0007
def rjDeadline : Reject := 0x0008
def rjTag : Reject := 0x0009
def rjOperand : Reject := 0x000A
def rjGrade : Reject := 0x0010
def rjImage : Reject := 0x0011
def rjBudget : Reject := 0x0012
def rjDigestMap : Reject := 0x0013
def rjRegion : Reject := 0x0014
def rjDamaged : Reject := 0x0015
def rjNoProgram : Reject := 0x0016
def rjAddress : Reject := 0x0020
def rjQuota : Reject := 0x0021
def rjLend : Reject := 0x0022
def rjNeighbour : Reject := 0x0023
def rjMapped : Reject := 0x0024
def rjNotMapped : Reject := 0x0025
def rjShared : Reject := 0x0026
def rjTier : Reject := 0x0027
def rjNotHeld : Reject := 0x0028
def rjNotOwner : Reject := 0x0029
def rjVersioned : Reject := 0x002A
def rjFrame : Reject := 0x002B
def rjHostVisible : Reject := 0x002C
def rjLead : Reject := 0x0030
def rjNotAligned : Reject := 0x0031
def rjStepOrder : Reject := 0x0032
def rjTestMode : Reject := 0x0033
def rjNoPrior : Reject := 0x0034
def rjNoBuddy : Reject := 0x0035
def rjMirrorAbsent : Reject := 0x0036
def rjMirrorLayout : Reject := 0x0037
def rjNoRecord : Reject := 0x0038
def rjDebugOff : Reject := 0x0039
def rjRemote : Reject := 0x003A

def stDone : BitVec 16 := 0x0000
def stDeferred : BitVec 16 := 0x0001
def stPoisoned : BitVec 16 := 0x0002
def stImage : BitVec 16 := 0x0004
def stSignature : BitVec 16 := 0x0005
def stFlash : BitVec 16 := 0x0006
def stHostDma : BitVec 16 := 0x0007

/-! ## The descriptor (Tables 15.9, 15.11) -/

abbrev Desc := BitVec 1024

/-- The little-endian number in `n` bytes of a descriptor from byte `i`. -/
def dNat (d : Desc) (i n : Nat) : Nat := (d.extractLsb' (8 * i) (8 * n)).toNat

def dOpc (d : Desc) : Nat := dNat d 0 1
def dTag (d : Desc) : W32 := d.extractLsb' 32 32
def dGen (d : Desc) : Byte := d.extractLsb' 64 8
def dDeadline (d : Desc) : Nat := dNat d 16 8

/-- No deadline (Table 15.9). -/
def noDeadline : Nat := 2 ^ 64 - 1

/-- The operand bytes of each command as first byte and count; none for a reserved opcode (Table 15.11). -/
def operandBytes (opc : Nat) : Option (List (Nat × Nat)) :=
  match opc with
  | 0x01 => some []
  | 0x02 => some []
  | 0x03 => some [(24, 12), (40, 8)]
  | 0x04 => some [(24, 21)]
  | 0x05 => some [(24, 21)]
  | 0x06 => some [(24, 17), (48, 16)]
  | 0x07 => some [(24, 32)]
  | 0x08 => some [(24, 20)]
  | 0x09 => some [(24, 1)]
  | 0x0A => some []
  | 0x0B => some []
  | 0x0C => some [(24, 1), (32, 16)]
  | 0x0D => some [(24, 40)]
  | 0x0E => some [(24, 2)]
  | 0x20 => some [(24, 12)]
  | 0x21 => some [(24, 2), (28, 4)]
  | 0x22 => some []
  | 0x23 => some [(24, 8)]
  | _ => none

def reservedOpc (d : Desc) : Bool := (operandBytes (dOpc d)).isNone

/-- Option bits that stand in a command's OPTS byte: the byte and its unused high bits are those from this one on. -/
def optsOk (d : Desc) : Bool :=
  match dOpc d with
  | 0x04 => decide (dNat d 44 1 < 4)
  | 0x05 => decide (dNat d 44 1 < 4)
  | 0x06 =>
    let op := dNat d 24 1
    decide (dNat d 27 1 < 8) && (op == 2 || (dNat d 40 1 == 0 && dNat d 48 8 == 0)) &&
      (dNat d 56 8 == 0 || ((op == 0 || op == 5) && dNat d 25 1 == 2))
  | 0x09 => decide (dNat d 24 1 < 2)
  | _ => true

/-- No reserved field of a descriptor is set and its opcode is not reserved (R7, Tables 15.9, 15.11). -/
def reservedOk (d : Desc) : Bool :=
  match operandBytes (dOpc d) with
  | none => false
  | some l =>
    decide (dNat d 1 1 < 2) && dNat d 3 1 == 0 && dNat d 9 7 == 0 && optsOk d &&
      (List.range 104).all fun i =>
        l.any (fun e => e.1 ≤ 24 + i && 24 + i < e.1 + e.2) || dNat d (24 + i) 1 == 0

/-- Every operand lies in the range that Table 15.11 gives it. -/
def operandsOk (s : State) (d : Desc) : Bool :=
  match dOpc d with
  | 0x03 =>
    dNat d 24 8 % 64 == 0 && decide (64 ≤ dNat d 32 4) && decide (dNat d 32 4 ≤ 128 * 2 ^ 20) && dNat d 40 8 != 0 &&
      decide (dNat d 40 8 < 2 ^ nreg s)
  | 0x04 => rawLenOk
  | 0x05 => rawLenOk
  | 0x06 =>
    let op := dNat d 24 1
    let tier := dNat d 25 1
    let port := dNat d 26 1
    let opts := dNat d 27 1
    decide (op ≤ 5) && decide (tier ≤ 2) && (if tier = 1 then decide (1 ≤ port) && decide (port ≤ 6) else port == 0) &&
      (opts % 2 == 0 || (op == 0 && tier == 0)) && (opts / 2 % 2 == 0 || op == 3) &&
      (opts / 4 % 2 == 0 || (op == 0 && tier == 0 && opts % 2 == 0)) &&
      decide (1 ≤ dNat d 28 4) && decide (dNat d 28 4 ≤ 2 ^ 31) && dNat d 32 8 % frameBytes == 0 &&
      dNat d 56 8 % frameBytes == 0 && decide (dNat d 40 1 < 4) &&
      decide (dNat d 32 8 + dNat d 28 4 * frameBytes ≤ 2 ^ 52)
  | 0x08 => decide (1 ≤ dNat d 40 4)
  | 0x0C => decide (dNat d 24 1 ≤ 3)
  | 0x0D => dNat d 56 8 % 64 == 0
  | 0x20 => decide (256 ≤ dNat d 32 4) && decide (dNat d 32 4 ≤ 32 * 2 ^ 20)
  | 0x21 => decide (dNat d 24 1 ≤ 1) && decide (dNat d 25 1 < nreg s)
  | _ => true
where
  /-- LEN of a memory command: 1 to 2^26, and with RAW a multiple of the unit (R445). -/
  rawLenOk : Bool :=
    let unit := if dNat d 44 1 % 2 = 0 then 1 else if dNat d 44 1 / 2 % 2 = 0 then 32 else 128
    decide (1 ≤ dNat d 40 4) && decide (dNat d 40 4 ≤ 2 ^ 26) && dNat d 40 4 % unit == 0

/-- The commands that need the presence window (Table 15.10). -/
def gatedOpc (opc : Nat) : Bool := opc == opCFG || opc == opTEST || opc == opDEBUG || opc == opOWNER

/-- The commands after which the next fetch may follow acceptance (R439). -/
def earlyOpc (opc : Nat) : Bool := opc == opARM || opc == opABORT || opc == opQUERY || opc == opATTEST || opc == opACK

/-- The commands that HARD_FAULT lets through (R412). -/
def hardFaultOpc (opc : Nat) : Bool := opc == opQUERY || opc == opATTEST || opc == opACK

/-- Steps 1 to 5 of R441. -/
def commonReject (s : State) (c : CtxId) (d : Desc) : Option Reject :=
  if !reservedOk d then some rjReserved
  else if dNat d 2 1 != c.val then some rjCtx
  else if s.hardFault && !hardFaultOpc (dOpc d) then some rjHardFault
  else if gatedOpc (dOpc d) && !s.presence.isOpen then some rjPresence
  else if !operandsOk s d then some rjOperand
  else if s.host.rings[c].cmds.any fun k => k.tag == dTag d && k.gen == dGen d then some rjTag
  else none

/-! ## Rings and fetch (R438, R439, R450) -/

/-- The descriptor that the module fetches next from a ring, when it fetches one: after READY, with room in the message
queue, and when no earlier command of the ring holds the fetch, in HARD_FAULT as otherwise (R439, R450). -/
def headDesc (s : State) (c : CtxId) : Option Desc :=
  let r := s.host.rings[c]
  if s.boot.phase == .ready && r.head != r.tail && decide (r.msgs.length < 224) && r.lend.isNone &&
      r.cmds.all fun k => !k.blocks then
    some (spGet 0 r.slots (r.head.toNat % 1024))
  else none

/-- Slots that software has written, from command index `i` on. -/
def putSlots (sl : Sparse (BitVec 1024)) : Nat → List (BitVec 1024) → Sparse (BitVec 1024)
  | _, [] => sl
  | i, d :: l => putSlots (spPut 0 sl (i % 1024) d) (i + 1) l

/-- DOORBELL: the host has written descriptors into slots and TAIL into DB; a TAIL too far from HEAD is ignored and sets
DB_OVERRUN (R438). -/
def execDoorbell (c : CtxId) (value : W32) (descs : List (BitVec 1024)) (s : State) : Host.Outcome State Fault Refusal :=
  .next (if s.boot.phase == .off || !s.host.trained then s
  else
    let s := updRing s c fun r => { r with slots := putSlots r.slots r.tail.toNat (descs.take 1024) }
    let t : BitVec 11 := value.extractLsb' 0 11
    if 1024 < (t - s.host.rings[c].head).toNat then { s with host := { s.host with dbOverrun := true } }
    else updRing s c fun r => { r with tail := t })

/-! ## Acceptance, rejection, completion (R373, R447, R448) -/

def advanceHead (s : State) (c : CtxId) : State := updRing s c fun r => { r with head := r.head + 1 }

/-- CMD_REJECT, with the index of the first failing page for MEM_MAP. -/
def reject (s : State) (c : CtxId) (d : Desc) (code : Reject) (index : Nat) : State :=
  post (advanceHead s c) c mtReject (dTag d) (dGen d) ([BitVec.ofNat 8 (dOpc d), 0] ++ leBytes 2 code.toNat ++ leBytes 4 index)

/-- CMD_ACCEPT, withheld by SILENT but for ARM_LAUNCH (Table 15.9). -/
def sayAccept (s : State) (c : CtxId) (d : Desc) (promise u : Nat) : State :=
  if dNat d 1 1 = 1 ∧ dOpc d ≠ opARM then s
  else
    post s c mtAccept (dTag d) (dGen d) ([BitVec.ofNat 8 (dOpc d), 0, 0, 0, 0, 0, 0, 0] ++ leBytes 8 promise ++ leBytes 8 u)

/-- The accepted command of a descriptor. -/
def cmdOf (d : Desc) : CmdRun :=
  { opc := BitVec.ofNat 8 (dOpc d), tag := dTag d, gen := dGen d, status := stDone, count := 0, blocks := !earlyOpc (dOpc d),
    migs := [], haddr := 0, caddr := 0, len := 0, data := [], asks := [] }

/-- Accept a command: HEAD advances, it counts as uncompleted, and CMD_ACCEPT goes out. -/
def accept (s : State) (c : CtxId) (d : Desc) (promise u : Nat) (k : CmdRun) : State :=
  sayAccept (updRing (advanceHead s c) c fun r => { r with cmds := r.cmds ++ [k] }) c d promise u

def updCmd (s : State) (c : CtxId) (tag : W32) (gen : Byte) (f : CmdRun → CmdRun) : State :=
  updRing s c fun r => { r with cmds := r.cmds.map fun k => if k.tag == tag && k.gen == gen then f k else k }

/-- Write to host memory by DMA. -/
def hostWrite (s : State) (a : Nat) (l : List Byte) : State := { s with hostMem := memPutBytes s.hostMem a l }

/-! ## Time bounds (R374, R446, Table 15.15) -/

/-- G_CMD in B/ns. -/
def cmdRate (s : State) : Nat := if anyBusy s then 60 - s.boot.cfg.t3Rate else 50

/-- `n` bytes at a rate of `num / den` B/ns, in ns rounded up; none when the rate is zero and bytes have to move. -/
def moveTime (n num den : Nat) : Option Nat := if n = 0 then some 0 else if num = 0 then none else some (ceilDiv (n * den) num)

/-- The bound of the commands that take 50 us and send a result of `n` bytes. -/
def smallBound (s : State) (n : Nat) : Option Nat := (moveTime n (cmdRate s) 1).map (50000 + ·)

/-- PROMISE of a command: its acceptance count and its bound; without a bound, no promise (R446). -/
def promiseFor (s : State) (bound : Option Nat) : Nat := match bound with | some b => now s + b | none => noDeadline

/-- The deadline cannot be met (R372, R374, R446). -/
def tooLate (s : State) (d : Desc) (bound : Option Nat) : Bool :=
  dDeadline d != noDeadline && (match bound with | some b => decide (dDeadline d < now s + b) | none => true)

/-! ## The frame of a command row -/

/-- A command of ring `c`: when the descriptor that the module fetches is one that `mine` takes, or one with a reserved
opcode, it is checked in the order of R441 and rejected or accepted. `check` gives the conditions of Table 15.10 with the
index they report, `bound` the time bound, `effect` the effect after CMD_ACCEPT. -/
def command (s : State) (c : CtxId) (mine : Desc → Bool) (check : Desc → Option (Reject × Nat)) (bound : Desc → Option Nat)
    (run : Desc → CmdRun) (effect : Desc → State → State) : State :=
  match headDesc s c with
  | none => s
  | some d =>
    if !(mine d || reservedOpc d) then s
    else
      match commonReject s c d with
      | some e => reject s c d e 0
      | none =>
        match check d with
        | some e => reject s c d e.1 e.2
        | none =>
          if tooLate s d (bound d) then reject s c d rjDeadline 0
          else effect d (accept s c d (promiseFor s (bound d)) 0 (run d))

/-- A descriptor with the given opcode. -/
def isOpc (opc : Nat) (d : Desc) : Bool := dOpc d == opc

/-- The first of a list of conditions that holds, as a rejection with no index. -/
def firstReject : List (Bool × Reject) → Option (Reject × Nat)
  | [] => none
  | (b, e) :: l => if b then some (e, 0) else firstReject l

def notOpen (s : State) (c : CtxId) : Bool := !s.ctxs[c].opened

/-! ## OPEN, CLOSE, SET_SEEDS -/

/-- OPEN: the context is open, with zero seeds and nothing of an earlier use (R416, notes/assumptions/51). -/
def execOpenCtx (c : CtxId) (s : State) : Host.Outcome State Fault Refusal :=
  .next (command s c (isOpc opOPEN) (fun _ => firstReject [(s.ctxs[c].opened, rjAlreadyOpen)]) (fun _ => smallBound s 0) cmdOf
    fun _ s => updCtx s c fun _ => { Ctx.reset with opened := true })

/-- A region that no context holds: its program, streams and stores stay until the next LOAD_PROGRAM (R444). -/
def freeRegion (r : Region) : Region := { r with ctx := none }

/-- Free the regions of a context that `keep` does not name. -/
def freeRegions (s : State) (c : CtxId) (keep : RegionId → Bool) : State :=
  { s with regions := Vector.ofFn fun g : RegionId =>
      if s.regions[g].ctx == some c && !keep g then freeRegion s.regions[g] else s.regions[g] }

/-- Unmap pages one after another. -/
def unmapAll (s : State) (c : CtxId) (pages : List Nat) : State × Frees :=
  pages.foldl (fun e p =>
    let (s, f) := unmapPage e.1 c p
    (s, e.2 ++ f)) (s, [])

/-- Some residency that the context owns is mapped by another context too (Table 9.6). -/
def ownsShared (s : State) (c : CtxId) (pages : List Nat) : Bool :=
  pages.any fun p => match residAt s c p with
    | some r => r.owner == c && (mappers s r.id).any (· != c)
    | none => false

/-- What CLOSE does to a context (Table 15.13, R266, R441). -/
def closeCtx (s : State) (c : CtxId) : State :=
  let pages := s.ctxs[c].pages.map (·.1)
  command s c (isOpc opCLOSE)
    (fun _ => firstReject [(notOpen s c, rjNotOpen), (busy s c, rjBusy), (ownsShared s c pages, rjShared)])
    (fun _ => some (1000000 + 2000 * pages.length)) cmdOf
    fun _ s =>
      let (s, f) := unmapAll s c pages
      let s := freeRegions (sendFrees s (.host c) f) c fun _ => false
      updCtx s c fun _ => Ctx.reset

/-- CLOSE: holds released, every page unmapped, tables and regions freed (R266, R441), in the page engine's order (R269). -/
def execCloseCtx (c : CtxId) (s : State) : Host.Outcome State Fault Refusal :=
  .next (if !(headDesc s c).any (isOpc opCLOSE) then closeCtx s c
  else
    match pageTurn s c with
    | (s, false) => s
    | (s, true) => closeCtx s c)

/-- SET_SEEDS (R416). -/
def execSetSeeds (c : CtxId) (s : State) : Host.Outcome State Fault Refusal :=
  .next (command s c (isOpc opSEEDS) (fun _ => firstReject [(notOpen s c, rjNotOpen), (busy s c, rjBusy)])
    (fun _ => smallBound s 0) cmdOf
    fun d s => updCtx s c fun x => { x with js := d.extractLsb' 192 128, ds := d.extractLsb' 320 128 })

/-! ## ACK_ERROR -/

/-- An unacknowledged record with the SEQ. -/
def ackable (seq : BitVec 16) (e : Option Rec) : Bool :=
  match e with
  | some r => !r.acked && r.seq == seq
  | none => false

/-- ACK_ERROR: ACKED in the unacknowledged record that holds SEQ (R408). -/
def execAckError (c : CtxId) (s : State) : Host.Outcome State Fault Refusal :=
  let seq (d : Desc) : BitVec 16 := d.extractLsb' 192 16
  .next (command s c (isOpc opACK) (fun d => firstReject [(!s.scree.slots.any (ackable (seq d)), rjNoRecord)])
    (fun _ => smallBound s 0) cmdOf
    fun d s =>
      let mark (e : Option Rec) : Option Rec := if ackable (seq d) e then e.map fun r => { r with acked := true } else e
      { s with scree := { s.scree with slots := s.scree.slots.map mark } })

/-! ## QUERY (Table 15.12) -/

/-- Bytes of a result by selector. -/
def queryBytes (sel : Nat) : Nat :=
  match sel with
  | 0 => 64
  | 1 => 8192
  | 2 => 16
  | _ => 320

/-- A QUERY with selector `sel`: its result goes to HADDR. A selector that no row has is refused by each of them. -/
def query (s : State) (c : CtxId) (sel : Nat) (check : Desc → Option (Reject × Nat)) (result : State → Desc → List Byte) :
    State :=
  command s c (fun d => isOpc opQUERY d && (dNat d 24 1 == sel || decide (3 < dNat d 24 1))) check
    (fun _ => smallBound s (queryBytes sel)) (fun d => { cmdOf d with count := BitVec.ofNat 32 (queryBytes sel) })
    fun d s => hostWrite s (dNat d 32 8) (padTo (queryBytes sel) (result s d))

def regMask (s : State) (c : CtxId) : Nat := (regionsOf s c).foldl (fun m g => m + 2 ^ g.val) 0

def boolByte (b : Bool) : Byte := if b then 1 else 0

/-- QUERY CONTEXT. -/
def contextBytes (s : State) (c : CtxId) : List Byte :=
  let x := s.ctxs[c]
  [boolByte x.opened, boolByte (busy s c), boolByte x.priorValid, boolByte s.debug, 0, 0, 0, 0] ++ leBytes 8 x.cairnStep.toNat ++
    leBytes 8 (regMask s c) ++ leBytes 4 (owned s c .t1) ++ leBytes 4 (owned s c .t2) ++ leBytes 4 (owned s c .t3) ++
    leBytes 4 (lentPages s) ++ leBytes 8 x.lastPromise.toNat

/-- QUERY_CONTEXT: the state of the ring's context (R353, Table 15.12). -/
def execQueryContext (c : CtxId) (s : State) : Host.Outcome State Fault Refusal :=
  .next (query s c 0 (fun _ => none) fun s _ => contextBytes s c)

/-- QUERY_SCREE: all 128 slots in ring order, unused slots zero (R407). -/
def execQueryScree (c : CtxId) (s : State) : Host.Outcome State Fault Refusal :=
  .next (query s c 1 (fun _ => none) fun s _ => s.scree.slots.flatMap fun e =>
    match e with
    | some r => recBytes r
    | none => List.replicate 64 0)

/-- QUERY PAGE. -/
def pageBytes (s : State) (c : CtxId) (a : Nat) : List Byte :=
  match mapped s c a with
  | some r =>
    leBytes 8 (leafEntry s r).toNat ++ [BitVec.ofNat 8 r.owner.val, r.holds.setWidth 8, boolByte r.evicting.isSome]
  | none => []

/-- QUERY_PAGE: the leaf entry of a page, its owner and holds (R256, R433). -/
def execQueryPage (c : CtxId) (s : State) : Host.Outcome State Fault Refusal :=
  .next (query s c 2 (fun _ => none) fun s d => pageBytes s c (dNat d 40 8))

/-- The region and stream of ARG, when they exist. -/
def debugWhat (s : State) (d : Desc) : Option (RegionId × StreamId) :=
  if h : dNat d 40 1 < 64 then
    if h2 : dNat d 41 1 % 4 < 3 then
      (if decide (dNat d 40 1 < nreg s) then some (⟨dNat d 40 1, h⟩, ⟨dNat d 41 1 % 4, h2⟩) else none)
    else none
  else none

/-- The registers of a stream at its last halt, listed in the order of Table 15.12. -/
def snapNats (q : DebugSnap) : List Nat :=
  [q.pc] ++ q.x.toList.map (·.toNat) ++ [q.p.toNat, q.counter, q.d, q.retries, q.sum]

/-- QUERY_DEBUG: the registers of a stream at its last halt (R461). The manual does not give the layout of the result
(notes/assumptions/55). -/
def execQueryDebug (c : CtxId) (s : State) : Host.Outcome State Fault Refusal :=
  let ctxBusy (d : Desc) : Bool :=
    match debugWhat s d with
    | some (g, _) => (match s.regions[g].ctx with | some x => busy s x | none => false)
    | none => false
  .next (query s c 3 (fun d => firstReject [(!s.debug, rjDebugOff), (ctxBusy d, rjBusy)]) fun s d =>
    match debugWhat s d with
    | some (g, i) => (List.range 320).map (Config.debugByte (snapNats s.regions[g].streams[i].snap))
    | none => [])

/-! ## COMMAND_COMPLETION -/

/-- Ask lenders for parts of T2 pages on behalf of a host command. -/
def askReads (s : State) (c : CtxId) (l : List (Nat × Nat)) : State :=
  l.foldl (fun s e =>
    match mapped s c e.1 with
    | some r =>
      match portCode r with
      | some p =>
        startTxn s p (.host c) .read r.loc.lentTo e.1 e.2 pkRdReq 16 (addrBlock (r.loc.frame * frameBytes + e.1 % frameBytes) e.2 spLent)
      | none => s
    | none => s) s

/-- What a command had to wait for is done: its migrations, its page transactions, both copies of a restore (R270, R356). -/
def cmdReady (s : State) (c : CtxId) (k : CmdRun) : Bool :=
  (k.migs.all fun id => match residById s.hbm id with | some r => r.mig.isNone && !waitsFor s (.page id) | none => true) &&
    (!k.blocks || (k.asks.isEmpty && !waitsFor s (.host c))) &&
    (k.opc.toNat != opRESTORE || match s.restoring[c] with
      | some r => r.own && r.left == 0 && !waitsFor s (.restore c)
      | none => false)

/-- The message that ends a command: ATTESTATION for ATTEST, CMD_DONE for the others (R447, Table 15.19). -/
def sayDone (s : State) (c : CtxId) (k : CmdRun) : State :=
  if k.opc.toNat = opATTEST then post s c mtAttest k.tag k.gen (leBytes 8 k.haddr ++ leBytes 2 512)
  else post s c mtDone k.tag k.gen (doneBytes k.opc k.status k.count 0 0)

/-- A restore ends: CAIRN_STEP takes the buddy's step, for the own pages and for the mirror held here; no prior is left
(R356, notes/assumptions/52). -/
def endRestore (s : State) (c : CtxId) : State :=
  match s.restoring[c] with
  | none => s
  | some r =>
    let s := updCtx { s with restoring := s.restoring.set c none } c fun x => { x with cairnStep := r.step, priorValid := false }
    let clear (l : Sparse Stripe) : Sparse Stripe := mapStripes (fun t => { t with flipped := false }) l
    updHbm s fun h =>
      { h with mirrorStep := h.mirrorStep.set c r.step, mirrorPrior := h.mirrorPrior.set c false,
               resids := h.resids.map (fun q => if q.ver && q.owner == c then { q with stripes := clear q.stripes } else q),
               mirrors := h.mirrors.map (fun m => if m.ctx == c then { m with stripes := clear m.stripes } else m) }

/-- Make again what a halt has cut off of a command's page requests (notes/assumptions/11). -/
def askAgain (s : State) (c : CtxId) (k : CmdRun) : State :=
  if s.hardFault then s
  else if k.opc.toNat = opRESTORE then
    (if waitsFor s (.restore c) || (match s.restoring[c] with | some r => r.own | none => true) then s else pumpRestore s c)
  else if k.asks.isEmpty || waitsFor s (.host c) then s
  else askReads s c k.asks

/-- A CFG_WRITE ends: last of all, the record of the slot that it has written is programmed, so that whatever interrupts the
command before leaves the record not complete (R473). -/
def endCfgWrite (s : State) (k : CmdRun) : State :=
  if k.status = stDone then
    { s with flash := flashRecord s.flash (!s.boot.slotB) k.len (slotStamp s.flash s.boot.slotB + 1) }
  else s

/-- COMMAND_COMPLETION: a command other than ARM_LAUNCH, whose launch ends it, completes (R447). -/
def execCommandCompletion (c : CtxId) (tag : W32) (gen : Byte) (s : State) : Host.Outcome State Fault Refusal :=
  .next (match s.host.rings[c].cmds.find? fun k => k.tag == tag && k.gen == gen with
  | none => s
  | some k =>
    if k.opc.toNat = opARM then s
    else if !cmdReady s c k then askAgain s c k
    else
      let s := updRing s c fun r => { r with cmds := r.cmds.filter fun q => !(q.tag == tag && q.gen == gen) }
      let s := if k.opc.toNat = opRESTORE then endRestore s c else if k.opc.toNat = opCFG then endCfgWrite s k else s
      sayDone s c k)

end Sys2Proof.Machine
end

