-- ==== Sys2Proof/Machine/HostMem.lean ====
section
/-! DEFINITION. Host commands that reach memory: MEM_READ and MEM_WRITE (R337, R340, R397, R400, R401, R445), the page
operations of MEM_MAP (R254, R261 to R271, R336), and the RESP flit that ends a page transaction (R292, R294, R312, R398). -/

namespace Sys2Proof.Machine

/-! ## Operands of the memory commands -/

def mcAddr (d : Desc) : Nat := dNat d 24 8
def mcHost (d : Desc) : Nat := dNat d 32 8
def mcLen (d : Desc) : Nat := dNat d 40 4
def mcRaw (d : Desc) : Bool := dNat d 44 1 % 2 == 1
def mcHbm (d : Desc) : Bool := dNat d 44 1 / 2 % 2 == 1

/-- A MEM_READ without RAW whose WIN names the HBM window of checker test mode: it reads the window through the checker (R401,
notes/assumptions/79). -/
def mcChecked (s : State) (d : Desc) : Bool := !mcRaw d && mcHbm d && s.test.isSome

/-- Pages that a command touches. -/
def mcPages (d : Desc) : List Nat :=
  (List.range ((mcAddr d + mcLen d - 1) / frameBytes - mcAddr d / frameBytes + 1)).map (mcAddr d / frameBytes + ·)

/-- Data bytes and bytes in host memory of a unit of the RAW layout (R445). -/
def rawUnit (d : Desc) : Nat × Nat := if mcHbm d then (64, 128) else (16, 32)

/-- Units of a RAW command. -/
def rawCount (d : Desc) : Nat := mcLen d / (rawUnit d).2

/-- A RAW command lies in its window: test mode is on, CADDR begins a unit and the units end within the window (R400,
notes/assumptions/50). -/
def rawInWindow (s : State) (d : Desc) : Bool :=
  s.test.isSome && mcAddr d % (rawUnit d).1 == 0 &&
    decide (mcAddr d + rawCount d * (rawUnit d).1 ≤ (if mcHbm d then 1048576 else 65536))

def memReject (s : State) (c : CtxId) (d : Desc) (wr : Bool) : Option (Reject × Nat) :=
  let bad := if mcRaw d then !rawInWindow s d
    else if !wr && mcChecked s d then decide (1048576 < mcAddr d + mcLen d)
    else (mcPages d).any fun p => (residAt s c p).isNone
  let held := wr && !mcRaw d && (mcPages d).any fun p => match residAt s c p with | some r => r.ver && busy s r.owner | none => false
  firstReject [(notOpen s c, rjNotOpen), (bad, rjAddress), (held, rjBusy)]

/-- The lower of two rates given as fractions. -/
def minRate (a b : Nat × Nat) : Nat × Nat := if a.1 * b.2 ≤ b.1 * a.2 then a else b

/-- Guaranteed rate of a tier for one region, in B/ns (Table 9.7): `dies` lender dies hold the data. -/
def tierRate (s : State) (t : Tier) (dies : Nat) : Nat × Nat :=
  match t with
  | .t1 => (1000 * (16 - s.boot.cfg.lendBw), nreg s)
  | .t2 => (min 4800 (dies * 1000 * s.boot.cfg.lendBw), 6 * nreg s)
  | .t3 => (s.boot.cfg.t3Rate, nreg s)

/-- The lowest tier among residencies. -/
def lowestTier (l : List Resid) : Option Tier :=
  l.foldl (fun m r => match m with
    | none => some r.loc.tier
    | some t => some (if tierCode t < tierCode r.loc.tier then r.loc.tier else t)) none

/-- Bound of MEM_READ and MEM_WRITE (Table 15.15). -/
def memBound (s : State) (c : CtxId) (d : Desc) : Option Nat :=
  let rs := if mcRaw d then [] else (mcPages d).filterMap (residAt s c)
  let dies := ((rs.filter fun r => r.loc.tier == .t2).map fun r => frameDie r.loc.frame).eraseDups.length
  let rate := match lowestTier rs with
    | some t => minRate (cmdRate s, 1) (tierRate s t dies)
    | none => (cmdRate s, 1)
  (moveTime (mcLen d) rate.1 rate.2).map (20000 + 1800 * rs.length + ·)

/-! ## MEM_READ -/

/-- What a read by a host command has met so far. -/
structure HostRd where
  s    : State
  out  : List Byte
  bad  : Bool
  asks : List (Nat × Nat)
  deriving DecidableEq, Repr

/-- The record of a host command's access at a context address. -/
def hostRec (s : State) (c : CtxId) (a : Nat) : Rec := { blankRec s with ctx := some c, caddr := BitVec.ofNat 64 a }

/-- A read by a host command of physical bytes: affected 64-byte units read as zero and each makes a bus error (R397). -/
def hostPhysRead (q : HostRd) (ctx : Option CtxId) (base : Rec) (ph n : Nat) : HostRd :=
  let fs := hbmFindings q.s.hbm ph n
  let bads := fs.filter fun f => f.2.isBad
  let out := zeroUnits ph (bads.map (·.1)) (hbmBytes q.s.hbm ph n)
  let s := hbmCorrected q.s base srcHbmDemand fs
  let s := bads.foldl (fun s f =>
    let (s, r) := hbmPoisoned s base srcHbmDemand f
    busFault s cBusError ctx r) s
  { q with s := s, out := q.out ++ out, bad := q.bad || !bads.isEmpty }

/-- The same of bytes of the pool. -/
def hostPoolRead (q : HostRd) (ctx : Option CtxId) (base : Rec) (ph n : Nat) : HostRd :=
  let ws := poolHits q.s.hbm ph n
  let out := zeroUnits ph ws (memBytes q.s.hbm.pool ph n)
  { q with s := ws.foldl (fun s w => busFault s cBusError ctx (poolRec base w)) q.s, out := q.out ++ out, bad := q.bad || !ws.isEmpty }

/-- A read of one piece of at most 4 KiB of a context range: the Cairn of a versioned page (R337); a piece in T2 is asked of its
lender and reads as zero until it comes. -/
def hostRead (c : CtxId) (q : HostRd) (e : Nat × Nat) : HostRd :=
  let (a, n) := e
  match mapped q.s c a with
  | none => { q with out := q.out ++ List.replicate n 0 }
  | some r =>
    match r.loc.tier with
    | .t1 => hostPhysRead q (some c) (hostRec q.s c a) (physOf r (a % frameBytes) false) n
    | .t2 => { q with out := q.out ++ List.replicate n 0,
                      asks := q.asks ++ [(a / 64 * 64, (a + n + 63) / 64 * 64 - a / 64 * 64)] }
    | .t3 => hostPoolRead q (some c) (hostRec q.s c a) (r.loc.frame * frameBytes + a % frameBytes) n

/-- The unit of a RAW read: data and check bits as stored, in the layout of R445. -/
def rawRead (s : State) (d : Desc) (i : Nat) : List Byte :=
  match s.test with
  | none => []
  | some t =>
    if mcHbm d then
      let w := t.frame * frameBytes / 64 + mcAddr d / 64 + i
      leBytes 64 (hbmData s.hbm w).toNat ++ leBytes 4 (hbmMeta s.hbm w).toNat ++ List.replicate 60 0
    else
      let m := s.regions[t.region].scratch
      let w := 0xFF0000 / 16 + mcAddr d / 16 + i
      let chk := match ovGet m.chk w with | some k => k | none => secdedCheck (sramData m w) (16 * w)
      leBytes 16 (sramData m w).toNat ++ leBytes 2 chk.toNat ++ List.replicate 14 0

/-- The effect of MEM_READ. -/
def memReadEffect (c : CtxId) (d : Desc) (s : State) : State :=
  if mcRaw d then hostWrite s (mcHost d) ((List.range (rawCount d)).flatMap (rawRead s d))
  else
    let q0 : HostRd := { s := s, out := [], bad := false, asks := [] }
    let q := match s.test with
      | some t =>
        if mcChecked s d then
          hostPhysRead q0 (some c) { blankRec s with ctx := some c } (t.frame * frameBytes + mcAddr d) (mcLen d)
        else (stripePieces (mcLen d / 4096 + 2) (mcAddr d) (mcLen d)).foldl (hostRead c) q0
      | none => (stripePieces (mcLen d / 4096 + 2) (mcAddr d) (mcLen d)).foldl (hostRead c) q0
    let s := hostWrite q.s (mcHost d) q.out
    let s := updCmd s c (dTag d) (dGen d) fun k =>
      { k with status := if q.bad then stPoisoned else k.status, asks := q.asks }
    askReads s c q.asks

/-- MEM_READ: from the context range or a test window to host memory (R337, R397, R400, R401, R445). -/
def execMemRead (c : CtxId) (s : State) : Host.Outcome State Fault Refusal :=
  .next (command s c (isOpc opREAD) (fun d => memReject s c d false) (memBound s c)
    (fun d => { cmdOf d with haddr := mcHost d, caddr := mcAddr d, len := mcLen d }) (memReadEffect c))

/-! ## MEM_WRITE -/

/-- Parts of `n` bytes at `a` that cover 64-byte units in part, and the runs of whole units. -/
def edgeUnits (a n : Nat) : List Nat :=
  let first := a / 64 * 64
  let last := (a + n - 1) / 64 * 64
  (if a % 64 ≠ 0 || decide (n < 64 && first = last && (a + n) % 64 ≠ 0) then [first] else []) ++
    (if (a + n) % 64 ≠ 0 && decide (last ≠ first) then [last] else [])

/-- The 64-byte units of `n` bytes at `a`. -/
def unitsOf (a n : Nat) : List Nat := (List.range ((a + n - 1) / 64 - a / 64 + 1)).map fun i => a / 64 * 64 + 64 * i

/-- What a write by a host command has met so far. -/
structure HostWr where
  s    : State
  stop : Bool
  asks : List (Nat × Nat)
  deriving DecidableEq, Repr

/-- Send whole units of a T2 page to its lender. -/
def sendUnits (s : State) (c : CtxId) (r : Resid) (units : List Nat) (byteAt : Nat → Byte) : State :=
  match portCode r with
  | none => s
  | some p =>
    (unitRuns units).foldl (fun s e =>
      startTxn s p (.host c) .write r.loc.lentTo e.1 e.2 pkWrReq 16
        (addrBlock (r.loc.frame * frameBytes + e.1 % frameBytes) e.2 spLent ++ (List.range e.2).map fun i => byteAt (e.1 + i))) s

/-- The buddy's mirror takes a host memory write, in whole units of the own Cairn as it now stands (R340). -/
def mirrorHost (s : State) (c : CtxId) (r : Resid) (a n : Nat) : State :=
  if !hasBuddy s then s
  else
    (unitRuns (unitsOf a n)).foldl (fun s e =>
      startTxn s 4 (.host c) .write c e.1 e.2 pkWrReq 16
        (addrBlock e.1 e.2 spCairnHost ++ hbmBytes s.hbm (physOf r (e.1 % frameBytes) false) e.2)) s

/-- A write of one piece of at most 4 KiB of a context range by a host command (R339, R340, R387, R397). -/
def hostWritePiece (c : CtxId) (base : Nat) (data : List Byte) (q : HostWr) (e : Nat × Nat) : HostWr :=
  let (a, n) := e
  let l := (data.drop (a - base)).take n
  if q.stop then q
  else
    match mapped q.s c a with
    | none => q
    | some r =>
      let off := a % frameBytes
      match r.loc.tier with
      | .t1 =>
        let ph := physOf r off false
        let own (s : State) (k : Nat) : State :=
          if r.ver && 0 < k then mirrorHost (updCtx s c fun x => { x with priorValid := false }) c r a k else s
        match hbmWriteBad q.s.hbm ph n with
        | some b =>
          -- how much of the piece came before the stop is free (notes/assumptions/14)
          let k := min (Config.writesBeforeStop q.s.freeCtr) (64 * b.1 - ph)
          let s := { q.s with freeCtr := q.s.freeCtr + 1 }
          let s := own (updHbm s fun h => hbmWrite h ph (l.take k)) k
          let (s, rc) := hbmRefused s (hostRec s c a) b
          { q with s := busFault s cBusError (some c) rc, stop := true }
        | none =>
          let s := hbmCorrected q.s (hostRec q.s c a) srcHbmRmw (hbmWriteFixes q.s.hbm ph n)
          { q with s := own (updHbm s fun h => hbmWrite h ph l) n }
      | .t2 =>
        let edges := edgeUnits a n
        let whole := (unitsOf a n).filter fun u => !edges.contains u
        let s := sendUnits q.s c r whole fun x => data.getD (x - base) 0
        let s := match r.mig with
          | some m => updHbm s fun h => updResid h r.id fun z =>
              { z with mig := some { m with late := (l.zipIdx).foldl (fun o b => ovPut o (off + b.2) b.1) m.late } }
          | none => s
        { q with s := s, asks := q.asks ++ edges.map fun u => (u, 64) }
      | .t3 => { q with s := updHbm q.s fun h => poolPut h (r.loc.frame * frameBytes + off) l }

/-- A unit of a RAW write: data and check bits set independently (R400). -/
def rawWrite (d : Desc) (data : List Byte) (s : State) (i : Nat) : State :=
  match s.test with
  | none => s
  | some t =>
    if mcHbm d then
      let w := t.frame * frameBytes / 64 + mcAddr d / 64 + i
      let x : BitVec 512 := BitVec.ofNat 512 (sliceNat data (128 * i) 64)
      let m : BitVec 32 := BitVec.ofNat 32 (sliceNat data (128 * i + 64) 4)
      updHbm s fun h =>
        { h with mem := memPutBytes h.mem (64 * w) (leBytes 64 x.toNat),
                 mdata := if m == rsCheck x 0 (64 * w) ++ (0 : Byte) then ovDel h.mdata w else ovPut h.mdata w m,
                 writeBacks := h.writeBacks.filter (· != w) }
    else
      let w := 0xFF0000 / 16 + mcAddr d / 16 + i
      let x : BitVec 128 := BitVec.ofNat 128 (sliceNat data (32 * i) 16)
      let k : BitVec 9 := BitVec.ofNat 9 (sliceNat data (32 * i + 16) 2)
      updRegion s t.region fun r =>
        { r with scratch := { mem := memPutBytes r.scratch.mem (16 * w) (leBytes 16 x.toNat),
                              chk := if k == secdedCheck x (16 * w) then ovDel r.scratch.chk w else ovPut r.scratch.chk w k },
                 writeBacks := r.writeBacks.filter fun e => e != (Store.scratch, w) }

/-- The effect of MEM_WRITE: what has come from host memory is written; a host read that fails ends it with HOST_DMA_ERROR
(R445). -/
def memWriteEffect (c : CtxId) (src : List Byte) (d : Desc) (s : State) : State :=
  let data := src.take (mcLen d)
  let short := decide (data.length < mcLen d)
  if mcRaw d then
    let s := (List.range (data.length / (rawUnit d).2)).foldl (rawWrite d data) s
    updCmd s c (dTag d) (dGen d) fun k => { k with status := if short then stHostDma else stDone }
  else
    let q := (stripePieces (data.length / 4096 + 2) (mcAddr d) data.length).foldl (hostWritePiece c (mcAddr d) data)
      { s := s, stop := false, asks := [] }
    let s := updCmd q.s c (dTag d) (dGen d) fun k =>
      { k with status := if q.stop then stPoisoned else if short then stHostDma else stDone, asks := q.asks, data := data,
               len := data.length }
    askReads s c q.asks

/-- MEM_WRITE: from host memory to the context range or a test window (R339, R340, R400, R445). -/
def execMemWrite (c : CtxId) (data : List Byte) (s : State) : Host.Outcome State Fault Refusal :=
  .next (command s c (isOpc opWRITE) (fun d => memReject s c d true) (memBound s c)
    (fun d => { cmdOf d with haddr := mcHost d, caddr := mcAddr d, len := mcLen d }) (memWriteEffect c data))

/-! ## MEM_MAP: operands and conditions -/

def mmOp (d : Desc) : Nat := dNat d 24 1
def mmTier (d : Desc) : Tier := match dNat d 25 1 with | 0 => .t1 | 1 => .t2 | _ => .t3
def mmPort (d : Desc) : BitVec 3 := BitVec.ofNat 3 (dNat d 26 1)
def mmVer (d : Desc) : Bool := dNat d 27 1 % 2 == 1
def mmHold (d : Desc) : Bool := dNat d 27 1 / 2 % 2 == 1
def mmHostvis (d : Desc) : Bool := dNat d 27 1 / 4 % 2 == 1
def mmCount (d : Desc) : Nat := dNat d 28 4
def mmFirst (d : Desc) : Nat := dNat d 32 8 / frameBytes
def mmPages (d : Desc) : List Nat := (List.range (mmCount d)).map (mmFirst d + ·)
def mmSrcCtx (d : Desc) : CtxId := (BitVec.ofNat 2 (dNat d 40 1)).toFin
def mmSrcPage (d : Desc) (i : Nat) : Nat := dNat d 48 8 / frameBytes + i
def mmPool (d : Desc) (i : Nat) : Nat := dNat d 56 8 / frameBytes + i

/-- The first page of the range that fails a condition (R264). -/
def failAt (d : Desc) (bad : Nat → Nat → Bool) (code : Reject) : Option (Reject × Nat) :=
  ((mmPages d).zipIdx.find? fun e => bad e.1 e.2).map fun e => (code, e.2)

/-- Test a residency at a page; a page that is not mapped fails nothing here. -/
def onResid (s : State) (c : CtxId) (p : Nat) (f : Resid → Bool) : Bool :=
  match residAt s c p with
  | some r => f r
  | none => false

/-- MAP of the pages up to index `i` would pass the context's quota in the tier, or in T1 with the tables it needs (R257,
R261). -/
def mapOver (s : State) (c : CtxId) (d : Desc) (i : Nat) : Bool :=
  let w := if mmVer d then 2 else 1
  let lack := tablesLacking s c ((mmPages d).take (i + 1))
  let t1 := (if mmTier d == .t1 then w * (i + 1) else 0) + lack
  (mmTier d != .t1 && decide (quota s c (mmTier d) < owned s c (mmTier d) + i + 1)) ||
    decide (quota s c .t1 < owned s c .t1 + t1 ∧ 0 < t1)

/-- A place that stands for the target of a move while quotas are counted. -/
def markLoc (t : Tier) : Loc := { tier := t, port := 0, frame := 0, lentTo := 0 }

/-- PROMOTE page by page: the first that its owner's quota does not allow (R261, R265). -/
def promoteOver (c : CtxId) (t : Tier) : Nat → List Nat → State → Option Nat
  | _, [], _ => none
  | i, p :: l, s =>
    match residAt s c p with
    | none => promoteOver c t (i + 1) l s
    | some r =>
      if r.mig.isSome then promoteOver c t (i + 1) l s
      else if quota s r.owner t < owned s r.owner t + 1 then some i
      else
        promoteOver c t (i + 1) l (updHbm s fun h => updResid h r.id fun q =>
          { q with mig := some { dst := markLoc t, moved := [], got := 0, late := [] },
                   evicting := if q.owner == c then none else q.evicting })

/-- What EVICT does with a residency (R267). -/
inductive EvAct where
  | move | pass (heir : CtxId) | defer | keep
  deriving DecidableEq, Repr

/-- Other contexts that hold a residency. -/
def otherHolders (r : Resid) (c : CtxId) : List CtxId :=
  (List.finRange 4).filter fun o => o != c && r.holds.getLsbD o.val

def evictAct (s : State) (c : CtxId) (r : Resid) : EvAct :=
  let hs := otherHolders r c
  if hs.isEmpty then .move
  else
    match hs.find? fun o => decide (owned s o r.loc.tier + weight r ≤ quota s o r.loc.tier) with
    | some o => .pass o
    | none => if r.evicting.isSome then .keep else .defer

/-- EVICT page by page: what becomes of each, and the first that the quota does not allow. -/
def evictPlan (c : CtxId) (t : Tier) : Nat → List Nat → State → List (Nat × EvAct) × Option Nat
  | _, [], _ => ([], none)
  | i, p :: l, s =>
    match residAt s c p with
    | none => evictPlan c t (i + 1) l s
    | some r =>
      let act := if r.mig.isSome then .keep else evictAct s c r
      let full := (act == .move || act == .defer) && decide (quota s c t < owned s c t + 1)
      if full then ([], some i)
      else
        let s := updHbm s fun h => updResid h r.id fun q =>
          match act with
          | .move => { q with mig := some { dst := markLoc t, moved := [], got := 0, late := [] } }
          | .pass o => { q with owner := o, evicting := none }
          | .defer => { q with evicting := some (markLoc t) }
          | .keep => q
        let (plan, e) := evictPlan c t (i + 1) l s
        ((i, act) :: plan, e)

/-- The conditions of Table 9.6 that come before a lender is asked. -/
def mapPre (s : State) (c : CtxId) (d : Desc) : Option (Reject × Nat) :=
  let nm := failAt d (fun p _ => (residAt s c p).isNone) rjNotMapped
  let am := failAt d (fun p _ => (residAt s c p).isSome) rjMapped
  let anyBusyOf (r : Resid) : Bool := (mappers s r.id).any (busy s)
  if notOpen s c then some (rjNotOpen, 0)
  else
    match mmOp d with
    | 0 => am <|> failAt d (fun _ i => mapOver s c d i) rjQuota
    | 1 =>
      nm <|> failAt d (fun p _ => onResid s c p fun r => r.owner == c && (mappers s r.id).any (· != c)) rjShared <|>
        failAt d (fun p _ => onResid s c p anyBusyOf) rjBusy
    | 2 =>
      failAt d (fun _ i => (residAt s (mmSrcCtx d) (mmSrcPage d i)).isNone) rjNotMapped <|> am <|>
        failAt d (fun _ i => let n := tablesLacking s c ((mmPages d).take (i + 1))
                             decide (0 < n ∧ quota s c .t1 < owned s c .t1 + n)) rjQuota
    | 3 =>
      nm <|> failAt d (fun p _ => onResid s c p fun r => decide (tierCode r.loc.tier ≤ tierCode (mmTier d))) rjTier <|>
        (promoteOver c (mmTier d) 0 (mmPages d) s).map fun i => (rjQuota, i)
    | 4 => failAt d (fun p _ => !onResid s c p fun r => r.holds.getLsbD c.val) rjNotHeld
    | _ =>
      failAt d (fun p _ => !onResid s c p fun r => r.owner == c) rjNotOwner <|>
        failAt d (fun p _ => onResid s c p fun r => decide (tierCode (mmTier d) ≤ tierCode r.loc.tier)) rjTier <|>
        (evictPlan c (mmTier d) 0 (mmPages d) s).2.map fun i => (rjQuota, i)

/-- A trained port of a neighbour is named (R254). -/
def neighbourOk (s : State) (d : Desc) : Bool :=
  match portOfTgt (mmPort d).toNat with
  | some p => trained s p
  | none => false

/-- The conditions that come after a lender has answered: NOT_NEIGHBOUR, VERSIONED_PAGE, HOST_VISIBLE, BUSY_CONTEXT. -/
def mapPost (s : State) (c : CtxId) (d : Desc) : Option (Reject × Nat) :=
  let moving := mmOp d == 3 || mmOp d == 5
  let what (i p : Nat) (f : Resid → Bool) : Bool :=
    if mmOp d == 2 then onResid s (mmSrcCtx d) (mmSrcPage d i) f else (moving && onResid s c p f)
  (if (mmOp d == 0 || moving) && mmTier d == .t2 && !neighbourOk s d then some (rjNeighbour, 0) else none) <|>
    failAt d (fun p i => what i p fun r => r.ver) rjVersioned <|>
    failAt d (fun p i => what i p fun r => r.hostvis) rjHostVisible <|>
    failAt d (fun p _ => mmOp d == 5 && onResid s c p fun r => (mappers s r.id).any (busy s)) rjBusy

/-! ## MEM_MAP: lenders -/

/-- Pages of an EVICT that go to its target now or later. -/
def evictMoves (s : State) (c : CtxId) (d : Desc) : List Nat :=
  ((evictPlan c (mmTier d) 0 (mmPages d) s).1.filter fun e => e.2 == .move || e.2 == .defer).map (·.1)

/-- The lender or buddy that a command asks: its port, the index of the first page asked for, and the lend block. -/
def lendNeed (s : State) (c : CtxId) (d : Desc) : Option (PortId × Nat × Ask × List Byte) :=
  let port := (portOfTgt (mmPort d).toNat).getD 0
  match mmOp d with
  | 0 =>
    if mmVer d then
      (if hasBuddy s then some (4, 0, .lend true, lendBlock (mmCount d) 1 (mmFirst d * frameBytes)) else none)
    else if mmTier d == .t2 then some (port, 0, .lend false, lendBlock (mmCount d) 0 0)
    else none
  | 3 => if mmTier d == .t2 then some (port, 0, .lend false, lendBlock (mmCount d) 0 0) else none
  | 5 =>
    let l := evictMoves s c d
    match l with
    | i :: _ => if mmTier d == .t2 then some (port, i, .lend false, lendBlock l.length 0 0) else none
    | [] => none
  | _ => none

/-- Bound of MEM_MAP (Table 15.15). -/
def mapBound (s : State) (c : CtxId) (d : Desc) : Option Nat :=
  let n := mmCount d * (if mmVer d then 2 * frameBytes else frameBytes)
  let plain : Tier → Nat := fun t => match t with | .t1 => 64000 | .t2 => 4000 | .t3 => cmdRate s
  let moving : Tier → Nat := fun t => match t with | .t1 => 64000 | .t2 => 800 | .t3 => s.boot.cfg.t3Rate
  let rate :=
    if mmOp d == 3 || mmOp d == 5 then
      (mmPages d).foldl (fun m p => match residAt s c p with | some r => min m (moving r.loc.tier) | none => m) (moving (mmTier d))
    else plain (mmTier d)
  (moveTime n rate 1).map (50000 + ·)

/-! ## MEM_MAP: effects -/

/-- MAP: one residency a page, in own frames, in frames a lender has granted, or in the pool (Table 9.6, R336). None when no
frame is left. -/
def mapPages (c : CtxId) (d : Desc) (frames : List Nat) : Nat → List Nat → State → Option State
  | _, [], s => some s
  | i, p :: l, s =>
    match mmTier d with
    | .t1 =>
      match (if mmVer d then allocPair s p else allocFrame s) with
      | none => none
      | some (f, s) =>
        mapPages c d frames (i + 1) l
          (makeResid s c p { tier := .t1, port := 0, frame := f, lentTo := c } (mmVer d) (mmHostvis d))
    | .t2 =>
      mapPages c d frames (i + 1) l
        (makeResid s c p { tier := .t2, port := mmPort d, frame := frames.getD i 0, lentTo := c } false false)
    | .t3 =>
      mapPages c d frames (i + 1) l
        (makeResid s c p { tier := .t3, port := 0, frame := mmPool d i, lentTo := c } false false)

def applyMap (s : State) (c : CtxId) (d : Desc) (frames : List Nat) : Option State :=
  (growTables c (tablesLacking s c (mmPages d)) s).bind (mapPages c d frames 0 (mmPages d))

def applyUnmap (s : State) (c : CtxId) (d : Desc) : State :=
  let (s, f) := unmapAll s c (mmPages d)
  sendFrees s (.host c) f

def applyShare (s : State) (c : CtxId) (d : Desc) : Option State :=
  (growTables c (tablesLacking s c (mmPages d)) s).map fun s =>
    ((mmPages d).zipIdx).foldl (fun s e =>
      match ovGet s.ctxs[mmSrcCtx d].pages (mmSrcPage d e.2) with
      | some id => mapIn s c e.1 id
      | none => s) s

/-- PROMOTE: a migration of each residency up; a hold of this context; the owner's own PROMOTE ends a pending eviction (R265,
R266, R268). Answers the state, the migrations begun and the frames set free. -/
def promotePages (c : CtxId) (d : Desc) (frames : List Nat) :
    Nat → List Nat → State → List Nat → Frees → Option (State × List Nat × Frees)
  | _, [], s, m, f => some (s, m, f)
  | i, p :: l, s, m, f =>
    match residAt s c p with
    | none => promotePages c d frames (i + 1) l s m f
    | some r =>
      let s := updHbm s fun h => updResid h r.id fun q => { q with holds := if mmHold d then q.holds ||| ctxBit c else q.holds }
      let f := if r.owner == c then f ++ (match r.evicting with | some e => freesOf e | none => []) else f
      let s := if r.owner == c then updHbm s fun h => updResid h r.id fun q => { q with evicting := none } else s
      if r.mig.isSome then promotePages c d frames (i + 1) l s m f
      else
        match mmTier d with
        | .t1 =>
          match allocFrame s with
          | none => none
          | some (fr, s) =>
            promotePages c d frames (i + 1) l (startMig s r.id { tier := .t1, port := 0, frame := fr, lentTo := c }) (m ++ [r.id]) f
        | _ =>
          promotePages c d frames (i + 1) l
            (startMig s r.id { tier := .t2, port := mmPort d, frame := frames.getD i 0, lentTo := c }) (m ++ [r.id]) f

def applyRelease (s : State) (c : CtxId) (d : Desc) : State :=
  (mmPages d).foldl (fun s p =>
    match residAt s c p with
    | some r => updHbm s fun h => updResid h r.id fun q => { q with holds := q.holds &&& ~~~(ctxBit c) }
    | none => s) s

/-- EVICT as planned (R267): answers the state, the migrations begun and how many pages are deferred. -/
def evictPages (c : CtxId) (d : Desc) : List (Nat × EvAct) → List Nat → State → List Nat → Nat → State × List Nat × Nat
  | [], _, s, m, n => (s, m, n)
  | (i, act) :: l, frames, s, m, n =>
    match residAt s c (mmFirst d + i) with
    | none => evictPages c d l frames s m n
    | some r =>
      let dst : Loc :=
        if mmTier d == .t2 then { tier := .t2, port := mmPort d, frame := frames.headD 0, lentTo := c }
        else { tier := .t3, port := 0, frame := mmPool d i, lentTo := c }
      match act with
      | .move => evictPages c d l frames.tail (startMig s r.id dst) (m ++ [r.id]) n
      | .pass o =>
        let s := sendFrees s (.host c) (match r.evicting with | some e => freesOf e | none => [])
        evictPages c d l frames (updHbm s fun h => updResid h r.id fun q => { q with owner := o, evicting := none }) m n
      | .defer =>
        evictPages c d l frames.tail (updHbm s fun h => updResid h r.id fun q => { q with evicting := some dst }) m (n + 1)
      | .keep => evictPages c d l frames s m (if r.evicting.isSome then n + 1 else n)

/-- The whole effect of a page operation: the state, what its completion waits for and reports; none when no frame is left. -/
def mapEffect (s : State) (c : CtxId) (d : Desc) (frames : List Nat) : Option (State × List Nat × Nat) :=
  match mmOp d with
  | 0 => (applyMap s c d frames).map fun s => (s, [], 0)
  | 1 => some (applyUnmap s c d, [], 0)
  | 2 => (applyShare s c d).map fun s => (s, [], 0)
  | 3 => (promotePages c d frames 0 (mmPages d) s [] []).map fun e => (sendFrees e.1 (.host c) e.2.2, e.2.1, 0)
  | 4 => some (applyRelease s c d, [], 0)
  | _ => some (evictPages c d (evictPlan c (mmTier d) 0 (mmPages d) s).1 frames s [] 0)

/-- Accept a page operation with the frames it has been granted, or reject it when no frame is left for it (a pair, a frame
beyond a fragmented store; notes/assumptions/49). -/
def acceptMap (s : State) (c : CtxId) (d : Desc) (frames : List Nat) (back : State → State) : State :=
  match mapPost s c d with
  | some e => back (reject s c d e.1 e.2)
  | none =>
    if tooLate s d (mapBound s c d) then back (reject s c d rjDeadline 0)
    else
      match mapEffect (accept s c d (promiseFor s (mapBound s c d)) 0 (cmdOf d)) c d frames with
      | none => back (reject s c d rjQuota 0)
      | some (s, migs, n) =>
        updCmd s c (dTag d) (dGen d) fun k =>
          { k with migs := migs, count := BitVec.ofNat 32 n, status := if 0 < n then stDeferred else stDone }

/-- Send the LEND_REQ of a page operation; the ring waits for the answer (R261, R294). -/
def askLender (s : State) (c : CtxId) (d : Desc) (e : PortId × Nat × Ask × List Byte) : State :=
  let tag := ((drawTag s).map (·.1)).getD 0
  let s := startTxn s e.1 (.host c) e.2.2.1 c 0 0 pkLendReq 16 e.2.2.2
  updRing s c fun r => { r with lend := some { opc := BitVec.ofNat 8 (dOpc d), op := BitVec.ofNat 8 (mmOp d), desc := d, tag := tag,
                                               first := e.2.1, frames := [] } }

/-- The page engine takes up a descriptor of MEM_MAP: it asks the lender or buddy concerned, and accepts or rejects. -/
def mapDesc (s : State) (c : CtxId) (d : Desc) : State :=
  match commonReject s c d with
  | some e => reject s c d e 0
  | none =>
    match mapPre s c d with
    | some e => reject s c d e.1 e.2
    | none =>
      match lendNeed s c d with
      | none => acceptMap s c d [] id
      | some e =>
        if e.2.2.1 == .lend false && !neighbourOk s d then reject s c d rjNeighbour 0
        else askLender s c d e

/-- A row of MEM_MAP: the page engine takes up one operation at a time, in the order of their arrival (R269). A question that a
halt has cut off is put again (notes/assumptions/11). -/
def mapRow (s : State) (c : CtxId) (op : Nat) : State :=
  let s := if (s.host.rings[c].lend).isSome && !waitsFor s (.host c) then updRing s c fun r => { r with lend := none } else s
  match headDesc s c with
  | none => s
  | some d =>
    if !((isOpc opMAP d && (mmOp d == op || decide (5 < mmOp d))) || reservedOpc d) then s
    else if !isOpc opMAP d then mapDesc s c d
    else if (s.host.rings[c].lend).isSome && !s.hardFault then s
    else
      match pageTurn s c with
      | (s, false) => s
      | (s, true) => mapDesc s c d

/-- MAP (Table 9.6, R257, R261, R336). -/
def execMap (c : CtxId) (s : State) : Host.Outcome State Fault Refusal := .next (mapRow s c 0)

/-- UNMAP (Table 9.6, R266, R271). -/
def execUnmap (c : CtxId) (s : State) : Host.Outcome State Fault Refusal := .next (mapRow s c 1)

/-- SHARE (Table 9.6, R263). -/
def execShare (c : CtxId) (s : State) : Host.Outcome State Fault Refusal := .next (mapRow s c 2)

/-- PROMOTE (Table 9.6, R265, R266, R268). -/
def execPromote (c : CtxId) (s : State) : Host.Outcome State Fault Refusal := .next (mapRow s c 3)

/-- RELEASE (Table 9.6, R266). -/
def execRelease (c : CtxId) (s : State) : Host.Outcome State Fault Refusal := .next (mapRow s c 4)

/-- EVICT (Table 9.6, R267, R271). -/
def execEvict (c : CtxId) (s : State) : Host.Outcome State Fault Refusal := .next (mapRow s c 5)

/-! ## RESP (R292, R294, R306, R312, R356, R398) -/

/-- Lend answers: the frames granted, in order. -/
def grantedFrames (t : Txn) (n : Nat) : List Nat := (List.range n).map fun i => memNat t.data (4 * i) 4

/-- What is given back when a page operation is rejected after its lender has agreed. -/
def giveBack (c : CtxId) (d : Desc) (t : Txn) (frames : List Nat) (s : State) : State :=
  if t.ask == .lend true then (mmPages d).foldl (fun s p => freeMirror s (.host c) c p) s
  else sendFrees s (.host c) (frames.map fun f => (t.port, c, f))

/-- The answer to a LEND_REQ: the page operation that waits for it is accepted or rejected (R261, R294). -/
def lendAnswered (s : State) (c : CtxId) (t : Txn) (status : BitVec 6) : State :=
  match s.host.rings[c].lend with
  | none => s
  | some w =>
    let d := w.desc
    let s := updRing s c fun r => { r with lend := none }
    if status.getLsbD 0 then reject s c d (if status.getLsbD 1 then rjLend else rjRemote) w.first
    else
      let n := match lendNeed s c d with | some e => sliceNat e.2.2.2 0 4 | none => 0
      let frames := grantedFrames t n
      let back := giveBack c d t frames
      match commonReject s c d with
      | some e => back (reject s c d e 0)
      | none =>
        match mapPre s c d with
        | some e => back (reject s c d e.1 e.2)
        | none => acceptMap s c d frames back

/-- Data of a T2 page for a host command: to host memory for MEM_READ; for a MEM_WRITE a unit that it writes in part, which
goes back with its bytes. -/
def hostAnswered (s : State) (c : CtxId) (t : Txn) : State :=
  match s.host.rings[c].cmds.find? fun k => k.asks.contains (t.addr, t.len) with
  | none => s
  | some k =>
    let s := updCmd s c k.tag k.gen fun k => { k with asks := k.asks.erase (t.addr, t.len) }
    let lo := max t.addr k.caddr
    let hi := min (t.addr + t.len) (k.caddr + k.len)
    if k.opc.toNat = opREAD then
      hostWrite s (k.haddr + (lo - k.caddr)) (memBytes t.data (lo - t.addr) (hi - lo))
    else
      match mapped s c t.addr with
      | none => s
      | some r =>
        let s := match r.mig with
          | some m => updHbm s fun h => updResid h r.id fun z =>
              { z with mig := some { m with late := (List.range (hi - lo)).foldl (fun o i =>
                  ovPut o ((lo + i) % frameBytes) (k.data.getD (lo + i - k.caddr) 0)) m.late } }
          | none => s
        sendUnits s c r [t.addr] fun a => if lo ≤ a && a < hi then k.data.getD (a - k.caddr) 0 else memGet t.data (a - t.addr)

/-- Hand the data of an answered transaction to what asked for it. -/
def answered (s : State) (t : Txn) : State :=
  let moved := (List.range t.len).foldl (fun m i => memPut m (t.addr + i) (memGet t.data i))
  let read := t.ask == .read
  match t.who with
  | .chan g k =>
    if !read then s
    else updRegion s g fun r => updChan r k fun q => { q with run := q.run.map fun x => { x with fetched := moved x.fetched } }
  | .solver g => if !read then s else updRegion s g fun r => { r with mfetched := moved r.mfetched }
  | .feed g c =>
    if !read then s
    else
      match s.regions[g].clusters[c].cur with
      | none => s
      | some b =>
        updRegion s g fun r => updCluster r c fun cl => updBank cl b fun k =>
          { k with run := k.run.map fun x => { x with fetched := moved x.fetched } }
  | .page id => if read then takeMig s id t.data else s
  | .restore c => if read then takeRestore s c t.addr t.data else s
  | .rebuild c => if t.ask == .lend true then sendRebuild s c else pumpRebuild s c
  | .host c => if read then hostAnswered s c t else s
  | .digest _ => s
  | .tile _ => s
  | .lock => s

/-- The place and context of what a transaction serves: the region, cluster and stream of an operation, with its context address
(Table 13.6). -/
def whoRec (s : State) (t : Txn) : Rec :=
  let at_ (r : Rec) : Rec := { r with caddr := BitVec.ofNat 64 t.addr }
  match t.who with
  | .chan g k =>
    let r := { regionRec s g with stream := match s.regions[g].chans[k].run with | some x => BitVec.ofNat 2 x.op.stream.val | none => 3 }
    if t.ask == .send || t.ask == .cross then r else at_ r
  | .solver g =>
    at_ { regionRec s g with stream := match s.regions[g].mrun, s.regions[g].mq with
      | some m, _ => BitVec.ofNat 2 m.op.stream.val
      | none, m :: _ => BitVec.ofNat 2 m.stream.val
      | none, [] => 3 }
  | .feed g c =>
    let cl := s.regions[g].clusters[c]
    at_ { regionRec s g with
      cluster := BitVec.ofNat 8 c.val,
      stream := match (cl.cur.bind fun b => cl.banks[b].run).bind (·.parts.getLast?) with
        | some p => BitVec.ofNat 2 p.stream.val
        | none => 3 }
  | .host c => at_ { blankRec s with ctx := some c }
  | _ => blankRec s

/-- The record of a remote error (R398, Tables 13.6, 13.8). -/
def remoteRec (s : State) (c : Option CtxId) (t : Txn) : Rec :=
  { whoRec s t with source := srcHbmRemote, ctx := c, ref := some (neighbourCoords s t.port) }

/-- The channel operation of a transaction ends without its completion point. -/
def failChan (s : State) (g : RegionId) (k : ChanId) : State :=
  updRegion s g fun r => updChan r k fun q => { q with run := q.run.map fun x => { x with phase := .failed } }

/-- ERROR for a page request or a mirror write: the operation that asked stops, and REMOTE_BUS_ERROR is raised (R398); for a
DSEND, FABRIC_ADDRESS (R305). -/
def refused (s : State) (t : Txn) : State :=
  let fault (s : State) (c : Option CtxId) : State :=
    raiseFault s { cause := cRemoteBusError, ctx := c, rcd := remoteRec s c t }
  match t.who with
  | .chan g k =>
    if t.ask == .send || t.ask == .cross then regionFault (failChan s g k) g cFabricAddress
    else fault (failChan s g k) (s.regions[g].ctx)
  | .solver g => fault (updRegion s g fun r => { r with mrun := r.mrun.map fun m => { m with failed := true } }) (s.regions[g].ctx)
  | .feed g c =>
    let s' := updRegion s g fun r => updCluster r c fun cl =>
      match cl.cur with
      | some b => { updBank cl b (fun _ => Bank.reset) with cur := none }
      | none => cl
    fault s' (s.regions[g].ctx)
  | .page id => fault (updHbm s fun h => updResid h id fun q => { q with mig := none }) none
  | .restore c => fault s (some c)
  | .rebuild c => fault s (some c)
  | .host c =>
    let s := updRing s c fun r =>
      { r with cmds := r.cmds.map fun k => if k.blocks then { k with status := stPoisoned, asks := [] } else k }
    fault s (some c)
  | .digest c => fault s (some c)
  | .tile c => fault ((s.digestCmps.filter fun q => q.ctx == c).foldl (fun s q => reportCmp s q 0xFFFFFFFF) s) (some c)
  | .lock => fault s none

/-- A LEND_REQ is what the transaction asked. -/
def isLend (a : Ask) : Bool := a == .lend true || a == .lend false

/-- RESP: the response ends its transaction, whose tag is free again; one that matches none is dropped and counted (R292,
R306, R311, R312). -/
def execResp (l : Link) (f : Flit) (s : State) : Host.Outcome State Fault Refusal :=
  .next (receiveNow s l f (fun h => hType h == tyRESP) fun s =>
    match respTxn s l f.hdr with
    | none => updFab s fun b => { b with stale := b.stale + 1 }
    | some t =>
      let s := freeTxn s t
      let status := hRreg f.hdr
      match t.who, isLend t.ask with
      | .host c, true => lendAnswered s c t status
      | _, _ => if status.getLsbD 0 then refused s t else answered s t)

end Sys2Proof.Machine
end

