-- ==== Sys2Proof/Machine/Gated.lean ====
section
/-! DEFINITION. Attestation, and the commands that need the presence window (R399 to R403, R458 to R465, R473 to R475): writing
an image, checker test mode, debug access and the owner block. -/

namespace Sys2Proof.Machine

/-- Some context is busy. -/
def busyReject (s : State) : Option (Reject × Nat) := firstReject [(anyBusy s, rjBusy)]

def setStatus (s : State) (c : CtxId) (d : Desc) (st : BitVec 16) : State :=
  updCmd s c (dTag d) (dGen d) fun k => { k with status := st }

/-! ## ATTEST (R462, R463) -/

/-- The device identity private key (R462). -/
def deviceKey (fu : Fuses) : List Byte := shake256 (leBytes 32 fu.secret.toNat ++ ascii "VLB-LX4-DIK") 57

/-- STATE of the report (Table 15.22). -/
def attestState (s : State) : Byte :=
  BitVec.ofBool s.hardFault ++ BitVec.ofBool s.boot.cosigned ++ BitVec.ofBool s.test.isSome ++ BitVec.ofBool s.debug ++
    BitVec.ofBool s.boot.jumper ++ BitVec.ofBool s.presence.isOpen ++ BitVec.ofBool s.boot.sealBroken ++ BitVec.ofBool s.boot.slotB

/-- Bytes 0 to 255 of the report, which are signed. -/
def attestSigned (s : State) (nonce : List Byte) : List Byte :=
  [0x41, 0x54, 0x53, 0x54] ++ leBytes 2 1 ++ leBytes 2 512 ++ leBytes 8 s.fuses.serial.toNat ++ padTo 32 nonce ++
    shake256 s.boot.measured 64 ++ (match s.boot.ownerK with | some k => shake256 k 64 | none => List.replicate 64 0) ++
    padTo 57 (edPublic (deviceKey s.fuses)) ++ [0] ++ leBytes 2 s.fuses.romVer.toNat ++ leBytes 8 (now s) ++
    [attestState s, 0, 0, 0] ++ [gradeCode s.fuses.grade, BitVec.ofNat 8 (nreg s)] ++ List.replicate 6 0

/-- The attestation report (Table 15.22). -/
def attestReport (s : State) (nonce : List Byte) : List Byte :=
  let l := attestSigned s nonce
  l ++ padTo 128 (edSign (deviceKey s.fuses) (ascii "VLB-LX4-ATTEST") (shake256 l 64)) ++ padTo 128 (s.fuses.vendorCert.take 114)

/-- ATTEST: the report is signed and written to HADDR; ATTESTATION follows at completion (R447, R463). -/
def execAttest (c : CtxId) (s : State) : Host.Outcome State Fault Refusal :=
  .next (command s c (isOpc opATTEST) (fun _ => none) (fun _ => (moveTime 512 (cmdRate s) 1).map fun _ => 20000000)
    (fun d => { cmdOf d with haddr := dNat d 56 8 })
    fun d s => hostWrite s (dNat d 56 8) (attestReport s (leBytes 32 (dNat d 24 32))))

/-! ## CFG_WRITE (R459, R473) -/

/-- The effect of CFG_WRITE: the staged image is verified before anything is erased; the slot's record is erased, then its
sectors, and the image is programmed. The record is programmed at the completion (`endCfgWrite`); a device error leaves it not
complete. -/
def cfgEffect (c : CtxId) (image : List Byte) (devOk : Bool) (d : Desc) (s : State) : State :=
  let len := dNat d 32 4
  let l := image.take len
  let t := !s.boot.slotB
  if l.length < len ∨ (imageReason s.fuses s.boot.ownerK s.boot.ownerP l len).isSome then setStatus s c d stImage
  else if !devOk then setStatus { s with flash := flashInvalidate s.flash t } c d stFlash
  else { s with flash := flashImage s.flash t l }

/-- CFG_WRITE: writes a verified image into the slot that did not boot (R458, R459, R473). -/
def execCfgWrite (c : CtxId) (image : List Byte) (devOk : Bool) (s : State) : Host.Outcome State Fault Refusal :=
  .next (command s c (isOpc opCFG) (fun _ => busyReject s)
    (fun d => some (1000000000 + ceilDiv (4000000000 * dNat d 32 4) 1048576)) (fun d => { cmdOf d with len := dNat d 32 4 })
    (cfgEffect c image devOk))

/-! ## TEST_MODE (R399, R402) -/

/-- Test mode ends: both windows are written with zeros and valid check bits, and the frame is free (R402). -/
def endTest (s : State) : State :=
  match s.test with
  | none => s
  | some t =>
    let clear (m : Sram) : Sram :=
      { mem := memZero m.mem 0xFF0000 0x10000, chk := m.chk.filter fun e => !(0xFF000 ≤ e.1 && e.1 < 0x100000) }
    let s := updRegion s t.region fun r =>
      { r with scratch := clear r.scratch,
               writeBacks := r.writeBacks.filter fun e => !(e.1 == .scratch && 0xFF000 ≤ e.2 && e.2 < 0x100000) }
    let s := updHbm s fun h => hbmZero h (t.frame * frameBytes) 1048576
    { s with test := none }

def tmRegion (d : Desc) : RegionId := (BitVec.ofNat 6 (dNat d 25 1)).toFin
def tmFrame (d : Desc) : Nat := dNat d 28 4

/-- The frame is not one of T1, or not free. -/
def frameTaken (s : State) (f : Nat) : Bool := decide (frameCount ≤ f) || (usedFrames s).contains f

/-- TEST_MODE_ENABLE: TEST_MODE with option ENABLE (R399). -/
def execTestModeEnable (c : CtxId) (s : State) : Host.Outcome State Fault Refusal :=
  .next (command s c (fun d => isOpc opTEST d && dNat d 24 1 != 0)
    (fun d => firstReject [(anyBusy s, rjBusy), (frameTaken s (tmFrame d), rjFrame)]) (fun _ => some 1000000) cmdOf
    fun d s => { endTest s with test := some { region := tmRegion d, frame := tmFrame d } })

/-- TEST_MODE_DISABLE: TEST_MODE with option DISABLE (R402). -/
def execTestModeDisable (c : CtxId) (s : State) : Host.Outcome State Fault Refusal :=
  .next (command s c (fun d => isOpc opTEST d && (dNat d 24 1 == 0 || decide (1 < dNat d 24 1))) (fun _ => busyReject s)
    (fun _ => some 1000000) cmdOf fun _ s => endTest s)

/-! ## DEBUG_ENABLE -/

/-- DEBUG_ENABLE: QUERY with selector DEBUG is answered until the next module reset (R461). -/
def execDebugEnable (c : CtxId) (s : State) : Host.Outcome State Fault Refusal :=
  .next (command s c (isOpc opDEBUG) (fun _ => busyReject s) (fun _ => some 1000000) cmdOf fun _ s => { s with debug := true })

/-! ## OWNER_ENROL (R465, R475) -/

/-- The checks of R465 on the 192-byte record. -/
def enrolOk (k : Option (List Byte)) (l : List Byte) : Bool :=
  decide (192 ≤ l.length) && allZero l 57 7 &&
    (match k with
     | some k => edVerify k [] (shake256 (l.take 64) 64) (sliceBytes l 64 114)
     | none => allZero l 64 114)

/-- An owner block copy (Table 16.4). -/
def ownerBlock (seq : Nat) (k p : List Byte) : List Byte :=
  let l := [0x4F, 0x57, 0x4E, 0x42] ++ leBytes 4 seq ++ padTo 64 k ++ padTo 64 p
  l ++ shake256 l 64 ++ List.replicate 56 0

/-- The copy that an enrolment writes, and its SEQ: the copy that is not in force, or copy 1 when neither is valid (R475). -/
def enrolCopy (f : Flash) : Nat × Nat :=
  match ownerCopy f with
  | some 0 => (1, (ownerSeq f 0 + 1).toNat)
  | some _ => (0, (ownerSeq f 1 + 1).toNat)
  | none => (1, 1)

/-- The effect of OWNER_ENROL; a device error leaves the former copy in force. -/
def enrolEffect (c : CtxId) (record : List Byte) (devOk : Bool) (d : Desc) (s : State) : State :=
  if !enrolOk s.boot.ownerK record then setStatus s c d stSignature
  else
    let (i, seq) := enrolCopy s.flash
    let key := sliceBytes record 0 57
    let put (l : List Byte) : State := { s with flash := { s.flash with sec := s.flash.sec.set (2 + i) (secHolding l) } }
    if !devOk then setStatus (put []) c d stFlash
    else
      let t := put (ownerBlock seq key (s.boot.ownerK.getD []))
      { t with boot := { t.boot with ownerK := keyOf key, ownerP := s.boot.ownerK } }

/-- OWNER_ENROL: checks the signature and writes a new copy of the owner block (R458, R465, R475). -/
def execOwnerEnrol (c : CtxId) (record : List Byte) (devOk : Bool) (s : State) : Host.Outcome State Fault Refusal :=
  .next (command s c (isOpc opOWNER) (fun _ => busyReject s) (fun _ => some 10000000000) cmdOf (enrolEffect c record devOk))

end Sys2Proof.Machine
end

