-- ==== Sys2Proof/Machine/HostReg.lean ====
section
/-! DEFINITION. The host's registers, rings and memory window (R433, R436, R449 to R455): register accesses with an effect of
their own, the writing of messages, MSI-X, telemetry, and CXL.mem. -/

namespace Sys2Proof.Machine

/-! ## Reads with an effect -/

/-- GCOUNT_LATCH_READ: a 32-bit read of the low word returns it and latches the high half, which the next 32-bit read of the high
word returns (Table 15.6). -/
def execGcountLatchRead (high : Bool) (s : State) : Host.Outcome State Fault Refusal :=
  .next (if !hostUp s then s
  else if high then { s with host := { s.host with rdata := s.host.latch.setWidth 64 } }
  else
    { s with host := { s.host with rdata := (s.cnt.count.extractLsb' 0 32).setWidth 64, latch := s.cnt.count.extractLsb' 32 32 } })

/-- MDROP_READ: the read returns DROPS and clears it (R10, Table 15.8). -/
def execMdropRead (c : CtxId) (s : State) : Host.Outcome State Fault Refusal :=
  .next (if !hostUp s then s
  else
    let n := s.host.rings[c].mdrop
    let s := updRing s c fun r => { r with mdrop := 0 }
    { s with host := { s.host with rdata := n.setWidth 64 } })

/-! ## Register writes -/

/-- Replace the low or the high half of a 64-bit register. -/
def putHalf (v : W64) (high : Bool) (x : W32) : W64 :=
  if high then x ++ v.extractLsb' 0 32 else v.extractLsb' 32 32 ++ x

/-- The fields of TLMBASE that a write sets (Table 15.7). -/
def tlmFields (v : W64) : W64 := v &&& ~~~(0x1FFE : W64)

/-- The fields of MRBASE that a write sets (Table 15.8). -/
def mrbaseFields (v : W64) : W64 := v &&& ~~~(0xFFF : W64)

/-- A write of one to the bits of ERRSUM that it clears (Table 15.6). -/
def clearErrsum (h : HostIf) (v : W32) : HostIf :=
  { h with dbOverrun := h.dbOverrun && !v.getLsbD 3, hdmDenied := h.hdmDenied && !v.getLsbD 2,
           nestedSeen := h.nestedSeen && !v.getLsbD 1, uncorrSeen := h.uncorrSeen && !v.getLsbD 0 }

/-- A 32-bit write within a context block; MRBASE and MRSIZE stay while EN is 1 (R449). DB and MRCTL have commands of their own
and are not written here. -/
def writeRing (r : Ring) (off : Nat) (v : W32) : Ring :=
  match off with
  | 0x08 => if r.en then r else { r with mrbase := mrbaseFields (putHalf r.mrbase false v) }
  | 0x0C => if r.en then r else { r with mrbase := mrbaseFields (putHalf r.mrbase true v) }
  | 0x10 => if r.en then r else { r with mrsize := v.extractLsb' 0 5 }
  | 0x18 => { r with mrhead := v }
  | _ => r

/-- A 32-bit write at a BAR0 offset. -/
def writeReg (s : State) (off : Nat) (v : W32) : State :=
  let h := s.host
  if off = 0x30 then { s with host := clearErrsum h v }
  else if off = 0x48 then { s with host := { h with tlmbase := tlmFields (putHalf h.tlmbase false v) } }
  else if off = 0x4C then { s with host := { h with tlmbase := tlmFields (putHalf h.tlmbase true v) } }
  else if off = 0x50 then { s with host := { h with msimod := v &&& 0xFFFF } }
  else if 0x100 ≤ off ∧ off < 0x200 then
    updRing s (BitVec.ofNat 2 ((off - 0x100) / 0x40)).toFin fun r => writeRing r (off % 0x40) v
  else s

/-- REGISTER_WRITE: a write follows the register's access code; a 64-bit write is one of each half (R6, R10). -/
def execRegisterWrite (off : BitVec 16) (wide : Bool) (value : W64) (s : State) : Host.Outcome State Fault Refusal :=
  .next (if !hostUp s || off.toNat % (if wide then 8 else 4) != 0 then s
  else
    let s := writeReg s off.toNat (value.extractLsb' 0 32)
    if wide then writeReg s (off.toNat + 4) (value.extractLsb' 32 32) else s)

/-! ## Message rings (R449 to R453) -/

/-- Put a message at the front of a ring's queue; a full queue makes room as R450 gives. -/
def ringFront (r : Ring) (m : Msg) : Ring :=
  let q := ringPush r m
  if q.msgs.getLast? == some m then { q with msgs := m :: q.msgs.dropLast } else q

/-- RING_ENABLE: a write of MRCTL: EN from 0 to 1 starts the numbering of entries at 0, and writes a READY message first while
the module is READY (R449, R452). -/
def execRingEnable (c : CtxId) (value : W32) (s : State) : Host.Outcome State Fault Refusal :=
  .next (if !hostUp s then s
  else
    let en := value.getLsbD 8
    let rise := en && !s.host.rings[c].en
    let s := updRing s c fun r => { r with en := en, vec := value.extractLsb' 0 3, k := if rise then 0 else r.k }
    if rise && isReady s then
      let m : Msg := { type := mtReady, gen := 0, tag := 0, stamp := s.cnt.count, payload := padTo 48 (readyBytes s) }
      updRing s c fun r => ringFront r m
    else s)

/-- Entries of a ring. -/
def ringSize (r : Ring) : Nat := 2 ^ r.mrsize.toNat

/-- The 64 bytes of entry number `k` (Table 15.18). -/
def entryBytes (r : Ring) (c : CtxId) (k : Nat) (type : Byte) (m : Msg) (payload : List Byte) : List Byte :=
  let phase : Byte := if k.testBit r.mrsize.toNat then 0 else 0x80
  [type, phase, BitVec.ofNat 8 c.val, m.gen] ++ leBytes 4 m.tag.toNat ++ leBytes 8 m.stamp.toNat ++ padTo 48 payload

/-- The entries of a message: its own, and CONT entries for a payload of more than 48 bytes (R453). -/
def msgParts (m : Msg) : List (Byte × List Byte) :=
  if m.payload.length ≤ 48 then [(m.type, m.payload)] else [(m.type, m.payload.take 48), (mtCont, m.payload.drop 48)]

/-- Write entries into slots of the ring in host memory, from entry number `k` on. -/
def putEntries (r : Ring) (c : CtxId) (m : Msg) : Nat → List (Byte × List Byte) → Mem → Mem
  | _, [], h => h
  | k, e :: rest, h =>
    putEntries r c m (k + 1) rest
      (memPutBytes h (r.mrbase.toNat + 64 * (k % ringSize r)) (entryBytes r c k e.1 m e.2))

/-- MESSAGE_WRITE: the oldest queued message of a ring is written once the ring has room for its entries (R449, R451, R453). -/
def execMessageWrite (c : CtxId) (s : State) : Host.Outcome State Fault Refusal :=
  let r := s.host.rings[c]
  .next (match r.msgs with
  | [] => s
  | m :: rest =>
    let parts := msgParts m
    if !hostUp s || !r.en || decide (ringSize r < (r.mrtail - r.mrhead).toNat + parts.length) then s
    else
      let s := { s with hostMem := putEntries r c m r.k parts s.hostMem }
      let s := updRing s c fun q =>
        { q with msgs := rest, k := q.k + parts.length, mrtail := q.mrtail + BitVec.ofNat 32 parts.length }
      let h := s.host
      { s with host := { h with msix := h.msix.set r.vec.toFin { h.msix[r.vec.toFin] with due := true } } })

/-- MSIX_SEND: the message of a vector goes, no sooner than GAP after its previous one (R451). -/
def execMsixSend (v : Fin 8) (s : State) : Host.Outcome State Fault Refusal :=
  let x := s.host.msix[v]
  let early := match x.last with | some t => decide (elapsed s < t + 1000 * (s.host.msimod.extractLsb' 0 16).toNat) | none => false
  .next (if !hostUp s || !x.due || early then s
  else
    let h := s.host
    { s with host := { h with msix := h.msix.set v { due := false, last := some (elapsed s), sent := x.sent + 1 } } })

/-! ## Telemetry (R455, Tables 15.20, 17.5) -/

def le4s (l : List Nat) : List Byte := l.flatMap (leBytes 4)

/-- The power and thermal readings with what the module holds: LENV and FLAGS (Table 17.5). -/
def powerBytes (s : State) (env : TelemetryEnv) : List Byte :=
  padTo 128 (padTo 76 env.power ++ leBytes 4 (s.power.ienv / 1000) ++ leBytes 2 s.power.flags.toNat)

/-- The background shortfall: what the regions' work has fallen behind, and the readings of the HBM controllers (R369). -/
def shortfallBytes (s : State) (env : TelemetryEnv) : List Byte :=
  let own := s.regions.toList.foldl (fun b r => b ||| r.behind) 0
  padTo 8 ((env.shortfall.headD 0 ||| own) :: env.shortfall.drop 1)

/-- The telemetry block (Table 15.20). -/
def telemetryBlock (s : State) (env : TelemetryEnv) : List Byte :=
  let ports := List.finRange 6
  let regions := List.finRange 64
  leBytes 8 s.host.tseq.toNat ++ leBytes 8 s.host.tlmStart ++ leBytes 8 (now s) ++
    le4s (ports.flatMap fun p => s.ports[p].creditWait.toList) ++
    le4s (regions.flatMap fun g => s.regions[g].streams.toList.map fun st => st.creditBeats) ++
    le4s (ports.map fun p => s.ports[p].replays) ++ leBytes 4 s.fab.stale ++ [0, 0, 0, 0] ++
    (s.dfBytes.toList.flatMap (leBytes 8)) ++ le4s (regions.map fun g => s.regions[g].lateFills) ++ shortfallBytes s env ++
    (regions.flatMap fun g => leBytes 2 (regionBeat s g)) ++ powerBytes s env

/-- The counters of an interval start again. -/
def newInterval (s : State) : State :=
  let region (g : RegionId) : Region :=
    let r := s.regions[g]
    { r with lateFills := 0, behind := 0, streams := Vector.ofFn fun i : StreamId => { r.streams[i] with creditBeats := 0 } }
  let port (p : PortId) : Port := { s.ports[p] with creditWait := Vector.replicate 8 0, replays := 0 }
  { s with regions := Vector.ofFn region, ports := Vector.ofFn port, fab := { s.fab with stale := 0 },
           dfBytes := Vector.replicate 3 0, power := { s.power with lastFlags := s.power.flags, flags := 0 },
           host := { s.host with tseq := s.host.tseq + 1, tlmStart := now s } }

/-- TELEMETRY: 100 ms after the last block, while EN of TLMBASE is 1, a block is written and TELEMETRY is sent (R455). -/
def execTelemetry (env : TelemetryEnv) (s : State) : Host.Outcome State Fault Refusal :=
  .next (if !hostUp s || s.boot.phase != .ready || !s.host.tlmbase.getLsbD 0 || decide (now s < s.host.tlmStart + 100000000) then s
  else
    let t := s.host.tseq.toNat
    let base := (s.host.tlmbase &&& ~~~(0x1FFF : W64)).toNat
    let s := hostWrite s (base + 4096 * (t % 2)) (padTo 4096 (telemetryBlock s env))
    newInterval (postEnabled s mtTelemetry (leBytes 8 t ++ [BitVec.ofNat 8 (t % 2)])))

/-! ## CXL.mem (R433) -/

/-- The host-visible page that lies in a frame. -/
def visibleIn (h : Hbm) (frame : Nat) : Option Resid :=
  h.resids.find? fun r => r.hostvis && r.loc.tier == .t1 && r.loc.frame == frame

/-- Cut `n` bytes at `a` at 64-byte boundaries. -/
def lines : Nat → Nat → Nat → List (Nat × Nat)
  | 0, _, _ => []
  | fuel + 1, a, n =>
    if n = 0 then []
    else
      let k := min n (64 - a % 64)
      (a, k) :: lines fuel (a + k) (n - k)

/-- The record of a host access to a host-visible page: the page's context and context address. -/
def visibleRec (s : State) (r : Resid) (a : Nat) : Rec :=
  match s.ctxs[r.owner].pages.find? fun e => e.2 == r.id with
  | some e => hostRec s r.owner (e.1 * frameBytes + a % frameBytes)
  | none => { blankRec s with ctx := some r.owner }

def deny (s : State) : State := { s with host := { s.host with hdmDenied := true } }

/-- CXL_MEM_READ: a read of host-visible frames; any other frame reads as zeros and sets HDM_DENIED; a poisoned line reads as
zeros with the poison indication (R433, R487, R397). -/
def execCxlMemRead (off len : Nat) (s : State) : Host.Outcome State Fault Refusal :=
  .next (if !hostUp s then s
  else
    let one (q : HostRd) (e : Nat × Nat) : HostRd :=
      match visibleIn q.s.hbm (e.1 / frameBytes) with
      | some r => hostPhysRead q (some r.owner) (visibleRec q.s r e.1) e.1 e.2
      | none => { q with s := deny q.s, out := q.out ++ List.replicate e.2 0 }
    let q := (lines (len / 64 + 2) off len).foldl one { s := s, out := [], bad := false, asks := [] }
    { q.s with host := { q.s.host with cxlData := q.out, cxlPoison := q.bad } })

/-- One line of a host write: stored in a host-visible frame, and poisoned when the write says so (R389); a partial write of an
uncorrectable word is not performed (R387). -/
def cxlPut (s : State) (a : Nat) (l : List Byte) (poison : Bool) : State :=
  match visibleIn s.hbm (a / frameBytes) with
  | none => deny s
  | some r =>
    match hbmStore s (visibleRec s r a) a l with
    | (s, some rc) => busFault s cBusError (some r.owner) rc
    | (s, none) =>
      if poison then
        let s := syncWhere (updHbm s fun h => poisonWord h (a / 64)) fun q => inFrame q (a / frameBytes)
        noteBad s { hbmRec s (visibleRec s r a) srcHbmPoisonIn (a / 64, .bad 0) with rep := false }
      else s

/-- CXL_MEM_WRITE: a write to host-visible frames is stored; one to any other frame is discarded and sets HDM_DENIED (R433). -/
def execCxlMemWrite (off : Nat) (data : List Byte) (poison : Bool) (s : State) : Host.Outcome State Fault Refusal :=
  .next (if !hostUp s then s
  else
    (lines (data.length / 64 + 2) off data.length).foldl (fun s e => cxlPut s e.1 ((data.drop (e.1 - off)).take e.2) poison) s)

end Sys2Proof.Machine
end

