-- ==== Sys2Proof/Machine/Integrity.lean ====
section
/-! DEFINITION. Background work on stored data (R382, R386, R389, R390, R393 to R396, R406): write-backs, the poison scan, the
Moth's walks, and the close of a record's window. An upset becomes part of the state when the Moth reads the place. -/

namespace Sys2Proof.Machine

/-! ## Write-backs -/

/-- SRAM_WRITE_BACK: the oldest corrected word of a region's stores is written back, unless a write came first (R382). -/
def execSramWriteBack (g : RegionId) (s : State) : Host.Outcome State Fault Refusal :=
  .next (match s.regions[g].writeBacks with
  | [] => s
  | (st, w) :: rest =>
    updRegion s g fun r =>
      let m := sramOf r st
      let r := { r with writeBacks := rest }
      match sramCheck m w with
      | (some (.fixed _), d) => setSram r st (sramPutWord m w d)
      | _ => r)

/-- HBM_WRITE_BACK: the oldest corrected code word is written back, unless a write intervened (R386). -/
def execHbmWriteBack (s : State) : Host.Outcome State Fault Refusal :=
  .next (match s.hbm.writeBacks with
  | [] => s
  | w :: rest =>
    updHbm s fun h =>
      let h := { h with writeBacks := rest }
      match hbmCheck h w with
      | (some (.fixed _), d) => hbmPutWord h w d
      | _ => h)

/-- Some code word of a frame is uncorrectable. -/
def framePoisoned (h : Hbm) (f : Nat) : Bool := (firstBad (hbmFindings h (f * frameBytes) frameBytes)).isSome

/-- POISON_SCAN: PSN of the page in a frame is cleared when no poisoned word remains in it (R390). -/
def execPoisonScan (frame : Nat) (s : State) : Host.Outcome State Fault Refusal :=
  let clean (h : Hbm) (r : Resid) : Bool :=
    inFrame r frame && !framePoisoned h r.loc.frame && !(r.ver && framePoisoned h (r.loc.frame + 1))
  let t := updHbm s fun h => { h with resids := h.resids.map fun r => if clean h r then { r with psn := false } else r }
  .next (syncWhere t fun r => inFrame r frame)

/-! ## Upsets -/

/-- The bits of a code word and of its metadata that upsets have inverted. -/
def upsetHbm (h : Hbm) (w : Nat) (data : BitVec 512) (mdata : BitVec 32) : Hbm :=
  if data = 0 ∧ mdata = 0 then h
  else
    let m := hbmMeta h w ^^^ mdata
    let d := hbmData h w ^^^ data
    let valid := m == rsCheck d 0 (64 * w) ++ (0 : Byte)
    { h with mem := memPutBytes h.mem (64 * w) (leBytes 64 d.toNat),
             mdata := if valid then ovDel h.mdata w else ovPut h.mdata w m }

/-- The stored check bits of a word. -/
def sramChk (m : Sram) (w : Nat) : BitVec 9 :=
  match ovGet m.chk w with
  | some c => c
  | none => secdedCheck (sramData m w) (16 * w)

/-- The bits of a word and of its check bits that upsets have inverted. -/
def upsetSram (m : Sram) (w : Nat) (data : BitVec 128) (check : BitVec 9) : Sram :=
  if data = 0 ∧ check = 0 then m
  else
    let c := sramChk m w ^^^ check
    let d := sramData m w ^^^ data
    { mem := memPutBytes m.mem (16 * w) (leBytes 16 d.toNat),
      chk := if c == secdedCheck d (16 * w) then ovDel m.chk w else ovPut m.chk w c }

/-! ## The Moth in HBM (R393, R395) -/

/-- Code words of one die. -/
def dieWords : Nat := framesPerDie * frameBytes / 64

/-- What the Moth does with an uncorrectable word, by what it holds (Table 13.4). -/
def mothAct (s : State) (r : Rec) (h : Held) : State :=
  let buddy := if hasBuddy s then some (neighbourCoords s 4) else none
  let stepOf (c : CtxId) : W64 := BitVec.ofNat 64 ((curStep s c).getD 0)
  let own (c : CtxId) (r : Rec) : Rec := { r with ctx := some c, step := stepOf c }
  match h with
  | .cairn c => raiseFault s { cause := cCairnPoisoned, ctx := some c, rcd := own c { r with ref := buddy } }
  | .mcairn c =>
    rebuildMirror (raiseFault s { cause := cMirrorPoisoned, ctx := none, rcd := { r with ref := some (neighbourCoords s 5) } }) c
  | .table c => raiseFault s { cause := cTablePoisoned, ctx := some c, rcd := own c r }
  | .prior c => updCtx (noteBad s { r with cairn := false }) c fun x => { x with priorValid := false }
  | .mprior c =>
    updHbm (noteBad s { r with cairn := false }) fun q => { q with mirrorPrior := q.mirrorPrior.set c false }
  | _ => noteBad s r

/-- MOTH_HBM_READ: the Moth reads the next code word of a die, mends it or marks it, and acts on what it holds (R393,
R395); it steps over the window of checker test mode (R396). -/
def execMothHbmRead (d : DieId) (data : BitVec 512) (mdata : BitVec 32) (s : State) : Host.Outcome State Fault Refusal :=
  .next (if s.boot.phase != .ready then s
  else
    let pos := s.hbm.mothPos[d]
    let w := d.val * dieWords + pos
    let s := updHbm s fun h => { h with mothPos := h.mothPos.set d ((pos + 1) % dieWords) }
    if inTestHbm s (64 * w) then s
    else
      let s := updHbm s fun h => upsetHbm h w data mdata
      let base := { blankRec s with die := BitVec.ofNat 8 d.val }
      match (hbmCheck s.hbm w).1 with
      | none => s
      | some (.fixed y) => hbmCorrected s base srcHbmMoth [(w, .fixed y)]
      | some (.bad y) =>
        let h := heldAt s (64 * w)
        let (s, r) := hbmPoisoned s base srcHbmMoth (w, .bad y)
        mothAct s r h)

/-! ## The Moth in a region's stores (R394, R395) -/

/-- What the next 128 bytes of a region's walk are: a store and its first word, a cluster's replay buffer, or an entry of a
cluster's tile queue. -/
inductive MothPlace where
  | sram (st : Store) (word : Nat)
  | replay (c : ClusterId)
  | tile (c : ClusterId) (slot : Nat)
  deriving DecidableEq, Repr

/-- Slices of a region's walk (Example 13.1). -/
def mothSlices : Nat := 165888

/-- The walk's order: scratchpad, instruction memory, scalar data memory, replay buffers, tile queues. -/
def mothPlace (pos : Nat) : MothPlace :=
  if pos < 131072 then .sram .scratch (8 * pos)
  else if pos < 139264 then .sram .imem (8 * (pos - 131072))
  else if pos < 141312 then .sram .sdata (8 * (pos - 139264))
  else if pos < 149504 then .replay ⟨(pos - 141312) / 2048 % 4, by omega⟩
  else .tile ⟨(pos - 149504) / 4096 % 4, by omega⟩ ((pos - 149504) % 4096 / 512)

/-- Bits inverted in one word of the eight of a slice, with its check bits. -/
def sliceUpset (data : BitVec 1024) (check : BitVec 72) (i : Nat) : BitVec 128 × BitVec 9 :=
  (data.extractLsb' (128 * i) 128, check.extractLsb' (9 * i) 9)

/-- What the code finds in a store that the model does not hold by words: one inverted bit in a word is corrected, two are
not (R381). -/
def countFinding (x : BitVec 128 × BitVec 9) : Option Finding :=
  match ones x.1 + ones x.2 with
  | 0 => none
  | 1 => some (.fixed 0)
  | _ => some (.bad 0)

/-- Records of what the Moth finds in a replay buffer or tile queue. -/
def mothRecords (s : State) (g : RegionId) (c : ClusterId) (fs : List Finding) : State :=
  fs.foldl (fun s f =>
    let r := { regionRec s g with source := srcSramMoth, cluster := BitVec.ofNat 8 c.val,
                                  cls := if f.isBad then clUncorrectable else clCorrected }
    if f.isBad then (makeRec s r).1 else corrected s r) s

/-- The Moth's read of 128 bytes of a word store. -/
def mothSram (s : State) (g : RegionId) (st : Store) (w : Nat) (data : BitVec 1024) (check : BitVec 72) : State :=
  let upset (m : Sram) : Sram :=
    (List.range 8).foldl (fun m i => upsetSram m (w + i) (sliceUpset data check i).1 (sliceUpset data check i).2) m
  let s := updRegion s g fun r => setSram r st (upset (sramOf r st))
  let fs := sramFindings (sramOf s.regions[g] st) (16 * w) 128
  let s := sramCorrected s (regionRec s g) g st srcSramMoth fs
  (fs.filter fun e => e.2.isBad).foldl (fun s e =>
    let r := sramRec s (regionRec s g) g st srcSramMoth e
    if st == .imem then
      raiseFault (updRegion s g fun r => { r with damaged := true }) { cause := cImemError, ctx := s.regions[g].ctx, rcd := r }
    else noteBad s r) s

/-- MOTH_SRAM_READ: the Moth reads the next 128 bytes of a region's stores (R394 to R396). -/
def execMothSramRead (g : RegionId) (data : BitVec 1024) (check : BitVec 72) (s : State) : Host.Outcome State Fault Refusal :=
  .next (if s.boot.phase != .ready || !enabled s g then s
  else
    let pos := s.regions[g].mothPos
    let s := updRegion s g fun r => { r with mothPos := (pos + 1) % mothSlices }
    let found := (List.range 8).filterMap fun i => countFinding (sliceUpset data check i)
    let bad := found.any fun f => f.isBad
    match mothPlace pos with
    | .sram st w => if st == .scratch && inTestSram s g (16 * w) then s else mothSram s g st w data check
    | .replay c =>
      let s := mothRecords s g c found
      if bad then
        updRegion s g fun r => updCluster r c fun cl =>
          { cl with replay := { cl.replay with bad := cl.replay.sideA.isSome || cl.replay.sideB.isSome } }
      else s
    | .tile c slot =>
      let s := mothRecords s g c found
      if bad then
        updRegion s g fun r => updCluster r c fun cl => { cl with tileQ := cl.tileQ.modify slot fun t => { t with bad := true } }
      else s)

/-! ## Records -/

/-- COALESCE_WINDOW_CLOSE: the 1 ms window of a CORRECTED record closes; a record that has coalesced is sent again with its
final COUNT (R406). -/
def execCoalesceWindowClose (seq : BitVec 16) (s : State) : Host.Outcome State Fault Refusal :=
  let is (e : Option Rec) : Bool :=
    match e with
    | some r => r.cls == clCorrected && r.seq == seq
    | none => false
  .next (if !s.scree.windows.contains seq then s
  else
    let shut (s : State) : State := { s with scree := { s.scree with windows := s.scree.windows.filter (· != seq) } }
    match s.scree.slots.find? is with
    | some (some r) =>
      if now s < r.stamp.toNat + 1000000 then s
      else if r.coalesced then sendRec (shut s) r else shut s
    | _ => shut s)

end Sys2Proof.Machine
end

