-- ==== Sys2Proof/Machine/Launch.lean ====
section
/-! DEFINITION. Host commands that load, run, stop and undo a program: LOAD_PROGRAM (R366, R418, R443, R444), ARM_LAUNCH (R332,
R371, R372, R419), ABORT (R349), ROLLBACK (R355) and RESTORE_FROM_BUDDY (R356, R357). -/

namespace Sys2Proof.Machine

/-! ## Program images (Tables 12.1, 14.3, 15.13, 15.14) -/

/-- The image as parsed. -/
structure Image where
  nreg   : Nat
  regtab : Nat
  budget : Nat
  dmap   : Nat
  deriving DecidableEq, Repr

/-- Bytes `a` to `a + n - 1` are all zero. -/
def zeroBytes (l : List Byte) (a n : Nat) : Bool := (sliceBytes l a n).all (· == 0)

/-- A part of `n` bytes at an offset that is a multiple of 64 lies within the image. -/
def partOk (len off n : Nat) : Bool := off % 64 == 0 && decide (off < len) && decide (off + n ≤ len)

/-- A region entry of Table 15.14. -/
def regionEntryOk (l : List Byte) (len at0 : Nat) : Bool :=
  let ioff := sliceNat l at0 8
  let ilen := sliceNat l (at0 + 8) 4
  let slen := sliceNat l (at0 + 12) 4
  let soff := sliceNat l (at0 + 16) 8
  ioff % 64 == 0 && soff % 64 == 0 && ilen % 64 == 0 && decide (ilen ≤ 1048576) && decide (slen ≤ 262144) &&
    decide (ioff + ilen ≤ len) && decide (soff + slen ≤ len) &&
    decide (sliceNat l (at0 + 24) 2 < 16384) && decide (sliceNat l (at0 + 26) 2 < 16384) &&
    decide (sliceNat l (at0 + 28) 2 < 16384) && zeroBytes l (at0 + 30) 2

/-- The header and region entries keep to Tables 15.13 and 15.14 (R443). -/
def parseImage (l : List Byte) (len : Nat) : Option Image :=
  let n := sliceNat l 6 2
  let m : Image := { nreg := n, regtab := sliceNat l 16 8, budget := sliceNat l 24 8, dmap := sliceNat l 32 8 }
  if l.length = len && sliceBytes l 0 4 == [0x53, 0x48, 0x47, 0x50] && sliceNat l 4 2 == 1 && sliceNat l 8 8 == len &&
      zeroBytes l 40 24 && partOk len m.regtab (32 * n) && partOk len m.budget (96 * n) && partOk len m.dmap 8 &&
      (List.range n).all (fun g => regionEntryOk l len (m.regtab + 32 * g)) then some m
  else none

/-- A step budget record and whether it keeps to R366. -/
def parseBudget (l : List Byte) (at0 : Nat) : Budget × Bool :=
  let b : Budget := { stepBeats := sliceNat l at0 6, lmax := sliceNat l (at0 + 8) 4, nseg := sliceNat l (at0 + 12) 2,
                      hops := sliceNat l (at0 + 16) 4 }
  (b, b.nseg != 0 && decide (40 ≤ b.lmax) && zeroBytes l (at0 + 6) 2 && zeroBytes l (at0 + 14) 2 && zeroBytes l (at0 + 20) 12 &&
        decide (b.stepBeats ≤ b.nseg * (2 ^ 40 - 1)))

def budgetsOk (l : List Byte) (m : Image) : Bool := (List.range (3 * m.nreg)).all fun i => (parseBudget l (m.budget + 32 * i)).2

/-- A digest map entry and whether it keeps to Table 14.3. -/
def parseDigestEnt (l : List Byte) (at0 : Nat) : DigestEnt × Bool :=
  let d : DigestEnt := { lid := BitVec.ofNat 16 (sliceNat l at0 2), kind := BitVec.ofNat 8 (sliceNat l (at0 + 2) 1),
                         fmt := BitVec.ofNat 4 (sliceNat l (at0 + 3) 1), base := sliceNat l (at0 + 8) 8,
                         len := sliceNat l (at0 + 16) 8 }
  (d, d.lid != 0xFFFF && (d.kind == 1 || d.kind == 2) && decide (sliceNat l (at0 + 3) 1 ≤ 10) && zeroBytes l (at0 + 4) 4 &&
        zeroBytes l (at0 + 24) 8 && d.base % frameBytes == 0 && d.len % frameBytes == 0 && d.len != 0 &&
        decide (d.base + d.len ≤ 2 ^ 52))

/-- Two ranges share a LID or overlap. -/
def digestClash (a b : DigestEnt) : Bool := a.lid == b.lid || (decide (a.base < b.base + b.len) && decide (b.base < a.base + a.len))

def pairwiseFree : List DigestEnt → Bool
  | [] => true
  | d :: l => l.all (fun e => !digestClash d e) && pairwiseFree l

/-- The digest map and its area; none when R418 rejects it. -/
def parseDigestMap (l : List Byte) (m : Image) : Option (List DigestEnt × Nat) :=
  let area := sliceNat l m.dmap 6
  let n := sliceNat l (m.dmap + 6) 2
  let es := (List.range n).map fun i => parseDigestEnt l (m.dmap + 8 + 32 * i)
  if decide (n ≤ 256) && decide (m.dmap + 8 + 32 * n ≤ l.length) && area % 64 == 0 && es.all (·.2) && pairwiseFree (es.map (·.1)) then
    some (es.map (·.1), area)
  else none

/-! ## LOAD_PROGRAM -/

def lpMask (d : Desc) (g : RegionId) : Bool := (dNat d 40 8).testBit g.val

/-- A region of REGMASK is assigned to another open context (R444). -/
def regionTaken (s : State) (c : CtxId) (d : Desc) : Bool :=
  (List.finRange 64).any fun g => lpMask d g && match s.regions[g].ctx with | some x => x != c && s.ctxs[x].opened | none => false

def loadReject (s : State) (c : CtxId) (image : List Byte) (d : Desc) : Option (Reject × Nat) :=
  firstReject [(notOpen s c, rjNotOpen), (busy s c, rjBusy), (regionTaken s c d, rjRegion)] <|>
    match parseImage image (dNat d 32 4) with
    | none => some (rjImage, 0)
    | some m => firstReject [(m.nreg != nreg s, rjGrade), (!budgetsOk image m, rjBudget), ((parseDigestMap image m).isNone, rjDigestMap)]

/-- A region as LOAD_PROGRAM leaves it (R366, R383, R444). -/
def loadRegion (c : CtxId) (image : List Byte) (m : Image) (g : RegionId) (r : Region) : Region :=
  let at0 := m.regtab + 32 * g.val
  let code := sliceBytes image (sliceNat image at0 8) (sliceNat image (at0 + 8) 4)
  let data := sliceBytes image (sliceNat image (at0 + 16) 8) (sliceNat image (at0 + 12) 4)
  { r with ctx := some c, imem := { mem := memOfBytes code, chk := [] }, sinit := memOfBytes data,
           entry := Vector.ofFn fun i : StreamId => BitVec.ofNat 14 (sliceNat image (at0 + 24 + 2 * i.val) 2),
           budget := Vector.ofFn fun i : StreamId => (parseBudget image (m.budget + 96 * g.val + 32 * i.val)).1,
           damaged := false, writeBacks := r.writeBacks.filter fun w => w.1 != .imem }

def loadEffect (c : CtxId) (image : List Byte) (d : Desc) (s : State) : State :=
  match parseImage image (dNat d 32 4) with
  | none => s
  | some m =>
    let s := freeRegions s c (lpMask d)
    let one (g : RegionId) : Region := if lpMask d g then loadRegion c image m g s.regions[g] else s.regions[g]
    let s := { s with regions := Vector.ofFn one }
    match parseDigestMap image m with
    | some (es, area) => updCtx s c fun x => { x with dmap := es, darea := area }
    | none => s

/-- LOAD_PROGRAM: the image is checked and loaded into exactly the regions of REGMASK (R39, R366, R383, R418, R443, R444). -/
def execLoadProgram (c : CtxId) (image : List Byte) (s : State) : Host.Outcome State Fault Refusal :=
  .next (command s c (isOpc opLOAD) (loadReject s c image)
    (fun d => (moveTime (dNat d 32 4) (cmdRate s) 1).map (1000000 + ·)) cmdOf (loadEffect c image))

/-! ## ARM_LAUNCH -/

def alA (d : Desc) : Nat := dNat d 24 8
def alS0 (d : Desc) : Nat := dNat d 32 8
def alN (d : Desc) : Nat := dNat d 40 4

/-- The pages of a span all satisfy `f`; an unmapped page does not. -/
def spanAll (s : State) (c : CtxId) (base len : Nat) (f : Resid → Bool) : Bool :=
  (List.range ((base + len - 1) / frameBytes - base / frameBytes + 1)).all fun i => onPage (base / frameBytes + i)
where
  onPage (p : Nat) : Bool := match residAt s c p with | some r => f r | none => false

/-- The digest map fits the pages as they are mapped (R419). -/
def digestMapOk (s : State) (c : CtxId) : Bool :=
  let x := s.ctxs[c]
  (x.dmap.all fun d => spanAll s c d.base d.len fun r => if d.replica then !r.ver else r.ver) &&
    (x.dmap.isEmpty || spanAll s c x.darea (digestOffsets x.dmap).2 fun r => r.loc.tier == .t1 && !r.ver)

/-- The conditions of Table 15.10 for ARM_LAUNCH, in their order (R332, R383, R403, R419). -/
def armReject (s : State) (c : CtxId) (d : Desc) : Option (Reject × Nat) :=
  let x := s.ctxs[c]
  firstReject [(notOpen s c, rjNotOpen), ((regionsOf s c).isEmpty, rjNoProgram),
    ((regionsOf s c).any fun g => s.regions[g].damaged, rjDamaged), (s.test.isSome, rjTestMode), (!digestMapOk s c, rjDigestMap),
    (decide (alA d < now s + 1000000 * s.boot.cfg.lead), rjLead), (!s.cnt.aligned, rjNotAligned), (busy s c, rjBusy),
    (!x.fresh && BitVec.ofNat 64 (alS0 d) != x.cairnStep + 1, rjStepOrder)]

/-- An armed launch (R332, R333, R364). -/
def arm (s : State) (c : CtxId) (d : Desc) (promise u : Nat) : State :=
  let l : Launch :=
    { tag := dTag d, gen := dGen d, a := alA d, s0 := alS0 d, n := alN d, promise := promise, u := u, step := alS0 d,
      started := false, due := alA d, sStep := 0, wave := Wave.reset (alS0 d), ext := 0, lastFlip := none }
  let first := s.ctxs[c].fresh
  let before : W64 := BitVec.ofNat 64 (alS0 d) - 1
  let one (g : RegionId) : Region :=
    if s.regions[g].ctx == some c then { s.regions[g] with tadm := some (admBeat s g) } else s.regions[g]
  let s := { s with regions := Vector.ofFn one }
  let s := if first then updHbm s fun h => { h with mirrorStep := h.mirrorStep.set c before } else s
  updCtx s c fun x =>
    { x with launch := some l, lastPromise := BitVec.ofNat 64 promise, fresh := false,
             cairnStep := if first then before else x.cairnStep }

/-- ARM_LAUNCH: admitted against its deadline, or rejected before any part of it takes effect (R332, R372, R373). -/
def execArmLaunch (c : CtxId) (s : State) : Host.Outcome State Fault Refusal :=
  .next (match headDesc s c with
  | none => s
  | some d =>
    if !(isOpc opARM d || reservedOpc d) then s
    else
      match commonReject s c d <|> (armReject s c d).map (·.1) with
      | some e => reject s c d e 0
      | none =>
        let u := stepBound s c
        let promise := promiseOf s (alA d) (alN d) u
        if dDeadline d != noDeadline && decide (dDeadline d < promise) then reject s c d rjDeadline 0
        else arm (accept s c d promise u (cmdOf d)) c d promise u)

/-! ## ABORT -/

/-- ABORT: HOST_ABORT is raised, for the context or with ALLCTX for every busy one (R349). -/
def execAbort (c : CtxId) (s : State) : Host.Outcome State Fault Refusal :=
  .next (command s c (isOpc opABORT) (fun _ => none) (fun _ => smallBound s 0) cmdOf
    fun d s =>
      let all := dNat d 24 1 % 2 == 1
      raiseFault s { cause := cHostAbort, ctx := if all then none else some c,
                     rcd := { blankRec s with ctx := if all then none else some c,
                                              step := BitVec.ofNat 64 ((curStep s c).getD 0) } })

/-! ## ROLLBACK -/

/-- A stripe rolled back: the prior of a stripe that the last flip's step wrote becomes its Cairn. -/
def Stripe.rollback (t : Stripe) : Stripe := if t.flipped then { t with cairn := !t.cairn, flipped := false } else t

/-- ROLLBACK of own pages and of the mirror held here (R355). -/
def rollbackEffect (c : CtxId) (s : State) : State :=
  let s := updCtx s c fun x => { x with cairnStep := x.cairnStep - 1, priorValid := false }
  let back (l : Sparse Stripe) : Sparse Stripe := mapStripes Stripe.rollback l
  updHbm s fun h =>
    { h with resids := h.resids.map (fun r => if r.ver && r.owner == c then { r with stripes := back r.stripes } else r),
             mirrors := h.mirrors.map (fun m => if m.ctx == c then { m with stripes := back m.stripes } else m),
             mirrorStep := h.mirrorStep.set c (h.mirrorStep[c] - 1), mirrorPrior := h.mirrorPrior.set c false }

/-- ROLLBACK (R355). -/
def execRollback (c : CtxId) (s : State) : Host.Outcome State Fault Refusal :=
  .next (command s c (isOpc opROLLBACK)
    (fun _ => firstReject [(notOpen s c, rjNotOpen), (busy s c, rjBusy), (!s.ctxs[c].priorValid, rjNoPrior)])
    (fun _ => some 1000000) cmdOf fun _ s => rollbackEffect c s)

/-! ## RESTORE_FROM_BUDDY -/

/-- The conditions of R357. -/
def restoreReject (s : State) (c : CtxId) (held : Option (List Nat × W64)) : Option (Reject × Nat) :=
  let mine := (versionedPages s c).map (·.1)
  firstReject [(notOpen s c, rjNotOpen), (!hasBuddy s, rjNoBuddy), (busy s c, rjBusy), (held.isNone, rjMirrorAbsent),
    ((match held with | some h => h.1 != mine | none => false), rjMirrorLayout)]

/-- A restore to `step` opens, and the Z- neighbour is asked to write its mirror here again, unless MIRROR_POISONED has asked it
already (R356). -/
def beginRestore (s : State) (c : CtxId) (step : W64) : State :=
  match s.restoring[c] with
  | some r => { s with restoring := s.restoring.set c (some { step := step, got := 0, own := false, left := r.left }) }
  | none => askRebuild s c { step := step, got := 0, own := false, left := 0 }

/-- RESTORE_FROM_BUDDY: the own Cairn is read from the buddy's mirror, and the Z- neighbour is asked to write its mirror here
again (R356, R357). -/
def execRestoreFromBuddy (c : CtxId) (held : Option (List Nat × W64)) (s : State) : Host.Outcome State Fault Refusal :=
  .next (command s c (isOpc opRESTORE) (fun _ => restoreReject s c held)
    (fun _ => some (ceilDiv (cairnBytes s c) 750 + 1000000)) cmdOf
    fun _ s =>
      pumpRestore (beginRestore s c ((held.map (·.2)).getD 0)) c)

end Sys2Proof.Machine
end

