-- ==== Sys2Proof/Machine/PowerGov.lean ====
section
/-! DEFINITION. Power input, governor and temperature (R495 to R511): the envelope and its levels, beat tokens, launch ramps,
core rails, the thermal trip, and the input's events with their messages. -/

namespace Sys2Proof.Machine

/-! ## POWER_LIMIT events (R511, Table 17.4) -/

def evThrottle : Fin 16 := 1
def evThrottleEnd : Fin 16 := 2
def evInputLow : Fin 16 := 3
def evInputNormal : Fin 16 := 4
def evInputHigh : Fin 16 := 5
def evUndervoltage : Fin 16 := 6
def evThermalSlow : Fin 16 := 7
def evThermalNormal : Fin 16 := 8
def evThermalTrip : Fin 16 := 9

/-- Set the telemetry flag of an event (Table 17.5). -/
def flagEvent (s : State) (e : Fin 16) : State :=
  { s with power := { s.power with flags := s.power.flags ||| ((1 : BitVec 16) <<< (e.val - 1)) } }

/-- POWER_LIMIT (Table 15.19). -/
def sayPower (s : State) (e : Fin 16) (m : InputMeas) : State :=
  postEnabled s mtPower ([BitVec.ofNat 8 e.val, 0, 0, 0] ++ leBytes 4 m.mv ++ leBytes 4 m.ma ++ leBytes 4 m.w)

/-- The last message of the event went less than 100 ms ago. -/
def saidLately (s : State) (e : Fin 16) : Bool :=
  match s.power.lastEvt[e] with
  | some t => decide (elapsed s < t + 100000000)
  | none => false

/-- A condition is entered: its event is sent, unless the same event came less than 100 ms before. -/
def enterEvent (s : State) (e : Fin 16) (m : InputMeas) : State :=
  let quiet := saidLately s e
  let bit : BitVec 16 := (1 : BitVec 16) <<< e.val
  let p := s.power
  let s := { s with power := { p with lastEvt := p.lastEvt.set e (some (elapsed s)),
                                      unsent := if quiet then p.unsent ||| bit else p.unsent &&& ~~~bit } }
  let s := flagEvent s e
  if quiet then s else sayPower s e m

/-- The condition of the entry `e` is left: the leaving event `l` is sent, unless the entry went unsent. -/
def leaveEvent (s : State) (e l : Fin 16) (m : InputMeas) : State :=
  let quiet := s.power.unsent.getLsbD e.val
  let s := { s with power := { s.power with unsent := s.power.unsent &&& ~~~((1 : BitVec 16) <<< e.val) } }
  let s := flagEvent s l
  if quiet then s else sayPower s l m

/-! ## The governor (R496 to R504) -/

/-- GOVERNOR_SAMPLE: every 250 ns each die measures its work current; the envelope moves, the ballast follows, tokens are issued
or withheld, and THROTTLE and THROTTLE_END are sent (R496 to R499, R504). -/
def execGovernorSample (d : DieId) (workMa : Nat) (m : InputMeas) (s : State) : Host.Outcome State Fault Refusal :=
  .next (if s.boot.phase == .off then s
  else
    let s := moveEnvelope { s with power := { s.power with volts := m.mv } }
    let s := { s with power := samplePower s.power d (1000 * workMa) m.mv }
    let atL := s.boot.phase == .ready && s.power.ienv == launchLevel s.boot.cfg m.mv
    let held := anyWithheld s.power
    if held && atL && !s.power.throttled then
      enterEvent { s with power := { s.power with throttled := true } } evThrottle m
    else if !held && s.power.throttled then
      leaveEvent { s with power := { s.power with throttled := false } } evThrottle evThrottleEnd m
    else s)

/-- The count at which the ramp to L of a launch begins (R500). -/
def rampStart (s : State) (a : Nat) : Nat :=
  a - 1000000 - ceilDiv (launchLevel s.boot.cfg s.power.volts - s.power.ienv) s.boot.cfg.slew

/-- LAUNCH_RAMP: the governor begins to raise the target to L for an accepted launch (R500, R503). -/
def execLaunchRamp (c : CtxId) (s : State) : Host.Outcome State Fault Refusal :=
  .next (match s.ctxs[c].launch with
  | none => s
  | some l =>
    if s.boot.phase != .ready || decide (now s < rampStart s l.a) then s
    else
      let s := moveEnvelope s
      { s with power := { s.power with launch := s.power.launch ||| ((1 : BitVec 4) <<< c.val) } })

/-! ## Temperature (R506, R507) -/

/-- V_floor and the normal core rail in mV (R359, R506). -/
def railFloorMv : Nat := 700
def railNormalMv : Nat := 750

/-- A die is still slowed: the lowering goes on until every sensor reads below 104 degrees, the rail stays until every sensor
reads below 100 degrees (1/16 degree units). -/
def railNext (q : DiePower) (t16 : Int) : DiePower :=
  let lowering := decide (1680 ≤ t16) || (q.slowed && decide (1664 ≤ t16))
  if lowering then { q with rail := max railFloorMv (q.rail - 5), slowed := decide (railFloorMv < q.rail - 5) }
  else
    let q := { q with slowed := false }
    if t16 < 1600 then { q with rail := min railNormalMv (q.rail + 5) } else q

/-- THERMAL_STEP: at most every 100 us a hot die's core rail goes down, and a cooled one's up, by 5 mV; the first lowering of the
rail and its return to 0.75 V are reported (R506). -/
def execThermalStep (d : DieId) (t16 : Int) (m : InputMeas) (s : State) : Host.Outcome State Fault Refusal :=
  let q := s.power.dies[d]
  let early := match q.stepAt with | some t => decide (elapsed s < t + 100000) | none => false
  .next (if !running s || early then s
  else
    let n := railNext q t16
    let set (s : State) (n : DiePower) : State := { s with power := { s.power with dies := s.power.dies.set d n } }
    if n.rail == q.rail then set s n
    else
      let n := { n with stepAt := some (elapsed s) }
      if q.rail = railNormalMv then
        let s := enterEvent s evThermalSlow m
        set s { n with quiet := s.power.unsent.getLsbD evThermalSlow.val }
      else if n.rail = railNormalMv then
        let bit : BitVec 16 := (1 : BitVec 16) <<< evThermalSlow.val
        let p := s.power
        let s := { s with power := { p with unsent := if q.quiet = true then p.unsent ||| bit else p.unsent &&& ~~~bit } }
        leaveEvent (set s { n with quiet := false }) evThermalSlow evThermalNormal m
      else set s n)

/-- The ballast bank of a die has reached 115 degrees. -/
def bankHot (s : State) (bank : Option DieId) : State :=
  match bank with
  | none => s
  | some d => { s with power := { s.power with dies := s.power.dies.set d { s.power.dies[d] with hotBank := true } } }

/-- THERMAL_TRIP: a sensor of a junction or of a ballast bank at 115 degrees or more for 10 us: a job fault with ALLCTX, and the
shutdown 1 ms later; during start-up the terminal failure THERMAL at once (R507). A bank that is too hot takes no share. -/
def execThermalTrip (t16 : HotSensor) (ns : Nat) (m : InputMeas) (s : State) : Host.Outcome State Fault Refusal :=
  .next (if decide (t16.t16 < 1840) || decide (ns < 10000) then s
  else
    let s := bankHot s t16.bank
    match s.boot.phase with
    | .starting => terminate s bfThermal
    | .linking => terminate s bfThermal
    | .ready =>
      if s.power.trip.isSome then s
      else
        let s := moduleFault s cThermalTrip
        enterEvent { s with power := { s.power with trip := some (elapsed s) } } evThermalTrip m
    | _ => s)

/-- TRIP_SHUTDOWN: 1 ms after the trip the module ends in the terminal failure THERMAL (R507). -/
def execTripShutdown (s : State) : Host.Outcome State Fault Refusal :=
  .next (match s.power.trip with
  | some t => if s.boot.phase == .ready && decide (t + 1000000 ≤ elapsed s) then terminate s bfThermal else s
  | none => s)

/-! ## The input (R508, R509, R511) -/

/-- INPUT_UNDERVOLTAGE: the input has been below the undervoltage threshold for 10 us (Table 17.1): after READY a job fault,
and no beat tokens until it is back; during start-up the terminal failure INPUT_UNDERVOLTAGE (R508, Table 16.12). -/
def execInputUndervoltage (m : InputMeas) (s : State) : Host.Outcome State Fault Refusal :=
  .next (if decide (44000 ≤ m.mv) || decide (m.ns < 10000) then s
  else
    match s.boot.phase with
    | .starting => terminate s bfInput
    | .linking => terminate s bfInput
    | .ready =>
      if s.power.under then s
      else
        let s := moduleFault { s with power := { s.power with under := true } } cInputUndervoltage
        enterEvent s evUndervoltage m
    | _ => s)

/-- INPUT_DISCONNECT: below the disconnect threshold for 50 us (Table 17.1) every rail goes, and every value held in
the module with it (R509). -/
def execInputDisconnect (mv : InputMeas) (s : State) : Host.Outcome State Fault Refusal :=
  .next (if decide (42000 ≤ mv.mv) || decide (mv.ns < 50000) || s.boot.phase == .off then s else powerLost s)

/-- Powered, so that input events are noticed. -/
def watching (s : State) : Bool := s.boot.phase != .off

/-- INPUT_LOW: the input falls below 46 V (R511). -/
def execInputLow (m : InputMeas) (s : State) : Host.Outcome State Fault Refusal :=
  .next (if !watching s || decide (46000 ≤ m.mv) || s.power.low then s
  else enterEvent { s with power := { s.power with low := true, high := false } } evInputLow m)

/-- INPUT_HIGH: the input rises above 56 V; no fault, and tokens are issued (R508, R511). -/
def execInputHigh (m : InputMeas) (s : State) : Host.Outcome State Fault Refusal :=
  .next (if !watching s || decide (m.mv ≤ 56000) || s.power.high then s
  else enterEvent { s with power := { s.power with high := true, low := false, under := false } } evInputHigh m)

/-- INPUT_NORMAL: the input is back within 46 V to 56 V: tokens are issued again above 46 V, and the condition that is left is
reported (R508, R511). -/
def execInputNormal (m : InputMeas) (s : State) : Host.Outcome State Fault Refusal :=
  let p := s.power
  .next (if !watching s || decide (m.mv < 46000) || decide (56000 < m.mv) || !(p.low || p.high || p.under) then s
  else
    let e := if p.high then evInputHigh else if p.low then evInputLow else evUndervoltage
    let s := { s with power := { p with low := false, high := false, under := p.under && decide (m.mv ≤ 46000) } }
    leaveEvent s e evInputNormal m)

end Sys2Proof.Machine
end

