-- ==== Sys2Proof/Machine/Solver.lean ====
section
/-! DEFINITION. The solver engine: the checks of a macro at issue (R171 to R174) and the run of FOLD, DAMPNORM, NORM,
CHOL, SOLVE, INV and IROOT (R162 to R165, R178 to R195). -/

namespace Sys2Proof.Machine

/-! ## Blocks (R150, R171, Table 6.5) -/

/-- Tile rows of a block of `n` rows. -/
def tileRows (n : Nat) : Nat := ceilDiv n 128

/-- Upper tiles of a block. -/
def upperTiles (n : Nat) : Nat := tileRows n * (tileRows n + 1) / 2

/-- Index of upper tile (p, q) in a block of b tile rows (R150). -/
def tileIndex (b p q : Nat) : Nat := p * b - p * (p - 1) / 2 + (q - p)

/-- Byte offset of element (i, j), in an upper tile, of a block of `n` rows with elements of `w` bytes. -/
def upperOff (n w i j : Nat) : Nat :=
  (tileIndex (tileRows n) (i / 128) (j / 128) * 16384 + i % 128 * 128 + j % 128) * w

/-- Byte offset of element (i, j) of full-tile storage with `cb` tile columns of FP32. -/
def fullOff (cb i j : Nat) : Nat := ((i / 128 * cb + j / 128) * 16384 + i % 128 * 128 + j % 128) * 4

/-- MOP codes (Table 8.8). -/
def mFOLD : Nat := 0
def mDAMPNORM : Nat := 1
def mNORM : Nat := 2
def mCHOL : Nat := 3
def mSOLVE : Nat := 4
def mINV : Nat := 5
def mIROOT : Nat := 6

def MacroOp.opc (m : MacroOp) : Nat := m.mop.toNat

/-- The format of a stored root. -/
def MacroOp.rootFmt (m : MacroOp) : BitVec 4 := if m.ofmt == 1 then fTW16 else fFP32

/-- The blocks of a macro: descriptor, format, bytes, and whether it is written. -/
def macroBlocks (m : MacroOp) : List (Td × BitVec 4 × Nat × Bool) :=
  let t := upperTiles m.n
  let b := tileRows m.n
  let full := b * tileRows m.r * 65536
  match m.opc with
  | 0 => [(tdOf m.da, fL128, t * 262144, false), (tdOf m.db, fFP32, t * 65536, true)] ++
         (if m.scm then [(tdOf m.dc, fFP32, 4 * b, false)] else [])
  | 1 => [(tdOf m.da, fFP32, t * 65536, false), (tdOf m.db, fFP32, t * 65536 + 4, true)]
  | 2 => [(tdOf m.da, fFP32, t * 65536, false)]
  | 3 => [(tdOf m.da, fFP32, t * 65536, false), (tdOf m.db, fFP32, t * 65536, true), (tdOf m.dc, fFP32, b * 65536, true)]
  | 4 => [(tdOf m.da, fFP32, t * 65536, false), (tdOf m.db, fFP32, b * 65536, false), (tdOf m.dc, fFP32, full, false),
          (tdOf m.dd, fFP32, full, true)]
  | 5 => [(tdOf m.da, fFP32, t * 65536, false), (tdOf m.db, fFP32, t * 65536, true)]
  | _ => [(tdOf m.da, fFP32, t * 65536, false)] ++
         (if m.start == 0 then [] else [(tdOf m.db, m.rootFmt, t * 65536 + 64, false)]) ++
         [(tdOf m.dc, m.rootFmt, t * 65536 + 64, true)]

/-- The work area: its descriptor and bytes (Table 6.5). -/
def macroWork (m : MacroOp) : Option (Td × Nat) :=
  let t := upperTiles m.n
  let b := tileRows m.n
  match m.opc with
  | 3 => some (tdOf m.de, t * 65536)
  | 4 => some (tdOf m.de, (t + 2 * b * tileRows m.r) * 65536)
  | 5 => some (tdOf m.de, (2 * t + 2 * b * b) * 65536)
  | 6 => some (tdOf m.de, 6 * t * 65536)
  | _ => none

/-- Every area of a macro: descriptor and bytes. -/
def macroAreas (m : MacroOp) : List (Td × Nat) :=
  ((macroBlocks m).map fun e => (e.1, e.2.2.1)) ++ (macroWork m).toList

/-- Some block or the work area is of kind CONTEXT (R173). -/
def usesContext (m : MacroOp) : Bool := (macroAreas m).any fun e => e.1.kind == kCONTEXT

/-- Two areas overlap. -/
def areasMeet (a b : Td × Nat) : Bool :=
  a.1.kind == b.1.kind && decide (a.1.base < b.1.base + b.2) && decide (b.1.base < a.1.base + a.2)

/-- No two areas overlap, but for the pairs that R172 allows: equal BASE of F and DST, and of WSRC and OUT. -/
def areasDisjoint (allowed : Bool) : List (Td × Nat) → Bool
  | [] => true
  | a :: rest =>
    (rest.all fun b => !areasMeet a b || (allowed && a.1.base == b.1.base && a.1.kind == b.1.kind)) &&
      areasDisjoint allowed rest

/-- R172. -/
def macroDisjoint (m : MacroOp) : Bool :=
  match m.opc, macroAreas m with
  | 1, l => areasDisjoint true l
  | 6, a :: rest =>
    -- A against all, the work area against all, and WSRC against OUT with the exception
    areasDisjoint false [a] && (rest.all fun b => !areasMeet a b) &&
      (match rest with
       | [o, w] => !areasMeet o w
       | [ws, o, w] => areasDisjoint true [ws, o] && !areasMeet ws w && !areasMeet o w
       | _ => true)
  | _, l => areasDisjoint false l

/-- Checks of a macro at issue that need register values (R171 to R173). -/
def macroIssue (m : MacroOp) : Option Cause :=
  let kindOk (d : Td) : Bool := d.kind == kSCRATCH || d.kind == kCONTEXT
  let inRange (e : Td × Nat) : Bool :=
    e.1.kind != kSCRATCH || (decide (poolEnd ≤ e.1.base) && decide ((e.1.base + e.2 : Nat) ≤ scratchEnd))
  let stage := m.stage.toNat
  firstFail [
    need ((macroBlocks m).all fun e => kindOk e.1 && e.1.fmt == e.2.1) cIllegalEncoding,
    need ((macroAreas m).all fun e => kindOk e.1 && decide (e.1.fmt.toNat ≤ 10)) cIllegalEncoding,
    need (decide (1 ≤ m.n) && decide (m.n ≤ 4096) &&
      (m.opc != mSOLVE || (decide (1 ≤ m.r) && decide (m.r ≤ 4096)))) cPassShape,
    need ((macroAreas m).all fun e => decide (e.1.base % 128 = 0)) cOperandLayout,
    need ((macroAreas m).all inRange) cAddressRange,
    need (!usesContext m || (decide (0x400000 ≤ stage) && decide (stage + 2097152 ≤ 0x1000000))) cAddressRange,
    need (!usesContext m || decide (stage % 128 = 0)) cOperandLayout,
    need (macroDisjoint m) cStreamOverlap ]

/-! ## Matrices -/

/-- A matrix of FP32 patterns, by rows. -/
abbrev Mat := List (List W32)

def mget (m : Mat) (i j : Nat) : W32 := (m.getD i []).getD j 0

def mkMat (n k : Nat) (f : Nat → Nat → W32) : Mat :=
  (List.range n).map fun i => (List.range k).map fun j => f i j

/-- Read `w` bytes at an offset of a block. -/
def blkRead (e : Eng) (d : Td) (off w : Nat) : Nat × Eng :=
  let (l, e) := if d.kind == kCONTEXT then engCtxRead e (d.base + off) w else engRead e (d.base + off) w
  (leNat l, e)

/-- Write `w` bytes at an offset of a block. -/
def blkWrite (e : Eng) (d : Td) (off w v : Nat) : Eng :=
  if d.kind == kCONTEXT then engCtxWrite e (d.base + off) (leBytes w v) else engWrite e (d.base + off) (leBytes w v)

/-- Read an n x k matrix whose element (i, j) lies at an offset; none for an element that is not stored. -/
def readMat (e : Eng) (d : Td) (n k : Nat) (off : Nat → Nat → Nat) : Mat × Eng :=
  (List.range n).foldl (fun (acc : Mat × Eng) i =>
    let (row, e) := (List.range k).foldl (fun (r : List W32 × Eng) j =>
      let (v, e) := blkRead r.2 d (off i j) 4
      (r.1 ++ [BitVec.ofNat 32 v], e)) ([], acc.2)
    (acc.1 ++ [row], e)) ([], e)

/-- A block in upper-tile storage as a full matrix: a lower tile is the transpose of the stored upper tile (R181). -/
def readUpper (e : Eng) (d : Td) (n : Nat) : Mat × Eng :=
  readMat e d n n fun i j => if i / 128 ≤ j / 128 then upperOff n 4 i j else upperOff n 4 j i

/-- Write the stored elements of a block in upper-tile storage, tile by tile (R150). -/
def writeUpper (e : Eng) (d : Td) (n : Nat) (f : Nat → Nat → W32) : Eng :=
  let b := tileRows n
  (List.range b).foldl (fun e p => (List.range b).foldl (fun e q =>
    if q < p then e
    else (List.range 16384).foldl (fun e x =>
      let i := 128 * p + x / 128
      let j := 128 * q + x % 128
      if i < n && j < n then blkWrite e d (upperOff n 4 i j) 4 (f i j).toNat else e) e) e) e

/-- Write an n x k matrix in full-tile storage. -/
def writeFull (e : Eng) (d : Td) (n k : Nat) (f : Nat → Nat → W32) : Eng :=
  (List.range n).foldl (fun e i => (List.range k).foldl (fun e j =>
    blkWrite e d (fullOff (tileRows k) i j) 4 (f i j).toNat) e) e

def matFinite (m : Mat) : Bool := m.all fun r => r.all isFinite32

/-! ## Front stage: fold, damping, norms (R162 to R165) -/

/-- The FP32 resolution of a stored statistic element (R162). -/
def statElem (x : BitVec 128) (vp vq c : W32) : W32 :=
  let dv (n : Int) (p q k : Bool) : Val := drainVal n p q k (f32 vp) (f32 vq) (f32 c)
  toF32 (match l128Class x with
    | .nan => dv 0 false false true
    | .pinf => dv 0 true false false
    | .ninf => dv 0 false true false
    | .fin n => dv n false false false)

/-- fold_elem() of R162. -/
def foldElem (x : BitVec 128) (old vp vq c beta omega : W32) (init : Bool) : W32 :=
  let s := statElem x vp vq c
  if init then s else toF32 (Val.add (Val.mul (f32 beta) (f32 old)) (Val.mul (f32 omega) (f32 s)))

/-- Pairs (i, j) of a block with i ≤ j, in upper-tile storage order and row-major order within each tile. -/
def upperPairs (n : Nat) : List (Nat × Nat) :=
  let b := tileRows n
  (List.range b).flatMap fun p => ((List.range b).filter (p ≤ ·)).flatMap fun q =>
    ((List.range 16384).map fun x => (128 * p + x / 128, 128 * q + x % 128)).filter fun e =>
      decide (e.1 ≤ e.2) && decide (e.2 < n)

/-- FP64 sum in list order, each addition rounded. -/
def sum64 (l : List Val) : Val := l.foldl (fun acc v => f64 (toF64 (Val.add acc v))) Val.zero

/-- The FP64 sum of the diagonal in ascending index. -/
def trace64 (m : Mat) : Val := sum64 ((List.range m.length).map fun i => f32 (mget m i i))

/-- The FP64 sum of squares of R164. -/
def squares64 (m : Mat) : Val :=
  sum64 ((upperPairs m.length).map fun e =>
    let v := f32 (mget m e.1 e.2)
    let q := Val.mul v v
    if e.1 = e.2 then q else Val.mul (.fin false 2 0) q)

/-- The Frobenius value, its sum rounded to FP32 with or without saturation, and the flags of that rounding (R164,
R187). -/
def frob (m : Mat) (sat : Bool) : W32 × AF :=
  let (b, f) := FloatFmt.fp32.round .rne sat (squares64 m)
  (fSqrt (BitVec.ofNat 32 b), f)

/-- The damped block (R163). -/
def damped (m : Mat) (lam : W32) (dmode : BitVec 2) : Mat :=
  let n := m.length
  if dmode == 0 then m
  else
    let d : W32 :=
      if dmode == 1 then lam
      else
        let t := f64 (toF64 (Val.div (trace64 m) (valOfInt n 0)))
        toF32 (Val.mul (f32 lam) t)
    mkMat n n fun i j => if i = j then fAdd (mget m i i) d else mget m i j

/-- ν of a block (R164). -/
def nuOf (m : Mat) (nmode : BitVec 2) : W32 :=
  if nmode == 1 then toF32 (trace64 m) else (frob m false).1

/-! ## TW16 products (R179 to R181) -/

/-- A matrix in TW16 form under one scale. -/
structure Tw where
  hi : List (List (BitVec 16))
  lo : List (List (BitVec 16))
  s  : W32
  deriving DecidableEq, Repr

/-- The conversion of a unit that shares one scale (R179). -/
def twOf (m : Mat) : Tw :=
  let s := twScale (maxFinite m.flatten)
  { hi := m.map fun r => r.map fun x => (twElem x s).1, lo := m.map fun r => r.map fun x => (twElem x s).2, s := s }

def twHi (t : Tw) (i j : Nat) : Val := FloatFmt.fp16.decode ((t.hi.getD i []).getD j 0).toNat
def twLo (t : Tw) (i j : Nat) : Val := FloatFmt.fp16.decode ((t.lo.getD i []).getD j 0).toNat

/-- A value rounded to FP32 as the sequencer rounds every result, with saturation (R180). -/
def sat32 (v : Val) : W32 × AF :=
  let (b, f) := FloatFmt.fp32.round .rne true v
  (BitVec.ofNat 32 b, f)

def satSub (a b : W32) : W32 × AF := sat32 (Val.sub (f32 a) (f32 b))
def satMul (a b : W32) : W32 × AF := sat32 (Val.mul (f32 a) (f32 b))
def satFma (a b c : W32) : W32 × AF := sat32 (Val.add (Val.mul (f32 a) (f32 b)) (f32 c))

/-- One element of a TW16 product: three passes into one cell from a preload, drained once to FP32 with saturation
(R70, R180). `a` and `b` give the hi and lo of the operands at each contraction step. -/
def twDot (pre : AccCell × AF) (k : Nat) (ah al bh bl : Nat → Val) (sa sb : W32) : W32 × AF :=
  let pass (acc : AccCell × AF) (x y : Nat → Val) : AccCell × AF :=
    (List.range k).foldl (fun acc l => let (c, f) := accProduct acc.1 (x l) (y l); (c, acc.2 ||| f)) acc
  let acc := pass (pass (pass pre ah bh) ah bl) al bh
  let (v, f) := drainExact acc.1 sa sb f32One fFP32 .rne true
  (BitVec.ofNat 32 v, acc.2 ||| f)

/-- An FP32 value divided exactly by the product of two power-of-two scales, as a preload (R184). -/
def scaledPre (x sa sb : W32) : AccCell × AF :=
  preloadVal (Val.div (f32 x) (Val.mul (f32 sa) (f32 sb)))

/-- Results with the flags of their drains. -/
abbrev Flagged (α : Type) := α × AF

/-- Build a matrix element by element, gathering flags. -/
def mkMatF (n k : Nat) (f : Nat → Nat → W32 × AF) : Flagged Mat :=
  let rows := (List.range n).map fun i => (List.range k).map fun j => f i j
  (rows.map fun r => r.map (·.1), rows.foldl (fun a r => r.foldl (fun a x => a ||| x.2) a) 0)

/-- The FP32 values of a matrix in TW16 form (R68, R180). -/
def twMat (t : Tw) (n k : Nat) : Flagged Mat :=
  mkMatF n k fun i j => sat32 (twVal ((t.hi.getD i []).getD j 0) ((t.lo.getD i []).getD j 0) t.s)

/-- sym(X, Y) of R181 on full symmetric matrices: the upper elements are computed, the others mirror them. -/
def symProduct (n : Nat) (x y : Tw) : Flagged Mat :=
  let (m, f) := mkMatF n n fun i j =>
    if i ≤ j then twDot (AccCell.zero, 0) n (twHi x i ·) (twLo x i ·) (twHi y · j) (twLo y · j) x.s y.s else (0, 0)
  (mkMat n n fun i j => if i ≤ j then mget m i j else mget m j i, f)

/-- Aᵀ·B for A of K rows, added to a preload matrix when `pre` is given and with A negated when `neg`: used by CHOL and
SOLVE (R184, R185). -/
def twGemm (rows cols k : Nat) (a : Nat → Nat → Val × Val) (b : Tw) (sa : W32) (neg : Bool) (pre : Option Mat)
    (runs : Nat → Nat → Bool := fun _ _ => true) : Flagged Mat :=
  mkMatF rows cols fun i j => if !runs i j then (0, 0) else
    let p := match pre with | some m => scaledPre (mget m i j) sa b.s | none => (AccCell.zero, 0)
    let sg (v : Val) : Val := if neg then v.negate else v
    twDot p k (fun l => sg (a l i).1) (fun l => sg (a l i).2) (twHi b · j) (twLo b · j) sa b.s

/-! ## LDLᵀ (R182 to R184) -/

/-- τ of TAUX. -/
def tauExp (taux : BitVec 5) : Int := if taux = 0 then -20 else -(taux.toNat : Int)

/-- The pivot floor of R182 from the diagonal of the input. -/
def pivotFloor (m : Mat) (taux : BitVec 5) : W32 :=
  let ds := (List.range m.length).map fun i => mget m i i
  let dmax := ds.foldl (fun acc d => if Val.lt (f32 acc) (f32 d) then d else acc) (ds.headD 0)
  let f := Val.mul (f32 dmax) (.fin false 1 (tauExp taux))
  if Val.le (f32 dmax) Val.zero || Val.lt f (.fin false 1 (-126)) then 0x00800000 else toF32 f

def setRow (m : Mat) (i : Nat) (r : List W32) : Mat := m.set i r

/-- The elimination of R183 over one diagonal tile: pivots, U, the count of floored pivots and the flags of the roundings
(R180). -/
def factorRows : Nat → Nat → W32 → Mat → List W32 → Mat → Nat → AF → List W32 × Mat × Nat × AF
  | 0, _, _, _, d, u, fl, af => (d, u, fl, af)
  | k + 1, j, f, a, d, u, fl, af =>
    let m := a.length
    let dj := mget a j j
    let low := !Val.le (f32 f) (f32 dj)
    let dj := if low then f else dj
    let rj := fRcp dj
    let w := (List.range m).map fun c => if j < c then mget a j c else 0
    let (us, f1) := mkMatF 1 m fun _ c =>
      if j < c then satMul (w.getD c 0) rj else (if c = j then f32One else 0, 0)
    let urow := us.headD []
    let (a', f2) := mkMatF m m fun i c =>
      if j < i && i ≤ c then satFma ((urow.getD i 0) ^^^ 0x80000000) (w.getD c 0) (mget a i c) else (mget a i c, 0)
    factorRows k (j + 1) f a' (d ++ [dj]) (u ++ [urow]) (if low then fl + 1 else fl) (af ||| f1 ||| f2)

/-- Column `j` of the inverse of a unit upper triangular matrix (R183), from row j up. -/
def invColumn (u : Mat) (j : Nat) : Nat → List W32 → AF → Flagged (List W32)
  | 0, acc, af => (acc, af)
  | i + 1, acc, af =>
    -- acc holds v[i+1 .. j][j] in ascending row order
    let (s, af) := (List.range (j - i)).foldl (fun (s : W32 × AF) t =>
      let (v, f) := satFma (mget u i (i + 1 + t)) (acc.getD t 0) s.1; (v, s.2 ||| f)) (0, af)
    invColumn u j i ((s ^^^ 0x80000000) :: acc) af

/-- V = U⁻¹ (R183). -/
def invUpper (u : Mat) : Flagged Mat :=
  let m := u.length
  let cols := (List.range m).map fun j => invColumn u j j [f32One] 0
  (mkMat m m fun i j => if i ≤ j then ((cols.getD j ([], 0)).1).getD i 0 else 0, cols.foldl (fun a c => a ||| c.2) 0)

/-- A CHOL factor: pivots, U (unit upper, whole matrix), V by tile, floored pivots and flags. -/
structure Chol where
  d  : List W32
  u  : Mat
  v  : List Mat
  floored : Nat
  flags : AF
  deriving DecidableEq, Repr

/-- A sub-matrix. -/
def subMat (m : Mat) (i0 j0 n k : Nat) : Mat := mkMat n k fun i j => mget m (i0 + i) (j0 + j)

/-- One panel of R184 after another. -/
def cholPanels (n : Nat) (f : W32) : Nat → Nat → Mat → Chol → Chol
  | 0, _, _, c => c
  | left + 1, k, a, c =>
    let r0 := 128 * k
    let m := min 128 (n - r0)
    let rest := n - r0 - m
    let (d, ut, fl, f3) := factorRows m 0 f (subMat a r0 r0 m m) [] [] 0 0
    let (v, f4) := invUpper ut
    let tv := twOf v
    let ta := twOf (subMat a r0 (r0 + m) m rest)
    let (w, f1) := twGemm m rest m (fun l i => (twHi tv l i, twLo tv l i)) ta tv.s false none
    let (u, f5) := mkMatF m rest fun i j => satMul (mget w i j) (fRcp (d.getD i 0))
    let tw := twOf w
    let tu := twOf u
    let old := subMat a (r0 + m) (r0 + m) rest rest
    -- only trailing tiles p ≤ q are updated
    let (trail, f2) := twGemm rest rest m (fun l i => (twHi tu l i, twLo tu l i)) tw tu.s true (some old)
      fun i j => decide (i / 128 ≤ j / 128)
    let a' := mkMat n n fun i j =>
      if r0 + m ≤ i && i / 128 ≤ j / 128 then mget trail (i - r0 - m) (j - r0 - m) else mget a i j
    let rows := (List.range m).map fun i =>
      (List.range n).map fun j => if j < r0 then 0 else if j < r0 + m then mget ut i (j - r0) else mget u i (j - r0 - m)
    cholPanels n f left (k + 1) a'
      { d := c.d ++ d, u := c.u ++ rows, v := c.v ++ [v], floored := c.floored + fl,
        flags := c.flags ||| f1 ||| f2 ||| f3 ||| f4 ||| f5 }

/-- CHOL of a full symmetric matrix (R182 to R184). -/
def cholOf (a : Mat) (taux : BitVec 5) : Chol :=
  cholPanels a.length (pivotFloor a taux) (tileRows a.length) 0 a { d := [], u := [], v := [], floored := 0, flags := 0 }

/-! ## Triangular solve (R185) -/

/-- The TW16 form of each tile row of U to the right of its diagonal tile, as CHOL's tile rows (R179). -/
def rowsTw (n : Nat) (u : Mat) : List Tw :=
  (List.range (tileRows n)).map fun k =>
    let r0 := 128 * k
    let m := min 128 (n - r0)
    twOf (subMat u r0 (r0 + m) m (n - r0 - m))

/-- Forward and backward substitution over tile rows. -/
def solveOf (n r : Nat) (d : List W32) (u : Mat) (v : List Mat) (g : Mat) : Flagged Mat :=
  let b := tileRows n
  let ut := rowsTw n u
  let vt := v.map twOf
  let rowsIn (k : Nat) : Nat := min 128 (n - 128 * k)
  let twGet (t : Tw) (i j : Nat) : Val × Val := (twHi t i j, twLo t i j)
  let nil : Tw := { hi := [], lo := [], s := f32One }
  -- forward: Y_k = V_kᵀ (G_k − Σ_{j<k} U_jkᵀ Y_j)
  let (ys, f1) := (List.range b).foldl (fun (acc : List Mat × AF) k =>
    let m := rowsIn k
    let (run, f) := (List.range k).foldl (fun (x : Mat × AF) j =>
      let tj := ut.getD j nil
      let (t, f) := twGemm m r 128 (fun l i => twGet tj l (128 * (k - j - 1) + i)) (twOf (acc.1.getD j [])) tj.s true (some x.1)
      (t, x.2 ||| f)) (subMat g (128 * k) 0 m r, acc.2)
    let tv := vt.getD k nil
    let (y, f') := twGemm m r m (fun l i => twGet tv l i) (twOf run) tv.s false none
    (acc.1 ++ [y], f ||| f')) ([], 0)
  -- scaling: Z_k = D_k⁻¹ Y_k
  let zf := (ys.zipIdx).map fun e =>
    mkMatF (rowsIn e.2) r fun i j => satMul (mget e.1 i j) (fRcp (d.getD (128 * e.2 + i) 0))
  let zs := zf.map (·.1)
  let f1 := zf.foldl (fun a z => a ||| z.2) f1
  -- backward: X_k = V_k (Z_k − Σ_{j>k} U_kj X_j), descending k and descending j
  let (xs, f2) := (List.range b).foldl (fun (acc : List Mat × AF) t =>
    -- acc holds X_{k+1} .. X_{b-1}
    let k := b - 1 - t
    let m := rowsIn k
    let tk := ut.getD k nil
    let (run, f) := (List.range (b - 1 - k)).foldl (fun (x : Mat × AF) s =>
      let j := b - 1 - s
      let (y, f) := twGemm m r (rowsIn j) (fun l i => twGet tk i (128 * (j - k - 1) + l)) (twOf (acc.1.getD (j - k - 1) []))
        tk.s true (some x.1)
      (y, x.2 ||| f)) (zs.getD k [], acc.2)
    let tv := vt.getD k nil
    let (x, f') := twGemm m r m (fun l i => twGet tv i l) (twOf run) tv.s false none
    (x :: acc.1, f ||| f')) ([], f1)
  (xs.flatten, f2)

/-! ## Inverse p-th root (R187 to R193) -/

/-- The structure tag of Table 6.7. -/
def makeTag (m : MacroOp) : W64 :=
  m.part ++ BitVec.ofNat 12 (m.n - 1) ++ m.pc ++ m.dmode ++ m.nmode ++ m.ofmt ++ (1 : BitVec 4) ++ (0 : BitVec 24)

/-- l = log2 p. -/
def MacroOp.l (m : MacroOp) : Nat := m.pc.toNat + 1

/-- What IROOT ends with. -/
structure Root where
  x     : Tw
  resid : W32
  nit   : Nat
  cold  : Bool
  floored : Nat
  flags : AF
  deriving DecidableEq, Repr

/-- u ← sym(u, u), l times. -/
def symPow (n : Nat) : Nat → Tw → AF → Tw × AF
  | 0, u, f => (u, f)
  | l + 1, u, f => let (m, g) := symProduct n u u; symPow n l (twOf m) (f ||| g)

/-- One iteration of R187. -/
def rootStep (n l : Nat) (x m : Tw) (f : AF) : Tw × Tw × AF :=
  let (mv, f4) := twMat m n n
  let p1 : W32 := toF32 (valOfInt (2 ^ l + 1) 0)
  let ip : W32 := toF32 (.fin false 1 (-(l : Int)))
  let (tm, f5) := mkMatF n n fun i j =>
    let (x, g) := satSub (if i = j then p1 else 0) (mget mv i j)
    let (y, h) := satMul x ip
    (y, g ||| h)
  let t := twOf tm
  let (xm, f1) := symProduct n x t
  let (u, f2) := symPow n l t 0
  let (mm, f3) := symProduct n u m
  (twOf xm, twOf mm, f ||| f1 ||| f2 ||| f3 ||| f4 ||| f5)

def rootIter (n l : Nat) : Nat → Tw → Tw → AF → Tw × Tw × AF
  | 0, x, m, f => (x, m, f)
  | k + 1, x, m, f => let (x, m, f) := rootStep n l x m f; rootIter n l k x m f

/-- iroot() of R187 after the tag comparison; `warm` is the stored root of a warm start. -/
def irootOf (a : Mat) (op : MacroOp) (warm : Option Mat) : Root :=
  let n := a.length
  let l := op.l
  let nc := if op.nc = 0 then 16 else op.nc.toNat
  let nw := if op.nw = 0 then (match l with | 1 => 5 | 2 => 6 | _ => 8) else op.nw.toNat
  let (x, m, k, fl, f, cold) : Tw × Tw × Nat × Nat × AF × Bool :=
    match warm with
    | none =>
      let (al, f1) := frob a true
      let low := !Val.le (.fin false 1 (-126)) (f32 al)
      let al : W32 := if low then 0x00800000 else al
      let psi := fRootp l al
      let r := fRcp al
      let (ma, f2) := mkMatF n n fun i j => satMul (mget a i j) r
      (twOf (mkMat n n fun i j => if i = j then psi else 0), twOf ma, nc, if low then 1 else 0, f1 ||| f2, true)
    | some w =>
      let x := twOf w
      let (u, f1) := symPow n l x 0
      let (m, f2) := symProduct n u (twOf a)
      (x, twOf m, nw, 0, f1 ||| f2, false)
  let (x, m, f) := rootIter n l k x m f
  let (mv, f1) := twMat m n n
  let (diff, f2) := mkMatF n n fun i j => if i = j then satSub (mget mv i i) f32One else (mget mv i j, 0)
  let (res, f3) := frob diff true
  -- a root stored in FP32 is converted as it is written
  let f4 : AF := if op.ofmt == 1 then 0 else (twMat x n n).2
  { x := x, resid := res, nit := k, cold := cold, floored := fl, flags := f ||| f1 ||| f2 ||| f3 ||| f4 }

/-- Write a root and its header (R190, Table 6.6). -/
def writeRoot (e : Eng) (d : Td) (m : MacroOp) (r : Root) : Eng :=
  let n := m.n
  let t := upperTiles n
  let e :=
    if m.ofmt == 1 then
      let plane (e : Eng) (at0 : Nat) (p : List (List (BitVec 16))) : Eng :=
        (List.range n).foldl (fun e i => (List.range n).foldl (fun e j =>
          if i / 128 ≤ j / 128 then blkWrite e d (at0 + upperOff n 2 i j) 2 ((p.getD i []).getD j 0).toNat else e) e) e
      plane (plane e 0 r.x.hi) (t * 32768) r.x.lo
    else
      let v := (twMat r.x n n).1
      writeUpper e d n fun i j => mget v i j
  let fl : Nat := (if r.cold then 1 else 0) + (if r.floored = 0 then 0 else 2)
  let hdr := leBytes 8 (makeTag m).toNat ++ leBytes 4 r.resid.toNat ++
    leBytes 4 (if m.ofmt == 1 then r.x.s else f32One).toNat ++ leBytes 8 (engStep e.s e.g) ++ [BitVec.ofNat 8 r.nit] ++
    [BitVec.ofNat 8 fl] ++ leBytes 2 (min r.floored 65535) ++ List.replicate 36 0
  (List.range 4).foldl (fun e i =>
    let part := (hdr.drop (16 * i)).take 16
    if d.kind == kCONTEXT then engCtxWrite e (d.base + t * 65536 + 16 * i) part
    else engWrite e (d.base + t * 65536 + 16 * i) part) e

/-- A stored root as an FP32 matrix, with the flags of its conversion (R180, R187, R190). -/
def readRoot (e : Eng) (d : Td) (m : MacroOp) : Flagged Mat × Eng :=
  let n := m.n
  let t := upperTiles n
  if m.ofmt == 1 then
    let (s, e) := blkRead e d (t * 65536 + 12) 4
    let plane (e : Eng) (at0 : Nat) : Mat × Eng :=
      (List.range n).foldl (fun (acc : Mat × Eng) i =>
        let (row, e) := (List.range n).foldl (fun (q : List W32 × Eng) j =>
          let o := if i / 128 ≤ j / 128 then upperOff n 2 i j else upperOff n 2 j i
          let (v, e) := blkRead q.2 d (at0 + o) 2
          (q.1 ++ [BitVec.ofNat 32 v], e)) ([], acc.2)
        (acc.1 ++ [row], e)) ([], e)
    let (hi, e) := plane e 0
    let (lo, e) := plane e (t * 32768)
    (mkMatF n n fun i j =>
      sat32 (twVal ((mget hi i j).setWidth 16) ((mget lo i j).setWidth 16) (BitVec.ofNat 32 s)), e)
  else let (x, e) := readUpper e d n; ((x, 0), e)

/-! ## The run of a macro -/

/-- A running macro: the engine, the inputs it has read, and what SSTAT, SRES and RX will receive. -/
structure MAcc where
  e       : Eng
  seen    : List Nat
  code    : BitVec 8
  nit     : Nat
  cold    : Bool
  floored : Nat
  flags   : AF
  resid   : W32
  rx      : Option W64
  deriving DecidableEq, Repr

/-- A macro that has read an input matrix. -/
def MAcc.saw (a : MAcc) (m : Mat) (e : Eng) : MAcc := { a with e := e, seen := a.seen ++ m.flatten.map (·.toNat) }

/-- The parameters of a macro that are values and not places (Table 6.4). -/
def MacroOp.params (m : MacroOp) : List Nat :=
  [m.opc, m.n, m.r, m.taux.toNat, m.pc.toNat, m.start.toNat, m.nc.toNat, m.nw.toNat, m.part.toNat, m.ofmt.toNat,
   m.dmode.toNat, m.nmode.toNat, m.lam.toNat, m.cr.toNat, m.beta.toNat, m.omega.toNat, m.init.toNat, m.scr.toNat]

/-- NaN in every element of every output block (R178). -/
def nanFill (e : Eng) (m : MacroOp) : Eng :=
  let nan : Nat → Nat → W32 := fun _ _ => f32Nan
  match m.opc with
  | 3 =>
    let e := writeUpper e (tdOf m.db) m.n nan
    (List.range m.n).foldl (fun e i => (List.range m.n).foldl (fun e j =>
      if i / 128 = j / 128 then blkWrite e (tdOf m.dc) ((i / 128 * 16384 + i % 128 * 128 + j % 128) * 4) 4 f32Nan.toNat
      else e) e) e
  | 4 => writeFull e (tdOf m.dd) m.n m.r nan
  | 5 => writeUpper e (tdOf m.db) m.n nan
  | _ =>
    if m.ofmt == 1 then
      let t := upperTiles m.n
      (List.range m.n).foldl (fun e i => (List.range m.n).foldl (fun e j =>
        if i / 128 ≤ j / 128 then
          blkWrite (blkWrite e (tdOf m.dc) (upperOff m.n 2 i j) 2 0x7E00) (tdOf m.dc) (t * 32768 + upperOff m.n 2 i j) 2 0
        else e) e) e
    else writeUpper e (tdOf m.dc) m.n nan

/-- The work area and, where the macro uses CONTEXT blocks, the staging area hold what the manual gives no meaning, which
depends on the macro's parameters and inputs only (R168, R173, R414): free bytes. -/
def scribble (a : MAcc) (m : MacroOp) : MAcc :=
  let chunk (e : Eng) (d : Td) (i : Nat) : Eng :=
    let l := (List.range 16).map fun j => Config.workByte (m.params ++ a.seen) (16 * i + j)
    if d.kind == kCONTEXT then engCtxWrite e (d.base + 16 * i) l else engWrite e (d.base + 16 * i) l
  let e := match macroWork m with
    | some (d, n) => (List.range (n / 16)).foldl (fun e i => chunk e d i) a.e
    | none => a.e
  { a with e := if usesContext m then
      (List.range 131072).foldl (fun e i => chunk e { tdOf 0 with base := m.stage.toNat } i) e
    else e }

/-- The macros without products. -/
def runFold (a : MAcc) (m : MacroOp) : MAcc :=
  let ds := tdOf m.da
  let df := tdOf m.db
  (upperPairs m.n).foldl (fun a ij =>
    let (x, e) := blkRead a.e ds (upperOff m.n 16 ij.1 ij.2) 16
    let (old, e) := blkRead e df (upperOff m.n 4 ij.1 ij.2) 4
    let (vp, e) := if m.scm then blkRead e (tdOf m.dc) (4 * (ij.1 / 128)) 4 else (m.scr.toNat, e)
    let (vq, e) := if m.scm then blkRead e (tdOf m.dc) (4 * (ij.2 / 128)) 4 else (m.scr.toNat, e)
    let v := foldElem (BitVec.ofNat 128 x) (BitVec.ofNat 32 old) (BitVec.ofNat 32 vp) (BitVec.ofNat 32 vq) m.cr m.beta
      m.omega m.init
    let e := blkWrite e df (upperOff m.n 4 ij.1 ij.2) 4 v.toNat
    let e := if ij.1 / 128 = ij.2 / 128 && ij.1 < ij.2 then blkWrite e df (upperOff m.n 4 ij.2 ij.1) 4 v.toNat else e
    { a with e := e, seen := a.seen ++ [x, old, vp, vq] }) a

def runDampnorm (a : MAcc) (m : MacroOp) : MAcc :=
  let (f, e) := readUpper a.e (tdOf m.da) m.n
  let a := a.saw f e
  let md := damped f m.lam m.dmode
  let nu := if m.nmode == 0 then f32One else nuOf md m.nmode
  let plain := m.nmode == 0 || nu == 0
  let r := fRcp nu
  let e := writeUpper a.e (tdOf m.db) m.n fun i j => if plain then mget md i j else fMul (mget md i j) r
  { a with e := blkWrite e (tdOf m.db) (upperTiles m.n * 65536) 4 (if plain then f32One else nu).toNat }

def runNorm (a : MAcc) (m : MacroOp) : MAcc :=
  let (x, e) := readUpper a.e (tdOf m.da) m.n
  { a.saw x e with rx := some ((nuOf x m.nmode).setWidth 64) }

/-- The stored factor: U with the pivots on its diagonal. -/
def factOf (c : Chol) (i j : Nat) : W32 := if i = j then c.d.getD i 0 else if i < j then mget c.u i j else 0

def runChol (a : MAcc) (m : MacroOp) (x : Mat) : MAcc :=
  let c := cholOf x m.taux
  let e := writeUpper a.e (tdOf m.db) m.n (factOf c)
  let e := (c.v.zipIdx).foldl (fun e t =>
    let k := t.1.length
    (List.range k).foldl (fun e i => (List.range k).foldl (fun e j =>
      blkWrite e (tdOf m.dc) ((t.2 * 16384 + i * 128 + j) * 4) 4 (mget t.1 i j).toNat) e) e) e
  { a with e := e, floored := c.floored, flags := a.flags ||| c.flags }

/-- FACT, AUX and G of a SOLVE. -/
def readSolve (e : Eng) (m : MacroOp) : Mat × List Mat × Mat × Eng :=
  let (fact, e) := readUpper e (tdOf m.da) m.n
  let (v, e) := (List.range (tileRows m.n)).foldl (fun (acc : List Mat × Eng) t =>
    let k := min 128 (m.n - 128 * t)
    let (x, e) := readMat acc.2 (tdOf m.db) k k fun i j => (t * 16384 + i * 128 + j) * 4
    (acc.1 ++ [x], e)) ([], e)
  let (g, e) := readMat e (tdOf m.dc) m.n m.r fun i j => fullOff (tileRows m.r) i j
  (fact, v, g, e)

def runSolve (a : MAcc) (m : MacroOp) (fact : Mat) (v : List Mat) (g : Mat) : MAcc :=
  let d := (List.range m.n).map fun i => mget fact i i
  let (x, f) := solveOf m.n m.r d fact v g
  { a with e := writeFull a.e (tdOf m.dd) m.n m.r fun i j => mget x i j, flags := a.flags ||| f }

def runInv (a : MAcc) (m : MacroOp) (x : Mat) : MAcc :=
  let c := cholOf x m.taux
  let n := m.n
  let (y, f) := solveOf n n c.d c.u c.v (mkMat n n fun i j => if i = j then f32One else 0)
  { a with e := writeUpper a.e (tdOf m.db) n fun i j => if i ≤ j then mget y i j else mget y j i,
           floored := c.floored, flags := a.flags ||| c.flags ||| f }

def runIroot (a : MAcc) (m : MacroOp) (x : Mat) : MAcc :=
  let t := upperTiles m.n
  let (tag, e) := if m.start == 0 then (0, a.e) else blkRead a.e (tdOf m.db) (t * 65536) 8
  let hit := m.start != 0 && BitVec.ofNat 64 tag == makeTag m
  let a := { a with e := e, seen := a.seen ++ [tag] }
  if m.start == 2 && !hit then { a with code := 2 }
  else
    let (w, e) := if hit then (let (r, e) := readRoot e (tdOf m.db) m; (some r, e)) else (none, e)
    let r := irootOf x m (w.map (·.1))
    let a := match w with
      | some (v, f) => let a := a.saw v e; { a with flags := a.flags ||| f }
      | none => a
    { a with e := writeRoot e (tdOf m.dc) m r, code := if r.cold && m.start == 1 then 1 else 0, nit := r.nit, cold := r.cold,
             floored := r.floored, flags := a.flags ||| r.flags, resid := r.resid }

/-- The whole run of a macro. A WARM_ONLY macro whose tag does not match writes nothing (R193). -/
def runMacro (a : MAcc) (m : MacroOp) : MAcc :=
  let nan (a : MAcc) : MAcc := { a with e := nanFill a.e m, code := 3 }
  let a :=
    match m.opc with
    | 0 => runFold a m
    | 1 => runDampnorm a m
    | 2 => runNorm a m
    | 4 =>
      let (fact, v, g, e) := readSolve a.e m
      let a := ((v.foldl (fun a x => a.saw x e) (a.saw fact e)).saw g e)
      if matFinite fact && v.all matFinite && matFinite g then runSolve a m fact v g else nan a
    | op =>
      let (x, e) := readUpper a.e (tdOf m.da) m.n
      let a := a.saw x e
      if !matFinite x then nan a
      else if op = 3 then runChol a m x
      else if op = 5 then runInv a m x
      else runIroot a m x
  if a.code == 2 then a else scribble a m

/-- Bytes that a macro's solver channel moves at the least: its CONTEXT blocks and work area, each once (R173, R197). -/
def solverBytes (m : MacroOp) : Nat :=
  ((macroAreas m).map fun e => if e.1.kind == kCONTEXT then e.2 else 0).sum

/-- Take buffers for the solver channel, as for every channel (R173, R277). -/
def takeSolver (s : State) (g : RegionId) (m : MacroOp) : State :=
  if usesContext m then updRegion s g fun r => updChan r 11 fun c => { c with held := buffersFor s g 11 (solverBytes m) }
  else s

/-- Context addresses of the 64-byte units of a macro's CONTEXT blocks. -/
def macroAddrs (m : MacroOp) : List Nat :=
  (macroBlocks m).flatMap fun e =>
    if e.1.kind == kCONTEXT then (List.range (ceilDiv e.2.2.1 64)).map fun i => e.1.base + 64 * i else []

/-- MACRO_START: with every cluster of its borrow mask borrowed, and what it reads from T2 fetched, the macro at the head of
the queue begins and does its work (R162 to R166, R169, R173, R175, R178 to R193). A macro on CONTEXT blocks begins once
the solver channel has ended what it was given before (R278, notes/assumptions/34), and holds its buffers of the pool until
its last write (R277). -/
def execMacroStart (g : RegionId) (s : State) : Host.Outcome State Fault Refusal :=
  let r := s.regions[g]
  .next (if !beatToken s g then s else match r.mrun, r.mq with
  | none, m :: rest =>
    if !((List.finRange 4).all (fun c => !m.bm.getLsbD c.val || r.clusters[c].borrowed)) ||
        (usesContext m && (r.chans[(11 : ChanId)].run.isSome || r.chans[(11 : ChanId)].q != [])) then s
    else
      let units := match r.ctx with | some x => t2Units s x (macroAddrs m) | none => []
      let want := units.filter fun u => !r.masked.contains u
      match r.ctx, want with
      | some x, _ :: _ =>
        let s := fetchUnits (takeSolver s g m) (.solver g) x want
        updRegion s g fun r => { r with masked := r.masked ++ want }
      | _, _ =>
        if waitsFor s (.solver g) then s
        else
          let work (s : State) (limit : Option Nat) : MAcc :=
            let a := runMacro { e := engOpen s g 0xFF m.stream .solver limit r.mfetched, seen := [], code := 0, nit := 0,
                                cold := false, floored := 0, flags := 0, resid := 0, rx := none } m
            { a with e := engFlush a.e }
          let a0 := work s none
          let a := if a0.e.stop.isNone then a0
            else
              let a := work { s with freeCtr := s.freeCtr + 1 } (some (Config.writesBeforeStop s.freeCtr))
              { a with e := engStopped a0.e a.e }
          let stop := a.e.stop
          let (s, tiles) := engClose a.e (.solver g)
          let run : MacroRun := { op := m, code := a.code, nit := BitVec.ofNat 5 a.nit, cold := a.cold, floored := a.floored,
                                  flags := a.flags, resid := a.resid, rxVal := a.rx, failed := stop.isSome, tiles := tiles }
          engFault (updRegion (takeSolver s g m) g fun r => { r with mq := rest, mrun := some run, mfetched := [], masked := [] }) g stop
  | _, _ => s)

/-- A cluster whose borrow ends: both banks clear (R98). -/
def returnCluster (cl : Cluster) : Cluster := { cl with borrowed := false, banks := Vector.replicate 2 Bank.reset }

/-- MACRO_COMPLETION: the last write of the macro, with SSTAT, SRES, AFLAGS, RX and the signal; the borrows end together
(R167, R175, R177, R189, R194, R195, R423). A macro that still waits for another module's answer to a write has not
completed. -/
def execMacroCompletion (g : RegionId) (s : State) : Host.Outcome State Fault Refusal :=
  .next (match s.regions[g].mrun with
  | some run =>
    if run.failed || waitsFor s (.solver g) then s
    else
      let m := run.op
      let s := match s.regions[g].ctx with | some c => addTiles s (regionRec s g) c run.tiles | none => s
      updRegion s g fun r =>
        let back (c : ClusterId) : Cluster := if m.bm.getLsbD c.val then returnCluster r.clusters[c] else r.clusters[c]
        let r := { r with mrun := none, clusters := Vector.ofFn back }
        let r := if usesContext m then updChan r 11 fun c => { c with held := 0 } else r
        let r := updStream r m.stream fun st =>
          let st := { st with sstat := sstatWord (nextSeq st.sstat) run.code run.nit run.cold run.floored run.flags,
                              sres := run.resid }
          let st := raiseAflags st (run.flags &&& 0x1F)
          match run.rxVal with
          | some x => xWrite st m.rx x
          | none => st
        evSignal r m.sig m.stream
  | none => s)

/-- SOLVER_RERUN: a residue mismatch in the DSU or the front stage reruns the current unit of work from its inputs, which
writes the same bits, and counts as one pass retry (R198, R222, R223, R367, R380). -/
def execSolverRerun (g : RegionId) (s : State) : Host.Outcome State Fault Refusal :=
  .next (match s.regions[g].mrun with
  | some run =>
    if run.failed then s
    else chargeRetry s g 0xFF run.op.stream srcResSolver (max 8192 (3 * run.op.n + 138))
  | none => s)

end Sys2Proof.Machine
end

