-- ==== Sys2Proof/Machine/Issue.lean ====
section
/-! DEFINITION. What a bundle's X, V and D slots issue: the copies that operations take of register values (R214, R241), and
every check at issue that needs a register value (R55, R74, R78, R80 to R82, R95 to R97, R106 to R109, R118, R147, R148,
R152, R158, R239, R248, R282 to R285, R304, R317, R318, R322, R324, R530, R531, R533). -/

namespace Sys2Proof.Machine

/-! ## Passes -/

/-- One operand side, copied at issue; a WINDOW operand binds to the last DPREF issued to its window (R285). -/
def sideOf (r : Region) (st : Stream) (fmt : BitVec 4) (src : BitVec 2) (td : BitVec 5) (sarr : Bool) (sc : BitVec 5) :
    Side :=
  let d := if src == 0 then tdRead st td else 0
  let bound := if src == 0 && (tdOf d).kind == kWINDOW then r.wins[(tdOf d).window].issued else none
  { fmt := fmt, src := src, td := d, sarr := sarr, sval := if sarr then 0 else (xRead st sc).setWidth 32,
    sdesc := if sarr then tdRead st sc else 0,
    winId := match bound with | some b => b.1 | none => 0,
    winSrc := match bound with | some b => b.2.1 | none => 0, direct := false }

/-- The pass of an X slot, with its registers (Tables 3.1, 8.7). -/
def passOf (r : Region) (st : Stream) (i : StreamId) (sig : Option (Fin 64)) (x : BitVec 128) : PassOp :=
  let reg (q : BitVec 5) : Nat := (xRead st q).toNat
  let usesSrc := xPre x != 0 && xPre x != 5
  { stream := i, sig := sig, f32c := xF32c x,
    a := sideOf r st (xFmtA x) (xSrcA x) (xTda x) (xSam x) (xSa x),
    b := sideOf r st (xFmtB x) (xSrcB x) (xTdb x) (xSbm x) (xSb x),
    m := reg (xM x), n := reg (xN x), k := reg (xK x), q := (xRead st (xQ x)).setWidth 32, pre := xPre x,
    preTd := if usesSrc then tdRead st (xPreSrc x) else 0, dst := xDst x,
    tdd := if xDst x == 0 then tdRead st (xTdd x) else 0, fmtOut := xFmtOut x, sr := xSr x, sat := xSat x, fuse := xFuse x,
    fuseTd := if xFuse x == 0 then 0 else tdRead st (xFuseSrc x), capture := xCapture x, more := xMore x, cont := xCont x,
    tri := xTri x, tid := xTid x }

/-- Rows that dimensions 0 to 2 hold. -/
def Td.rows (d : Td) : Nat := d.e0 * d.e1 * d.e2

/-- R158 and R97 for a side fed from the replay buffer: its captured stream, as issued. -/
def replayOk (p : PassOp) (rp : Replay) (sd : Side) : Option Cause :=
  match (if sd.src == 1 then rp.planA else rp.planB) with
  | none => some cReplayEmpty
  | some (f, steps) =>
    firstFail [need (rp.who == some p.stream) cReplayEmpty, need (f == sd.fmt) cIllegalEncoding,
      need (decide (p.k ≤ steps)) cReplayEmpty]

/-- The tile-scale array of a side (R55). -/
def scaleArrayOk (sd : Side) (k : Nat) : Option Cause :=
  if !sd.sarr then none
  else
    let d := tdOf sd.sdesc
    firstFail [need (d.kind == kSCRATCH && d.fmt == fFP32) cIllegalEncoding,
      need (decide (max 1 (ceilDiv k 128) ≤ d.count)) cPassShape, d.issueOk d.e3]

/-- R282 and R285 for a WINDOW operand. -/
def windowOk (r : Region) (sd : Side) : Option Cause :=
  let d := tdOf sd.td
  if sd.src != 0 || d.kind != kWINDOW then none
  else if 2 ^ 27 ≤ d.base then some cIllegalEncoding
  else
    match r.wins[d.window].issued with
    | none => some cWindowUnbound
    | some (_, _, dst) => need (dst == sd.td) cWindowMismatch

/-- The checks of one operand side of `lanes` elements to a step (R78, R97, R106, R108, R158, R239, R282, R285, R530,
R531). -/
def sideOk (r : Region) (rp : Replay) (p : PassOp) (sd : Side) (lanes : Nat) : Option Cause :=
  if sd.src != 0 then replayOk p rp sd
  else
    let d := tdOf sd.td
    let win := d.kind == kWINDOW
    let im := if win then { d.image with kind := kSCRATCH } else d
    firstFail [need (d.kind == kSCRATCH || win) cIllegalEncoding, need (d.fmt == sd.fmt) cIllegalEncoding,
      windowOk r sd, need (decide (lanes ≤ d.e3) && decide (p.k ≤ d.rows)) cPassShape,
      need (d.s3 == 1) cOperandLayout, im.issueOk d.e3]

/-- A descriptor of M rows of N elements: destination, TILE or L128TILE preload, other tensor of a fuse (R530). -/
def tileDescOk (p : PassOp) (d : Td) (fmtOk : Bool) : Option Cause :=
  firstFail [need (d.kind == kSCRATCH && fmtOk) cIllegalEncoding,
    need (decide (p.n ≤ d.e3) && decide (p.m ≤ d.rows)) cPassShape, d.issueOk d.e3]

/-- The preload source (R106, R239, R530). -/
def preloadOk (p : PassOp) : Option Cause :=
  let d := tdOf p.preTd
  let wide := d.fmt == fFP32 || d.fmt == fFP16
  match p.pre.toNat with
  | 1 => firstFail [need (d.kind == kSCRATCH && wide) cIllegalEncoding, need (decide (p.n ≤ d.count)) cPassShape, d.issueOk d.e3]
  | 2 => firstFail [need (d.kind == kSCRATCH && wide) cIllegalEncoding, need (decide (p.m ≤ d.count)) cPassShape, d.issueOk d.e3]
  | 3 => tileDescOk p d wide
  | 4 => tileDescOk p d (d.fmt == fL128)
  | _ => none

/-- R80, R81 and the total of R74: the pass against the chain as issued so far. -/
def chainOk (ch : Option Chain) (p : PassOp) : Option Cause :=
  match ch with
  | none => need (!p.cont) cChainBroken
  | some c =>
    firstFail [need p.cont cChainBroken,
      need (c.f32c == p.f32c && c.fmtA == p.a.fmt && c.fmtB == p.b.fmt) cIllegalEncoding,
      need (decide (c.total + p.k ≤ 2 ^ 24)) cPassShape]

/-- Bytes that a pass captures, INT4 counted as INT8 (R96). -/
def captureBytes (p : PassOp) : Nat :=
  p.k * 128 * ((if p.capture.getLsbD 0 then elemBytes p.a.fmt else 0) + (if p.capture.getLsbD 1 then elemBytes p.b.fmt else 0))

/-- R152, as far as it needs register values. -/
def triOk (p : PassOp) : Bool :=
  p.tri == 0 || (p.m == p.n && (p.a.src != 0 || ((tdOf p.a.td).kind == kSCRATCH && p.a.td == p.b.td)))

/-- Every check of a pass at issue that needs a register value, in the order of the chapter. -/
def passIssue (r : Region) (c : ClusterId) (p : PassOp) : Option Cause :=
  let cl := r.clusters[c]
  let inR (v : Nat) : Bool := decide (1 ≤ v) && decide (v ≤ 128)
  firstFail [
    chainOk cl.chain p,
    need (inR p.m && inR p.n && decide (p.k ≤ 2 ^ 24)) cPassShape,
    need (triOk p) cIllegalEncoding,
    sideOk r cl.replay p p.a p.m, sideOk r cl.replay p p.b p.n,
    scaleArrayOk p.a p.k, scaleArrayOk p.b p.k,
    preloadOk p,
    if p.dst == 0 then tileDescOk p (tdOf p.tdd) ((tdOf p.tdd).fmt == p.fmtOut) else none,
    if p.fuse == 0 then none
    else
      let f := (tdOf p.fuseTd).fmt
      tileDescOk p (tdOf p.fuseTd) (f == fFP32 || f == fBF16 || f == fFP16),
    need (decide (captureBytes p ≤ 262144)) cReplayCapacity ]

/-- The cluster after a pass has issued to it: its queue, the open chain, and what the replay buffer will hold (R80, R86,
R95, R97). -/
def passAccept (cl : Cluster) (p : PassOp) : Cluster :=
  let total := p.k + (match cl.chain with | some c => c.total | none => 0)
  let chain : Option Chain :=
    if p.more then some { stream := p.stream, f32c := p.f32c, fmtA := p.a.fmt, fmtB := p.b.fmt, total := total } else none
  let plan : Replay :=
    if p.capture == 0 then cl.replay
    else
      { cl.replay with who := some p.stream,
                       planA := if p.capture.getLsbD 0 then some (p.a.fmt, p.k) else none,
                       planB := if p.capture.getLsbD 1 then some (p.b.fmt, p.k) else none }
  { cl with passQ := cl.passQ ++ [p], chain := chain, replay := plan }

/-- The pass uses its windows from its issue (Table 9.8, USERS). -/
def addUsers (r : Region) (p : PassOp) : Region :=
  let one (r : Region) (sd : Side) : Region :=
    match sideWindow sd with
    | some w => { r with wins := r.wins.set w { r.wins[w] with users := r.wins[w].users + 1 } }
    | none => r
  one (one r p.a) p.b

/-! ## Macros -/

/-- The macro of an X slot, with its registers; STAGE is read only for CONTEXT blocks (R173, R241). -/
def macroOf (st : Stream) (i : StreamId) (sig : Option (Fin 64)) (x : BitVec 128) : MacroOp :=
  let reg (q : BitVec 5) : W64 := xRead st q
  let td (q : BitVec 5) : BitVec 256 := tdRead st q
  let m : MacroOp :=
    { stream := i, sig := sig, mop := x.extractLsb' 120 4, bm := mBm x, da := td (mDa x), db := td (mDb x), dc := td (mDc x),
      dd := td (mDd x), de := td (mDe x), stage := 0, n := (reg (mNr x)).toNat, r := (reg (mRr x)).toNat, scm := mScm x,
      scr := (reg (mScr x)).setWidth 32, cr := (reg (mCr x)).setWidth 32, beta := (reg (mBeta x)).setWidth 32,
      omega := (reg (mOmega x)).setWidth 32, init := mInit x, lam := (reg (mLam x)).setWidth 32, dmode := mDmode x,
      nmode := mNmode x, taux := mTaux x, pc := mPc x, start := mStart x, nc := mNc x, nw := mNw x,
      part := (reg (mPart x)).setWidth 16, ofmt := mOfmt x, rx := mRx x }
  if usesContext m then { m with stage := reg (mStage x) } else m

/-- Whether the macro reads its STAGE register. -/
def needsStage (st : Stream) (x : BitVec 128) : Bool := xOp x == 2 && usesContext (macroOf st 0 none x)

/-! ## Vector instructions -/

/-- The vector instruction of a V slot, with its registers, masks, microprogram and constants (R120, R214, R242). -/
def vecOf (st : Stream) (i : StreamId) (sig : Option (Fin 64)) (v : BitVec 128) : VecOp :=
  let td (c : BitVec 6) : Option (BitVec 256) := if c == 0 then none else some (tdRead st (c.extractLsb' 0 5))
  let k (q : BitVec 5) : W32 := (xRead st q).setWidth 32
  { stream := i, sig := sig, vop := v.extractLsb' 124 4, i0 := td (vI0 v), i1 := td (vI1 v), i2 := td (vI2 v), o := td (vO v),
    mask := mRead st (vMask v), mp := if vMp v == 0 then none else some (st.mp[(vMp v).extractLsb' 0 4 |>.toFin]),
    k0 := k (vKx0 v), k1 := k (vKx1 v), k2 := k (vKx2 v), k3 := k (vKx3 v), sr := vSr v, sat := vSat v,
    lc := if vLc v == 0 then none else some (xRead st ((vLc v).extractLsb' 0 5)).toNat, rdims := vRdims v, rx := vRx v,
    tid := vTid v, aux := vAux v }

/-- The last byte address at which a 256-byte record may start in scalar data memory (R245). -/
def mpLast : Nat := 0x3FF00

/-- R245 for the address of a VLDMP. -/
def vldmpOk (a : W64) : Option Cause :=
  firstFail [need (decide (a.toNat ≤ mpLast)) cAddressRange, need (decide (a.toNat % 256 = 0)) cOperandLayout]

/-! ## D-slot operations -/

/-- The operation of a D slot, with its registers; `seq` is its place in issue order (R285, R315). -/
def chanOf (r : Region) (st : Stream) (i : StreamId) (sig : Option (Fin 64)) (d : BitVec 64) : ChanOp :=
  let op : ChanOp :=
    { stream := i, sig := sig, dop := d.extractLsb' 60 4, tds := tdRead st (dTds d), tdd := tdRead st (dTdd d), mir := false,
      tqcl := 0, dlr := 0, tgt := 0, rreg := 0, ren := false, revt := 0, vc := 0, cop := 0, axis := 0, wfmt := 0, h := 0,
      seq := 0 }
  match dOp d with
  | 1 => { op with mir := dMir d, tqcl := dTqcl d }
  | 2 => { op with dlr := xRead st (dDlr d), seq := r.dprefs + 1 }
  | 3 => { op with tgt := dTgt d, rreg := dRreg d, ren := dSendRen d, revt := dSendRevt d, vc := dVc d }
  | _ => { op with cop := dCop d, axis := dAxis d, wfmt := dWfmt d, ren := dCollRen d, revt := dCollRevt d, h := dH d,
                   seq := r.collIssued[dAxis d] }

/-- Formats of a DCOPY (R148). -/
def copyFmtOk (a b : BitVec 4) : Bool := a == b || (a == fINT4 && b == fINT8) || (a == fINT8 && b == fINT4)

/-- A DCOPY at issue (R106, R109, R118, R147, R148, R248, Table 8.14). -/
def dcopyIssue (op : ChanOp) : Option Cause :=
  let a := tdOf op.tds
  let b := tdOf op.tdd
  let tile := a.kind == kTILEQ
  let place (d : Td) : Bool := d.kind == kSCRATCH || d.kind == kCONTEXT
  firstFail [
    need (place b && (place a || tile)) cIllegalEncoding,
    need (tile || op.tqcl == 0) cIllegalEncoding,
    need (!op.mir || b.kind == kCONTEXT) cIllegalEncoding,
    need (copyFmtOk a.fmt b.fmt) cIllegalEncoding,
    if tile then inOk a a else a.issueOk a.e3,
    b.issueOk b.e3,
    need (a.count == b.count) cVecShape,
    need (overlapOk b [a]) cStreamOverlap ]

/-- A DPREF at issue (R282, R283). -/
def dprefIssue (op : ChanOp) : Option Cause :=
  let a := tdOf op.tds
  let b := tdOf op.tdd
  let im := { b.image with kind := kSCRATCH }
  firstFail [
    need (a.kind == kCONTEXT && b.kind == kWINDOW && a.fmt == b.fmt && decide (b.base < 2 ^ 27)) cIllegalEncoding,
    a.issueOk a.e3, im.issueOk b.e3, need (a.count == b.count) cVecShape ]

/-- A DSEND at issue (R304, R533). -/
def dsendIssue (s : State) (op : ChanOp) : Option Cause :=
  let a := tdOf op.tds
  let b := tdOf op.tdd
  firstFail [
    need (a.kind == kSCRATCH && b.kind == kSCRATCH && a.fmt == b.fmt) cIllegalEncoding,
    a.issueOk a.e3, b.issueOk b.e3, need (a.count == b.count) cVecShape, need (b.s3 == 1) cOperandLayout,
    match portOfTgt op.tgt.toNat with
    | some p => need (decide (2 ≤ axisLen s (axisOf p))) cFabricAddress
    | none => none ]

/-- Table 10.5. -/
def collFmtOk (cop : BitVec 3) (w a b : BitVec 4) : Bool :=
  let wide (f : BitVec 4) : Bool := f == fFP16 || f == fFP32
  if cop == copRS then a == w && b == w && (w == fG16 || w == fFP32 || w == fFP16 || w == fL128)
  else if cop == copAG then
    (a == w && b == w && (w == fFP32 || w == fFP16 || w == fG16 || w == fL128)) ||
      (a == fFP32 && wide b && (w == fFP16 || w == fE4M3))
  else w == fG16 && a == b && (a == fINT8 || a == fG16)

/-- The strides of a dense descriptor (R317). -/
def Td.dense (d : Td) : Bool :=
  (d.e3 == 1 || d.s3 == 1) && (d.e2 == 1 || d.s2 == d.e3) && (d.e1 == 1 || d.s1 == d.e2 * d.e3) &&
    (d.e0 == 1 || d.s0 == d.e1 * d.e2 * d.e3)

/-- Table 10.4. -/
def collCountOk (cop : BitVec 3) (w : BitVec 4) (n a b : Nat) : Bool :=
  let u := if w == fG16 then 64 else if w == fE4M3 then 32 else 1
  if cop == copRS then decide (a % (2 * n * u) = 0) && decide (b * n = a)
  else if cop == copAG then decide (a % (2 * u) = 0) && decide (b = n * a)
  else decide (a % (2 * n) = 0) && decide (b = a)

/-- ⌈log2 n⌉. -/
def clog2 (n : Nat) : Nat := if n ≤ 1 then 0 else Nat.log2 (n - 1) + 1

/-- The exponent plane behind a G16 element plane lies in range too (R322). -/
def collPlaneOk (d : Td) : Option Cause :=
  if d.fmt == fG16 then need (decide ((d.base + 2 * d.count + ceilDiv d.count 64 : Nat) ≤ scratchEnd)) cAddressRange else none

/-- A DCOLL at issue (R108, R276, R317, R318, R322, R324). -/
def dcollIssue (s : State) (op : ChanOp) : Option Cause :=
  let a := tdOf op.tds
  let b := tdOf op.tdd
  let n := collN s op.axis
  firstFail [
    need (collFmtOk op.cop op.wfmt a.fmt b.fmt) cIllegalEncoding,
    need (a.kind == kSCRATCH && b.kind == kSCRATCH && a.dense && b.dense && (op.cop != copMAX || op.tds == op.tdd)) cOperandLayout,
    a.issueOk a.e3, b.issueOk b.e3, collPlaneOk a, collPlaneOk b,
    need (collCountOk op.cop op.wfmt n a.count b.count) cVecShape,
    need (!(op.cop == copRS && op.wfmt == fG16) || decide (clog2 n ≤ op.h.toNat)) cCollHeadroom ]

/-- Every check of a D-slot operation at issue. -/
def chanIssue (s : State) (op : ChanOp) : Option Cause :=
  match op.dop.toNat with
  | 1 => dcopyIssue op
  | 2 => dprefIssue op
  | 3 => dsendIssue s op
  | _ => dcollIssue s op

/-- The region after a D-slot operation has issued to channel `k` (R147, R278, R285, R315). -/
def chanAccept (r : Region) (k : ChanId) (op : ChanOp) : Region :=
  let r := updChan r k fun c => { c with q := c.q ++ [op] }
  match op.dop.toNat with
  | 1 =>
    if writeAlias (tdOf op.tdd) then updStream r op.stream fun st => { st with vflags := st.vflags ||| 1 } else r
  | 2 =>
    let w := (tdOf op.tdd).window
    { r with dprefs := r.dprefs + 1, wins := r.wins.set w { r.wins[w] with issued := some (op.seq, op.tds, op.tdd) } }
  | 4 => { r with collIssued := r.collIssued.set op.axis (op.seq + 1) }
  | _ => r

end Sys2Proof.Machine
end

