-- ==== Sys2Proof/Machine/Scalar.lean ====
section
/-! DEFINITION. The scalar slots (Table 8.4): what each operation computes from the registers as they stood before the bundle
(R214), its accesses to scalar data memory (R202, R203, R229) and its event operations (R209). -/

namespace Sys2Proof.Machine

/-- What a scalar slot does: a write of a register, predicate, mask or descriptor, a store, an event operation, cleared
flags, raised flags, or a fault. -/
structure ScalarOut where
  x     : Option (BitVec 5 × W64)
  p     : Option (BitVec 3 × Bool)
  m     : Option (BitVec 4 × BitVec 128)
  td    : Option (BitVec 5 × BitVec 256)
  load  : Option (Nat × Nat)
  store : Option (Nat × List Byte)
  evAdd : Option (Fin 64 × Int)
  evSet : Option (Fin 64 × BitVec 16)
  clrA  : BitVec 7
  clrV  : BitVec 7
  flags : AF
  fault : Option Cause
  deriving DecidableEq, Repr

def ScalarOut.none : ScalarOut :=
  { x := Option.none, p := Option.none, m := Option.none, td := Option.none, load := Option.none, store := Option.none,
    evAdd := Option.none, evSet := Option.none, clrA := 0, clrV := 0, flags := 0, fault := Option.none }

/-- The two-operand integer operations 0x01 to 0x0F. -/
def scalarInt (opc : Nat) (a b : W64) : W64 :=
  let sh := (b &&& 0x3F).toNat
  match opc with
  | 0x01 => a + b
  | 0x02 => a - b
  | 0x03 => a * b
  | 0x04 => if b = 0 then BitVec.allOnes 64 else a / b
  | 0x05 => if b = 0 then a else a % b
  | 0x06 => a &&& b
  | 0x07 => a ||| b
  | 0x08 => a ^^^ b
  | 0x09 => a <<< sh
  | 0x0A => a >>> sh
  | 0x0B => a.sshiftRight sh
  | 0x0C => if a.toInt ≤ b.toInt then a else b
  | 0x0D => if a.toInt ≤ b.toInt then b else a
  | 0x0E => if a.toNat ≤ b.toNat then a else b
  | _ => if a.toNat ≤ b.toNat then b else a

/-- The operations with an immediate, 0x10 to 0x1D. -/
def scalarImm (opc : Nat) (a : W64) (imm : W32) : W64 :=
  let sh := (imm &&& 0x3F).toNat
  match opc with
  | 0x10 => a + imm.signExtend 64
  | 0x16 => a &&& imm.setWidth 64
  | 0x17 => a ||| imm.setWidth 64
  | 0x18 => a ^^^ imm.setWidth 64
  | 0x19 => a <<< sh
  | 0x1A => a >>> sh
  | 0x1B => a.sshiftRight sh
  | 0x1C => imm.signExtend 64
  | _ => (imm.setWidth 64 <<< 32) ||| (a &&& 0xFFFFFFFF)

/-- The conditions of Table 8.6. -/
def scalarCond (code : Nat) (a b : W64) : Bool :=
  match code with
  | 6 => decide (a.toNat < b.toNat)
  | 7 => decide (b.toNat ≤ a.toNat)
  | c => iCond c a.toInt b.toInt

/-- PLOG (FN[1:0]). -/
def scalarPlog (f : Nat) (a b : Bool) : Bool :=
  match f with
  | 0 => a && b
  | 1 => a || b
  | 2 => xor a b
  | _ => a && !b

/-- CVTFI: FP32 rounded to i64, limited to its range, with CVT_SAT where it is limited (R233). -/
def cvtFi (a : W32) : W64 × AF :=
  match f32 a with
  | .nan => (0, afCvtSat)
  | .inf false => (0x7FFFFFFFFFFFFFFF, afCvtSat)
  | .inf true => (0x8000000000000000, afCvtSat)
  | v =>
    let i := Val.rneInt v
    if 2 ^ 63 ≤ i then (0x7FFFFFFFFFFFFFFF, afCvtSat)
    else if i < -(2 ^ 63) then (0x8000000000000000, afCvtSat)
    else (BitVec.ofInt 64 i, 0)

/-- The FP32 operations 0x28 to 0x2E (R124, R233). -/
def scalarFp (opc : Nat) (a b : W64) : W64 × AF :=
  let x : W32 := a.setWidth 32
  let y : W32 := b.setWidth 32
  match opc with
  | 0x28 => ((fAdd x y).setWidth 64, 0)
  | 0x29 => ((fSub x y).setWidth 64, 0)
  | 0x2A => ((fMul x y).setWidth 64, 0)
  | 0x2B => ((fMin x y).setWidth 64, 0)
  | 0x2C => ((fMax x y).setWidth 64, 0)
  | 0x2D => ((toF32 (valOfInt a.toInt 0)).setWidth 64, 0)
  | _ => cvtFi x

/-- R202 for an access of `n` bytes at `a`. -/
def sdataOk (a : W64) (n : Nat) : Option Cause :=
  firstFail [need (decide (a.toNat % n = 0)) cOperandLayout, need (decide (a.toNat + n ≤ 262144)) cAddressRange]

/-- A loaded value, extended (LD, FN[2]). -/
def loadValue (l : List Byte) (signed : Bool) : W64 :=
  let v := leNat l
  if signed then BitVec.ofInt 64 (signedOf (8 * l.length) v) else BitVec.ofNat 64 v

/-- RDST (Table 8.5). -/
def rdst (r : Region) (st : Stream) (i : StreamId) (imm : W32) : W64 :=
  let c : ClusterId := (imm.extractLsb' 4 2).toFin
  match bits imm 0 4 with
  | 0 => st.aflags.setWidth 64
  | 1 => st.vflags
  | 2 => r.clusters[c].pstat[i]
  | 3 => r.clusters[c].vstat[i]
  | 4 => st.sstat
  | _ => st.sres.setWidth 64

/-- Replace 32-bit word `w` of a register. -/
def setWord {n : Nat} (v : BitVec n) (w : Nat) (x : W32) : BitVec n := setField v (32 * w) 32 (x.setWidth n)

/-- Ones in lanes lo to hi (MFILL). -/
def laneRange (lo hi : Nat) : BitVec 128 :=
  if hi < lo then 0 else BitVec.ofNat 128 (2 ^ (hi + 1) - 2 ^ lo)

/-- One scalar slot (Table 8.4). `st` and `r` are the registers and counters at the start of the beat (R214, R234). -/
def scalarOut (r : Region) (st : Stream) (i : StreamId) (s : BitVec 64) : ScalarOut :=
  let z := ScalarOut.none
  let opc := sOpc s
  let a := xRead st (sRa s)
  let b := xRead st (sRb s)
  let imm := sImm s
  let fn := (sFn s).toNat
  let e : Fin 64 := ((sFn s).extractLsb' 0 6).toFin
  let rd := sRd s
  let prd : BitVec 3 := rd.extractLsb' 0 3
  let x (v : W64) : ScalarOut := { z with x := some (rd, v) }
  let p (v : Bool) : ScalarOut := { z with p := some (prd, v) }
  let td (v : BitVec 256) : ScalarOut := { z with td := some (rd, v) }
  let old := tdRead st rd
  if opc = 0 then z
  else if opc ≤ 0x0F then x (scalarInt opc a b)
  else if opc ≤ 0x1D then x (scalarImm opc a imm)
  else if opc = 0x20 then p (scalarCond fn a b)
  else if opc = 0x21 then p (scalarCond fn a (imm.signExtend 64))
  else if opc = 0x22 then p (fCond fn (f32 (a.setWidth 32)) (f32 (b.setWidth 32)))
  else if opc = 0x23 then p (scalarPlog (fn % 4) (pRead st ((sRa s).extractLsb' 0 3)) (pRead st ((sRb s).extractLsb' 0 3)))
  else if opc = 0x24 then x (if pRead st ((sFn s).extractLsb' 0 3) then a else b)
  else if opc ≤ 0x2E then { x (scalarFp opc a b).1 with flags := (scalarFp opc a b).2 }
  else if opc = 0x30 then
    let n := 2 ^ (fn % 4)
    let ad := a + imm.signExtend 64
    match sdataOk ad n with
    | some c => { z with fault := some c }
    | none =>
      { x (loadValue (sramBytes r.sdata ad.toNat n) (decide (4 ≤ fn % 8))) with load := some (ad.toNat, n) }
  else if opc = 0x31 then
    let n := 2 ^ (fn % 4)
    let ad := a + imm.signExtend 64
    match sdataOk ad n with
    | some c => { z with fault := some c }
    | none => { z with store := some (ad.toNat, leBytes n b.toNat) }
  else if opc = 0x38 then x (r.ev[e].setWidth 64)
  else if opc = 0x39 then { z with evAdd := some (e, imm.toInt) }
  else if opc = 0x3A then { z with evSet := some (e, imm.setWidth 16) }
  else if opc = 0x40 then x (rdst r st i imm)
  else if opc = 0x41 then
    if fn % 2 = 0 then { z with clrA := imm.setWidth 7 } else { z with clrV := imm.setWidth 7 }
  else if opc = 0x48 then
    let q : BitVec 4 := rd.extractLsb' 0 4
    { z with m := some (q, setWord (mRead st q) (fn % 4) imm) }
  else if opc = 0x49 then { z with m := some (rd.extractLsb' 0 4, laneRange (bits imm 0 7) (bits imm 8 7)) }
  else if opc = 0x50 then td (setWord old (fn % 8) imm)
  else if opc = 0x51 then td (setWord old (fn % 8) (a.setWidth 32))
  else if opc = 0x52 then td (setField old 0 52 (a.setWidth 256))
  else if opc = 0x53 then td (setField old 0 52 (old + a.setWidth 256))
  else td (tdRead st (sRa s))

/-- What a slot's CLRF clears. A flag that the same bundle sets reads 1 afterwards, so this comes before the slots of the
bundle set flags (R11, R72). -/
def scalarClear (st : Stream) (o : ScalarOut) : Stream :=
  { st with aflags := st.aflags &&& ~~~(o.clrA.setWidth 32), vflags := st.vflags &&& ~~~(o.clrV.setWidth 64) }

/-- Write a slot's registers at the end of the issue beat (R214). -/
def scalarWrite (st : Stream) (o : ScalarOut) : Stream :=
  let st := match o.x with | some e => xWrite st e.1 e.2 | none => st
  let st := match o.p with | some e => pWrite st e.1 e.2 | none => st
  let st := match o.m with | some e => mWrite st e.1 e.2 | none => st
  match o.td with | some e => tdWrite st e.1 e.2 | none => st

/-- A slot's event operations and its store, on the region (R209, R229). -/
def scalarRegion (r : Region) (i : StreamId) (o : ScalarOut) : Region :=
  let r := match o.evAdd with | some e => evAdd r e.1 e.2 (some i) | none => r
  let r := match o.evSet with | some e => evSet r e.1 e.2 (some i) | none => r
  match o.store with
  | some e => { r with sdata := sramWrite r.sdata e.1 e.2 }
  | none => r

end Sys2Proof.Machine
end

