-- ==== Sys2Proof/Machine/Region.lean ====
section
/-! DEFINITION. One beat of a region processor (R199 to R224, R228, R229, R234, R245, R309, R343, R367, R378): the end of
the last beat's counter changes, which head bundle issues, what it does, and the two faults of a segment. -/

namespace Sys2Proof.Machine

/-! ## The beat boundary (R206, R209) -/

/-- STREAM of a record that several streams may have caused (Table 13.6): the one stream, or 3. -/
def whoStream (w : BitVec 4) : BitVec 2 := if w = 1 then 0 else if w = 2 then 1 else if w = 4 then 2 else 3

/-- The changes gathered since the last beat take effect; the result, and whether a counter left its range. -/
def endBeat (s : State) (g : RegionId) : State × Bool :=
  let r := s.regions[g]
  match evOverflow r with
  | some e =>
    let who := r.evPend[e].who
    let s := updRegion s g fun r => { r with evPend := Vector.replicate 64 EvPend.none }
    (raiseFault s { cause := cEventOverflow, ctx := r.ctx, rcd := { regionRec s g with stream := whoStream who } }, true)
  | none => (updRegion s g evEndBeat, false)

/-! ## Fetch (R201, R225, R383) -/

def bundleAt (r : Region) (pc : BitVec 14) : BitVec 512 := BitVec.ofNat 512 (leNat (sramBytes r.imem (64 * pc.toNat) 64))

def fetchFindings (r : Region) (pc : BitVec 14) : List (Nat × Finding) := sramFindings r.imem (64 * pc.toNat) 64

/-- The fault of a head bundle that can never issue: beyond the store, unreadable, or with a reserved wait code, in the
first beat in which it is the head (R201, R208, R383). -/
def fetchFault (s : State) (g : RegionId) (i : StreamId) : Option FaultInfo :=
  let r := s.regions[g]
  let st := r.streams[i]
  let base := { regionRec s g with stream := BitVec.ofNat 2 i.val }
  if !st.running then none
  else if st.pcOver then some { cause := cImemRange, ctx := r.ctx, rcd := base }
  else
    match firstBad (fetchFindings r st.pc) with
    | some b =>
      some { cause := cImemError, ctx := r.ctx,
             rcd := sramRec s base g .imem srcSramDemand b }
    | none =>
      if waitLegal (bundleAt r st.pc) then none else some { cause := cIllegalEncoding, ctx := r.ctx, rcd := base }

/-! ## Readiness (R208, R212) -/

/-- The slot's predicate lets it issue (R215). -/
def slotOn (st : Stream) (op : Nat) (pred : BitVec 4) : Bool := op != 0 && predHolds st pred

/-- The counter that a wait field names, and whether the wait is over (Table 7.4). -/
def waitDone (r : Region) (b : BitVec 512) : Bool :=
  let w := bWait b
  let n := r.ev[((w.extractLsb' 0 6).toFin : Fin 64)]
  if w = 0xFF then true else if w.toNat < 0x80 then n != 0 else n == 0

/-- Registers of stream `i` that an uncompleted vector instruction or NORM will write through RX (R119, R177). -/
def rxPending (r : Region) (i : StreamId) : List (BitVec 5) :=
  let vec (v : VecOp) : List (BitVec 5) := if v.stream == i && v.rx != 0 then [v.rx] else []
  let mac (m : MacroOp) : List (BitVec 5) := if m.stream == i && m.opc == mNORM && m.rx != 0 then [m.rx] else []
  ((List.finRange 4).flatMap fun c =>
    (r.clusters[c].vq.flatMap vec) ++ (match r.clusters[c].vrun with | some q => vec q.op | none => [])) ++
    r.mq.flatMap mac ++ (match r.mrun with | some q => mac q.op | none => [])

/-- Registers that a bundle reads; a slot that is predicated off reads none. -/
def bundleReads (st : Stream) (b : BitVec 512) : List (BitVec 5) :=
  let on (op : Nat) (pred : BitVec 4) (l : List (BitVec 5)) : List (BitVec 5) := if slotOn st op pred then l else []
  scalarReads (bS0 b) ++ scalarReads (bS1 b) ++
    on (xOp (bX b)) (bXp b) (xReads (bX b) (needsStage st (bX b))) ++
    on (vOp (bV b)) (bVp b) (vReads (bV b)) ++ on (dOp (bD b)) (bDp b) (dReads (bD b)) ++ cReads (bC b)

/-- A queued or running macro borrows the cluster (R176). -/
def borrowing (r : Region) (c : ClusterId) : Bool :=
  (r.mq.any fun m => m.bm.getLsbD c.val) || (match r.mrun with | some q => q.op.bm.getLsbD c.val | none => false)

/-- A macro on CONTEXT blocks is queued or running: the solver channel is taken (R173). -/
def solverChannel (r : Region) : Bool :=
  (r.mq.any usesContext) || (match r.mrun with | some q => usesContext q.op | none => false)

/-- Entries of a cluster's pass queue in use: a pass holds its entry until its first operand beat enters the array (R86). -/
def passEntries (cl : Cluster) : Nat :=
  cl.passQ.length +
    (match cl.cur with
     | none => 0
     | some b =>
       match cl.banks[b].run with
       | some run =>
         if cl.banks[b].phase == .busy && run.step == 0 &&
             (match run.parts.getLast? with | some p => decide (0 < p.k) | none => false)
         then 1 else 0
       | none => 0)

/-- The X slot can be accepted now (R82, R86, R98, R166, R176). -/
def xAccepts (r : Region) (i : StreamId) (x : BitVec 128) : Bool :=
  if xOp x = 2 then decide (r.mq.length < 4)
  else
    let c := xCl x
    let cl := r.clusters[c]
    let mine := match cl.chain with | some h => h.stream == i | none => true
    let goesOn := xCont x && (match cl.chain with | some h => h.stream == i | none => false)
    decide (passEntries cl < 4) && mine && !cl.borrowed && (goesOn || !borrowing r c)

/-- The V slot can be accepted now (R115). -/
def vAccepts (r : Region) (v : BitVec 128) : Bool := vOp v == opVLDMP || decide (r.clusters[vCl v].vq.length < 4)

/-- The channel of a D slot. -/
def dChan (d : BitVec 64) : ChanId := ⟨dCh d % 12, by omega⟩

/-- The channel of a D slot has room (R278). -/
def dRoom (r : Region) (d : BitVec 64) : Bool := decide ((r.chans[dChan d].q).length < 4)

/-- Some flit of which `f` holds waits in a queue of a link without a credit. -/
def starvedOn (s : State) (l : Link) (vc : VcId) (f : BitVec 128 → Bool) : Bool :=
  (endOf s l).credits[vc] == 0 && (endOf s l).txq[vc].any fun t => f t.hdr

/-- Every link that leaves the module or one of its dies. -/
def allLinks : List Link :=
  ((List.finRange 6).map .port) ++ (List.finRange 4).flatMap fun a => (List.finRange 4).map fun b => .bridge a b

/-- The flits of a channel's running operation: of a send by its tag, of a collective by its sequence number and region. -/
def flitOf (s : State) (g : RegionId) (k : ChanId) (op : ChanOp) (h : BitVec 128) : Bool :=
  if op.dop == dopDSEND then
    s.fab.txns.any fun t => t.who == chanWho g k && t.tag == hTag h && t.gen == hGen h && hType h == tyDATA
  else
    hType h == tyCOLL && hTag h == BitVec.ofNat 16 op.seq && (hRreg h).toNat % perDie s == g.val % perDie s &&
      (isTg op.axis || (hRreg h).toNat == g.val)

/-- The links that a running send or collective sends on. -/
def linksOf (s : State) (g : RegionId) (op : ChanOp) : List Link :=
  if op.dop == dopDSEND then
    match portOfTgt op.tgt.toNat with
    | some p => [.port p]
    | none => allLinks
  else if isTg op.axis then allLinks.filter fun l => match l with | .bridge a _ => a.val == dieOf s g | .port _ => false
  else [.port (axisPort (ringAxis op.axis) true), .port (axisPort (ringAxis op.axis) false)]

/-- A running send or collective waits for a link credit (R309). -/
def waitsForCredit (s : State) (g : RegionId) (k : ChanId) (op : ChanOp) : Bool :=
  let vc : VcId := if op.dop == dopDSEND then op.vc.toFin else 5
  (op.dop == dopDSEND || op.dop == dopDCOLL) && (linksOf s g op).any fun l => starvedOn s l vc (flitOf s g k op)

/-- The D slot is a send or collective held for lack of link credits (R309). -/
def dStarved (s : State) (g : RegionId) (d : BitVec 64) : Bool :=
  let r := s.regions[g]
  (dOp d == 3 || dOp d == 4) && !dRoom r d &&
    (match r.chans[dChan d].run with | some q => waitsForCredit s g (dChan d) q.op | none => false)

/-- Operations of stream `i` that have issued and not completed (R219, R343). -/
def outstanding (r : Region) (i : StreamId) : Bool :=
  ((List.finRange 4).any fun c =>
    let cl := r.clusters[c]
    let run (k : PassRun) : Bool := k.parts.any fun p => p.stream == i
    let bank (b : Fin 2) : Bool :=
      cl.banks[b].phase != .held && (match cl.banks[b].run with | some k => run k | none => false)
    (cl.passQ.any fun p => p.stream == i) || bank 0 || bank 1 || cl.drained.any run ||
      (cl.vq.any fun v => v.stream == i) || (match cl.vrun with | some v => v.op.stream == i | none => false)) ||
    (r.mq.any fun m => m.stream == i) || (match r.mrun with | some m => m.op.stream == i | none => false) ||
    (List.finRange 12).any fun k =>
      (r.chans[k].q.any fun o => o.stream == i) || (match r.chans[k].run with | some o => o.op.stream == i | none => false)

/-- Why a head bundle is held: by a condition that R221 excludes from the segment (a wait on E48 to E63, or link credits), by
any other condition, and whether by link credits (R309). -/
structure Hold where
  fabric : Bool
  other  : Bool
  credit : Bool
  deriving DecidableEq, Repr

/-- What holds the head bundle of a stream. A bundle that will fault on its encoding waits only for its wait field and its
registers (notes/assumptions/22). -/
def holdOf (s : State) (g : RegionId) (i : StreamId) : Hold :=
  let r := s.regions[g]
  let st := r.streams[i]
  let b := bundleAt r st.pc
  let w := !waitDone r b
  let onFabric := decide (48 ≤ (bWait b).toNat % 64)
  let regs := (bundleReads st b).any fun q => (rxPending r i).contains q
  let legal := bundleLegal b i
  let x := legal && slotOn st (xOp (bX b)) (bXp b) && !xAccepts r i (bX b)
  let v := legal && slotOn st (vOp (bV b)) (bVp b) && !vAccepts r (bV b)
  let dOn := legal && slotOn st (dOp (bD b)) (bDp b)
  let starved := dOn && dStarved s g (bD b)
  let d := dOn && ((!dRoom r (bD b) && !starved) || (dChan (bD b) == 11 && solverChannel r))
  let drains := legal && cDrains (bC b) && outstanding r i
  { fabric := (w && onFabric) || starved, other := (w && !onFabric) || regs || st.loadWait != 0 || x || v || d || drains,
    credit := starved }

/-- The head bundle of a stream is ready (R212). -/
def isReadyStream (s : State) (g : RegionId) (i : StreamId) : Bool :=
  let h := holdOf s g i
  s.regions[g].streams[i].running && !h.fabric && !h.other

/-- The head bundle is held only by conditions that R221 excludes. -/
def fabricHeld (s : State) (g : RegionId) (i : StreamId) : Bool :=
  let h := holdOf s g i
  s.regions[g].streams[i].running && h.fabric && !h.other

/-! ## Issue (R213, R214) -/

/-- The next stream in the order F, B, U. -/
def nextStream (i : StreamId) : StreamId :=
  match i with
  | 0 => 1
  | 1 => 2
  | 2 => 0

/-- The first ready stream after the one that issued last (R213). -/
def pickStream (s : State) (g : RegionId) : Option StreamId :=
  let a := nextStream s.regions[g].lastIssue
  let b := nextStream a
  [a, b, nextStream b].find? (isReadyStream s g)

/-- The event that the signal field names for a slot class: X 0, V 1, D 2, issue 3 (Table 7.3). -/
def sigFor (b : BitVec 512) (cls : Nat) : Option (Fin 64) :=
  let v := (bSig b).toNat
  if v != 0xFF && v / 64 == cls then some ((bSig b).extractLsb' 0 6).toFin else none

/-- LOOP of R251. -/
def loopNext (xr : W64) (target next : Nat) : W64 × Nat :=
  if xr = 0 then (0, next) else if xr - 1 ≠ 0 then (xr - 1, target) else (0, next)

/-- The checks of a C slot at issue (R217, R218, R220, R343, R367). -/
def cIssue (r : Region) (i : StreamId) (c : BitVec 32) : Option Cause :=
  let st := r.streams[i]
  let d := (xRead st (cDr c)).toNat
  let seg := cOp c == 3
  if st.marked && !(seg && cEnd c) then some cStepOrder
  else if st.seg.isNone && !(seg && !cEnd c) then some cNoSegment
  else if seg && !cEnd c then
    if d < 1 ∨ 2 ^ 40 ≤ d then some cSegmentDecl
    else if r.budget[i].stepBeats < st.sum + d then some cBudgetExceeded
    else if r.budget[i].nseg < st.nseg + 1 then some cBudgetExceeded
    else none
  else none

/-- The C slot takes effect for the next bundle (R216, R217, R219, R251, R343). -/
def cApply (st0 st : Stream) (c : BitVec 32) : Stream :=
  let next := st0.pc.toNat + 1
  let jump (st : Stream) (n : Nat) : Stream := { st with pc := BitVec.ofNat 14 n, pcOver := decide (16384 ≤ n) }
  match cOp c with
  | 1 => jump st (if predHolds st0 (cPred c) then (cBrTarget c).toNat else next)
  | 2 =>
    let (v, n) := loopNext (xRead st0 (cXr c)) (cLoopTarget c).toNat next
    jump (xWrite st (cXr c) v) n
  | 3 =>
    if cEnd c then { jump st next with seg := none, running := false, ended := true }
    else
      let d := (xRead st0 (cDr c)).toNat
      { jump st next with seg := some { d := d, counter := 0, retries := 0, allowance := 0 }, sum := st0.sum + d,
                          nseg := st0.nseg + 1 }
  | 4 => { jump st next with marked := true }
  | _ => jump st next

/-- The scalar slots' accesses to scalar data memory: what they read, and VLDMP's record (R229). -/
def sdataReads (st : Stream) (b : BitVec 512) (o0 o1 : ScalarOut) : List (Nat × Nat) :=
  o0.load.toList ++ o1.load.toList ++
    (if slotOn st (vOp (bV b)) (bVp b) && vOp (bV b) == opVLDMP then [((xRead st (vKx0 (bV b))).toNat, 256)] else [])

def mpRecordAt (r : Region) (a : Nat) : BitVec 2048 := BitVec.ofNat 2048 (leNat (sramBytes r.sdata a 256))

/-- The first uncorrectable word of scalar data memory that a bundle meets (R382, R387). -/
def sdataBad (r : Region) (reads : List (Nat × Nat)) (o0 o1 : ScalarOut) : Option (Nat × Finding) :=
  match firstBad (reads.flatMap fun e => sramFindings r.sdata e.1 e.2) with
  | some b => some b
  | none => (o0.store.toList ++ o1.store.toList).findSome? fun e => sramWriteBad r.sdata e.1 e.2.length

/-- The first check that a bundle fails at issue, encoding first, then slot by slot (notes/assumptions/21). -/
def issueFault (s : State) (g : RegionId) (i : StreamId) (b : BitVec 512) (o0 o1 : ScalarOut) : Option Cause :=
  let r := s.regions[g]
  let st := r.streams[i]
  let xOn := slotOn st (xOp (bX b)) (bXp b)
  let vOn := slotOn st (vOp (bV b)) (bVp b)
  let dOn := slotOn st (dOp (bD b)) (bDp b)
  firstFail [
    need (bundleLegal b i) cIllegalEncoding,
    cIssue r i (bC b), o0.fault, o1.fault,
    if !xOn then none
    else if xOp (bX b) = 1 then passIssue r (xCl (bX b)) (passOf r st i none (bX b))
    else macroIssue (macroOf st i none (bX b)),
    if !vOn then none
    else if vOp (bV b) = opVLDMP then
      firstFail [vldmpOk (xRead st (vKx0 (bV b))),
        need (mpRecordOk (mpRecordAt r (xRead st (vKx0 (bV b))).toNat)) cIllegalEncoding]
    else vecIssue (vecOf st i none (bV b)),
    if dOn then chanIssue s (chanOf r st i none (bD b)) else none ]

/-- The X slot is handed to its cluster or to the solver engine. -/
def issueX (r : Region) (st : Stream) (i : StreamId) (b : BitVec 512) : Region :=
  if !slotOn st (xOp (bX b)) (bXp b) then evSignal r (sigFor b 0) i
  else if xOp (bX b) = 1 then
    let p := passOf r st i (sigFor b 0) (bX b)
    updCluster (addUsers r p) (xCl (bX b)) fun cl => passAccept cl p
  else { r with mq := r.mq ++ [macroOf st i (sigFor b 0) (bX b)] }

/-- The V slot is handed to its engine; VLDMP takes effect at issue (R115, R245). -/
def issueV (r0 r : Region) (st : Stream) (i : StreamId) (b : BitVec 512) : Region :=
  if !slotOn st (vOp (bV b)) (bVp b) then evSignal r (sigFor b 1) i
  else if vOp (bV b) = opVLDMP then
    let q := mpRecordAt r0 (xRead st (vKx0 (bV b))).toNat
    evSignal (updStream r i fun t => { t with mp := t.mp.set (bits (vAux (bV b)) 0 4 % 16) q (by omega) }) (sigFor b 1) i
  else
    updCluster r (vCl (bV b)) fun cl => { cl with vq := cl.vq ++ [vecOf st i (sigFor b 1) (bV b)] }

/-- The D slot is handed to its channel. -/
def issueD (r : Region) (st : Stream) (i : StreamId) (b : BitVec 512) : Region :=
  if slotOn st (dOp (bD b)) (bDp b) then chanAccept r (dChan (bD b)) (chanOf r st i (sigFor b 2) (bD b))
  else evSignal r (sigFor b 2) i

/-- The consuming wait of a bundle (Table 7.4). -/
def consume (r : Region) (i : StreamId) (b : BitVec 512) : Region :=
  if (bWait b).toNat < 0x40 then evAdd r ((bWait b).extractLsb' 0 6).toFin (-1) (some i) else r

/-- Every slot of a bundle issues in one beat on the registers as they stood before it (R207 to R209, R214, R229). -/
def issueBundle (r0 : Region) (i : StreamId) (b : BitVec 512) (o0 o1 : ScalarOut) : Region :=
  let st := r0.streams[i]
  let r := updStream (consume r0 i b) i fun t => scalarClear (scalarClear t o0) o1
  let r := issueD (issueV r0 (issueX r st i b) st i b) st i b
  let r := scalarRegion (scalarRegion r i o0) i o1
  let r := evSignal r (sigFor b 3) i
  let loads := o0.load.isSome || o1.load.isSome
  let r := updStream r i fun t =>
    let t := scalarWrite (scalarWrite t o0) o1
    let t := raiseAflags t (o0.flags ||| o1.flags)
    { cApply st t (bC b) with loadWait := if loads then 1 else 0 }
  { r with lastIssue := i }

/-- The head bundle of a ready stream issues, or raises what its checks find (R8, R378). -/
def issueStream (s : State) (g : RegionId) (i : StreamId) (resid : Bool) : State :=
  let r := s.regions[g]
  let st := r.streams[i]
  let b := bundleAt r st.pc
  let base := { regionRec s g with stream := BitVec.ofNat 2 i.val }
  let fetched := sramCorrected s base g .imem srcSramDemand (fetchFindings r st.pc)
  let o0 := scalarOut r st i (bS0 b)
  let o1 := scalarOut r st i (bS1 b)
  let legal := bundleLegal b i
  let o0 := if legal then o0 else ScalarOut.none
  let o1 := if legal then o1 else ScalarOut.none
  let reads := sdataReads st b o0 o1
  match issueFault s g i b o0 o1 with
  | some c => raiseFault fetched { cause := c, ctx := r.ctx, rcd := base }
  | none =>
    match sdataBad r reads o0 o1 with
    | some w =>
      busFault fetched cBusError r.ctx (sramRec s base g .sdata srcSramDemand w)
    | none =>
      if resid && (sOpc (bS0 b) != 0 || sOpc (bS1 b) != 0) then
        raiseFault fetched { cause := cResidueFault, ctx := r.ctx, rcd := { base with source := srcResOther } }
      else
        let s := sramCorrected fetched base g .sdata srcSramDemand
          ((reads.flatMap fun e => sramFindings r.sdata e.1 e.2) ++
            (o0.store.toList ++ o1.store.toList).flatMap fun e => sramWriteFixes r.sdata e.1 e.2.length)
        updRegion s g fun r => issueBundle r i b o0 o1

/-! ## Segment counters and holds (R221, R224, R309, R375) -/

/-- The passing of a beat for one stream that does not depend on issue: its segment counter, its load wait, the record of a
hold by fabric conditions, and the beats held for lack of credits. -/
def passBeat (st : Stream) (slice held credit : Bool) (count : Nat) : Stream :=
  let st := { st with loadWait := st.loadWait - 1,
                      seg := st.seg.map fun q => if slice || held then q else { q with counter := q.counter + 1 },
                      creditBeats := st.creditBeats + (if credit then 1 else 0) }
  match st.heldFrom, held with
  | none, true => { st with heldFrom := some count }
  | some t, false => { st with heldFrom := none, xs := st.xs + (count - t) }
  | _, _ => st

/-- One beat passes for the three streams of a region. -/
def passBeats3 (s : State) (g : RegionId) (slice : Bool) : State :=
  let one (i : StreamId) : Stream :=
    let st := s.regions[g].streams[i]
    let h := holdOf s g i
    passBeat st slice (fabricHeld s g i) (st.running && h.credit) (now s)
  updRegion s g fun r => { r with streams := Vector.ofFn one }

/-- The share of region core beats that background work may take (Table 12.2). -/
def bgLimit (c : ImgCfg) : BgWork → Nat
  | .moth => c.shMothSp
  | .cal => c.shCal
  | .mirror => c.shMirror

/-- The bit of background work in the shortfall of TELEMETRY (Table 15.20). -/
def bgBit : BgWork → BitVec 8
  | .moth => 1
  | .cal => 2
  | .mirror => 4

/-- One beat of a region's background work: a slice is taken only within the work's share of the last 1,024 beats; beyond it the
work falls behind (R369). -/
def bgBeat (c : ImgCfg) (r : Region) (want : Option BgWork) : Region × Bool :=
  let n := r.beatNo + 1
  let l := r.slices.filter fun e => n < e.1 + 1024
  match want with
  | none => ({ r with beatNo := n, slices := l }, false)
  | some a =>
    if (l.filter fun e => e.2 == a).length < bgLimit c a then ({ r with beatNo := n, slices := l ++ [(n, a)] }, true)
    else ({ r with beatNo := n, slices := l, behind := r.behind ||| bgBit a }, false)

/-- BUNDLE_ISSUE: one beat of region `g`. The last beat's counter changes take effect; a head bundle that can never issue
faults; the segment counters advance; and the head bundle of the first ready stream issues (R201 to R224). -/
def execBundleIssue (g : RegionId) (slice : Option BgWork) (resid : Bool) (s : State) : Host.Outcome State Fault Refusal :=
  .next (if !enabled s g || !running s || !beatToken s g then s
  else
    match endBeat s g with
    | (s, true) => s
    | (s, false) =>
      match (List.finRange 3).findSome? (fetchFault s g) with
      | some f =>
        let s := if f.cause == cImemError then updRegion s g fun r => { r with damaged := true } else s
        raiseFault s f
      | none =>
        let pick := pickStream s g
        let (r, taken) := bgBeat s.boot.cfg s.regions[g] slice
        let s := passBeats3 (updRegion s g fun _ => r) g taken
        match pick with
        | some i => issueStream s g i resid
        | none => s)

/-- SEGMENT_OVERRUN: the counter of an open segment exceeds its declared beats and its retry allowance (R222). -/
def execSegmentOverrun (g : RegionId) (i : StreamId) (s : State) : Host.Outcome State Fault Refusal :=
  .next (match s.regions[g].streams[i].seg with
  | some q => if q.d + q.allowance < q.counter then streamFault s g i cSegmentOverrun else s
  | none => s)

/-- REMOTE_STALL: a stream held by fabric conditions alone for longer than the stall limit (R224). -/
def execRemoteStall (g : RegionId) (i : StreamId) (s : State) : Host.Outcome State Fault Refusal :=
  let st := s.regions[g].streams[i]
  .next (match st.heldFrom with
  | some t => if st.running && decide (t + stallNs s < now s) then streamFault s g i cRemoteStall else s
  | none => s)

end Sys2Proof.Machine
end

