-- ==== Sys2Proof/Machine/Sideband.lean ====
section
/-! DEFINITION. The presence window (R457, R488, R521) and the I3C sideband (R522, R523). -/

namespace Sys2Proof.Machine

/-! ## Presence -/

/-- Length of the window the button opens. -/
def windowNs : Nat := 120000000000

/-- PRESENCE_PRESS: the button has been held for at least 50 ms: the window opens, or its 120 s begin again (R457, R488). -/
def execPresencePress (ms : Nat) (s : State) : Host.Outcome State Fault Refusal :=
  .next (if s.boot.phase == .off || decide (ms < 50) || (s.presence.isOpen && s.presence.byJumper) then s
  else
    let was := s.presence.isOpen
    let s := { s with presence := { isOpen := true, byJumper := false, till := elapsed s + windowNs } }
    if was then s else sayPresence s true false 120)

/-- PRESENCE_WINDOW_CLOSE: the 120 s are over: the window closes, and test mode with it (R402, R457). -/
def execPresenceWindowClose (s : State) : Host.Outcome State Fault Refusal :=
  .next (if !s.presence.isOpen || s.presence.byJumper || decide (elapsed s < s.presence.till) then s
  else sayPresence (endTest { s with presence := State.reset.presence }) false false 0)

/-! ## I3C (Tables 18.4, 18.5) -/

/-- The target is served: from the end of start-up stage 1 (R522). -/
def i3cUp (s : State) : Bool := s.boot.phase != .off

/-- The static address (R522). -/
def i3cStatic (s : State) : BitVec 7 := 0x58 + s.i3c.straps.setWidth 7

/-- The target answers to its dynamic address. -/
def i3cMine (s : State) (addr : BitVec 7) : Bool := i3cUp s && s.i3c.dyn == some addr

/-- The 64 bytes of the register file (Table 18.5). -/
def i3cFile (s : State) (env : I3cEnv) : List Byte :=
  leBytes 2 0x4C34 ++ [gradeCode s.fuses.grade, BitVec.ofNat 8 (nreg s)] ++ leBytes 8 s.fuses.serial.toNat ++
    leBytes 2 (regStatus s).toNat ++ [0, 0] ++ leBytes 4 env.vin.toNat ++ leBytes 4 env.iin.toNat ++ leBytes 8 env.tj.toNat ++
    leBytes 4 env.tcool.toNat ++ leBytes 8 (now s) ++ leBytes 4 s.power.lastFlags.toNat ++ List.replicate 16 0

/-- I3C_PRIVATE_WRITE: the first byte sets the register offset; further bytes are ignored (R523). -/
def execI3cPrivateWrite (addr : BitVec 7) (bytes : List Byte) (s : State) : Host.Outcome State Fault Refusal :=
  .next (match bytes with
  | [] => s
  | b :: _ => if i3cMine s addr then { s with i3c := { s.i3c with off := b.toNat % 64 } } else s)

/-- I3C_PRIVATE_READ: the 64 bytes are latched, and bytes from the offset upward are returned, wrapping at 0x40 (R523). -/
def execI3cPrivateRead (addr : BitVec 7) (len : Nat) (env : I3cEnv) (s : State) : Host.Outcome State Fault Refusal :=
  .next (if !i3cMine s addr then s
  else
    let file := i3cFile s env
    let reply := (List.range len).map fun i => file.getD ((s.i3c.off + i) % 64) 0
    { s with i3c := { s.i3c with file := file, reply := reply } })

/-- ENTDAA: a target without a dynamic address takes the one that the controller offers. -/
def execEntdaa (addr : BitVec 7) (s : State) : Host.Outcome State Fault Refusal :=
  .next (if i3cUp s && s.i3c.dyn.isNone then { s with i3c := { s.i3c with dyn := some addr } } else s)

/-- SETDASA: the target at the static address takes a dynamic one (R522). -/
def execSetdasa (static addr : BitVec 7) (s : State) : Host.Outcome State Fault Refusal :=
  .next (if i3cUp s && static == i3cStatic s && s.i3c.dyn.isNone then { s with i3c := { s.i3c with dyn := some addr } } else s)

/-- RSTDAA: the dynamic address goes. -/
def execRstdaa (s : State) : Host.Outcome State Fault Refusal :=
  .next (if i3cUp s then { s with i3c := { s.i3c with dyn := none } } else s)

/-- The big-endian bytes of a value, as common commands return them. -/
def beBytes (n v : Nat) : List Byte := (leBytes n v).reverse

/-- Answer a common command that is directed at this target. -/
def i3cReply (s : State) (addr : BitVec 7) (l : List Byte) : State :=
  if i3cMine s addr then { s with i3c := { s.i3c with reply := l } } else s

/-- GETPID: the provisioned ID. -/
def execGetpid (addr : BitVec 7) (s : State) : Host.Outcome State Fault Refusal :=
  .next (i3cReply s addr (beBytes 6 Config.i3cPid.toNat))

/-- GETBCR: the bus characteristics register. -/
def execGetbcr (addr : BitVec 7) (s : State) : Host.Outcome State Fault Refusal := .next (i3cReply s addr [Config.i3cBcr])

/-- GETDCR: the device characteristics register. -/
def execGetdcr (addr : BitVec 7) (s : State) : Host.Outcome State Fault Refusal := .next (i3cReply s addr [Config.i3cDcr])

/-- GETSTATUS: the target's status. -/
def execGetstatus (addr : BitVec 7) (s : State) : Host.Outcome State Fault Refusal :=
  .next (i3cReply s addr (beBytes 2 Config.i3cStatus.toNat))

/-- GETMWL: the maximum write length. -/
def execGetmwl (addr : BitVec 7) (s : State) : Host.Outcome State Fault Refusal :=
  .next (i3cReply s addr (beBytes 2 Config.i3cMwl.toNat))

/-- GETMRL: the maximum read length. -/
def execGetmrl (addr : BitVec 7) (s : State) : Host.Outcome State Fault Refusal :=
  .next (i3cReply s addr (beBytes 2 Config.i3cMrl.toNat))

end Sys2Proof.Machine
end

