-- ==== Sys2Proof/Machine/Dispatch.lean ====
section
/-! DEFINITION. One arm per command: the direct call of its meaning. -/

namespace Sys2Proof.Machine

def exec (i : Instr) (s : State) : Host.Outcome State Fault Refusal :=
  match i with
  | .bundleIssue g slice resid => Sys2Proof.Machine.execBundleIssue g slice resid s
  | .passStart g c => Sys2Proof.Machine.execPassStart g c s
  | .preloadSweep g c bank => Sys2Proof.Machine.execPreloadSweep g c bank s
  | .drainSweep g c => Sys2Proof.Machine.execDrainSweep g c s
  | .passCompletion g c => Sys2Proof.Machine.execPassCompletion g c s
  | .passRetry g c => Sys2Proof.Machine.execPassRetry g c s
  | .drainRowRecompute g c => Sys2Proof.Machine.execDrainRowRecompute g c s
  | .directFeed g c => Sys2Proof.Machine.execDirectFeed g c s
  | .solverBorrow g c => Sys2Proof.Machine.execSolverBorrow g c s
  | .vectorStart g c => Sys2Proof.Machine.execVectorStart g c s
  | .vectorCompletion g c => Sys2Proof.Machine.execVectorCompletion g c s
  | .vectorRetry g c => Sys2Proof.Machine.execVectorRetry g c s
  | .macroStart g => Sys2Proof.Machine.execMacroStart g s
  | .macroCompletion g => Sys2Proof.Machine.execMacroCompletion g s
  | .solverRerun g => Sys2Proof.Machine.execSolverRerun g s
  | .segmentOverrun g str => Sys2Proof.Machine.execSegmentOverrun g str s
  | .remoteStall g str => Sys2Proof.Machine.execRemoteStall g str s
  | .channelOpStart g k => Sys2Proof.Machine.execChannelOpStart g k s
  | .channelOpCompletion g k => Sys2Proof.Machine.execChannelOpCompletion g k s
  | .collectiveStart g a => Sys2Proof.Machine.execCollectiveStart g a s
  | .collReceive g a l f r resid => Sys2Proof.Machine.execCollReceive g a l f r resid s
  | .dataReceive l f => Sys2Proof.Machine.execDataReceive l f s
  | .landingGateAdmit src => Sys2Proof.Machine.execLandingGateAdmit src s
  | .resp l f => Sys2Proof.Machine.execResp l f s
  | .flitTransmit l vc => Sys2Proof.Machine.execFlitTransmit l vc s
  | .creditReturn l vc => Sys2Proof.Machine.execCreditReturn l vc s
  | .linkReplay l => Sys2Proof.Machine.execLinkReplay l s
  | .linkTimeout l => Sys2Proof.Machine.execLinkTimeout l s
  | .linkTraining p px py pz pport => Sys2Proof.Machine.execLinkTraining p px py pz pport s
  | .lendReq p f => Sys2Proof.Machine.execLendReq p f s
  | .lendAns p f => Sys2Proof.Machine.execLendAns p f s
  | .lendFree p f => Sys2Proof.Machine.execLendFree p f s
  | .rdReq p f => Sys2Proof.Machine.execRdReq p f s
  | .rdData p f => Sys2Proof.Machine.execRdData p f s
  | .wrReq p f => Sys2Proof.Machine.execWrReq p f s
  | .digestSet p f => Sys2Proof.Machine.execDigestSet p f s
  | .tileReq p f => Sys2Proof.Machine.execTileReq p f s
  | .tileData p f => Sys2Proof.Machine.execTileData p f s
  | .passRec p f => Sys2Proof.Machine.execPassRec p f s
  | .lockstepTimeout g c str seq => Sys2Proof.Machine.execLockstepTimeout g c str seq s
  | .vote p f => Sys2Proof.Machine.execVote p f s
  | .abortReceive p f => Sys2Proof.Machine.execAbortReceive p f s
  | .mirrorRebuild p f => Sys2Proof.Machine.execMirrorRebuild p f s
  | .countTick n => Sys2Proof.Machine.execCountTick n s
  | .countAlign aligned stamp delay => Sys2Proof.Machine.execCountAlign aligned stamp delay s
  | .countRemeasure offsetPs => Sys2Proof.Machine.execCountRemeasure offsetPs s
  | .grefLoss ns => Sys2Proof.Machine.execGrefLoss ns s
  | .stepStart c => Sys2Proof.Machine.execStepStart c s
  | .stepComplete c => Sys2Proof.Machine.execStepComplete c s
  | .flip c => Sys2Proof.Machine.execFlip c s
  | .commitRefused c => Sys2Proof.Machine.execCommitRefused c s
  | .waveTimeout c => Sys2Proof.Machine.execWaveTimeout c s
  | .lostFaultsReport c => Sys2Proof.Machine.execLostFaultsReport c s
  | .recalibration d m => Sys2Proof.Machine.execRecalibration d m s
  | .railFloor d mv ns => Sys2Proof.Machine.execRailFloor d mv ns s
  | .promiseOverrun g str => Sys2Proof.Machine.execPromiseOverrun g str s
  | .sramWriteBack g => Sys2Proof.Machine.execSramWriteBack g s
  | .hbmWriteBack => Sys2Proof.Machine.execHbmWriteBack s
  | .poisonScan frame => Sys2Proof.Machine.execPoisonScan frame s
  | .mothHbmRead d data mdata => Sys2Proof.Machine.execMothHbmRead d data mdata s
  | .mothSramRead g data check => Sys2Proof.Machine.execMothSramRead g data check s
  | .coalesceWindowClose seq => Sys2Proof.Machine.execCoalesceWindowClose seq s
  | .migrationComplete r => Sys2Proof.Machine.execMigrationComplete r s
  | .pendingEviction r => Sys2Proof.Machine.execPendingEviction r s
  | .doorbell c value descs => Sys2Proof.Machine.execDoorbell c value descs s
  | .openCtx c => Sys2Proof.Machine.execOpenCtx c s
  | .closeCtx c => Sys2Proof.Machine.execCloseCtx c s
  | .loadProgram c image => Sys2Proof.Machine.execLoadProgram c image s
  | .memRead c => Sys2Proof.Machine.execMemRead c s
  | .memWrite c data => Sys2Proof.Machine.execMemWrite c data s
  | .map c => Sys2Proof.Machine.execMap c s
  | .unmap c => Sys2Proof.Machine.execUnmap c s
  | .share c => Sys2Proof.Machine.execShare c s
  | .promote c => Sys2Proof.Machine.execPromote c s
  | .release c => Sys2Proof.Machine.execRelease c s
  | .evict c => Sys2Proof.Machine.execEvict c s
  | .setSeeds c => Sys2Proof.Machine.execSetSeeds c s
  | .armLaunch c => Sys2Proof.Machine.execArmLaunch c s
  | .abort c => Sys2Proof.Machine.execAbort c s
  | .rollback c => Sys2Proof.Machine.execRollback c s
  | .restoreFromBuddy c held => Sys2Proof.Machine.execRestoreFromBuddy c held s
  | .queryContext c => Sys2Proof.Machine.execQueryContext c s
  | .queryScree c => Sys2Proof.Machine.execQueryScree c s
  | .queryPage c => Sys2Proof.Machine.execQueryPage c s
  | .queryDebug c => Sys2Proof.Machine.execQueryDebug c s
  | .attest c => Sys2Proof.Machine.execAttest c s
  | .ackError c => Sys2Proof.Machine.execAckError c s
  | .cfgWrite c image devOk => Sys2Proof.Machine.execCfgWrite c image devOk s
  | .testModeEnable c => Sys2Proof.Machine.execTestModeEnable c s
  | .testModeDisable c => Sys2Proof.Machine.execTestModeDisable c s
  | .debugEnable c => Sys2Proof.Machine.execDebugEnable c s
  | .ownerEnrol c record devOk => Sys2Proof.Machine.execOwnerEnrol c record devOk s
  | .commandCompletion c tag gen => Sys2Proof.Machine.execCommandCompletion c tag gen s
  | .messageWrite c => Sys2Proof.Machine.execMessageWrite c s
  | .msixSend v => Sys2Proof.Machine.execMsixSend v s
  | .ringEnable c value => Sys2Proof.Machine.execRingEnable c value s
  | .telemetry env => Sys2Proof.Machine.execTelemetry env s
  | .gcountLatchRead high => Sys2Proof.Machine.execGcountLatchRead high s
  | .mdropRead c => Sys2Proof.Machine.execMdropRead c s
  | .registerWrite off wide value => Sys2Proof.Machine.execRegisterWrite off wide value s
  | .moduleReset value env => Sys2Proof.Machine.execModuleReset value env s
  | .fundamentalReset ns env => Sys2Proof.Machine.execFundamentalReset ns env s
  | .cxlMemRead off len => Sys2Proof.Machine.execCxlMemRead off len s
  | .cxlMemWrite off data poison => Sys2Proof.Machine.execCxlMemWrite off data poison s
  | .presencePress ms => Sys2Proof.Machine.execPresencePress ms s
  | .presenceWindowClose => Sys2Proof.Machine.execPresenceWindowClose s
  | .powerOn mv env => Sys2Proof.Machine.execPowerOn mv env s
  | .ready => Sys2Proof.Machine.execReady s
  | .portWait p => Sys2Proof.Machine.execPortWait p s
  | .alignWait => Sys2Proof.Machine.execAlignWait s
  | .governorSample d workMa m => Sys2Proof.Machine.execGovernorSample d workMa m s
  | .launchRamp c => Sys2Proof.Machine.execLaunchRamp c s
  | .thermalStep d t16 m => Sys2Proof.Machine.execThermalStep d t16 m s
  | .thermalTrip t16 ns m => Sys2Proof.Machine.execThermalTrip t16 ns m s
  | .tripShutdown => Sys2Proof.Machine.execTripShutdown s
  | .inputUndervoltage m => Sys2Proof.Machine.execInputUndervoltage m s
  | .inputDisconnect mv => Sys2Proof.Machine.execInputDisconnect mv s
  | .inputLow m => Sys2Proof.Machine.execInputLow m s
  | .inputNormal m => Sys2Proof.Machine.execInputNormal m s
  | .inputHigh m => Sys2Proof.Machine.execInputHigh m s
  | .i3cPrivateWrite addr bytes => Sys2Proof.Machine.execI3cPrivateWrite addr bytes s
  | .i3cPrivateRead addr len env => Sys2Proof.Machine.execI3cPrivateRead addr len env s
  | .entdaa addr => Sys2Proof.Machine.execEntdaa addr s
  | .setdasa static addr => Sys2Proof.Machine.execSetdasa static addr s
  | .rstdaa => Sys2Proof.Machine.execRstdaa s
  | .getpid addr => Sys2Proof.Machine.execGetpid addr s
  | .getbcr addr => Sys2Proof.Machine.execGetbcr addr s
  | .getdcr addr => Sys2Proof.Machine.execGetdcr addr s
  | .getstatus addr => Sys2Proof.Machine.execGetstatus addr s
  | .getmwl addr => Sys2Proof.Machine.execGetmwl addr s
  | .getmrl addr => Sys2Proof.Machine.execGetmrl addr s
  | .flitDiscard l f => Sys2Proof.Machine.execFlitDiscard l f s
  | .acknowledgement l seq => Sys2Proof.Machine.execAcknowledgement l seq s
  | .portTrainingLost p => Sys2Proof.Machine.execPortTrainingLost p s
  | .hostPortTraining => Sys2Proof.Machine.execHostPortTraining s

end Sys2Proof.Machine
end

