-- ==== Sys2Proof/WellFormed.lean ====
section
/-! DEFINITION. Which commands can reach the module: the checks on their operands that the types do not make. A command that
fails one is no event of the module's interfaces; `exec` answers it with a next state all the same. -/

namespace Sys2Proof

/-- A flit holds at most 240 bytes of payload (R295). -/
def Flit.ok (f : Flit) : Bool := decide (f.payload.length ≤ 240)

/-- Strictly rising. -/
def rising : List Nat → Bool
  | a :: b :: l => decide (a < b) && rising (b :: l)
  | _ => true

/-- A configuration memory of 64 MiB with four security registers of 1 KiB (Table 16.1). -/
def Flash.ok (f : Flash) : Bool :=
  (f.main.all fun e => decide (e.1 < 2 ^ 26) && e.2 != 0xFF) && rising (f.main.map (·.1)) && f.sec.length == 4 &&
    f.sec.all fun l => l.length == 1024

/-- A measurement reads four rings (R360). -/
def DomainMeas.ok (m : DomainMeas) : Bool := m.periods.length == 4

/-- Start-up reads the monitors of every domain, of a fitted device that is one of Table 16.1. -/
def BootEnv.ok (e : BootEnv) : Bool :=
  e.meas.length == 363 && (e.meas.all DomainMeas.ok) &&
    (match e.device with
     | some f => f.ok
     | none => true)

/-- A ring step carries whole elements, at most a half chunk's worth, and no more exponents than elements (R319, R321). -/
def CollStep.ok (r : CollStep) : Bool := decide (r.exps.length ≤ r.elems.length) && decide (r.elems.length ≤ r.count)

/-- Offsets of BAR0 whose writes are commands of their own: RST, and DB and MRCTL of each context block. -/
def ownRow (off : Nat) : Bool :=
  off == 0x40 || (decide (0x100 ≤ off) && decide (off < 0x200) && (off % 0x40 == 0 || off % 0x40 == 0x14))

/-- A bridge joins two dies (R27). -/
def Link.ok : Link → Bool
  | .port _ => true
  | .bridge a b => a != b

/-- The operands of a command are ones that its event can bring. -/
def WellFormed : Instr → Bool
  | .collReceive _ _ l f r _ => l.ok && f.ok && r.ok
  | .dataReceive l f => l.ok && f.ok
  | .resp l f => l.ok && f.ok
  | .flitTransmit l _ => l.ok
  | .creditReturn l _ => l.ok
  | .acknowledgement l _ => l.ok
  | .linkReplay l => l.ok
  | .linkTimeout l => l.ok
  | .lendReq _ f => f.ok
  | .lendAns _ f => f.ok
  | .lendFree _ f => f.ok
  | .rdReq _ f => f.ok
  | .rdData _ f => f.ok
  | .wrReq _ f => f.ok
  | .digestSet _ f => f.ok
  | .tileReq _ f => f.ok
  | .tileData _ f => f.ok
  | .passRec _ f => f.ok
  | .vote _ f => f.ok
  | .abortReceive _ f => f.ok
  | .mirrorRebuild _ f => f.ok
  | .flitDiscard l f => l.ok && f.ok
  | .recalibration _ m => m.ok
  | .poisonScan frame => decide (frame < 1572864)
  | .doorbell _ value descs => decide (value.toNat < 2048) && decide (descs.length ≤ 1024)
  | .loadProgram _ image => decide (image.length ≤ 128 * 2 ^ 20)
  | .memWrite _ data => decide (data.length ≤ 2 ^ 26)
  | .restoreFromBuddy _ held => (match held with | some h => rising h.1 | none => true)
  | .cfgWrite _ image _ => decide (image.length ≤ 32 * 2 ^ 20)
  | .ownerEnrol _ record _ => decide (record.length ≤ 192)
  | .telemetry env => env.shortfall.length == 8 && env.power.length == 76
  | .registerWrite off wide _ => off.toNat % (if wide then 8 else 4) == 0 && !ownRow off.toNat
  | .moduleReset _ env => env.ok
  | .fundamentalReset _ env => env.ok
  | .powerOn _ env => env.ok
  | .cxlMemRead off len => decide (1 ≤ len) && decide (off % 64 + len ≤ 64) && decide (off + len ≤ 3072 * 2 ^ 30)
  | .cxlMemWrite off data _ =>
    decide (1 ≤ data.length) && decide (off % 64 + data.length ≤ 64) && decide (off + data.length ≤ 3072 * 2 ^ 30)
  | _ => true

end Sys2Proof
end

