-- ==== Sys2Proof/Safety.lean ====
section
/-! DEFINITION. What counts as a good state and a safe step, in the terms that statements use. -/

namespace Sys2Proof.Machine

/-- Every byte memory of a region is in canonical form. -/
def Region.memOk (r : Region) : Bool :=
  r.imem.mem.wf && r.sdata.mem.wf && r.scratch.mem.wf && r.sinit.wf && ovWfFrom 0 r.imem.chk && ovWfFrom 0 r.sdata.chk &&
    ovWfFrom 0 r.scratch.chk

/-- Every byte memory of HBM is in canonical form. -/
def Hbm.memOk (h : Hbm) : Bool := h.mem.wf && h.pool.wf && ovWfFrom 0 h.mdata

/-- Every byte memory that the state holds is in canonical form. -/
def State.memOk (s : State) : Bool :=
  s.hbm.memOk && s.hostMem.wf && (List.finRange 64).all fun g => s.regions[g].memOk

/-- The bounds that hold in every state that a run reaches: the Scree has its 128 slots (R404), no message queue holds more than
256 messages (R450), and the I3C offset lies in the register file (R523). -/
def State.bounded (s : State) : Prop :=
  s.scree.slots.length = 128 ∧ (∀ c : CtxId, (s.host.rings[c].msgs).length ≤ 256) ∧ s.i3c.off < 64

/-- Parts of the state that few commands may change. -/
inductive Part where
  | flash | cfg | phase | cnt | i3c | presence | test | debug | hostMem
  deriving DecidableEq, Repr

/-- The part is the same in both states. -/
def Part.same : Part → State → State → Prop
  | .flash, s, t => t.flash = s.flash
  | .cfg, s, t => t.boot.cfg = s.boot.cfg
  | .phase, s, t => t.boot.phase = s.boot.phase
  | .cnt, s, t => t.cnt = s.cnt
  | .i3c, s, t => t.i3c = s.i3c
  | .presence, s, t => t.presence = s.presence
  | .test, s, t => t.test = s.test
  | .debug, s, t => t.debug = s.debug
  | .hostMem, s, t => t.hostMem = s.hostMem

/-- The commands that may change each part: the configuration memory (R467, R470), the sections of the booted image (R468), where
start-up stands (R484), the global count (R328 to R331), the I3C target (R522, R523), the presence window (R457), checker test mode
(R399), the debug enable, and the memory of the host (DMA writes). -/
def touches : Part → Instr → Bool
  | .flash, .cfgWrite _ _ _ => true
  | .flash, .ownerEnrol _ _ _ => true
  | .flash, .powerOn _ _ => true
  | .flash, .commandCompletion _ _ _ => true
  | .cfg, .moduleReset _ _ => true
  | .cfg, .fundamentalReset _ _ => true
  | .cfg, .powerOn _ _ => true
  | .cfg, .inputDisconnect _ => true
  | .cfg, .countTick _ => true
  | .phase, .moduleReset _ _ => true
  | .phase, .fundamentalReset _ _ => true
  | .phase, .powerOn _ _ => true
  | .phase, .ready => true
  | .phase, .thermalTrip _ _ _ => true
  | .phase, .tripShutdown => true
  | .phase, .inputUndervoltage _ => true
  | .phase, .inputDisconnect _ => true
  | .phase, .countTick _ => true
  | .cnt, .countTick _ => true
  | .cnt, .countAlign _ _ _ => true
  | .cnt, .countRemeasure _ => true
  | .cnt, .grefLoss _ => true
  | .cnt, .moduleReset _ _ => true
  | .cnt, .fundamentalReset _ _ => true
  | .cnt, .powerOn _ _ => true
  | .cnt, .inputDisconnect _ => true
  | .i3c, .powerOn _ _ => true
  | .i3c, .inputDisconnect _ => true
  | .i3c, .i3cPrivateWrite _ _ => true
  | .i3c, .i3cPrivateRead _ _ _ => true
  | .i3c, .entdaa _ => true
  | .i3c, .setdasa _ _ => true
  | .i3c, .rstdaa => true
  | .i3c, .getpid _ => true
  | .i3c, .getbcr _ => true
  | .i3c, .getdcr _ => true
  | .i3c, .getstatus _ => true
  | .i3c, .getmwl _ => true
  | .i3c, .getmrl _ => true
  | .presence, .moduleReset _ _ => true
  | .presence, .fundamentalReset _ _ => true
  | .presence, .presencePress _ => true
  | .presence, .presenceWindowClose => true
  | .presence, .powerOn _ _ => true
  | .presence, .ready => true
  | .presence, .inputDisconnect _ => true
  | .test, .testModeEnable _ => true
  | .test, .testModeDisable _ => true
  | .test, .moduleReset _ _ => true
  | .test, .fundamentalReset _ _ => true
  | .test, .presenceWindowClose => true
  | .test, .powerOn _ _ => true
  | .test, .thermalTrip _ _ _ => true
  | .test, .tripShutdown => true
  | .test, .inputUndervoltage _ => true
  | .test, .inputDisconnect _ => true
  | .test, .countTick _ => true
  | .debug, .debugEnable _ => true
  | .debug, .moduleReset _ _ => true
  | .debug, .fundamentalReset _ _ => true
  | .debug, .powerOn _ _ => true
  | .debug, .inputDisconnect _ => true
  | .hostMem, .resp _ _ => true
  | .hostMem, .memRead _ => true
  | .hostMem, .queryContext _ => true
  | .hostMem, .queryScree _ => true
  | .hostMem, .queryPage _ => true
  | .hostMem, .queryDebug _ => true
  | .hostMem, .attest _ => true
  | .hostMem, .messageWrite _ => true
  | .hostMem, .telemetry _ => true
  | _, _ => false

/-! ## When a command has its effect -/

/-- A flit that a link's receiver accepts: the link carries flits, CRC and SEQ are right, and the header keeps to its layout (R296 to
R298). -/
def accepts (s : State) (l : Link) (f : Flit) : Prop :=
  linkUp s l = true ∧ flitGood s l f = true ∧ onLink s l f = true ∧ hdrLegal f.hdr = true

/-- The module once a link has accepted a flit that leaves its receive buffer at once: SEQ goes on and the credit is due (R298,
R302). -/
def arrived (s : State) (l : Link) (f : Flit) : State := giveCredit (acceptFlit s l) l (hVc f.hdr).toFin

/-- The descriptor that the module fetches next from a ring has this opcode and passes the checks common to all commands. -/
def offered (s : State) (c : CtxId) (opc : Nat) (d : Desc) : Prop :=
  headDesc s c = some d ∧ dOpc d = opc ∧ commonReject s c d = none

/-- The command's deadline leaves it `n` nanoseconds from now (R373). -/
def inTime (s : State) (d : Desc) (n : Nat) : Prop := dDeadline d = noDeadline ∨ now s + n ≤ dDeadline d

/-- The module after a command with the time bound `n` has been accepted: HEAD goes on, the command is under way, and CMD_ACCEPT
is queued with its promise (R438, R447). -/
def taken (s : State) (c : CtxId) (d : Desc) (n : Nat) : State := accept s c d (now s + n) 0 (cmdOf d)

/-- A step is safe when it answers a next state: no fault and no refusal stops the module. -/
def stepSafe (s : State) : Prop := ∃ t, step s = .next t

end Sys2Proof.Machine
end

