-- ==== Sys2Proof/Certificates/Slice0/Obligations.lean ====
section
/-! DEFINITION. The statements about the module, for the provers: what every step keeps, what each command does in the states in
which it has its effect, and what it leaves alone. -/

section
open Sys2Proof Sys2Proof.Machine

/-! ## The block and its queue -/

/-- The command at the front of the queue is run on the state with the rest of the queue (the block's form of the model). -/
def Obligations.StepRunsFrontCommand : Prop :=
  ∀ (s : State) (i : Instr) (rest : List Instr), s.pending = i :: rest → step s = exec i { s with pending := rest }

/-- On an empty queue the module idles: the model's choice, notes/assumptions/1, for the time-driven effects are commands. No
command stops the module: a job fault, HARD_FAULT and a terminal failure are states that it goes on in. -/
def Obligations.EveryStepAnswers : Prop :=
  (∀ s : State, s.pending = [] → step s = .next s) ∧
  (∀ s : State, stepSafe s)

/-- What reset leaves where the manual gives a value: the module is off, no register of the host holds a value, no message is
queued, no record is made and the next is numbered 0 (R404, R436), no window is open (R457), no context is open, the count stands.
-/
def Obligations.ResetState : Prop :=
  State.reset.boot.phase = .off ∧ State.reset.pending = [] ∧ State.reset.hardFault = false ∧ State.reset.test = none ∧
    State.reset.debug = false ∧ State.reset.presence.isOpen = false ∧ State.reset.cnt.on = false ∧
    State.reset.cnt.aligned = false ∧ State.reset.scree = { slots := List.replicate 128 none, next := 0, lost := 0, windows := [] } ∧
    State.reset.host.tlmbase = 0 ∧ State.reset.host.msimod = 0 ∧ regErrsum State.reset = 0 ∧ State.reset.fab.txns = [] ∧
    (∀ c : CtxId, State.reset.host.rings[c].head = 0 ∧ State.reset.host.rings[c].tail = 0 ∧ State.reset.host.rings[c].en = false ∧
      State.reset.host.rings[c].mrtail = 0 ∧ State.reset.host.rings[c].mdrop = 0 ∧ State.reset.host.rings[c].msgs = [] ∧
      State.reset.ctxs[c].opened = false ∧ State.reset.ctxs[c].launch = none) ∧
    (∀ g : RegionId, State.reset.regions[g].ctx = none) ∧ ∀ p : PortId, State.reset.ports[p].state = 0

/-- The state at reset meets the invariant of `StepKeepsInvariant`, and each of its byte memories is in canonical form. -/
def Obligations.ResetMeetsInvariant : Prop :=
  State.reset.bounded ∧ State.reset.memOk = true

/-- Every step keeps the bounds of the module's buffers, from any state that meets them: 128 Scree slots (R404), at most 256
messages in each queue (R450), and an I3C register offset within the register file (R523). -/
def Obligations.StepKeepsInvariant : Prop :=
  ∀ s t : State, s.bounded → step s = .next t → t.bounded

/-- Only CFG_WRITE, as it is accepted and as it completes, and OWNER_ENROL write the configuration memory; else it changes only when
another device is fitted in the socket before power-on (R467, R470, R473). -/
def Obligations.ConfigurationMemoryWriters : Prop :=
  ∀ (s t : State) (i : Instr) (rest : List Instr), s.pending = i :: rest → step s = .next t → t.flash ≠ s.flash →
    (∃ c image ok, i = .cfgWrite c image ok) ∨ (∃ c r ok, i = .ownerEnrol c r ok) ∨
      (∃ (c : CtxId) (k : CmdRun), k ∈ s.host.rings[c].cmds ∧ k.opc.toNat = opCFG ∧ i = .commandCompletion c k.tag k.gen) ∨
      ∃ mv env d, i = .powerOn mv env ∧ env.device = some d ∧ t.flash = d

/-- No command changes what is fixed at manufacture (R436, "fused"), and none changes the queue of commands. Each part of the state
that few commands may change is changed by those alone, the ones that `touches` lists: the configuration memory, the booted image's
sections, where start-up stands, the global count, the sideband target, the presence window, checker test mode, the debug enable and
the host's memory. -/
def Obligations.PartsChangeOnlyBy : Prop :=
  (∀ (i : Instr) (s t : State), exec i s = .next t → t.fuses = s.fuses ∧ t.pending = s.pending) ∧
  (∀ (p : Part) (i : Instr) (s t : State), touches p i = false → exec i s = .next t → p.same s t)

/-! ## Registers and event counters -/

/-- R199. -/
def Obligations.HardwiredRegisters : Prop :=
  ∀ (st : Stream) (v : W64) (b : Bool), xRead st 0 = 0 ∧ pRead st 0 = true ∧ xWrite st 0 v = st ∧ pWrite st 0 b = st

/-- M0 reads as all ones and ignores writes (R113), and the reserved bits [54:52] of a descriptor stay zero whatever is written
(R236). A scalar register reads as what was last written to it, and a write leaves every other register of the stream alone. -/
def Obligations.StreamRegistersHold : Prop :=
  (∀ (st : Stream) (m : BitVec 128) (d : BitVec 256) (r : BitVec 5),
    mRead st 0 = BitVec.allOnes 128 ∧ mWrite st 0 m = st ∧ (tdRead (tdWrite st r d) r).extractLsb' 52 3 = 0 ∧
      (tdRead (tdWrite st r d) r).extractLsb' 0 52 = d.extractLsb' 0 52 ∧
      (tdRead (tdWrite st r d) r).extractLsb' 55 201 = d.extractLsb' 55 201) ∧
  (∀ (st : Stream) (r : BitVec 5) (v : W64), r ≠ 0 →
    xRead (xWrite st r v) r = v ∧ (∀ q : BitVec 5, q ≠ r → xRead (xWrite st r v) q = xRead st q) ∧
      xWrite st r v = { st with x := (xWrite st r v).x })

/-- Changes to a counter within a beat take effect at its end: the set value, if any, and the sum of all the other changes, however
many and in whatever order; no other counter moves, and until the end of the beat nothing does (R206, R209). -/
def Obligations.EventChangesAddUp : Prop :=
  ∀ (r : Region) (e : Fin 64) (v : BitVec 16) (w : Option StreamId) (l : List (Int × Option StreamId)),
    let all := l.foldl (fun r d => evAdd r e d.1 d.2) (evSet r e v w)
    all.ev = r.ev ∧
      (evEndBeat all).ev[e] = BitVec.ofInt 16 ((v.toNat : Int) + r.evPend[e].delta + (l.map (·.1)).sum) ∧
      ∀ q : Fin 64, q ≠ e → (evEndBeat all).ev[q] = (evEndBeat r).ev[q]

/-! ## Messages and the Scree -/

/-- R450: up to 256 messages are queued for a ring; a full queue drops its oldest TELEMETRY message, else its oldest ERROR_RECORD of
CLASS CORRECTED, else the new message, and each drop adds one to MDROP; with 224 or more queued no descriptor is fetched. -/
def Obligations.MessageQueueLimits : Prop :=
  (∀ (r : Ring) (m : Msg), r.msgs.length < 256 → ringPush r m = { r with msgs := r.msgs ++ [m] }) ∧
  (∀ (r : Ring) (m : Msg), 256 ≤ r.msgs.length →
    ringPush r m = { r with
      mdrop := r.mdrop + 1,
      msgs := match r.msgs.findIdx? (fun q => q.type == mtTelemetry) with
        | some i => r.msgs.eraseIdx i ++ [m]
        | none =>
          match r.msgs.findIdx? isCorrectedMsg with
          | some i => r.msgs.eraseIdx i ++ [m]
          | none => r.msgs }) ∧
  (∀ (s : State) (c : CtxId) (type : Byte) (tag : W32) (gen : Byte) (l : List Byte),
    ∃ m : Msg, m.type = type ∧ m.tag = tag ∧ m.gen = gen ∧ m.stamp = s.cnt.count ∧
      post s c type tag gen l = updRing s c fun r => ringPush r m) ∧
  ∀ (s : State) (c : CtxId), 224 ≤ s.host.rings[c].msgs.length → headDesc s c = none

/-- A Scree record has 64 bytes, with its numbers little-endian at the offsets of Table 13.6, and a message entry has 64 bytes
(Table 15.18). A new record takes the next sequence number; it goes into the first free slot, and no other slot changes; NESTED is
set when an uncorrected record waits for acknowledgement (R404, R408, R410). -/
def Obligations.RecordsAndEntries : Prop :=
  ((∀ r : Rec, (recBytes r).length = 64 ∧ sliceNat (recBytes r) 0 2 = r.seq.toNat ∧ (recBytes r)[2]? = some r.cls ∧
    sliceNat (recBytes r) 4 2 = r.source.toNat ∧ sliceNat (recBytes r) 6 2 = r.cause.toNat ∧
    sliceNat (recBytes r) 8 8 = r.stamp.toNat ∧ sliceNat (recBytes r) 16 8 = r.paddr.toNat ∧
    sliceNat (recBytes r) 24 8 = r.step.toNat ∧ sliceNat (recBytes r) 36 4 = r.count.toNat ∧
    sliceNat (recBytes r) 48 8 = r.caddr.toNat ∧ sliceNat (recBytes r) 56 4 = r.lost.toNat) ∧
  ∀ (r : Ring) (c : CtxId) (k : Nat) (type : Byte) (m : Msg) (l : List Byte), (entryBytes r c k type m l).length = 64) ∧
  (∀ (s : State) (r : Rec), (makeRec s r).1.scree.next = s.scree.next + 1 ∧ (makeRec s r).2.seq = s.scree.next ∧
    (makeRec s r).2.nested = (r.cls != clCorrected && s.scree.hasUnacked) ∧
    (∀ i, s.scree.slots.findIdx? (fun e => e.isNone) = some i →
      (makeRec s r).1.scree.slots[i]? = some (some (makeRec s r).2) ∧ (makeRec s r).1.scree.lost = s.scree.lost ∧
        ∀ j, j ≠ i → (makeRec s r).1.scree.slots[j]? = s.scree.slots[j]?))

/-! ## Flits and links -/

/-- What a sender puts into a flit's header at transmission: SEQ, and the CRC of the 256 bytes with the CRC field zero; every other
field stays, so that a receiver that expects that SEQ takes the flit (R297, R298). -/
def Obligations.SealedFlitIsGood : Prop :=
  ∀ (h : BitVec 128) (seq : BitVec 14) (l : List Byte),
    hSeq (sealHdr h seq l) = seq ∧ hCrc (sealHdr h seq l) = flitCrc (sealHdr h seq l) l ∧
      (sealHdr h seq l).extractLsb' 121 7 = h.extractLsb' 121 7 ∧ (sealHdr h seq l).extractLsb' 32 75 = h.extractLsb' 32 75 ∧
      ∀ (s : State) (k : Link), (endOf s k).rxNext = seq → l.length ≤ 240 →
        flitGood s k { hdr := sealHdr h seq l, payload := l } = true

/-- FLIT_TRANSMIT: on a link that is up, with a credit for the channel, with fewer than 8,192 flits unacknowledged and nothing to
send on channel 7 before it, the flit at the head of the channel goes out sealed, and waits for its acknowledgement; the credit is
spent and SEQ goes on. Nothing else changes (R298, R301, R302). Without a credit, or with 8,192 flits unacknowledged, no flit goes
out and FLIT_TRANSMIT changes nothing. -/
def Obligations.FlitTransmission : Prop :=
  (∀ (s : State) (l : Link) (vc : VcId) (f : TxFlit) (rest : List TxFlit),
    linkUp s l = true → (endOf s l).txq[vc] = f :: rest → 0 < (endOf s l).credits[vc] → (endOf s l).unacked.length < 8192 →
    (vc = 7 ∨ (endOf s l).txq[(7 : VcId)] = [] ∨ (endOf s l).credits[(7 : VcId)] = 0) →
    exec (.flitTransmit l vc) s = .next (updEnd s l fun q =>
      { q with txq := q.txq.set vc rest, credits := q.credits.set vc (q.credits[vc] - 1), seq := q.seq + 1,
               unacked := q.unacked ++ [{ f with hdr := sealHdr f.hdr q.seq f.payload, sent := some (elapsed s) }] })) ∧
  (∀ (s : State) (l : Link) (vc : VcId), (endOf s l).credits[vc] = 0 ∨ 8192 ≤ (endOf s l).unacked.length →
    exec (.flitTransmit l vc) s = .next s)

/-- CREDIT_RETURN, ACKNOWLEDGEMENT, LINK_REPLAY, FLIT_DISCARD and PORT_TRAINING_LOST each change the one link as the rules say: a
credit comes back up to the receiver's buffer, over a bridge one that its other end has given; the flits before the acknowledged SEQ
leave the replay store; a replay sends the same flits and is counted; after a bad flit everything is discarded until the replay; a
lost port trains again, and start-up waits for it (R298, R302, R533, Table 10.3). LINK_TIMEOUT: a flit past its bound, 1,000 ns on a
port and 100 ns on a bridge, is the job fault LINK_TIMEOUT at the die that sends, of no one context, and within its bounds the row
changes nothing (R26, R299, R349, R533). -/
def Obligations.LinkControl : Prop :=
  (∀ (s : State) (l : Link), linkUp s l = true →
    (∀ vc : VcId, (endOf s l).credits[vc] < Port.fullCredits[vc] →
      (∀ p, l = .port p → exec (.creditReturn l vc) s = .next (updPort s p fun q =>
        { q with credits := q.credits.set vc (q.credits[vc] + 1) })) ∧
      (∀ a b, l = .bridge a b → 0 < (endOf s l).toReturn[vc] → exec (.creditReturn l vc) s = .next (updEnd s l fun q =>
        { q with credits := q.credits.set vc (q.credits[vc] + 1), toReturn := q.toReturn.set vc (q.toReturn[vc] - 1) }))) ∧
    (∀ (seq : BitVec 14) (f : TxFlit) (rest : List TxFlit), (endOf s l).unacked = f :: rest →
      (seq - hSeq f.hdr).toNat ≤ (f :: rest).length →
      (∀ a b, l = .bridge a b → (seq - hSeq f.hdr).toNat ≤ ((endOf s l).rxNext - hSeq f.hdr).toNat) →
      exec (.acknowledgement l seq) s =
        .next (updEnd s l fun q => { q with unacked := q.unacked.drop (seq - hSeq f.hdr).toNat })) ∧
    ((endOf s l).unacked ≠ [] → exec (.linkReplay l) s = .next (updEnd s l fun q => { q with replays := q.replays + 1 })) ∧
    (∀ f : Flit, flitGood s l f = false → exec (.flitDiscard l f) s = .next (updEnd s l fun q => { q with rxDrop := true })) ∧
    (∀ p, l = .port p → exec (.portTrainingLost p) s = .next
      (let t := updPort s p fun q => { q with state := 1 }
       if s.boot.phase = .linking then { t with boot := { t.boot with trainedAt := none } } else t))) ∧
  ∀ (s : State) (l : Link),
    (running s = true → (∃ f ∈ (endOf s l).unacked, ∃ n, f.sent = some n ∧
        n + (match l with | .port _ => 1000 | .bridge _ _ => 100) ≤ elapsed s) →
      exec (.linkTimeout l) s = .next (dieFault s (sendDie l) cLinkTimeout)) ∧
    (linkLate s l = false → exec (.linkTimeout l) s = .next s)

/-- LINK_TRAINING: a powered port that is not trained takes its partner's identity; it is trained when the partner is the neighbour
that TOPO names, at the opposite port, and shows the mismatch otherwise. What it has to send, has sent and holds stays, so that each
flit arrives once, and no other port changes (R298, R466, R525). -/
def Obligations.PortTraining : Prop :=
  ∀ (s : State) (p : PortId) (px py pz : BitVec 5) (pport : BitVec 3),
    s.boot.phase = .linking ∨ s.boot.phase = .ready → s.ports[p].powered = true → s.ports[p].state ≠ 2 →
    ∃ t, exec (.linkTraining p px py pz pport) s = .next t ∧
      (t.ports[p].state = 2 ↔ (pz.setWidth 8 ++ py.setWidth 8 ++ px.setWidth 8 : BitVec 24) = neighbourCoords s p ∧
        pport.toNat = oppositeCode p) ∧
      (t.ports[p].state = 2 ∨ t.ports[p].state = 3) ∧
      t.ports[p] = { s.ports[p] with state := t.ports[p].state, pv := true, px := px, py := py, pz := pz, pport := pport } ∧
      t.boot.phase = s.boot.phase ∧ t = { s with ports := s.ports.set p t.ports[p], boot := t.boot }

/-- A link that is not up takes no flit, and a link discards one that is not good: no row of an arriving flit then does more than
set the discarding (R298). A good flit whose header breaks its layout is the job fault LINK_PROTOCOL, at the die that receives (R26,
R296). -/
def Obligations.BadFlitsDoNothing : Prop :=
  ∀ (s : State) (l : Link) (f : Flit) (i : Instr),
    (i = .dataReceive l f ∨ i = .resp l f ∨ (∃ g a r b, i = .collReceive g a l f r b ∧ linkOfAxis s g a l = true) ∨
      ∃ p, l = .port p ∧ i ∈ ([.lendReq p f, .lendAns p f, .lendFree p f, .rdReq p f, .rdData p f, .wrReq p f, .digestSet p f,
        .tileReq p f, .tileData p f, .passRec p f, .vote p f, .abortReceive p f] : List Instr)) →
    (linkUp s l = false → exec i s = .next s) ∧
    (linkUp s l = true → flitGood s l f = false → exec i s = .next (updEnd s l fun q => { q with rxDrop := true })) ∧
    (linkUp s l = true → flitGood s l f = true → onLink s l f = true → hdrLegal f.hdr = false →
      exec i s = .next (dieFault (arrived s l f) (receiveDie l) cLinkProtocol))

/-- DATA_RECEIVE: a DATA flit that nothing holds back lands: its payload goes to RREG's scratchpad at OFFSET, its credit goes back,
and the last flit of a send raises the event it names and is answered, against its direction, with RESP OK (R305, R306, R210). The
statement takes a send on channel 5, which no landing gate concerns, to an enabled region whose words are sound. -/
def Obligations.SendLands : Prop :=
  ∀ (s : State) (l : Link) (f : Flit) (g : RegionId),
    accepts s l f → hType f.hdr = tyDATA → hVc f.hdr = 5 → s.fab.dropping = false → s.hardFault = false →
    (∀ p, l = .port p → s.ports[p].held[(5 : VcId)] = []) → g.val = (hRreg f.hdr).toNat → enabled s g = true →
    s.regions[g].scratch.chk = [] → hLast f.hdr = true → hRen f.hdr = true →
    ∃ t, exec (.dataReceive l f) s = .next t ∧
      t.regions[g].scratch.mem = memPutBytes s.regions[g].scratch.mem (hOffset f.hdr) (f.payload.take (hLen f.hdr)) ∧
      t.regions[g].scratch.chk = [] ∧
      (∀ e : Fin 64, e.val = 48 + (hRevt f.hdr).toNat →
        t.regions[g] = evAdd { s.regions[g] with scratch := t.regions[g].scratch } e 1 none) ∧
      (∃ q, (endOf t (backOf l)).txq[(7 : VcId)] = (endOf s (backOf l)).txq[(7 : VcId)] ++ [q] ∧ hType q.hdr = tyRESP ∧
        hTag q.hdr = hTag f.hdr ∧ hGen q.hdr = hGen f.hdr ∧ hRreg q.hdr = 0) ∧
      (endOf t l).toReturn[(5 : VcId)] = (endOf s l).toReturn[(5 : VcId)] + 1 ∧ (endOf t l).rxNext = (endOf s l).rxNext + 1 ∧
      (∀ k : Link, k ≠ l → k ≠ backOf l → endOf t k = endOf s k) ∧
      t = { s with regions := s.regions.set g t.regions[g], ports := t.ports, fab := { s.fab with bridges := t.fab.bridges } }

/-- The landing gate (R307, R308): the first flit of a send with REN on channels 0 to 4 whose event and admitted sends reach
LAND_DEPTH stays in the receive buffer, and its credit with it. LANDING_GATE_ADMIT lets held sends through once the gate is open,
and a waiting send within the module in the same way. -/
def Obligations.LandingGate : Prop :=
  (∀ (s : State) (p : PortId) (f : Flit), accepts s (.port p) f → hType f.hdr = tyDATA → dropsTraffic s = false →
    s.ports[p].isOpen[(hVc f.hdr).toFin] = false → gateHolds s f.hdr = true →
    exec (.dataReceive (.port p) f) s = .next (updPort (acceptFlit s (.port p)) p fun q =>
      { q with held := q.held.set (hVc f.hdr).toFin (q.held[(hVc f.hdr).toFin] ++ [f]) })) ∧
  (∀ (s : State) (p : PortId) (vc : VcId) (f : Flit), s.ports[p].held[vc] = [f] → hType f.hdr = tyDATA → headWaits s p f = false →
    exec (.landingGateAdmit (.port p vc)) s =
      .next (landFlit (updPort s p fun q => { q with held := q.held.set vc [] }) (.port p) f)) ∧
  ∀ (s : State) (g : RegionId) (k : ChanId) (run : ChanRun), s.regions[g].chans[k].run = some run → run.phase = .waiting →
    run.op.dop = dopDSEND → exec (.landingGateAdmit (.chan g k)) s = .next (sendHere s g k run)

/-- RESP: an answer ends the transaction with its TAG and GEN, whose tag is free again; OK hands over what was asked for and ERROR
stops what asked. An answer that matches none is dropped and counted (R292, R306, R311, R312). The tag that is free goes to the
transaction that has waited longest for one, where one waits. -/
def Obligations.ResponseEndsTransaction : Prop :=
  (∀ (s : State) (l : Link) (f : Flit) (t : Txn), accepts s l f → hType f.hdr = tyRESP → respTxn s l f.hdr = some t →
    isLend t.ask = false →
    exec (.resp l f) s = .next
      (let u := freeTxn (arrived s l f) t
       if (hRreg f.hdr).getLsbD 0 then refused u t else answered u t)) ∧
  (∀ (s : State) (t : Txn), s.fab.waiting = [] → freeTxn s t =
    updFab s fun b => { b with txns := b.txns.filter fun x => !(x.tag == t.tag && x.gen == t.gen) }) ∧
  ∀ (s : State) (l : Link) (f : Flit), accepts s l f → hType f.hdr = tyRESP → respTxn s l f.hdr = none →
    exec (.resp l f) s = .next (updFab (arrived s l f) fun b => { b with stale := b.stale + 1 })

/-! ## Arithmetic -/

/-- The exact accumulation of products does not depend on their order (R54): two orders of the same products, neither of which sets
ACC_SAT, leave the same N and side flags, and the same residue beside an N that it agrees with. -/
def Obligations.ExactSumIgnoresOrder : Prop :=
  ∀ (c : AccCell) (l m : List (Val × Val)), l.Perm m →
    let run (l : List (Val × Val)) : AccCell × AF :=
      l.foldl (fun acc ab => ((accProduct acc.1 ab.1 ab.2).1, acc.2 ||| (accProduct acc.1 ab.1 ab.2).2)) (c, 0)
    (run l).2 = 0 → (run m).2 = 0 →
    { (run l).1 with rn := 0 } = { (run m).1 with rn := 0 } ∧ (checkBeat c.n c.rn = true → (run l).1 = (run m).1)

/-- The residue that a cell carries follows its N (R377): a preload and a stored L128 value enter with it, and after any product it
agrees with N when it did before, so that a check beat finds a mismatch only where a value has changed by itself. Its step, on
residues, gives the residue of n + a b 2^sh. -/
def Obligations.ResiduesFollow : Prop :=
  (∀ (c : AccCell) (a b : Val), (c.checks false = true → (accProduct c a b).1.checks false = true) ∧
    (c.checks true = true → (accF32c c a b).checks true = true)) ∧
  (∀ v : Val, (preloadVal v).1.checks false = true) ∧ (∀ x : BitVec 128, (cellOfL128 x).1.checks false = true) ∧
  ∀ (a b n : Int) (sh : Nat), cellStep (resid a) (resid b) sh (resid n) = resid (n + a * b * 2 ^ sh)

/-- A side flag of a cell once set stays set whatever is added (R52), and no addition passes B in magnitude (R53). -/
def Obligations.SideFlagsStayAndBoundHolds : Prop :=
  ∀ (c : AccCell) (a b : Val),
    let d := (accProduct c a b).1
    (c.pinf = true → d.pinf = true) ∧ (c.ninf = true → d.ninf = true) ∧ (c.nanf = true → d.nanf = true) ∧
      (c.n.toInt.natAbs ≤ 2 ^ 127 - 4 → d.n.toInt.natAbs ≤ 2 ^ 127 - 4) ∧
      ((Val.mul a b).isFinite = false → d.n = c.n)

/-- The two-operand integer operations of the scalar slots: addition, subtraction and multiplication wrap, division by zero gives
all ones and its remainder the dividend, shifts take six bits of their count, and the comparisons choose as signed or unsigned
numbers (R225 and Table 8.4). -/
def Obligations.ScalarIntegers : Prop :=
  ∀ a b : W64, scalarInt 0x01 a b = a + b ∧ scalarInt 0x02 a b = a - b ∧ scalarInt 0x03 a b = a * b ∧
    (b = 0 → scalarInt 0x04 a b = BitVec.allOnes 64 ∧ scalarInt 0x05 a b = a) ∧
    (b ≠ 0 → scalarInt 0x04 a b = a / b ∧ scalarInt 0x05 a b = a % b) ∧
    scalarInt 0x06 a b = a &&& b ∧ scalarInt 0x07 a b = a ||| b ∧ scalarInt 0x08 a b = a ^^^ b ∧
    scalarInt 0x09 a b = a <<< (b.toNat % 64) ∧ scalarInt 0x0A a b = a >>> (b.toNat % 64) ∧
    scalarInt 0x0B a b = a.sshiftRight (b.toNat % 64) ∧
    (scalarInt 0x0C a b).toInt = min a.toInt b.toInt ∧ (scalarInt 0x0D a b).toInt = max a.toInt b.toInt ∧
    (scalarInt 0x0E a b).toNat = min a.toNat b.toNat ∧ (scalarInt 0x0F a b).toNat = max a.toNat b.toNat

/-! ## Streams -/

/-- BUNDLE_ISSUE, when a bundle can issue: the last beat's event changes take effect, one beat passes, and every slot of the first
ready stream's head bundle issues on the registers as they stood. The statement takes stores whose words are sound and a bundle that
meets no fault; only the region changes, its counters have taken the last beat's changes alone, and the stream that issued is the
last one to have done so (R207 to R209, R213, R214). -/
def Obligations.BundleIssues : Prop :=
  ∀ (s : State) (g : RegionId) (slice : Option BgWork) (i : StreamId),
    enabled s g = true → running s = true → beatToken s g = true → evOverflow s.regions[g] = none →
    s.regions[g].imem.chk = [] → s.regions[g].sdata.chk = [] →
    let u := updRegion s g evEndBeat
    (∀ j : StreamId, fetchFault u g j = none) → pickStream u g = some i →
    let bg := bgBeat s.boot.cfg u.regions[g] slice
    let v := passBeats3 (updRegion u g fun _ => bg.1) g bg.2
    let r := v.regions[g]
    let b := bundleAt r r.streams[i].pc
    let o0 := scalarOut r r.streams[i] i (bS0 b)
    let o1 := scalarOut r r.streams[i] i (bS1 b)
    issueFault v g i b o0 o1 = none →
    ∃ t, exec (.bundleIssue g slice false) s = .next t ∧ t = updRegion v g (fun r => issueBundle r i b o0 o1) ∧
      t = { s with regions := s.regions.set g t.regions[g] } ∧ t.regions[g].lastIssue = i ∧
      t.regions[g].ev = (evEndBeat s.regions[g]).ev

/-- With no bundle ready a beat passes and nothing issues, and background work takes it only within its share of the last 1,024 beats
(R221, R369); a region that is not enabled, or whose die gives no beat token, has no
beat at all (R213, R498, R508). A ready stream is taken in turn: the one picked is ready, and none that comes sooner after the last
to issue is (R213). A beat whose changes would take a counter out of its range is the job fault EVENT_OVERFLOW, and nothing issues
(R206). -/
def Obligations.BeatsWithoutIssue : Prop :=
  ((∀ (s : State) (g : RegionId) (slice : Option BgWork) (resid : Bool), enabled s g = true → running s = true →
    beatToken s g = true → evOverflow s.regions[g] = none →
    let u := updRegion s g evEndBeat
    (∀ j : StreamId, fetchFault u g j = none) → pickStream u g = none →
    let bg := bgBeat s.boot.cfg u.regions[g] slice
    exec (.bundleIssue g slice resid) s = .next (passBeats3 (updRegion u g fun _ => bg.1) g bg.2)) ∧
  (∀ (c : ImgCfg) (r : Region) (w : BgWork),
    let q := bgBeat c r (some w)
    q.1.beatNo = r.beatNo + 1 ∧ (q.2 = true ↔ ((r.slices.filter fun e => r.beatNo < e.1 + 1023 ∧ e.2 = w).length < bgLimit c w)) ∧
      (q.2 = false → q.1.behind = r.behind ||| bgBit w) ∧ (q.2 = true → q.1.behind = r.behind) ∧
      ((bgBeat c r none).2 = false)) ∧
  ∀ (s : State) (g : RegionId) (slice : Option BgWork) (resid : Bool), enabled s g = false ∨ beatToken s g = false →
    exec (.bundleIssue g slice resid) s = .next s) ∧
  (∀ (s : State) (g : RegionId) (i : StreamId), pickStream s g = some i →
    isReadyStream s g i = true ∧ ∀ j : StreamId, isReadyStream s g j = true →
      (i.val + 2 - s.regions[g].lastIssue.val) % 3 ≤ (j.val + 2 - s.regions[g].lastIssue.val) % 3) ∧
  (∀ (s : State) (g : RegionId) (slice : Option BgWork) (resid : Bool) (e : Fin 64), enabled s g = true → running s = true →
    beatToken s g = true → evOverflow s.regions[g] = some e →
    ∃ r : Rec, r.region = BitVec.ofNat 8 g.val ∧ r.ctx = s.regions[g].ctx ∧
      exec (.bundleIssue g slice resid) s = .next
        (raiseFault (updRegion s g fun r => { r with evPend := Vector.replicate 64 EvPend.none })
          { cause := cEventOverflow, ctx := s.regions[g].ctx, rcd := r }))

/-- SEGMENT_OVERRUN, REMOTE_STALL and PROMISE_OVERRUN: past its declared beats with the retry allowance, past the stall limit, past
the stream's bound, the stream raises its job fault (R222, R224, R375); within them the rows change nothing. -/
def Obligations.TimingFaults : Prop :=
  ∀ (s : State) (g : RegionId) (i : StreamId),
    (∀ q, s.regions[g].streams[i].seg = some q →
      exec (.segmentOverrun g i) s =
        .next (if q.d + q.allowance < q.counter then streamFault s g i cSegmentOverrun else s)) ∧
    (∀ n, s.regions[g].streams[i].heldFrom = some n → s.regions[g].streams[i].running = true →
      exec (.remoteStall g i) s = .next (if n + stallNs s < now s then streamFault s g i cRemoteStall else s)) ∧
    (∀ c t l, s.regions[g].ctx = some c → s.regions[g].tadm = some t → s.ctxs[c].launch = some l → l.started = true →
      (s.regions[g].streams[i].marked = true → s.regions[g].streams[i].ended = false) →
      exec (.promiseOverrun g i) s =
        .next (if streamDue s g i l t < now s then streamFault s g i cPromiseOverrun else s)) ∧
    (s.regions[g].streams[i].marked = true → s.regions[g].streams[i].ended = true → exec (.promiseOverrun g i) s = .next s)

/-- A residue retry counts against the open segment: one retry more, and its length more in the allowance, with a CORRECTED record
of the place; while RB is not passed and the length is within LMAX, nothing else of the region changes (R222, R223, R367, R380).
PASS_RETRY, DRAIN_ROW_RECOMPUTE, VECTOR_RETRY and SOLVER_RERUN do the work again, which gives the same bits: what they change is the
count of retries of the operation and what the retry is charged (R100, R102, R198, R379, R380), with the residues and second flags of
the accumulators formed anew and the vector's check standing good again (R377). A rerun leaves N and the flags of each accumulator
and makes its checks hold. -/
def Obligations.RetriesAreCharged : Prop :=
  (∀ (s : State) (g : RegionId) (cl : Byte) (i : StreamId) (src : BitVec 16) (len : Nat) (q : Seg),
    s.regions[g].streams[i].seg = some q → q.retries + 1 ≤ s.boot.cfg.rb → len ≤ s.regions[g].budget[i].lmax →
    (chargeRetry s g cl i src len).regions[g] = updStream s.regions[g] i (fun st =>
      { st with seg := some { q with retries := q.retries + 1, allowance := q.allowance + len } }) ∧
    ∀ h : RegionId, h ≠ g → (chargeRetry s g cl i src len).regions[h] = s.regions[h]) ∧
  (∀ (c : AccCell) (f : Bool), (c.rerun f).checks f = true ∧ (c.rerun f).n = c.n ∧ (c.rerun f).pinf = c.pinf ∧
    (c.rerun f).ninf = c.ninf ∧ (c.rerun f).nanf = c.nanf) ∧
  ((∀ (s : State) (g : RegionId) (c : ClusterId) (run : PassRun) (p : PassOp),
    beatToken s g = true → s.regions[g].clusters[c].borrowed = false →
    s.regions[g].clusters[c].banks[s.regions[g].clusters[c].nextBank].phase = .landed →
    s.regions[g].clusters[c].banks[s.regions[g].clusters[c].nextBank].run = some run → run.parts.getLast? = some p →
    exec (.passRetry g c) s = .next
      (chargeRetry (updRegion s g fun r => updCluster r c fun cl => updBank cl s.regions[g].clusters[c].nextBank fun k =>
        { k with run := some { run with retries := run.retries + 1 }, cells := k.cells.map fun e => (e.1, e.2.rerun p.f32c) })
        g (BitVec.ofNat 8 c.val) p.stream srcResArray ((run.parts.map passLength).foldl (· + ·) 0))) ∧
  (∀ (s : State) (g : RegionId) (c : ClusterId) (b : Fin 2) (run : PassRun) (p : PassOp),
    beatToken s g = true → s.regions[g].clusters[c].borrowed = false →
    drainBank s.regions[g].clusters[c] = some b → s.regions[g].clusters[c].banks[b].run = some run → run.parts.getLast? = some p →
    exec (.drainRowRecompute g c) s = .next
      (chargeRetry (updRegion s g fun r => updCluster r c fun cl => updBank cl b fun k =>
        { k with run := some { run with retries := run.retries + 1 } })
        g (BitVec.ofNat 8 c.val) p.stream srcResArray ((run.parts.map passLength).foldl (· + ·) 0))) ∧
  (∀ (s : State) (g : RegionId) (c : ClusterId) (run : VecRun), beatToken s g = true →
    s.regions[g].clusters[c].vrun = some run → run.failed = false →
    exec (.vectorRetry g c) s = .next
      (chargeRetry (updRegion s g fun r => updCluster r c fun cl =>
        { cl with vrun := some { run with retries := run.retries + 1, ok := true } })
        g (BitVec.ofNat 8 c.val) run.op.stream srcResVector 40)) ∧
  ∀ (s : State) (g : RegionId) (run : MacroRun), s.regions[g].mrun = some run → run.failed = false →
    exec (.solverRerun g) s = .next (chargeRetry s g 0xFF run.op.stream srcResSolver (max 8192 (3 * run.op.n + 138))))

/-! ## Matrix arrays, vector engines, solver -/

/-- PASS_START: with beat tokens, a bank ready for it and no borrow, the head of the pass queue leaves the queue and the feeder
takes its steps, with the operand scales as read. When nothing stops it, the bank has landed once every step of the last part is in,
and takes operands until then (R73 to R84). DIRECT_FEED: the step that waits is fed from the tiers that hold it; when some of it
lies in another module's frames, those units are asked for first, once each (R99, R286). -/
def Obligations.PassesStart : Prop :=
  (∀ (s : State) (g : RegionId) (c : ClusterId) (p : PassOp) (rest : List PassOp) (b : Fin 2) (sa sb : W32),
    let cl := s.regions[g].clusters[c]
    beatToken s g = true → cl.passQ = p :: rest → startBank cl p = some b → cl.borrowed = false →
    let e := engOpen s g (BitVec.ofNat 8 c.val) p.stream .off none []
    (sideScale e p.a p.k).1 = some sa → (sideScale (sideScale e p.a p.k).2 p.b p.k).1 = some sb →
    let run : PassRun :=
      match cl.banks[b].run with
      | some run => { run with parts := run.parts ++ [p], step := 0, feeding := false, asked := [] }
      | none => { parts := [p], sa := sa, sb := sb, step := 0, feeding := false, directA := false, directB := false,
                  fetched := [], asked := [], retries := 0, dfSteps := 0, nonfin := 0, flags := cl.banks[b].preFlags,
                  digest := 0 }
    run.sa = sa → run.sb = sb →
    let f := feedResident p (p.k + 1)
      { e := (sideScale (sideScale e p.a p.k).2 p.b p.k).2,
        cl := updBank { cl with passQ := rest, replay := openCapture cl.replay p, nextBank := if p.cont then cl.nextBank else 1 - b } b
          fun k => { k with preloaded := false, preFlags := 0 },
        cells := cl.banks[b].cells, run := run }
    ∃ t, exec (.passStart g c) s = .next t ∧ t = feedClose f c b p ∧
      (f.e.stop = none → t.regions[g].clusters[c].passQ = rest ∧ t.regions[g].clusters[c].vq = cl.vq ∧
        t.regions[g].clusters[c].banks[b].phase =
          (if p.k ≤ f.run.step ∧ f.run.feeding = false ∧ p.more = false then .landed else .busy))) ∧
  (∀ (s : State) (g : RegionId) (c : ClusterId) (b : Fin 2) (run : PassRun) (p : PassOp) (x : CtxId),
    let r := s.regions[g]
    let cl := r.clusters[c]
    beatToken s g = true → cl.cur = some b → cl.banks[b].run = some run → run.parts.getLast? = some p → run.feeding = true →
    r.ctx = some x →
    let addrs := runDirect run p
    let want := (t2Units s x addrs).filter fun u => !run.asked.contains u
    (want ≠ [] → exec (.directFeed g c) s = .next
      (updRegion (fetchUnits s (.feed g c) x want) g fun r => updCluster r c fun cl => updBank cl b fun q =>
        { q with run := some { run with asked := run.asked ++ want } })) ∧
    (want = [] → waitsFor s (.feed g c) = false →
      let f := feedStep { e := engOpen s g (BitVec.ofNat 8 c.val) p.stream .off none run.fetched, cl := cl,
                          cells := cl.banks[b].cells, run := run } p
      exec (.directFeed g c) s = .next (feedClose
        (feedResident p (p.k + 1) { f with e := { f.e with s := { f.e.s with dfBytes := countDirect s x addrs s.dfBytes } } }) c b p)))

/-- PRELOAD_SWEEP: the preload of the next pass for a free bank is written into it, when no earlier pass has still to drain to where
it lies and nothing stops it (R59, R85, R160). DRAIN_SWEEP: a landed pass whose check beat finds no mismatch (R377) is resolved and
written row by row, its bank is free again and the pass waits for its completion point. The statement takes a pass for whose bank no other has been issued, and whose drain nothing stops (R56 to R59, R87 to R91). -/
def Obligations.PassesPreloadAndDrain : Prop :=
  (∀ (s : State) (g : RegionId) (c : ClusterId) (b : Fin 2) (p : PassOp),
    let cl := s.regions[g].clusters[c]
    beatToken s g = true → nextFor cl b = some p → cl.banks[b].phase = .free → cl.banks[b].preloaded = false → p.pre ≠ 0 →
    preloadReady cl b p = true → cl.borrowed = false →
    let q := preCells (engOpen s g (BitVec.ofNat 8 c.val) p.stream .off none []) cl p
    q.2.2.stop = none →
    ∃ t, exec (.preloadSweep g c b) s = .next t ∧
      t = updRegion (engClose q.2.2 (.feed g c)).1 g (fun r => updCluster r c fun cl => putPreload cl b p q.1 q.2.1) ∧
      t.regions[g].clusters[c].banks[b].cells = q.1 ∧ t.regions[g].clusters[c].banks[b].preloaded = true) ∧
  (∀ (s : State) (g : RegionId) (c : ClusterId) (b : Fin 2) (run : PassRun) (p : PassOp),
    let cl := s.regions[g].clusters[c]
    beatToken s g = true → drainBank cl = some b → cl.banks[b].run = some run → run.parts.getLast? = some p →
    (p.dst = 1 → cl.tileQ.length < 8) → bankChecks cl.banks[b] p = true → nextFor cl b = none →
    let d := (passCells p).foldl (fun d ij => drainCell d p cl.banks[b].cells ij.1 ij.2)
      { e := engOpen s g (BitVec.ofNat 8 c.val) p.stream .off none [], tile := [], run := run }
    (engFlush d.e).stop = none →
    ∃ t, exec (.drainSweep g c) s = .next t ∧
      t = updRegion (engClose (engFlush d.e) (.feed g c)).1 g (fun r => updCluster r c fun cl =>
        updBank { cl with
          drained := cl.drained ++ [{ d.run with digest := digestOfPass s g p run cl.banks[b].cells }],
          tileQ := if p.dst = 1 then cl.tileQ ++ [{ m := p.m, n := p.n, cells := d.tile, readable := false, taken := false, bad := false }]
            else cl.tileQ } b fun _ => Bank.reset))

/-- PASS_COMPLETION: a drained pass reaches its completion point: PSTAT of its stream takes the next SEQ with the counts and flags
of the pass, AFLAGS takes its flags, its signal is due at the end of the beat, and a tile becomes readable (R91 to R93, R103, R207).
A landed hold pass whose check beat finds no mismatch is held from then on, with its cells as they are (R88, R92, R377). The
statement takes a module outside lock-step mode, where no pass record is formed. -/
def Obligations.PassesComplete : Prop :=
  (∀ (s : State) (g : RegionId) (c : ClusterId) (run : PassRun) (p : PassOp),
    let cl := s.regions[g].clusters[c]
    let k := cl.banks[cl.nextBank]
    s.boot.cfg.lockEnable = false → cl.drained = [] → k.phase = .landed → k.run = some run → run.parts = [p] → p.dst = 2 →
    bankChecks k p = true →
    ∃ t, exec (.passCompletion g c) s = .next t ∧ t = { s with regions := s.regions.set g t.regions[g] } ∧
      t.regions[g].clusters[c].banks[cl.nextBank].phase = .held ∧ t.regions[g].clusters[c].banks[cl.nextBank].cells = k.cells ∧
      t.regions[g].clusters[c].banks[1 - cl.nextBank] = cl.banks[1 - cl.nextBank] ∧
      t.regions[g].clusters[c].pstat = cl.pstat.set p.stream
        (pstatWord (nextSeq cl.pstat[p.stream]) (run.nonfin + holdNonfin p run k.cells) run.retries run.dfSteps (run.flags &&& 0x1F)) ∧
      t.regions[g].streams[p.stream] = raiseAflags s.regions[g].streams[p.stream] (run.flags &&& 0x1F) ∧
      t.regions[g].ev = s.regions[g].ev) ∧
  ∀ (s : State) (g : RegionId) (c : ClusterId) (run : PassRun) (rest : List PassRun) (p : PassOp),
    let cl := s.regions[g].clusters[c]
    s.boot.cfg.lockEnable = false → cl.drained = run :: rest → run.parts = [p] →
    ∃ t, exec (.passCompletion g c) s = .next t ∧ t = { s with regions := s.regions.set g t.regions[g] } ∧
      t.regions[g].clusters[c].drained = rest ∧
      t.regions[g].clusters[c].pstat = cl.pstat.set p.stream
        (pstatWord (nextSeq cl.pstat[p.stream]) run.nonfin run.retries run.dfSteps (run.flags &&& 0x1F)) ∧
      t.regions[g].clusters[c].tileQ = (if p.dst = 1 then markReadable cl.tileQ else cl.tileQ) ∧
      t.regions[g].clusters[c].banks = cl.banks ∧
      t.regions[g].streams[p.stream] = raiseAflags s.regions[g].streams[p.stream] (run.flags &&& 0x1F) ∧
      (∀ e, p.sig = some e → t.regions[g].evPend = (evAdd s.regions[g] e 1 (some p.stream)).evPend) ∧
      (p.sig = none → t.regions[g].evPend = s.regions[g].evPend) ∧ t.regions[g].ev = s.regions[g].ev

/-- SOLVER_BORROW: a cluster that the macro at the head of the queue names, idle and with both banks free, is borrowed in a beat that
has a token (R98, R175, R498). MACRO_START: with every cluster of its mask borrowed, what it reads from other modules fetched and
nothing to stop it, the macro at the head of the queue leaves the queue and does its work (R162, R173, R175); one on CONTEXT blocks
takes buffers for the solver channel, which has ended what it was given before (R277). -/
def Obligations.MacrosStart : Prop :=
  (∀ (s : State) (g : RegionId) (c : ClusterId) (m : MacroOp) (rest : List MacroOp),
    beatToken s g = true → s.regions[g].mrun = none → s.regions[g].mq = m :: rest → m.bm.getLsbD c.val = true →
    borrowable s.regions[g].clusters[c] = true →
    exec (.solverBorrow g c) s = .next (updRegion s g fun r => updCluster r c fun cl => { cl with borrowed := true })) ∧
  (∀ (s : State) (g : RegionId) (m : MacroOp) (rest : List MacroOp),
    let r := s.regions[g]
    beatToken s g = true → r.mrun = none → r.mq = m :: rest →
    (∀ c : ClusterId, m.bm.getLsbD c.val = true → r.clusters[c].borrowed = true) →
    (usesContext m = true → r.chans[(11 : ChanId)].run = none ∧ r.chans[(11 : ChanId)].q = []) →
    (∀ x, r.ctx = some x → t2Units s x (macroAddrs m) = []) → waitsFor s (.solver g) = false →
    let a := runMacro { e := engOpen s g 0xFF m.stream .solver none r.mfetched, seen := [], code := 0, nit := 0,
                        cold := false, floored := 0, flags := 0, resid := 0, rx := none } m
    (engFlush a.e).stop = none →
    ∃ t, exec (.macroStart g) s = .next t ∧
      t = updRegion (takeSolver (engClose (engFlush a.e) (.solver g)).1 g m) g (fun r =>
        { r with mq := rest, mfetched := [], masked := [],
                 mrun := some { op := m, code := a.code, nit := BitVec.ofNat 5 a.nit, cold := a.cold, floored := a.floored,
                                flags := a.flags, resid := a.resid, rxVal := a.rx, failed := false,
                                tiles := (engClose (engFlush a.e) (.solver g)).2 } }))

/-- VECTOR_START: the next queued instruction, once the holds and tiles it waits for are there, leaves the queue and runs (R110,
R118); the statement takes one that nothing stops. VECTOR_COMPLETION: VSTAT of the stream takes the next SEQ with the counts and
flags, VFLAGS and AFLAGS take theirs, RX its value, and the signal is due; the tile it reads is freed, the banks that it selected when
it started are clear, and no other, and the instruction no longer runs (R91, R92, R110, R116, R119, R144). -/
def Obligations.VectorsRun : Prop :=
  (∀ (s : State) (g : RegionId) (c : ClusterId) (v : VecOp) (rest : List VecOp),
    let cl := s.regions[g].clusters[c]
    beatToken s g = true → cl.vrun = none → cl.vq = v :: rest → vecReady cl v = true → holdModeOk cl v = true →
    let a := runVec { e := engOpen s g (BitVec.ofNat 8 c.val) v.stream .off none [], cl := cl, v := v, oor := 0, empty := 0,
                      vf := if vecAlias v then vfWriteAlias else 0, rx := none, ok := true }
    (engFlush a.e).stop = none →
    ∃ t, exec (.vectorStart g c) s = .next t ∧
      t = updRegion (engClose (engFlush a.e) (.feed g c)).1 g (fun r => updCluster r c fun cl =>
        { cl with vq := rest, tileQ := if usesTile v then takeTile cl.tileQ else cl.tileQ,
                  vrun := some { op := v, rxVal := a.rx, oor := a.oor, empty := a.empty,
                                 flags := a.vf ||| (if a.oor = 0 then 0 else vfOor) ||| (if a.empty = 0 then 0 else vfEmpty),
                                 aflags := (engFlush a.e).flags, retries := 0, release := releases cl v, ok := a.ok,
                                 failed := false } })) ∧
  (∀ (s : State) (g : RegionId) (c : ClusterId) (run : VecRun),
    let cl := s.regions[g].clusters[c]
    let v := run.op
    cl.vrun = some run → run.failed = false → run.ok = true →
    ∃ t, exec (.vectorCompletion g c) s = .next t ∧ t = { s with regions := s.regions.set g t.regions[g] } ∧
      t.regions[g].clusters[c] = { cl with
        vrun := none, tileQ := if usesTile v then cl.tileQ.tail else cl.tileQ,
        banks := t.regions[g].clusters[c].banks,
        vstat := cl.vstat.set v.stream (vstatWord (nextSeq cl.vstat[v.stream]) run.oor run.empty run.flags) } ∧
      (∀ b : Fin 2, t.regions[g].clusters[c].banks[b] = if b ∈ run.release then Bank.reset else cl.banks[b]) ∧
      t.regions[g].streams[v.stream].vflags = vflagsAfter s.regions[g].streams[v.stream].vflags run.oor run.flags ∧
      t.regions[g].streams[v.stream].aflags = s.regions[g].streams[v.stream].aflags ||| run.aflags.setWidth 32 ∧
      (∀ x, run.rxVal = some x → v.rx ≠ 0 → xRead t.regions[g].streams[v.stream] v.rx = x) ∧
      (run.rxVal = none → t.regions[g].streams[v.stream].x = s.regions[g].streams[v.stream].x) ∧
      (∀ e, v.sig = some e → t.regions[g].evPend = (evAdd s.regions[g] e 1 (some v.stream)).evPend))

/-- MACRO_COMPLETION: SSTAT takes the next SEQ with the result code, counts and flags, SRES the residual, AFLAGS and RX theirs; the
borrowed clusters go back with both banks clear, and the signal is due (R98, R167, R177, R194, R195). The statement takes a macro
that wrote into no digest range. -/
def Obligations.MacrosComplete : Prop :=
  ∀ (s : State) (g : RegionId) (run : MacroRun),
    let r := s.regions[g]
    let m := run.op
    r.mrun = some run → run.failed = false → waitsFor s (.solver g) = false → run.tiles = [] →
    ∃ t, exec (.macroCompletion g) s = .next t ∧ t = { s with regions := s.regions.set g t.regions[g] } ∧
      t.regions[g].mrun = none ∧
      (usesContext m = true → t.regions[g].chans[(11 : ChanId)].held = 0) ∧
      (∀ c : ClusterId, t.regions[g].clusters[c] =
        if m.bm.getLsbD c.val then { r.clusters[c] with borrowed := false, banks := Vector.replicate 2 Bank.reset } else r.clusters[c]) ∧
      t.regions[g].streams[m.stream].sstat =
        sstatWord (nextSeq r.streams[m.stream].sstat) run.code run.nit run.cold run.floored run.flags ∧
      t.regions[g].streams[m.stream].sres = run.resid ∧
      t.regions[g].streams[m.stream].aflags = r.streams[m.stream].aflags ||| (run.flags &&& 0x1F).setWidth 32 ∧
      (∀ x, run.rxVal = some x → m.rx ≠ 0 → xRead t.regions[g].streams[m.stream] m.rx = x) ∧
      (run.rxVal = none → t.regions[g].streams[m.stream].x = r.streams[m.stream].x) ∧
      (∀ e, m.sig = some e → t.regions[g].evPend = (evAdd r e 1 (some m.stream)).evPend)

/-! ## Channels and collectives -/

/-- CHANNEL_OP_START: an idle channel takes the next operation of its queue, with its buffers, and begins it, with the head of the
tile queue taken by a copy that reads it (R91); an operation that waited for data of other modules goes on once it may.
CHANNEL_OP_COMPLETION: at its completion point the operation leaves the channel, its buffers go back, and its effects, digest
contribution and signal follow (R277 to R279, R306, R423). The elements of a DPREF that are here are moved, and FILLED goes on with
them, up to COUNT with the last; at the completion point LATE says whether the deadline had passed (R284, R288). -/
def Obligations.ChannelOperations : Prop :=
  ((∀ (s : State) (g : RegionId) (k : ChanId) (op : ChanOp) (rest : List ChanOp),
    let r := s.regions[g]
    beatToken s g = true → r.chans[k].run = none → r.chans[k].q = op :: rest → chanReady s g op = true →
    let run : ChanRun := { op := op, phase := .waiting, fetched := [], asked := [], tiles := [] }
    let u := updRegion s g fun r => updChan r k fun _ => { q := rest, run := some run, held := buffersFor s g k (opBytes op) }
    let v := if op.dop = dopDPREF then openWindow u g op
      else if op.dop = dopDCOPY ∧ (tdOf op.tds).kind = kTILEQ then
        updRegion u g fun r => updCluster r op.tqcl fun cl => { cl with tileQ := takeTile cl.tileQ }
      else u
    exec (.channelOpStart g k) s = .next (chanWork v g k run)) ∧
  (∀ (s : State) (g : RegionId) (k : ChanId) (run : ChanRun), beatToken s g = true → s.regions[g].chans[k].run = some run →
    run.phase = .fetching → (waitsFor s (chanWho g k) = false ∨ run.op.dop = dopDPREF) →
    exec (.channelOpStart g k) s = .next
      (chanWork (updRegion s g fun r => updChan r k fun c => { c with held := buffersFor s g k (opBytes run.op) }) g k run)) ∧
  (∀ (s : State) (g : RegionId) (k : ChanId) (run : ChanRun), s.regions[g].chans[k].run = some run → run.phase = .moved →
    waitsFor s (chanWho g k) = false → run.op.dop = dopDCOPY → (tdOf run.op.tds).kind ≠ kTILEQ → run.tiles = [] →
    ∃ t, exec (.channelOpCompletion g k) s = .next t ∧
      t = updRegion s g (fun r => evSignal (updChan r k fun c => { c with run := none, held := 0 }) run.op.sig run.op.stream)) ∧
  ∀ (s : State) (g : RegionId) (k : ChanId) (run : ChanRun), s.regions[g].chans[k].run = some run → run.phase = .moved →
    waitsFor s (chanWho g k) = false →
    ∃ t, exec (.channelOpCompletion g k) s = .next t ∧
      t.regions[g].chans[k].run = none ∧ t.regions[g].chans[k].held = 0 ∧
      (run.tiles = [] → t.regions[g].chans[k].q = s.regions[g].chans[k].q)) ∧
  (∀ (s : State) (g : RegionId) (k : ChanId) (run : ChanRun),
    let w := (tdOf run.op.tdd).window
    let n := fillReach s g k run.op
    s.regions[g].wins[w].filled < n → (moveElems s g k run s.regions[g].wins[w].filled n).2.1 = none →
    n ≤ (tdOf run.op.tds).count ∧ (fillData s g k run).regions[g].wins[w].filled = n ∧
      ∀ v : Fin 8, v ≠ w → (fillData s g k run).regions[g].wins[v] = s.regions[g].wins[v]) ∧
  (∀ (s : State) (g : RegionId) (k : ChanId) (run : ChanRun), s.regions[g].chans[k].run = some run → run.phase = .moved →
    waitsFor s (chanWho g k) = false → run.op.dop = dopDPREF → run.tiles = [] →
    let w := (tdOf run.op.tdd).window
    let win := s.regions[g].wins[w]
    ∃ t, exec (.channelOpCompletion g k) s = .next t ∧
      t.regions[g].wins = s.regions[g].wins.set w { win with late := decide (win.deadline.toNat < now s) } ∧
      t.regions[g].lateFills = s.regions[g].lateFills + (if win.deadline.toNat < now s then 1 else 0) ∧
      t = { s with regions := s.regions.set g t.regions[g], ctxs := t.ctxs })

/-- COLLECTIVE_START: the collective that is next in the order of its region and axis starts, once; on a ring of more than one
member it sends its first steps, when reading its source is stopped by nothing and no step has come early (R315, R319, R320).
COLL_RECEIVE: the flits of a step gather until its last; a step for a running collective is then taken into it; one that differs from
the member's own is the job fault COLL_MISMATCH, and a residue mismatch the job fault RESIDUE_FAULT (R296, R316, R378). -/
def Obligations.CollectivesRun : Prop :=
  (∀ (s : State) (g : RegionId) (a : AxisId) (k : ChanId) (cr : ChanRun),
    collChan s.regions[g] a = some (k, cr) → 2 ≤ collN s a → s.fab.early = [] →
    let op := cr.op
    let q := collRead (engOpen s g 0xFF op.stream .off none []) op
    q.2.2.stop = none →
    let x := collSource op q.1 q.2.1
    let n := collN s a
    let me := collPos s g a
    let r0 : CollRun := { g := g, k := k, axis := a, seq := op.seq, op := op, elems := x.1, exps := x.2.1, parts := [], left := 0,
                          done := false }
    let r1 := { r0 with left := stepsToCome r0 n me }
    let run := if op.cop = copAG then { r1 with parts := [((me, false), ownPiece r1 n me false), ((me, true), ownPiece r1 n me true)] }
      else r1
    let u := updRegion (engClose q.2.2 (chanWho g k)).1 g fun r => { r with collStarted := r.collStarted.set a (op.seq + 1) }
    let v := updRegion u g fun r => updStream r op.stream fun t => raiseAflags t x.2.2
    exec (.collectiveStart g a) s = .next
      (takeEarly (firstSteps (updFab v fun f => { f with colls := f.colls ++ [run] }) run n me) g a op.seq)) ∧
  (∀ (s : State) (g : RegionId) (a : AxisId) (l : Link) (f : Flit) (r : CollStep) (b : Bool),
    linkOfAxis s g a l = true → accepts s l f → hType f.hdr = tyCOLL → (hRreg f.hdr).toNat = g.val → dropsTraffic s = false →
    hLast f.hdr = false → exec (.collReceive g a l f r b) s = .next (gatherStep (arrived s l f) g a l f r).1) ∧
  ∀ (s : State) (g : RegionId) (a : AxisId) (l : Link) (f : Flit) (r : CollStep) (u : State) (st : CollStep) (run : CollRun),
    linkOfAxis s g a l = true → accepts s l f → hType f.hdr = tyCOLL → (hRreg f.hdr).toNat = g.val → dropsTraffic s = false →
    gatherStep (arrived s l f) g a l f r = (u, some st) → findColl u g a (hTag f.hdr).toNat = some run →
    exec (.collReceive g a l f r false) s = .next (takeStep u run st) ∧
    exec (.collReceive g a l f r true) s = .next (collResidue u g run.op) ∧
    (stepMatches run (collN u run.axis) st = false →
      exec (.collReceive g a l f r false) s = .next (streamFault u run.g run.op.stream cCollMismatch))

/-! ## Page requests and what other modules send -/

/-- LEND_REQ, LEND_FREE, RD_REQ, WR_REQ and TILE_REQ, when the last flit of the request is here and the module serves requests:
frames are granted, counted against the quota LEND, and answered with their numbers; they come back; data of lent frames goes out
and is written; tile entries go out; what does not lie in what was lent, or passes LEND, is answered with ERROR and changes nothing
else (R261, R292 to R294). -/
def Obligations.PageRequestsServed : Prop :=
  ∀ (s : State) (p : PortId) (f : Flit) (w : State) (l : List Byte),
    accepts s (.port p) f → hType f.hdr = tyPAGE → gatherPage (arrived s (.port p) f) p f = (w, some l) → w.hardFault = false →
    let c := hCtx f.hdr
    (hPkind f.hdr = pkLendReq → lendBlockOk l = true → lendMirror l = false →
      (w.boot.cfg.lend < lentPages w + lendPages l → exec (.lendReq p f) s = .next (answerPage w p f 3)) ∧
      (∀ fs x, lentPages w + lendPages l ≤ w.boot.cfg.lend → lendFrames p c (lendPages l) w = some (fs, x) →
        exec (.lendReq p f) s =
          .next (answerPage (sendPage x p pkLendAns c (hTag f.hdr) (hGen f.hdr) 0 (fs.flatMap (leBytes 4))) p f 0))) ∧
    (hPkind f.hdr = pkLendFree → lendBlockOk l = true → lendMirror l = false →
      let fs := frameList l (lendPages l)
      ((∀ q ∈ fs, ∃ x ∈ w.hbm.lent, x.port = p ∧ x.ctx = c ∧ x.frame = q) →
        exec (.lendFree p f) s = .next (answerPage
          (updHbm w fun h => { h with lent := h.lent.filter fun x => !(x.port == p && x.ctx == c && fs.contains x.frame) }) p f 0)) ∧
      ((∃ q ∈ fs, ∀ x ∈ w.hbm.lent, ¬(x.port = p ∧ x.ctx = c ∧ x.frame = q)) →
        exec (.lendFree p f) s = .next (answerPage w p f 1))) ∧
    (hPkind f.hdr = pkRdReq → addrBlockOk l false = true →
      (blockPieces w p c l = none → exec (.rdReq p f) s = .next (answerPage w p f 1)) ∧
      (∀ ps, blockPieces w p c l = some ps → w.hbm.mdata = [] →
        exec (.rdReq p f) s = .next (answerPage
          (sendPage w p pkRdData c (hTag f.hdr) (hGen f.hdr) 0 (ps.flatMap fun e => hbmBytes w.hbm e.1 e.2)) p f 0))) ∧
    (hPkind f.hdr = pkWrReq → addrBlockOk l true = true → adMirror l = false → (l.drop 16).length = adLen l →
      (blockPieces w p c l = none → exec (.wrReq p f) s = .next (answerPage w p f 1)) ∧
      (∀ ps x, blockPieces w p c l = some ps → adHost l = false → writePieces w ps (l.drop 16) = (x, true) →
        exec (.wrReq p f) s = .next (answerPage x p f 0))) ∧
    (hPkind f.hdr = pkTileReq →
      (tileEntries w c l = none → exec (.tileReq p f) s = .next (answerPage w p f 1)) ∧
      (∀ ps, tileEntries w c l = some ps → w.hbm.mdata = [] →
        exec (.tileReq p f) s = .next (answerPage
          (sendPage w p pkTileData c (hTag f.hdr) (hGen f.hdr) 0 (ps.flatMap fun e => hbmBytes w.hbm e.1 e.2)) p f 0)))

/-- In HARD_FAULT every page request is answered with RESP ERROR and does nothing else (R412). A fault in HARD_FAULT makes its
record and does nothing else to the module's work (R412); HARD_FAULT stops every launch and is left by no command but a reset of the
module or the loss of its power (R413). -/
def Obligations.HardFaultLasts : Prop :=
  (∀ (s : State) (p : PortId) (f : Flit) (w : State) (l : List Byte),
    accepts s (.port p) f → hType f.hdr = tyPAGE → gatherPage (arrived s (.port p) f) p f = (w, some l) → w.hardFault = true →
    ∀ e ∈ ([(pkLendReq, .lendReq p f), (pkLendFree, .lendFree p f), (pkRdReq, .rdReq p f), (pkWrReq, .wrReq p f),
        (pkDigestSet, .digestSet p f), (pkTileReq, .tileReq p f), (pkPassRec, .passRec p f)] : List (BitVec 5 × Instr)),
      hPkind f.hdr = e.1 → exec e.2 s = .next (sendResp w (.port p) 6 (hTag f.hdr) (hGen f.hdr) 1)) ∧
  ((∀ (s : State) (f : FaultInfo), s.hardFault = true →
    (raiseFault s f).regions = s.regions ∧ (raiseFault s f).ctxs = s.ctxs ∧ (raiseFault s f).ports = s.ports ∧
      (raiseFault s f).fab = s.fab ∧ (raiseFault s f).scree.next = s.scree.next + 1) ∧
  ∀ (s : State) (c : CtxId) (d : Desc), s.hardFault = true → reservedOk d = true → dNat d 2 1 = c.val →
    dOpc d ≠ 0x0C → dOpc d ≠ 0x0D → dOpc d ≠ 0x0E → commonReject s c d = some rjHardFault)

/-- LEND_ANS, RD_DATA and TILE_DATA keep their bytes, at the offset they name, with the transaction that asked for them (R291,
R292). DIGEST_SET and PASS_REC are stored until the own counterpart is there and compared then, and answered with OK;
LOCKSTEP_TIMEOUT drops a record that has found none within the stall limit and raises REMOTE_STALL (R425, R426, R429). -/
def Obligations.DataOfOtherModules : Prop :=
  (∀ (s : State) (p : PortId) (f : Flit) (t : Txn), accepts s (.port p) f → hType f.hdr = tyPAGE → findTxn s f.hdr = some t →
    let keep := updTxn (arrived s (.port p) f) t fun x => { x with data := memPutBytes x.data (hPoff f.hdr) (f.payload.take (hLen f.hdr)) }
    (hPkind f.hdr = pkLendAns → t.ask = .lend false → exec (.lendAns p f) s = .next keep) ∧
    (hPkind f.hdr = pkRdData → t.ask = .read → exec (.rdData p f) s = .next keep) ∧
    (hPkind f.hdr = pkTileData → t.ask = .tile → hLast f.hdr = false → exec (.tileData p f) s = .next keep)) ∧
  (∀ (s : State) (p : PortId) (f : Flit) (w : State) (l : List Byte),
    accepts s (.port p) f → hType f.hdr = tyPAGE → gatherPage (arrived s (.port p) f) p f = (w, some l) → w.hardFault = false →
    let c := hCtx f.hdr
    (hPkind f.hdr = pkDigestSet → digestSetOk l = false → exec (.digestSet p f) s = .next (answerPage w p f 1)) ∧
    (hPkind f.hdr = pkPassRec → sliceNat l 11 1 ≠ 0 ∨ sliceNat l 14 2 ≠ 0 → exec (.passRec p f) s = .next (answerPage w p f 1)) ∧
    (hPkind f.hdr = pkDigestSet → digestSetOk l = true →
      (stepComplete w c (parseDigestSet l).step = false →
        exec (.digestSet p f) s = .next { answerPage w p f 0 with
          digestSets := (w.digestSets.filter fun e => e.1 != c) ++ [(c, parseDigestSet l)] }) ∧
      (stepComplete w c (parseDigestSet l).step = true →
        exec (.digestSet p f) s = .next (compareSet (answerPage w p f 0) c (parseDigestSet l)))) ∧
    (hPkind f.hdr = pkPassRec → sliceNat l 11 1 = 0 → sliceNat l 14 2 = 0 →
      let q := parsePassRec l (now w)
      (w.ownRecs.find? (samePass q) = none →
        exec (.passRec p f) s = .next { answerPage w p f 0 with peerRecs := w.peerRecs ++ [q] }) ∧
      (∀ own, w.ownRecs.find? (samePass q) = some own → own.digest = q.digest →
        exec (.passRec p f) s = .next { answerPage w p f 0 with ownRecs := w.ownRecs.erase own }))) ∧
  ∀ (s : State) (g : RegionId) (c : ClusterId) (i : StreamId) (seq : BitVec 16) (q : PassRecord),
    s.ownRecs = [q] → s.peerRecs = [] → q.region.toNat = g.val → q.cluster.toNat = c.val → q.stream.toNat = i.val → q.seq = seq →
    q.atCount + stallNs s < now s →
    exec (.lockstepTimeout g c i seq) s = .next (raiseFault { s with ownRecs := [] }
      { cause := cRemoteStall, ctx := s.regions[g].ctx,
        rcd := { regionRec s g with cluster := BitVec.ofNat 8 c.val, stream := BitVec.ofNat 2 i.val } })

/-! ## The count, the steps and their commit -/

/-- COUNT_TICK, COUNT_ALIGN and COUNT_REMEASURE: with no correction to make the count rises by the nanoseconds that pass, and one
that is ahead of its neighbour stands; a module that is not aligned takes its aligned neighbour's stamp with the link delay, unless
its count is ahead of that (notes/assumptions/44); an aligned one measures its offset every 1 ms: above 4 ns it is the job fault
COUNT_SKEW, and otherwise the count is corrected by that many ticks, to within one (R330, R331, notes/assumptions/39). While the
module has power no command makes the count decrease (R328). -/
def Obligations.CountRows : Prop :=
  (∀ (s : State) (n : Nat), s.boot.phase ≠ .off → s.boot.phase ≠ .starting → s.cnt.corr = 0 →
    ∃ t, exec (.countTick n) s = .next t ∧
      t.cnt.elapsed = s.cnt.elapsed + n ∧ t.cnt.on = true ∧ t.cnt.aligned = s.cnt.aligned ∧ t.cnt.toPort = s.cnt.toPort ∧
      (s.cnt.ahead = 0 → t.cnt.count = s.cnt.count + BitVec.ofNat 64 n) ∧
      (n ≤ s.cnt.ahead → t.cnt.count = s.cnt.count ∧ t.cnt.ahead = s.cnt.ahead - n) ∧
      t = { s with cnt := t.cnt, ports := t.ports } ∧
      ∀ p : PortId, t.ports[p] = { s.ports[p] with creditWait := t.ports[p].creditWait }) ∧
  (∀ (s : State) (m : BitVec 6) (stamp : W64) (delay : Nat) (p : PortId), s.boot.phase ≠ .off → s.cnt.on = true →
    s.cnt.aligned = false → alignPort s m = some p →
    let target := stamp + BitVec.ofNat 64 delay
    (s.cnt.count ≤ target → ∃ t, exec (.countAlign m stamp delay) s = .next t ∧
      t.cnt = { s.cnt with aligned := true, toPort := some p, count := target, corr := 0,
                           corrAt := elapsed s, ahead := 0, measAt := elapsed s } ∧
      t = { s with cnt := t.cnt, boot := { s.boot with bootfail := if s.boot.bootfail = 0x81 then 0 else s.boot.bootfail } }) ∧
    (target < s.cnt.count →
      exec (.countAlign m stamp delay) s = .next { s with cnt := { s.cnt with ahead := s.cnt.count.toNat - target.toNat } })) ∧
  (∀ (s : State) (m : BitVec 6) (stamp : W64) (delay : Nat), s.boot.phase ≠ .off → s.cnt.on = true → s.cnt.aligned = false →
    alignPort s m = none → parentPort s.boot.cfg = none →
    ∃ t, exec (.countAlign m stamp delay) s = .next t ∧ t.cnt = { s.cnt with aligned := true, toPort := none, ahead := 0 }) ∧
  (∀ (s : State) (d : Int), s.cnt.aligned = true → s.cnt.toPort ≠ none →
    (elapsed s < s.cnt.measAt + 1000000 → exec (.countRemeasure d) s = .next s) ∧
    (s.cnt.measAt + 1000000 ≤ elapsed s → 4000 < d.natAbs →
      exec (.countRemeasure d) s = .next (moduleFault { s with cnt := { s.cnt with measAt := elapsed s } } cCountSkew)) ∧
    (s.cnt.measAt + 1000000 ≤ elapsed s → d.natAbs ≤ 4000 → ∃ t, exec (.countRemeasure d) s = .next t ∧
      (0 < d → t.cnt.corr ≤ 0) ∧ (d ≤ 0 → 0 ≤ t.cnt.corr) ∧ 1000 * t.cnt.corr.natAbs < d.natAbs + 1000 ∧
      d.natAbs < 1000 * t.cnt.corr.natAbs + 1000 ∧
      t = { s with cnt := { s.cnt with corr := t.cnt.corr, corrAt := elapsed s, measAt := elapsed s } })) ∧
  ∀ (s t : State) (i : Instr), exec i s = .next t → s.boot.phase ≠ .off → (∀ m, i ≠ .inputDisconnect m) →
    (∀ n, i = .countTick n → now s + 2 * n < 2 ^ 64) → now s ≤ now t

/-- R518: when GREF is absent for more than 1 us after READY, the module holds its count on the internal oscillator and raises the
job fault COUNT_SKEW. -/
def Obligations.ReferenceLoss : Prop :=
  ∀ (s : State) (ns : Nat), s.boot.phase = .ready → 1000 < ns →
    exec (.grefLoss ns) s = .next (moduleFault { s with cnt := { s.cnt with osc := true } } cCountSkew)

/-- STEP_START: at its count an armed step starts in every region of its context, and in no other: each stream issues from its entry
point with x1, x2 and x3 holding the step, the region and the stream, no event is counted, and scalar data memory holds what
LOAD_PROGRAM put there; the context is halted no more (R200, R313, R333, R351, Table 7.1). -/
def Obligations.StepsStart : Prop :=
  ∀ (s : State) (c : CtxId) (l : Launch), s.ctxs[c].launch = some l → l.started = false → isReady s = true → l.due ≤ now s →
    s.power.under = false →
    ∃ t, exec (.stepStart c) s = .next t ∧
      (∀ g : RegionId, s.regions[g].ctx ≠ some c → t.regions[g] = s.regions[g]) ∧
      (∀ (g : RegionId) (i : StreamId), s.regions[g].ctx = some c →
        t.regions[g].streams[i].running = true ∧ t.regions[g].streams[i].pc = s.regions[g].entry[i] ∧
        xRead t.regions[g].streams[i] 1 = BitVec.ofNat 64 l.step ∧ xRead t.regions[g].streams[i] 2 = BitVec.ofNat 64 g.val ∧
        xRead t.regions[g].streams[i] 3 = BitVec.ofNat 64 i.val ∧ t.regions[g].streams[i].seg = none ∧
        t.regions[g].ev = Vector.replicate 64 0 ∧ t.regions[g].sdata = { mem := s.regions[g].sinit, chk := [] } ∧
        t.regions[g].imem = s.regions[g].imem ∧ t.regions[g].scratch = s.regions[g].scratch) ∧
      t.ctxs[c].launch = some { l with started := true, sStep := l.due, wave := Wave.reset l.step } ∧ t.ctxs[c].halt = none ∧
      t.ctxs[c].cairnStep = s.ctxs[c].cairnStep ∧ (∀ d : CtxId, d ≠ c → t.ctxs[d] = s.ctxs[d]) ∧ t.fab.dropping = false ∧
      t = { s with regions := t.regions, ctxs := t.ctxs, fab := t.fab }

/-- STEP_COMPLETE, VOTE, WAVE_TIMEOUT and COMMIT_REFUSED. A module that is step-complete writes its digest records, sends its
replica digests and enters the wave with its own vote; a vote of the phase is combined and one ahead of it kept, and one of another
step is the job fault STEP_MISMATCH; past the wave deadline WAVE_TIMEOUT is raised; a finished wave with OK 0 halts the context at
count K (R343 to R348). -/
def Obligations.CommitWave : Prop :=
  (∀ (s : State) (c : CtxId) (l : Launch), s.ctxs[c].launch = some l → l.started = true → l.wave.tOwn = none → stepMarked s c = true →
    s.hardFault = false → (s.digestSets.find? fun e => e.1 == c) = none →
    let own : Vote := { step := BitVec.ofNat 64 l.step, t := s.cnt.count, digest := updateDigest s.ctxs[c], ok := chrysalisClean s c }
    let u := sendDigestSet (writeRecords s c l.step) c l.step
    let e := enterPhases c 4 u { l.wave with tOwn := some (now s), ownOk := own.ok, acc := own }
    (e.1.digestSets.find? fun e => e.1 == c) = none →
    exec (.stepComplete c) s = .next (setWave e.1 c e.2)) ∧
  (∀ (s : State) (p : PortId) (f : Flit) (l : Launch), accepts s (.port p) f → isCtrl ckVote f.hdr = true →
    let c := hCctx f.hdr
    let m := parseVote p f
    s.ctxs[c].launch = some l → s.hardFault = false →
    (m.vote.step ≠ BitVec.ofNat 64 l.step →
      exec (.vote p f) s = .next (raiseFault (arrived s (.port p) f)
        { cause := cStepMismatch, ctx := some c,
          rcd := { blankRec (arrived s (.port p) f) with ctx := some c, step := BitVec.ofNat 64 l.step } })) ∧
    (m.vote.step = BitVec.ofNat 64 l.step → l.wave.tOwn = none ∨ m.axis.val ≠ l.wave.phase →
      exec (.vote p f) s = .next (setWave (arrived s (.port p) f) c { l.wave with early := l.wave.early ++ [m] })) ∧
    (m.vote.step = BitVec.ofNat 64 l.step → l.wave.tOwn ≠ none → m.axis.val = l.wave.phase → m.hops ≤ 1 →
      l.wave.got + 1 < axisLen s m.axis - 1 →
      exec (.vote p f) s = .next (setWave (arrived s (.port p) f) c
        { l.wave with acc := combineVote l.wave.acc m.vote, got := l.wave.got + 1 }))) ∧
  (∀ (s : State) (c : CtxId) (l : Launch) (n : Nat), s.ctxs[c].launch = some l → l.wave.tOwn = some n → l.wave.phase < 3 →
    exec (.waveTimeout c) s = .next (if n + 1000 * diameter s.boot.cfg + stallNs s ≤ now s then
      raiseFault s { cause := cWaveTimeout, ctx := some c, rcd := { blankRec s with ctx := some c, step := BitVec.ofNat 64 l.step } }
      else s)) ∧
  ∀ (s : State) (c : CtxId) (l : Launch) (w : Wave), finishedWave s c = some (l, w) → w.acc.ok = false → w.ownOk = true →
    waveBound s w ≤ now s → s.hardFault = false →
    let a : AbortInfo := { cause := cCommitRefused, origin := ownCoords s, acount := waveBound s w, astep := BitVec.ofNat 64 l.step,
                           all := false, own := false, hard := false, seq := none, lost := 0 }
    exec (.commitRefused c) s = .next (sendFault (noteHalt (haltCtx s c) c a) c a)

/-- FLIP: at count F of a finished wave with OK 1, the step's Chrysalis becomes the Cairn of the context's versioned pages and of
the mirror held here, the prior is valid, and COMMIT is sent (R335, R346). The launch goes on to its next step at F + 1000 D + 2000
(R354); after its last step it is over; and in a context that an ABORT of the next step has left waiting, the halt follows (R352).
Before F, and while the wave is not finished or has OK 0, nothing flips. -/
def Obligations.StepsFlip : Prop :=
  (∀ (s : State) (c : CtxId) (l : Launch) (w : Wave), finishedWave s c = some (l, w) → w.acc.ok = true → flipCount s w ≤ now s →
    s.hardFault = false →
    ∃ t, exec (.flip c) s = .next t ∧ t.ctxs[c].cairnStep = BitVec.ofNat 64 l.step ∧ t.ctxs[c].priorValid = true ∧
      t.hbm.mirrorStep[c] = BitVec.ofNat 64 l.step ∧ (∀ d : CtxId, d ≠ c → t.ctxs[d] = s.ctxs[d]) ∧
      (∀ g : RegionId, s.regions[g].ctx ≠ some c → t.regions[g] = s.regions[g]) ∧
      (s.ctxs[c].waits = [] → l.step + 1 < l.s0 + l.n → t.hbm = flipHbm s.hbm c (BitVec.ofNat 64 l.step) ∧
        (∃ n, t.ctxs[c].launch = some n ∧ n.step = l.step + 1 ∧ n.started = false ∧
          n.due = flipCount s w + 1000 * diameter s.boot.cfg + 2000 ∧ n.tag = l.tag ∧ n.lastFlip = some l.step) ∧
        t = { s with hbm := t.hbm, ctxs := t.ctxs, host := t.host }) ∧
      (s.ctxs[c].waits = [] → l.s0 + l.n ≤ l.step + 1 → t.hbm = flipHbm s.hbm c (BitVec.ofNat 64 l.step) ∧
        t.ctxs[c].launch = none ∧ t.ctxs[c].halt = s.ctxs[c].halt ∧
        t = { s with hbm := t.hbm, ctxs := t.ctxs, host := t.host, power := t.power }) ∧
      (s.ctxs[c].waits ≠ [] → t.hbm = discardChrysalis (flipHbm s.hbm c (BitVec.ofNat 64 l.step)) c ∧
        t.ctxs[c].launch = none ∧ t.ctxs[c].halt.isSome = true ∧ t.ctxs[c].waits = [] ∧
        ∀ (g : RegionId) (i : StreamId), s.regions[g].ctx = some c → t.regions[g].streams[i].running = false)) ∧
  ∀ (s : State) (c : CtxId),
    (finishedWave s c = none ∨ (∃ l w, finishedWave s c = some (l, w) ∧ (w.acc.ok = false ∨ now s < flipCount s w))) →
    exec (.flip c) s = .next s

/-- ABORT_RECEIVE: an ABORT whose key has been seen within 1 ms does nothing more; a new one is noted, forwarded on every other
trained port, and acted on, but in HARD_FAULT only forwarded; one of the step after the running one waits for the flip.
LOST_FAULTS_REPORT: 1 ms after the last ABORT beyond the sixteenth, one FAULT message carries the count of lost faults, once (R350 to
R352, R412). -/
def Obligations.AbortsSpread : Prop :=
  (∀ (s : State) (p : PortId) (f : Flit), accepts s (.port p) f → isCtrl ckAbort f.hdr = true →
    let c := hCctx f.hdr
    let a := parseAbort f
    let u := arrived s (.port p) f
    (seenAbort u a c = true → exec (.abortReceive p f) s = .next u) ∧
    (seenAbort u a c = false →
      let v := floodAbort (noteSeen u a.origin a.acount c) ((trainedPorts u).filter (· != p)) c a
      exec (.abortReceive p f) s = .next (if s.hardFault then v else abortAll v c a) ∧
      ∀ l, s.ctxs[c].launch = some l → l.started = true → a.astep = BitVec.ofNat 64 (l.step + 1) → a.all = false →
        s.hardFault = false → exec (.abortReceive p f) s = .next (updCtx v c fun x => { x with waits := x.waits ++ [a] }))) ∧
  ∀ (s : State) (c : CtxId) (h : Halt), s.ctxs[c].halt = some h → h.lost ≠ 0 → h.reported = false → h.lastAt + 1000000 ≤ now s →
    ∃ t, exec (.lostFaultsReport c) s = .next t ∧ t.ctxs = s.ctxs.set c { s.ctxs[c] with halt := some { h with reported := true } } ∧
      t = sendFault (updCtx s c fun x => { x with halt := some { h with reported := true } }) c
        { cause := h.lastCause, origin := h.lastOrigin, acount := h.lastCount, astep := BitVec.ofNat 64 h.lastStep, all := h.lastAll,
          own := false, hard := false, seq := none, lost := h.lost }

/-- A job fault of a context that runs halts it: none of its regions issues any more, what their engines had in hand is abandoned,
every outstanding tag is free again, the launch is over and the Cairn stays; one record is made, and regions of other contexts go on
(R311, R349, R351, R405). -/
def Obligations.FaultHaltsItsContext : Prop :=
  ∀ (s : State) (f : FaultInfo) (c : CtxId),
    f.ctx = some c → busy s c = true → s.ctxs[c].halt = none → s.hardFault = false → restoringNow s = false →
    let t := raiseFault s f
    t.ctxs[c].launch = none ∧ t.ctxs[c].halt.isSome = true ∧ t.ctxs[c].cairnStep = s.ctxs[c].cairnStep ∧ t.fab.txns = [] ∧
      t.fab.dropping = true ∧ t.hardFault = false ∧ t.scree.next = s.scree.next + 1 ∧
      (∀ g : RegionId, s.regions[g].ctx = some c →
        (∀ i : StreamId, t.regions[g].streams[i].running = false) ∧ t.regions[g].mq = [] ∧ t.regions[g].mrun = none ∧
        (∀ k : ClusterId, t.regions[g].clusters[k].passQ = [] ∧ t.regions[g].clusters[k].vq = [] ∧
          t.regions[g].clusters[k].vrun = none) ∧
        ∀ k : ChanId, t.regions[g].chans[k] = Channel.reset) ∧
      ∀ g : RegionId, s.regions[g].ctx ≠ some c → t.regions[g] = s.regions[g]

/-! ## Timing, integrity and pages -/

/-- RECALIBRATION puts the domain's new beat time in place of the old one; a ring that gives none, or a beat time above 0.660 ns, is
the job fault BEAT_LIMIT, and one slower than what runs was admitted at the job fault MONITOR_DRIFT. RAIL_FLOOR below 690 mV for more
than 1 us is the job fault RAIL_FLOOR (R359, R362, R363, R365). -/
def Obligations.MonitorsAndRails : Prop :=
  (∀ (s : State) (d : Fin 363) (m : DomainMeas), s.boot.phase = .ready → domainOn s d.val = true →
    exec (.recalibration d m) s = .next (match worstBeat s.boot.cfg.alpha d.val m epsRunning with
      | none => domainFault s d.val cBeatLimit
      | some tw =>
        let u : State := { s with boot := { s.boot with tw := s.boot.tw.set d.val tw } }
        let v := if tw ≤ 660 then u else domainFault u d.val cBeatLimit
        if drifted s d.val tw then domainFault v d.val cMonitorDrift else v)) ∧
  ∀ (s : State) (d : DieId) (mv ns : Nat), running s = true →
    exec (.railFloor d mv ns) s = .next (if mv < 690 ∧ 1000 < ns then
      raiseFault s { cause := cRailFloor, ctx := none, rcd := { blankRec s with die := BitVec.ofNat 8 d.val } } else s)

/-- SRAM_WRITE_BACK and HBM_WRITE_BACK write the oldest corrected word back, valid, unless a write has come first; POISON_SCAN
clears PSN of the T1 pages of a frame in which no word is poisoned any more, and of no other page (R382, R386, R390). MOTH_HBM_READ
and MOTH_SRAM_READ: each walk goes on by one word or slice, over the same words again and again; where no bit has been inverted and
the word is sound, nothing else changes (R393, R394). COALESCE_WINDOW_CLOSE: 1 ms after a CORRECTED record its window closes; a
record that has coalesced is sent again, and any other is not (R406). -/
def Obligations.StoresAreScrubbed : Prop :=
  ((∀ (s : State) (g : RegionId) (st : Store) (w : Nat) (rest : List (Store × Nat)), s.regions[g].writeBacks = (st, w) :: rest →
    exec (.sramWriteBack g) s = .next (updRegion s g fun r => setSram { r with writeBacks := rest } st
      (match sramCheck (sramOf r st) w with
       | (some (.fixed _), d) => sramPutWord (sramOf r st) w d
       | _ => sramOf r st))) ∧
  (∀ (s : State) (w : Nat) (rest : List Nat), s.hbm.writeBacks = w :: rest →
    exec .hbmWriteBack s = .next (updHbm s fun h =>
      match hbmCheck h w with
      | (some (.fixed _), d) => hbmPutWord { h with writeBacks := rest } w d
      | _ => { h with writeBacks := rest })) ∧
  ∀ (s : State) (frame : Nat), ∃ t, exec (.poisonScan frame) s = .next t ∧ t = { s with hbm := t.hbm } ∧
    t.hbm = { s.hbm with resids := t.hbm.resids, mem := t.hbm.mem, mdata := t.hbm.mdata, writeBacks := t.hbm.writeBacks } ∧
    t.hbm.resids = s.hbm.resids.map fun r =>
      if r.loc.tier = .t1 ∧ (r.loc.frame = frame ∨ (r.ver = true ∧ r.loc.frame + 1 = frame)) ∧
          framePoisoned s.hbm r.loc.frame = false ∧ (r.ver = true → framePoisoned s.hbm (r.loc.frame + 1) = false)
        then { r with psn := false } else r) ∧
  ((∀ (s : State) (d : DieId), s.boot.phase = .ready → ovGet s.hbm.mdata (d.val * dieWords + s.hbm.mothPos[d]) = none →
    exec (.mothHbmRead d 0 0) s = .next (updHbm s fun h => { h with mothPos := h.mothPos.set d ((s.hbm.mothPos[d] + 1) % dieWords) })) ∧
  (∀ (s : State) (g : RegionId), s.boot.phase = .ready → enabled s g = true → s.regions[g].scratch.chk = [] →
    s.regions[g].imem.chk = [] → s.regions[g].sdata.chk = [] →
    exec (.mothSramRead g 0 0) s = .next (updRegion s g fun r => { r with mothPos := (s.regions[g].mothPos + 1) % mothSlices })) ∧
  ∀ (s : State) (seq : BitVec 16) (r : Rec), s.scree.windows.contains seq = true →
    s.scree.slots.find? (fun e => match e with | some r => r.cls == clCorrected && r.seq == seq | none => false) = some (some r) →
    let shut : State := { s with scree := { s.scree with windows := s.scree.windows.filter (· != seq) } }
    (r.stamp.toNat + 1000000 ≤ now s → r.coalesced = false → exec (.coalesceWindowClose seq) s = .next shut) ∧
    (r.stamp.toNat + 1000000 ≤ now s → r.coalesced = true → exec (.coalesceWindowClose seq) s = .next (sendRec shut r)) ∧
    (now s < r.stamp.toNat + 1000000 → exec (.coalesceWindowClose seq) s = .next s))

/-- MIGRATION_COMPLETE: when the last stripe is copied and no access to the old frames is under way, the page lies in its new place
for every context that maps it, it migrates no more, no translation cache holds it, and a poisoned word of it is poisoned there too;
the statement takes a page of T3 that comes to T1. PENDING_EVICTION: once its last hold has ended and no context that maps it is
busy, the eviction of a page begins (R268, R270, R271, R389). MIRROR_REBUILD: the Z+ neighbour's request begins the copy of the own
Cairn when the context is not busy, and waits in its buffer until then (R356). -/
def Obligations.PagesMove : Prop :=
  (∀ (s : State) (id : Nat) (r : Resid) (m : Mig), residById s.hbm id = some r → r.mig = some m → s.hardFault = false →
    r.loc.tier = .t3 → m.dst.tier = .t1 →
    (accessed s id = true → exec (.migrationComplete id) s = .next s) ∧
    (accessed s id = false → ∃ t, exec (.migrationComplete id) s = .next t ∧
      residById t.hbm id = some { r with loc := m.dst, mig := none, psn := !(residBad s r).isEmpty } ∧ t.ctxs = s.ctxs ∧
      (∀ (g : RegionId) (c : CtxId) (p : Nat), s.regions[g].ctx = some c → (p, id) ∈ s.ctxs[c].pages →
        ∀ v, (p, v) ∉ t.regions[g].tcache) ∧
      t = { s with hbm := t.hbm, regions := t.regions })) ∧
  (∀ (s : State) (id : Nat) (r : Resid) (dst : Loc), residById s.hbm id = some r → r.evicting = some dst → s.hardFault = false →
    pageBusy s = false → r.holds = 0 → (mappers s id).all (fun c => !busy s c) = true →
    exec (.pendingEviction id) s = .next (startMig (updHbm s fun h => updResid h id fun q => { q with evicting := none }) id dst)) ∧
  ∀ (s : State) (f : Flit), accepts s (.port 4) f → isCtrl ckRebuild f.hdr = true →
    let c := hCctx f.hdr
    (s.hbm.rebuild[c]).isSome = false → s.ports[(4 : PortId)].held[(7 : VcId)].contains f = false → s.hardFault = false →
    (busy s c = true → exec (.mirrorRebuild 4 f) s = .next (updPort (acceptFlit s (.port 4)) 4 fun q =>
      { q with held := q.held.set (7 : VcId) (q.held[(7 : VcId)] ++ [f]) })) ∧
    (busy s c = false → exec (.mirrorRebuild 4 f) s = .next (startRebuild (giveCredit (acceptFlit s (.port 4)) (.port 4) 7) c))

/-! ## Host commands -/

/-- What acceptance and rejection change: HEAD of the ring goes on by one, CMD_ACCEPT or CMD_REJECT is queued, and an accepted
command is under way; no other ring and nothing outside the rings changes. A deadline that cannot be met is rejected with DEADLINE
(R373, R438, R447, R448). -/
def Obligations.AcceptanceAndRejection : Prop :=
  (∀ (s : State) (c : CtxId) (d : Desc) (n : Nat),
    (taken s c d n).host.rings[c].head = s.host.rings[c].head + 1 ∧
    (taken s c d n).host.rings[c].cmds = s.host.rings[c].cmds ++ [cmdOf d] ∧
    (∀ e : CtxId, e ≠ c → (taken s c d n).host.rings[e] = s.host.rings[e]) ∧
    taken s c d n = { s with host := { s.host with rings := (taken s c d n).host.rings } }) ∧
  (∀ (s : State) (c : CtxId) (d : Desc) (code : Reject) (i : Nat),
    (reject s c d code i).host.rings[c].head = s.host.rings[c].head + 1 ∧
    (reject s c d code i).host.rings[c].cmds = s.host.rings[c].cmds ∧
    (s.host.rings[c].msgs.length < 256 → ∃ m, (reject s c d code i).host.rings[c].msgs = s.host.rings[c].msgs ++ [m] ∧
      m.type = mtReject ∧ m.tag = dTag d ∧ m.gen = dGen d ∧ sliceNat m.payload 2 2 = code.toNat) ∧
    (∀ e : CtxId, e ≠ c → (reject s c d code i).host.rings[e] = s.host.rings[e]) ∧
    reject s c d code i = { s with host := { s.host with rings := (reject s c d code i).host.rings } }) ∧
  (∀ (s : State) (c : CtxId) (d : Desc) (i : Instr), headDesc s c = some d → reservedOk d = true → dNat d 2 1 = c.val →
    s.hardFault = false → (dOpc d = opCFG ∨ dOpc d = opTEST ∨ dOpc d = opDEBUG ∨ dOpc d = opOWNER) → s.presence.isOpen = false →
    ((∃ l ok, i = .cfgWrite c l ok ∧ dOpc d = opCFG) ∨ (∃ l ok, i = .ownerEnrol c l ok ∧ dOpc d = opOWNER) ∨
      (i = .debugEnable c ∧ dOpc d = opDEBUG) ∨ (i = .testModeEnable c ∧ dOpc d = opTEST ∧ dNat d 24 1 = 1) ∨
      (i = .testModeDisable c ∧ dOpc d = opTEST ∧ dNat d 24 1 = 0)) →
    exec i s = .next (reject s c d rjPresence 0)) ∧
  ∀ (s : State) (c : CtxId) (d : Desc), offered s c opOPEN d → s.ctxs[c].opened = false → ¬inTime s d 50000 →
    exec (.openCtx c) s = .next (reject s c d rjDeadline 0)

/-- OPEN, CLOSE, SET_SEEDS, ABORT, ROLLBACK, DEBUG_ENABLE, TEST_MODE and ACK_ERROR, accepted: the context is open afresh; it is
closed, with its pages unmapped and its regions free; its seeds are those of the descriptor; the job fault HOST_ABORT is raised; the
Cairn goes one step back; debug is enabled; checker test mode begins at the region and frame named, or ends; the record with that
SEQ is acknowledged (R266, R349, R355, R399, R402, R408, R416, R441, R461). -/
def Obligations.ContextCommands : Prop :=
  ∀ (s : State) (c : CtxId) (d : Desc),
    (offered s c opOPEN d → s.ctxs[c].opened = false → inTime s d 50000 →
      exec (.openCtx c) s = .next (updCtx (taken s c d 50000) c fun _ => { Ctx.reset with opened := true })) ∧
    (offered s c opCLOSE d → s.ctxs[c].opened = true → busy s c = false → s.ctxs[c].pages = [] → pageBusy s = false → s.pageQ = [] →
      inTime s d 1000000 →
      ∃ t, exec (.closeCtx c) s = .next t ∧ t.ctxs[c] = Ctx.reset ∧ (∀ g : RegionId, t.regions[g].ctx ≠ some c) ∧
        (∀ g : RegionId, s.regions[g].ctx ≠ some c → t.regions[g] = s.regions[g]) ∧
        t.host = (taken s c d 1000000).host) ∧
    (offered s c opSEEDS d → s.ctxs[c].opened = true → busy s c = false → inTime s d 50000 →
      exec (.setSeeds c) s = .next (updCtx (taken s c d 50000) c fun x =>
        { x with js := d.extractLsb' 192 128, ds := d.extractLsb' 320 128 })) ∧
    (offered s c opABORT d → dNat d 24 1 = 0 → inTime s d 50000 →
      exec (.abort c) s = .next (raiseFault (taken s c d 50000)
        { cause := cHostAbort, ctx := some c,
          rcd := { blankRec (taken s c d 50000) with ctx := some c, step := BitVec.ofNat 64 ((curStep s c).getD 0) } })) ∧
    (offered s c opABORT d → dNat d 24 1 = 1 → inTime s d 50000 →
      exec (.abort c) s = .next (raiseFault (taken s c d 50000)
        { cause := cHostAbort, ctx := none,
          rcd := { blankRec (taken s c d 50000) with ctx := none, step := BitVec.ofNat 64 ((curStep s c).getD 0) } })) ∧
    (offered s c opROLLBACK d → s.ctxs[c].opened = true → busy s c = false → s.ctxs[c].priorValid = true → inTime s d 1000000 →
      ∃ t, exec (.rollback c) s = .next t ∧ t = rollbackEffect c (taken s c d 1000000) ∧
        t.ctxs[c].cairnStep = s.ctxs[c].cairnStep - 1 ∧ t.ctxs[c].priorValid = false ∧ t.hbm.mem = s.hbm.mem) ∧
    (offered s c opDEBUG d → anyBusy s = false → inTime s d 1000000 →
      exec (.debugEnable c) s = .next { taken s c d 1000000 with debug := true }) ∧
    (offered s c opTEST d → dNat d 24 1 = 1 → anyBusy s = false → frameTaken s (tmFrame d) = false → s.test = none →
      inTime s d 1000000 →
      ∃ t, exec (.testModeEnable c) s = .next t ∧ t.test = some { region := tmRegion d, frame := tmFrame d } ∧ t.hbm = s.hbm ∧
        t.regions = s.regions) ∧
    (offered s c opTEST d → dNat d 24 1 = 0 → anyBusy s = false → inTime s d 1000000 →
      ∃ t, exec (.testModeDisable c) s = .next t ∧ t = endTest (taken s c d 1000000) ∧ t.test = none) ∧
    (offered s c opACK d → s.scree.slots.any (ackable (d.extractLsb' 192 16)) = true → inTime s d 50000 →
      ∃ t, exec (.ackError c) s = .next t ∧
        (∀ (i : Nat) (r : Rec), s.scree.slots[i]? = some (some r) →
          t.scree.slots[i]? = some (some (if r.acked = false ∧ r.seq = d.extractLsb' 192 16 then { r with acked := true } else r))) ∧
        t.scree.next = s.scree.next ∧ t.scree.lost = s.scree.lost ∧ t = { taken s c d 50000 with scree := t.scree })

/-- QUERY and ATTEST, accepted, write their result to HADDR in host memory: the context's state, the 128 slots of the Scree, the
leaf entry of a page, a halted stream's registers, or the signed report. CMD_DONE and ATTESTATION follow when the command completes;
a command that still waits for something does not. A CFG_WRITE that has written its image programs the slot's record last of all,
with the stamp after that of the booted slot (R407, R433, R447, R461, R463, R473). -/
def Obligations.QueriesAndCompletion : Prop :=
  (∀ (s : State) (c : CtxId) (d : Desc) (n : Nat),
    let u (k : Nat) := accept s c d (now s + n) 0 { cmdOf d with count := BitVec.ofNat 32 (queryBytes k) }
    (offered s c opQUERY d → dNat d 24 1 = 0 → smallBound s (queryBytes 0) = some n → inTime s d n →
      exec (.queryContext c) s = .next (hostWrite (u 0) (dNat d 32 8) (padTo (queryBytes 0) (contextBytes (u 0) c)))) ∧
    (offered s c opQUERY d → dNat d 24 1 = 1 → smallBound s (queryBytes 1) = some n → inTime s d n →
      ∃ l, l.length = queryBytes 1 ∧ exec (.queryScree c) s = .next (hostWrite (u 1) (dNat d 32 8) l) ∧
        ∀ (i : Nat) (r : Rec), s.scree.slots.length = 128 → s.scree.slots[i]? = some (some r) →
          sliceBytes l (64 * i) 64 = recBytes r) ∧
    (offered s c opQUERY d → dNat d 24 1 = 2 → smallBound s (queryBytes 2) = some n → inTime s d n →
      exec (.queryPage c) s = .next (hostWrite (u 2) (dNat d 32 8) (padTo (queryBytes 2) (pageBytes (u 2) c (dNat d 40 8))))) ∧
    (∀ (g : RegionId) (i : StreamId), offered s c opQUERY d → dNat d 24 1 = 3 → smallBound s (queryBytes 3) = some n → inTime s d n →
      s.debug = true → debugWhat s d = some (g, i) → s.regions[g].ctx = none →
      exec (.queryDebug c) s = .next (hostWrite (u 3) (dNat d 32 8)
        (padTo (queryBytes 3) ((List.range 320).map (Config.debugByte (snapNats s.regions[g].streams[i].snap)))))) ∧
    (offered s c opATTEST d → cmdRate s ≠ 0 → inTime s d 20000000 →
      let v := accept s c d (now s + 20000000) 0 { cmdOf d with haddr := dNat d 56 8 }
      exec (.attest c) s = .next (hostWrite v (dNat d 56 8) (attestReport v (leBytes 32 (dNat d 24 32)))))) ∧
  ∀ (s : State) (c : CtxId) (k : CmdRun), s.host.rings[c].cmds = [k] → k.opc.toNat ≠ opARM → k.opc.toNat ≠ opRESTORE →
    cmdReady s c k = true →
    let u := updRing s c fun r => { r with cmds := [] }
    exec (.commandCompletion c k.tag k.gen) s = .next (sayDone (if k.opc.toNat = opCFG ∧ k.status = stDone then
      { u with flash := flashRecord s.flash (!s.boot.slotB) k.len (slotStamp s.flash s.boot.slotB + 1) } else u) c k)

/-- LOAD_PROGRAM and ARM_LAUNCH, accepted: the program of the image stands in exactly the regions of REGMASK, and in no other of the
context; the launch is armed to start its first step at A, with its promise in CMD_ACCEPT. MEM_READ, MEM_WRITE, CFG_WRITE,
OWNER_ENROL and RESTORE_FROM_BUDDY, accepted, do what their rules say of the bytes at HADDR (R332, R333, R356, R372, R383, R443 to
R445, R459, R465). The number in MIRROR_REBUILD, and that a restore that finds a rebuild open sends no second request, are the model's
reading (notes/assumptions/71). -/
def Obligations.ProgramAndDataCommands : Prop :=
  ∀ (s : State) (c : CtxId) (d : Desc),
    (∀ image n m, offered s c opLOAD d → loadReject s c image d = none → parseImage image (dNat d 32 4) = some m →
      (moveTime (dNat d 32 4) (cmdRate s) 1).map (1000000 + ·) = some n → inTime s d n →
      ∃ t, exec (.loadProgram c image) s = .next t ∧
        (∀ g : RegionId, lpMask d g = true → t.regions[g].ctx = some c ∧ t.regions[g].damaged = false ∧
          t.regions[g].imem.chk = [] ∧ t.regions[g].imem.mem = memOfBytes
            (sliceBytes image (sliceNat image (m.regtab + 32 * g.val) 8) (sliceNat image (m.regtab + 32 * g.val + 8) 4))) ∧
        (∀ g : RegionId, lpMask d g = false → t.regions[g].ctx ≠ some c ∧
          t.regions[g] = { s.regions[g] with ctx := t.regions[g].ctx }) ∧
        t.host = (taken s c d n).host) ∧
    (∀ (u promise : Nat), offered s c opARM d → armReject s c d = none → u = stepBound s c → promise = promiseOf s (alA d) (alN d) u →
      (dDeadline d = noDeadline ∨ promise ≤ dDeadline d) →
      ∃ t, exec (.armLaunch c) s = .next t ∧
        (∃ l, t.ctxs[c].launch = some l ∧ l.a = alA d ∧ l.s0 = alS0 d ∧ l.n = alN d ∧ l.step = alS0 d ∧ l.started = false ∧
          l.due = alA d ∧ l.promise = promise ∧ l.tag = dTag d ∧ l.gen = dGen d) ∧
        t.ctxs[c].lastPromise = BitVec.ofNat 64 promise ∧ t.ctxs[c].fresh = false ∧
        (∀ e : CtxId, e ≠ c → t.ctxs[e] = s.ctxs[e]) ∧
        (∀ g : RegionId, s.regions[g].ctx = some c → t.regions[g] = { s.regions[g] with tadm := some (admBeat s g) }) ∧
        (∀ g : RegionId, s.regions[g].ctx ≠ some c → t.regions[g] = s.regions[g]) ∧
        t.host = (accept s c d promise u (cmdOf d)).host) ∧
    (∀ n, offered s c opREAD d → memReject s c d false = none → memBound s c d = some n → inTime s d n →
      exec (.memRead c) s = .next (memReadEffect c d
        (accept s c d (now s + n) 0 { cmdOf d with haddr := mcHost d, caddr := mcAddr d, len := mcLen d }))) ∧
    (∀ data n, offered s c opWRITE d → memReject s c d true = none → memBound s c d = some n → inTime s d n →
      exec (.memWrite c data) s = .next (memWriteEffect c data d
        (accept s c d (now s + n) 0 { cmdOf d with haddr := mcHost d, caddr := mcAddr d, len := mcLen d }))) ∧
    (∀ image, offered s c opCFG d → anyBusy s = false → inTime s d (1000000000 + ceilDiv (4000000000 * dNat d 32 4) 1048576) →
      image.length = dNat d 32 4 → imageReason s.fuses s.boot.ownerK s.boot.ownerP image (dNat d 32 4) = none →
      let u := accept s c d (now s + (1000000000 + ceilDiv (4000000000 * dNat d 32 4) 1048576)) 0 { cmdOf d with len := dNat d 32 4 }
      exec (.cfgWrite c image true) s = .next { u with flash := flashImage s.flash (!s.boot.slotB) image }) ∧
    (∀ record, offered s c opOWNER d → anyBusy s = false → inTime s d 10000000000 → enrolOk s.boot.ownerK record = true →
      ∃ t, exec (.ownerEnrol c record true) s = .next t ∧ t.boot.ownerK = keyOf (sliceBytes record 0 57) ∧
        t.boot.ownerP = s.boot.ownerK ∧ t.flash.main = s.flash.main ∧
        t.flash.sec = s.flash.sec.set (2 + (enrolCopy s.flash).1)
          (secHolding (ownerBlock (enrolCopy s.flash).2 (sliceBytes record 0 57) (s.boot.ownerK.getD [])))) ∧
    (∀ held, offered s c opRESTORE d → restoreReject s c held = none → inTime s d (ceilDiv (cairnBytes s c) 750 + 1000000) →
      let u := taken s c d (ceilDiv (cairnBytes s c) 750 + 1000000)
      let r : Restore := { step := (held.map (·.2)).getD 0, got := 0, own := false, left := expectPages u c * frameBytes }
      u.restoring[c] = none →
      exec (.restoreFromBuddy c held) s = .next
        (pumpRestore (sendCtrl { u with restoring := u.restoring.set c (some r) } 5 (ctrlMid ckRebuild c false 0) (ctrlLow 0)
          (leBytes 8 (expectPages u c))) c)) ∧
    (∀ held r, offered s c opRESTORE d → restoreReject s c held = none → inTime s d (ceilDiv (cairnBytes s c) 750 + 1000000) →
      let u := taken s c d (ceilDiv (cairnBytes s c) 750 + 1000000)
      u.restoring[c] = some r →
      exec (.restoreFromBuddy c held) s = .next (pumpRestore { u with
        restoring := u.restoring.set c (some { step := (held.map (·.2)).getD 0, got := 0, own := false, left := r.left }) } c))

/-- MEM_MAP's operations, when no lender is asked: MAP, UNMAP, SHARE, PROMOTE, RELEASE and EVICT, accepted, have their effect on the
pages of the context, with what migrates noted in the command; the operations for which a lender or the buddy is asked wait for its
answer (R257, R261, R263 to R271, Table 9.6). The effect of the page operations on the context's pages: after RELEASE the context
holds none of the pages named; after MAP of one page to T3, that page of the context lies in the pool frame named, and no other page
of the context has changed (R265, R266, Table 9.6). -/
def Obligations.PageCommands : Prop :=
  (∀ (s : State) (c : CtxId) (d : Desc) (op : Nat) (i : Instr),
    ((op = 0 ∧ i = .map c) ∨ (op = 1 ∧ i = .unmap c) ∨ (op = 2 ∧ i = .share c) ∨ (op = 3 ∧ i = .promote c) ∨
      (op = 4 ∧ i = .release c) ∨ (op = 5 ∧ i = .evict c)) →
    offered s c opMAP d → mmOp d = op → s.hardFault = false → pageBusy s = false → s.pageQ = [] →
    (s.host.rings[c].lend).isSome = false → (mapPre s c d).isNone = true →
    (∀ n t migs k, lendNeed s c d = none → (mapPost s c d).isNone = true → mapBound s c d = some n → inTime s d n →
      mapEffect (taken s c d n) c d [] = some (t, migs, k) →
      exec i s = .next (updCmd t c (dTag d) (dGen d) fun q =>
        { q with migs := migs, count := BitVec.ofNat 32 k, status := if 0 < k then stDeferred else stDone })) ∧
    (∀ e, lendNeed s c d = some e → (e.2.2.1 = .lend false → neighbourOk s d = true) → exec i s = .next (askLender s c d e))) ∧
  ((∀ (s : State) (c : CtxId) (d : Desc) (p : Nat) (r : Resid), p ∈ mmPages d → residAt (applyRelease s c d) c p = some r →
    r.holds.getLsbD c.val = false) ∧
  ∀ (s t : State) (c : CtxId) (d : Desc), mmTier d = .t3 → mmCount d = 1 → residAt s c (mmFirst d) = none →
    (∀ e ∈ s.ctxs[c].pages, e.1 ≠ mmFirst d) → (∀ r ∈ s.hbm.resids, r.id < s.hbm.nextId) →
    applyMap s c d [] = some t →
    (∃ r, residAt t c (mmFirst d) = some r ∧ r.loc.tier = .t3 ∧ r.loc.frame = mmPool d 0 ∧ r.owner = c ∧ r.ver = false) ∧
      ∀ p, p ≠ mmFirst d → ovGet t.ctxs[c].pages p = ovGet s.ctxs[c].pages p)

/-! ## The host's registers, rings and memory -/

/-- DOORBELL, REGISTER_WRITE, GCOUNT_LATCH_READ, MDROP_READ and RING_ENABLE: TAIL moves when it is within 1,024 of HEAD, and else
stays and sets DB_OVERRUN; a write sets the fields of one register or clears the bits of ERRSUM that it names; the low word of
GCOUNT latches the high one; MDROP is cleared as it is read; and a ring that is enabled starts its numbering afresh, with READY
first (R10, R436, R438, R449, R452). -/
def Obligations.HostRegisters : Prop :=
  (∀ (s : State) (c : CtxId) (v : W32) (l : List (BitVec 1024)), hostUp s = true →
    let w := updRing s c fun r => { r with slots := putSlots r.slots r.tail.toNat (l.take 1024) }
    let tail : BitVec 11 := v.extractLsb' 0 11
    exec (.doorbell c v l) s = .next (if (tail - s.host.rings[c].head).toNat ≤ 1024 then updRing w c fun r => { r with tail := tail }
      else { w with host := { w.host with dbOverrun := true } })) ∧
  (∀ (s : State) (v : W64), hostUp s = true →
    exec (.registerWrite 0x48 true v) s = .next { s with host := { s.host with tlmbase := v &&& ~~~0x1FFE } } ∧
    exec (.registerWrite 0x50 false v) s = .next { s with host := { s.host with msimod := v.setWidth 32 &&& 0xFFFF } } ∧
    (∃ t, exec (.registerWrite 0x30 false v) s = .next t ∧ t = { s with host := t.host } ∧
      t.host.dbOverrun = (s.host.dbOverrun && !v.getLsbD 3) ∧ t.host.hdmDenied = (s.host.hdmDenied && !v.getLsbD 2) ∧
      t.host = { s.host with
        dbOverrun := t.host.dbOverrun, hdmDenied := t.host.hdmDenied, nestedSeen := s.host.nestedSeen && !v.getLsbD 1,
        uncorrSeen := s.host.uncorrSeen && !v.getLsbD 0 }) ∧
    ∀ c : CtxId,
      exec (.registerWrite (BitVec.ofNat 16 (0x118 + 0x40 * c.val)) false v) s =
        .next (updRing s c fun r => { r with mrhead := v.setWidth 32 }) ∧
      exec (.registerWrite (BitVec.ofNat 16 (0x110 + 0x40 * c.val)) false v) s =
        .next (updRing s c fun r => if r.en then r else { r with mrsize := v.setWidth 5 }) ∧
      exec (.registerWrite (BitVec.ofNat 16 (0x108 + 0x40 * c.val)) true v) s =
        .next (updRing s c fun r => if r.en then r else { r with mrbase := v &&& ~~~0xFFF })) ∧
  (∀ s : State, hostUp s = true →
    exec (.gcountLatchRead false) s = .next { s with host :=
      { s.host with rdata := s.cnt.count &&& 0xFFFFFFFF, latch := s.cnt.count.extractLsb' 32 32 } } ∧
    exec (.gcountLatchRead true) s = .next { s with host := { s.host with rdata := s.host.latch.setWidth 64 } }) ∧
  (∀ (s : State) (c : CtxId), hostUp s = true → ∃ t, exec (.mdropRead c) s = .next t ∧
    t.host.rdata = s.host.rings[c].mdrop.setWidth 64 ∧ t.host.rings[c].mdrop = 0 ∧
    t = { s with host := { s.host with
      rdata := t.host.rdata, rings := s.host.rings.set c { s.host.rings[c] with mdrop := 0 } } }) ∧
  ∀ (s : State) (c : CtxId) (v : W32), hostUp s = true →
    ∃ t, exec (.ringEnable c v) s = .next t ∧ t.host.rings[c].en = v.getLsbD 8 ∧ t.host.rings[c].vec = v.extractLsb' 0 3 ∧
      (v.getLsbD 8 = true → s.host.rings[c].en = false → t.host.rings[c].k = 0 ∧
        (isReady s = true → s.host.rings[c].msgs.length < 256 →
          ∃ m, t.host.rings[c].msgs = m :: s.host.rings[c].msgs ∧ m.type = mtReady ∧ m.stamp = s.cnt.count)) ∧
      (v.getLsbD 8 = false ∨ s.host.rings[c].en = true → t.host.rings[c].k = s.host.rings[c].k ∧
        t.host.rings[c].msgs = s.host.rings[c].msgs) ∧
      (∀ d : CtxId, d ≠ c → t.host.rings[d] = s.host.rings[d]) ∧ t = { s with host := { s.host with rings := t.host.rings } }

/-- MESSAGE_WRITE, MSIX_SEND and TELEMETRY: the oldest message of an enabled ring with room goes into the next slot of the ring in
host memory, and its vector's MSI-X message is due; that is sent no sooner than GAP after the vector's last; and every 100 ms a
block is written to the two halves at BASE in turn, TELEMETRY is queued to the enabled rings, and the interval's counters start
again (R449, R451, R455). -/
def Obligations.MessagesAndTelemetry : Prop :=
  (∀ (s : State) (c : CtxId) (m : Msg) (rest : List Msg), hostUp s = true →
    let r := s.host.rings[c]
    r.en = true → r.msgs = m :: rest → m.payload.length ≤ 48 → (r.mrtail - r.mrhead).toNat < ringSize r →
    ∃ t, exec (.messageWrite c) s = .next t ∧
      t.hostMem = memPutBytes s.hostMem (r.mrbase.toNat + 64 * (r.k % ringSize r)) (entryBytes r c r.k m.type m m.payload) ∧
      t.host.rings[c] = { r with msgs := rest, k := r.k + 1, mrtail := r.mrtail + 1 } ∧
      t.host.msix[r.vec.toFin].due = true ∧
      t = { s with hostMem := t.hostMem, host := { s.host with rings := s.host.rings.set c t.host.rings[c], msix := t.host.msix } }) ∧
  (∀ (s : State) (c : CtxId), s.host.rings[c].en = false ∨
      ringSize s.host.rings[c] ≤ (s.host.rings[c].mrtail - s.host.rings[c].mrhead).toNat →
    exec (.messageWrite c) s = .next s) ∧
  (∀ (s : State) (v : Fin 8), hostUp s = true → s.host.msix[v].due = true →
    (∀ n, s.host.msix[v].last = some n → n + 1000 * (s.host.msimod.toNat % 65536) ≤ elapsed s) →
    exec (.msixSend v) s = .next { s with host := { s.host with
      msix := s.host.msix.set v { due := false, last := some (elapsed s), sent := s.host.msix[v].sent + 1 } } }) ∧
  ∀ (s : State) (env : TelemetryEnv), hostUp s = true → s.boot.phase = .ready → s.host.tlmbase.getLsbD 0 = true →
    s.host.tlmStart + 100000000 ≤ now s →
    ∃ t, exec (.telemetry env) s = .next t ∧ t.host.tseq = s.host.tseq + 1 ∧ t.host.tlmStart = now s ∧
      t.hostMem = memPutBytes s.hostMem ((s.host.tlmbase &&& ~~~0x1FFF).toNat + 4096 * (s.host.tseq.toNat % 2))
        (padTo 4096 (telemetryBlock s env)) ∧
      t.fab.stale = 0 ∧ t.power.flags = 0 ∧ t.power.lastFlags = s.power.flags ∧
      (∀ g : RegionId, t.regions[g].lateFills = 0 ∧ t.regions[g].ev = s.regions[g].ev ∧ t.regions[g].clusters = s.regions[g].clusters) ∧
      (∀ p : PortId, t.ports[p].replays = 0 ∧ t.ports[p].txq = s.ports[p].txq ∧ t.ports[p].unacked = s.ports[p].unacked) ∧
      (∀ c : CtxId, s.host.rings[c].en = true → s.host.rings[c].msgs.length < 256 →
        ∃ m, t.host.rings[c].msgs = s.host.rings[c].msgs ++ [m] ∧ m.type = mtTelemetry ∧ sliceNat m.payload 0 8 = s.host.tseq.toNat) ∧
      (∀ c : CtxId, s.host.rings[c].en = false → t.host.rings[c] = s.host.rings[c]) ∧ t.hbm = s.hbm ∧ t.ctxs = s.ctxs ∧
      t.cnt = s.cnt ∧ t.scree = s.scree

/-- CXL_MEM_READ and CXL_MEM_WRITE of one line: a frame of a host-visible page is read, and a write is stored; any other frame reads
as zeros, a write to it is discarded, and either sets HDM_DENIED. The statement takes sound words (R433). -/
def Obligations.HostMemoryWindow : Prop :=
  ∀ (s : State) (off len : Nat), hostUp s = true → 0 < len → off % 64 + len ≤ 64 →
    (visibleIn s.hbm (off / frameBytes) = none →
      exec (.cxlMemRead off len) s = .next
        { s with host := { s.host with hdmDenied := true, cxlData := List.replicate len 0, cxlPoison := false } } ∧
      ∀ data b, data.length = len →
        exec (.cxlMemWrite off data b) s = .next { s with host := { s.host with hdmDenied := true } }) ∧
    (∀ r, visibleIn s.hbm (off / frameBytes) = some r → s.hbm.mdata = [] →
      exec (.cxlMemRead off len) s = .next
        { s with host := { s.host with cxlData := (List.range len).map fun i => memGet s.hbm.mem (off + i), cxlPoison := false } } ∧
      ∀ data, data.length = len →
        ∃ t, exec (.cxlMemWrite off data false) s = .next t ∧
          t = { s with hbm := { s.hbm with mem := memPutBytes s.hbm.mem off data, writeBacks := t.hbm.writeBacks } })

/-! ## Start-up, power and the sideband -/

/-- POWER_ON, COUNT_TICK in start-up, READY, PORT_WAIT, ALIGN_WAIT, HOST_PORT_TRAINING, MODULE_RESET, FUNDAMENTAL_RESET,
INPUT_DISCONNECT and TRIP_SHUTDOWN: above 46 V the module starts with nothing held; a stage that fails ends in the terminal failure
of its code; the image that boot chose applies in stage 5, and after stage 8 the module waits for its links; it is READY once every
port is trained and the count aligned; a wait of 2 s is shown in BOOTFAIL; a reset keeps the global count, the fuses, the
configuration memory and what the reset class says of the registers; without power nothing is kept (R437, R470, R472, R484, R486,
R487, R489 to R491, R507, R509, R520). That each stage ends at a COUNT_TICK is the model's choice (notes/assumptions/76). -/
def Obligations.StartAndResets : Prop :=
  (∀ (s : State) (mv : Nat) (env : BootEnv), s.boot.phase = .off → 46000 < mv →
    ∃ t, exec (.powerOn mv env) s = .next t ∧ t.cnt.on = true ∧ t.cnt.count = 0 ∧ t.flash = env.device.getD s.flash ∧
      t.boot.jumper = env.jumper ∧ t.boot.sealBroken = !env.sealed ∧ t.fuses = s.fuses ∧
      (env.railOk = true → env.inputOk = true → env.fuseOk = true →
        t.boot.phase = .starting ∧ t.boot.stage = 2 ∧ t.boot.env = some env) ∧
      (env.railOk = false → t.boot.phase = .terminal ∧ t.boot.bootfail = 0x01) ∧
      (env.railOk = true → env.inputOk = false → t.boot.phase = .terminal ∧ t.boot.bootfail = 0x07) ∧
      (env.railOk = true → env.inputOk = true → env.fuseOk = false → t.boot.phase = .terminal ∧ t.boot.bootfail = 0x08)) ∧
  (∀ (s : State) (mv : Nat) (env : BootEnv), s.boot.phase ≠ .off ∨ mv ≤ 46000 → exec (.powerOn mv env) s = .next s) ∧
  (∀ (s : State) (n : Nat) (env : BootEnv), s.boot.phase = .starting → s.boot.env = some env →
    let pick := trySlots s.fuses s.flash (slotOrder s.flash) (recordReasons s.flash)
    ∃ t, exec (.countTick n) s = .next t ∧ t.cnt = tickCount s.cnt n ∧ t.flash = s.flash ∧ t.fuses = s.fuses ∧
      let goesOn := t.boot.phase = .starting ∧ t.boot.stage = s.boot.stage + 1
      let ends := fun (code : Byte) => t.boot.phase = .terminal ∧ t.boot.bootfail = code ∧ ∀ p : PortId, t.ports[p].state = 0
      (s.boot.stage = 2 → env.inputOk = true →
        (env.flashOk = true → goesOn ∧ t.boot.ownerK = (ownerKeys s.flash).1 ∧ t.boot.ownerP = (ownerKeys s.flash).2) ∧
        (env.flashOk = false → ends 0x02)) ∧
      (s.boot.stage = 3 → goesOn) ∧
      (s.boot.stage = 4 → t.boot.imageCode = imageCodeOf pick.2 ∧ (pick.1 = none → ends (imageCodeOf pick.2)) ∧
        ∀ b l, pick.1 = some (b, l) → goesOn ∧ t.boot.pick = some b) ∧
      (∀ b, s.boot.stage = 5 → s.boot.pick = some b →
        t.boot.slotB = b ∧ t.boot.cfg = imgCfg (slotImage s.flash b) ∧ (env.domainsOk = false → ends 0x01) ∧
        (env.domainsOk = true → goesOn ∧ t.power.fabricOn = true ∧
          ∀ p : PortId, 2 ≤ axisLen t (axisOf p) → t.ports[p].powered = true ∧ t.ports[p].state = 1)) ∧
      (s.boot.stage = 6 → (calibrate s env.meas = none → ends 0x03) ∧
        ∀ tw, calibrate s env.meas = some tw → goesOn ∧ t.boot.tw = tw) ∧
      (s.boot.stage = 7 → (env.hbmOk = true → goesOn) ∧ (env.hbmOk = false → ends 0x04)) ∧
      (s.boot.stage = 8 → (env.initOk = false → ends 0x05) ∧ (env.initOk = true → env.coolOk = false → ends 0x06) ∧
        (env.initOk = true → env.coolOk = true → t.boot.phase = .linking ∧ t.boot.stage9 = elapsed t))) ∧
  (∀ s : State, s.boot.phase = .linking → allTrained s = true → s.cnt.aligned = true →
    ∃ t, exec .ready s = .next t ∧ t.boot = { s.boot with phase := .ready, bootfail := 0, readyAt := now s } ∧
      t.regions = s.regions ∧ t.hbm = s.hbm ∧ t.ctxs = s.ctxs ∧ t.ports = s.ports ∧
      (s.boot.jumper = true → t.presence.isOpen = true) ∧
      (∀ c : CtxId, s.host.rings[c].en = true → s.host.rings[c].msgs = [] → s.boot.jumper = false →
        ∃ m, t.host.rings[c].msgs = [m] ∧ m.type = mtReady)) ∧
  (∀ s : State, s.boot.phase ≠ .linking ∨ allTrained s = false ∨ s.cnt.aligned = false → exec .ready s = .next s) ∧
  (∀ (s : State) (p : PortId), s.boot.phase = .linking → s.ports[p].powered = true → s.ports[p].state ≠ 2 →
    s.boot.stage9 + 2000000000 ≤ elapsed s → exec (.portWait p) s = .next { s with boot := { s.boot with bootfail := 0x80 } }) ∧
  (∀ (s : State) (n : Nat), s.boot.phase = .linking → allTrained s = true → s.cnt.aligned = false → s.boot.trainedAt = some n →
    n + 2000000000 ≤ elapsed s → exec .alignWait s = .next { s with boot := { s.boot with bootfail := 0x81 } }) ∧
  (∀ s : State, s.boot.phase ≠ .off →
    exec .hostPortTraining s = .next { s with host := { s.host with trained := true } }) ∧
  (∀ (s : State) (env : BootEnv), hostUp s = true →
    ∃ t, exec (.moduleReset 0x5A5A env) s = .next t ∧ t.boot.phase = .starting ∧ t.boot.stage = 2 ∧ t.boot.env = some env ∧
      t.cnt.count = s.cnt.count ∧ t.cnt.aligned = false ∧ t.flash = s.flash ∧ t.fuses = s.fuses ∧ t.hostMem = s.hostMem ∧
      t.hardFault = false ∧ t.test = none ∧ t.debug = false ∧ t.host.trained = true ∧ t.host.tlmbase = s.host.tlmbase ∧
      t.host.pci = s.host.pci ∧
      (∀ c : CtxId, t.host.rings[c].mrbase = s.host.rings[c].mrbase ∧ t.host.rings[c].mrsize = s.host.rings[c].mrsize ∧
        t.host.rings[c].en = s.host.rings[c].en ∧ t.host.rings[c].mrhead = s.host.rings[c].mrhead ∧
        t.host.rings[c].head = 0 ∧ t.host.rings[c].tail = 0 ∧ t.ctxs[c].opened = false)) ∧
  (∀ (s : State) (v : W32) (env : BootEnv), v ≠ 0x5A5A → exec (.moduleReset v env) s = .next s) ∧
  (∀ (s : State) (ns : Nat) (env : BootEnv), s.boot.phase ≠ .off → 100000 ≤ ns →
    ∃ t, exec (.fundamentalReset ns env) s = .next t ∧ t.boot.phase = .starting ∧ t.boot.stage = 2 ∧ t.boot.env = some env ∧
      t.cnt.count = s.cnt.count ∧ t.flash = s.flash ∧ t.host.trained = false ∧ t.host.tlmbase = 0 ∧
      ∀ c : CtxId, t.host.rings[c].mrbase = 0 ∧ t.host.rings[c].en = false ∧ t.ctxs[c].opened = false) ∧
  (∀ (s : State) (m : InputMeas), s.boot.phase ≠ .off →
    (42000 ≤ m.mv ∨ m.ns < 50000 → exec (.inputDisconnect m) s = .next s) ∧
    (m.mv < 42000 → 50000 ≤ m.ns → ∃ t, exec (.inputDisconnect m) s = .next t ∧
      t = { State.reset with
        pending := s.pending, fuses := s.fuses, flash := s.flash, hostMem := s.hostMem, freeCtr := s.freeCtr, hbm := t.hbm, i3c := t.i3c } ∧
      t.hbm.mem = [] ∧ t.hbm.resids = State.reset.hbm.resids ∧ t.hbm.pool = s.hbm.pool ∧ t.hbm.poolBad = s.hbm.poolBad ∧
      t.i3c.dyn = none ∧ t.i3c.straps = s.i3c.straps)) ∧
  ∀ (s : State) (n : Nat), s.boot.phase = .ready → s.power.trip = some n →
    (n + 1000000 ≤ elapsed s → ∃ t, exec .tripShutdown s = .next t ∧ t.boot.phase = .terminal ∧ t.boot.bootfail = 0x06 ∧
      (∀ p : PortId, t.ports[p].state = 0) ∧ t.flash = s.flash) ∧
    (elapsed s < n + 1000000 → exec .tripShutdown s = .next s)

/-- GOVERNOR_SAMPLE, LAUNCH_RAMP, THERMAL_STEP, THERMAL_TRIP and the input's events: the envelope moves toward its target by at most
SLEW; the dies' shares add up to it, a die's ballast draws its share less its work, and tokens are withheld when the work leaves
less than 0.5 A; the rail of a die at 105 degrees or more goes down by 5 mV, not below 0.700 V; 115 degrees for 10 us is the job fault
THERMAL_TRIP, and a ballast bank that reaches them takes no share; and an input below 44 V for 10 us the job fault INPUT_UNDERVOLTAGE
(R496 to R500, R506 to R508, R511). -/
def Obligations.PowerAndHeat : Prop :=
  (∀ (s : State) (d : DieId) (work : Nat) (m : InputMeas), s.boot.phase ≠ .off →
    ∃ t, exec (.governorSample d work m) s = .next t ∧
      (t.power.ienv : Int) - s.power.ienv ≤ s.boot.cfg.slew * (elapsed s - s.power.ienvAt : Nat) ∧
      (s.power.ienv : Int) - t.power.ienv ≤ s.boot.cfg.slew * (elapsed s - s.power.ienvAt : Nat) ∧
      t.power.ienvAt = elapsed s ∧ t.power.volts = m.mv ∧
      t.power.dies[d].work = 1000 * work ∧
      t.power.dies[d].ballast = min (shareOf t.power d - 1000 * work) (ballastMax m.mv) ∧
      (t.power.dies[d].withheld = true ↔ shareOf t.power d < 1000 * work + 500000) ∧
      t.power.dies[d].rail = s.power.dies[d].rail ∧ (∀ e : DieId, e ≠ d → t.power.dies[e] = s.power.dies[e]) ∧
      t = { s with power := t.power, host := t.host }) ∧
  (∀ p : Power, (∃ d : DieId, p.dies[d].hotBank = false) → ((List.finRange 4).map (shareOf p)).sum = p.ienv) ∧
  (∀ (p : Power) (d : DieId), p.dies[d].hotBank = true → shareOf p d = 0) ∧
  (∀ (s : State) (c : CtxId) (l : Launch), s.ctxs[c].launch = some l → s.boot.phase = .ready → rampStart s l.a ≤ now s →
    ∃ t, exec (.launchRamp c) s = .next t ∧ t.power.launch.getLsbD c.val = true ∧
      targetLevel t = launchLevel s.boot.cfg s.power.volts ∧ t = { s with power := t.power }) ∧
  (∀ (s : State) (d : DieId) (t16 : Int) (m : InputMeas), running s = true →
    (∀ n, s.power.dies[d].stepAt = some n → n + 100000 ≤ elapsed s) →
    ∃ t, exec (.thermalStep d t16 m) s = .next t ∧
      (1680 ≤ t16 → t.power.dies[d].rail = max 700 (s.power.dies[d].rail - 5)) ∧
      (t16 < 1600 → t.power.dies[d].rail = min 750 (s.power.dies[d].rail + 5)) ∧
      (1600 ≤ t16 → t16 < 1664 → t.power.dies[d].rail = s.power.dies[d].rail) ∧
      (∀ e : DieId, e ≠ d → t.power.dies[e] = s.power.dies[e]) ∧ t = { s with power := t.power, host := t.host }) ∧
  (∀ (s : State) (h : HotSensor) (ns : Nat) (m : InputMeas), s.boot.phase = .ready → s.power.trip = none →
    exec (.thermalTrip h ns m) s = .next (if 1840 ≤ h.t16 ∧ 10000 ≤ ns then
      let u := moduleFault (bankHot s h.bank) cThermalTrip
      enterEvent { u with power := { u.power with trip := some (elapsed s) } } evThermalTrip m else s)) ∧
  (∀ (s : State) (m : InputMeas), s.boot.phase = .ready → s.power.under = false →
    exec (.inputUndervoltage m) s = .next (if m.mv < 44000 ∧ 10000 ≤ m.ns then
      enterEvent (moduleFault { s with power := { s.power with under := true } } cInputUndervoltage) evUndervoltage m
      else s)) ∧
  (∀ (s : State) (m : InputMeas), s.boot.phase ≠ .off →
    (m.mv < 46000 → s.power.low = false →
      ∃ t, exec (.inputLow m) s = .next t ∧ t.power.low = true ∧ t.power.high = false ∧ t.power.under = s.power.under ∧
        t = { s with power := t.power, host := t.host }) ∧
    (56000 < m.mv → s.power.high = false →
      ∃ t, exec (.inputHigh m) s = .next t ∧ t.power.high = true ∧ t.power.low = false ∧ t.power.under = false ∧
        t = { s with power := t.power, host := t.host }) ∧
    (46000 < m.mv → m.mv ≤ 56000 → s.power.low = true ∨ s.power.high = true ∨ s.power.under = true →
      ∃ t, exec (.inputNormal m) s = .next t ∧ t.power.low = false ∧ t.power.high = false ∧ t.power.under = false ∧
        t = { s with power := t.power, host := t.host }))

/-- The I3C target and the presence window: a private write sets the register offset; a private read latches the 64 bytes and
returns them from the offset upward, wrapping at 0x40; addresses are given and taken back; a common command is answered at the own
address alone, with a constant that the manual leaves open (R522, R523, notes/assumptions/56). A press of at least 50 ms opens the
window for 120 s, and at its end it closes, with test mode (R402, R457, R521). -/
def Obligations.SidebandAndPresence : Prop :=
  (∀ (s : State) (a : BitVec 7), i3cMine s a = true →
    (∀ b l, exec (.i3cPrivateWrite a (b :: l)) s = .next { s with i3c := { s.i3c with off := b.toNat % 64 } }) ∧
    (∀ n env, exec (.i3cPrivateRead a n env) s = .next { s with i3c := { s.i3c with
      file := i3cFile s env, reply := (List.range n).map fun i => (i3cFile s env).getD ((s.i3c.off + i) % 64) 0 } }) ∧
    (∀ e ∈ ([(.getpid a, beBytes 6 Config.i3cPid.toNat), (.getbcr a, [Config.i3cBcr]), (.getdcr a, [Config.i3cDcr]),
        (.getstatus a, beBytes 2 Config.i3cStatus.toNat), (.getmwl a, beBytes 2 Config.i3cMwl.toNat),
        (.getmrl a, beBytes 2 Config.i3cMrl.toNat)] : List (Instr × List Byte)),
      exec e.1 s = .next { s with i3c := { s.i3c with reply := e.2 } })) ∧
  (∀ (s : State) (a : BitVec 7) (n : Nat) (l : List Byte) (env : I3cEnv), i3cMine s a = false →
    ∀ i ∈ ([.i3cPrivateWrite a l, .i3cPrivateRead a n env, .getpid a, .getbcr a, .getdcr a, .getstatus a, .getmwl a, .getmrl a] : List Instr),
      exec i s = .next s) ∧
  (∀ (s : State) (a : BitVec 7), s.boot.phase ≠ .off →
    (s.i3c.dyn = none → exec (.entdaa a) s = .next { s with i3c := { s.i3c with dyn := some a } } ∧
      exec (.setdasa (0x58 + s.i3c.straps.setWidth 7) a) s = .next { s with i3c := { s.i3c with dyn := some a } }) ∧
    exec .rstdaa s = .next { s with i3c := { s.i3c with dyn := none } }) ∧
  (∀ (s : State) (env : I3cEnv), (i3cFile s env).length = 64 ∧ sliceNat (i3cFile s env) 0 2 = 0x4C34 ∧
    sliceNat (i3cFile s env) 4 8 = s.fuses.serial.toNat ∧ sliceNat (i3cFile s env) 36 8 = now s) ∧
  (∀ (s : State) (ms : Nat), s.boot.phase ≠ .off → s.presence.byJumper = false → 50 ≤ ms →
    ∃ t, exec (.presencePress ms) s = .next t ∧ t.presence = { isOpen := true, byJumper := false, till := elapsed s + 120000000000 } ∧
      t = { s with presence := t.presence, host := t.host } ∧ (s.presence.isOpen = true → t.host = s.host)) ∧
  ∀ s : State, s.presence.isOpen = true → s.presence.byJumper = false → s.presence.till ≤ elapsed s →
    ∃ t, exec .presenceWindowClose s = .next t ∧ t.presence.isOpen = false ∧ t.test = none ∧
      ∀ g : RegionId, (∀ x, s.test = some x → x.region ≠ g) → t.regions[g] = s.regions[g]

end
end

