-- ==== Sys2Proof/Laws/Kept.lean ====
section
/-! SUPPORT. What every operation keeps: the queue of commands, the fuses, the configuration memory, the sections of the booted image, and
the bounds of `State.bounded`. One lemma per operation, from the parts of the state to the messages, records and faults. -/

namespace Sys2Proof.Machine

set_option Elab.async false

/-- What a change of the module keeps: the queue of commands, the fuses, every part that `k` names, and the bounds of
`State.bounded`. -/
structure Stays (k : Part → Bool) (s t : State) : Prop where
  pending : t.pending = s.pending
  fuses : t.fuses = s.fuses
  parts : ∀ p, k p = true → p.same s t
  bounded : s.bounded → t.bounded

variable {k : Part → Bool}

theorem Stays.refl (s : State) : Stays k s s := ⟨rfl, rfl, fun p _ => by cases p <;> rfl, id⟩

theorem Stays.lit_iff {s0 s : State} (ctxs regions hbm ports fab hardFault pageQ restoring power ownRecs peerRecs digestSets digestCmps dfBytes freeCtr) :
    Stays k s0 ⟨s.pending, s.fuses, s.boot, s.flash, s.cnt, s.host, ctxs, regions, hbm, ports, fab, s.scree, hardFault, pageQ, restoring, s.test, s.debug, s.presence, power, s.i3c, s.hostMem, ownRecs, peerRecs, digestSets, digestCmps, dfBytes, freeCtr⟩ ↔ Stays k s0 s := 
  ⟨fun h => ⟨h.1, h.2, fun p hp => by cases p <;> exact h.3 _ hp, h.4⟩, fun h => ⟨h.1, h.2, fun p hp => by cases p <;> exact h.3 _ hp, h.4⟩⟩

theorem Stays.host_iff {s0 s : State} (h_trained h_pci h_tlmbase h_msimod h_latch h_dbOverrun h_hdmDenied h_nestedSeen h_uncorrSeen h_msix h_rdata h_cxlData h_cxlPoison h_tseq h_tlmStart ctxs regions hbm ports fab hardFault pageQ restoring power ownRecs peerRecs digestSets digestCmps dfBytes freeCtr) :
    Stays k s0 ⟨s.pending, s.fuses, s.boot, s.flash, s.cnt, ⟨h_trained, h_pci, h_tlmbase, h_msimod, h_latch, h_dbOverrun, h_hdmDenied, h_nestedSeen, h_uncorrSeen, s.host.rings, h_msix, h_rdata, h_cxlData, h_cxlPoison, h_tseq, h_tlmStart⟩, ctxs, regions, hbm, ports, fab, s.scree, hardFault, pageQ, restoring, s.test, s.debug, s.presence, power, s.i3c, s.hostMem, ownRecs, peerRecs, digestSets, digestCmps, dfBytes, freeCtr⟩ ↔ Stays k s0 s := 
  ⟨fun h => ⟨h.1, h.2, fun p hp => by cases p <;> exact h.3 _ hp, h.4⟩, fun h => ⟨h.1, h.2, fun p hp => by cases p <;> exact h.3 _ hp, h.4⟩⟩

theorem Stays.boot_iff {s0 s : State} (b_stage b_env b_pick b_bootfail b_imageCode b_slotB b_imageVer b_cosigned b_measured b_ownerK b_ownerP b_sealBroken b_jumper b_stage9 b_trainedAt b_readyAt b_tw ctxs regions hbm ports fab hardFault pageQ restoring power ownRecs peerRecs digestSets digestCmps dfBytes freeCtr) :
    Stays k s0 ⟨s.pending, s.fuses, ⟨s.boot.phase, b_stage, b_env, b_pick, b_bootfail, b_imageCode, b_slotB, b_imageVer, b_cosigned, b_measured, s.boot.cfg, b_ownerK, b_ownerP, b_sealBroken, b_jumper, b_stage9, b_trainedAt, b_readyAt, b_tw⟩, s.flash, s.cnt, s.host, ctxs, regions, hbm, ports, fab, s.scree, hardFault, pageQ, restoring, s.test, s.debug, s.presence, power, s.i3c, s.hostMem, ownRecs, peerRecs, digestSets, digestCmps, dfBytes, freeCtr⟩ ↔ Stays k s0 s := 
  ⟨fun h => ⟨h.1, h.2, fun p hp => by cases p <;> exact h.3 _ hp, h.4⟩, fun h => ⟨h.1, h.2, fun p hp => by cases p <;> exact h.3 _ hp, h.4⟩⟩

theorem Stays.boothost_iff {s0 s : State} (b_stage b_env b_pick b_bootfail b_imageCode b_slotB b_imageVer b_cosigned b_measured b_ownerK b_ownerP b_sealBroken b_jumper b_stage9 b_trainedAt b_readyAt b_tw h_trained h_pci h_tlmbase h_msimod h_latch h_dbOverrun h_hdmDenied h_nestedSeen h_uncorrSeen h_msix h_rdata h_cxlData h_cxlPoison h_tseq h_tlmStart ctxs regions hbm ports fab hardFault pageQ restoring power ownRecs peerRecs digestSets digestCmps dfBytes freeCtr) :
    Stays k s0 ⟨s.pending, s.fuses, ⟨s.boot.phase, b_stage, b_env, b_pick, b_bootfail, b_imageCode, b_slotB, b_imageVer, b_cosigned, b_measured, s.boot.cfg, b_ownerK, b_ownerP, b_sealBroken, b_jumper, b_stage9, b_trainedAt, b_readyAt, b_tw⟩, s.flash, s.cnt, ⟨h_trained, h_pci, h_tlmbase, h_msimod, h_latch, h_dbOverrun, h_hdmDenied, h_nestedSeen, h_uncorrSeen, s.host.rings, h_msix, h_rdata, h_cxlData, h_cxlPoison, h_tseq, h_tlmStart⟩, ctxs, regions, hbm, ports, fab, s.scree, hardFault, pageQ, restoring, s.test, s.debug, s.presence, power, s.i3c, s.hostMem, ownRecs, peerRecs, digestSets, digestCmps, dfBytes, freeCtr⟩ ↔ Stays k s0 s := 
  ⟨fun h => ⟨h.1, h.2, fun p hp => by cases p <;> exact h.3 _ hp, h.4⟩, fun h => ⟨h.1, h.2, fun p hp => by cases p <;> exact h.3 _ hp, h.4⟩⟩

theorem Stays.cnt_iff {s0 s : State} (hk_cnt : k .cnt = false) (cnt ctxs regions hbm ports fab hardFault pageQ restoring power ownRecs peerRecs digestSets digestCmps dfBytes freeCtr) :
    Stays k s0 ⟨s.pending, s.fuses, s.boot, s.flash, cnt, s.host, ctxs, regions, hbm, ports, fab, s.scree, hardFault, pageQ, restoring, s.test, s.debug, s.presence, power, s.i3c, s.hostMem, ownRecs, peerRecs, digestSets, digestCmps, dfBytes, freeCtr⟩ ↔ Stays k s0 s := by
  constructor <;> refine fun h => ⟨h.1, h.2, fun p hp => ?_, h.4⟩ <;> cases p <;>
    first
    | exact h.3 _ hp
    | exact absurd (hk_cnt.symm.trans hp) Bool.false_ne_true

theorem Stays.presence_iff {s0 s : State} (hk_presence : k .presence = false) (ctxs regions hbm ports fab hardFault pageQ restoring presence power ownRecs peerRecs digestSets digestCmps dfBytes freeCtr) :
    Stays k s0 ⟨s.pending, s.fuses, s.boot, s.flash, s.cnt, s.host, ctxs, regions, hbm, ports, fab, s.scree, hardFault, pageQ, restoring, s.test, s.debug, presence, power, s.i3c, s.hostMem, ownRecs, peerRecs, digestSets, digestCmps, dfBytes, freeCtr⟩ ↔ Stays k s0 s := by
  constructor <;> refine fun h => ⟨h.1, h.2, fun p hp => ?_, h.4⟩ <;> cases p <;>
    first
    | exact h.3 _ hp
    | exact absurd (hk_presence.symm.trans hp) Bool.false_ne_true

theorem Stays.test_iff {s0 s : State} (hk_test : k .test = false) (ctxs regions hbm ports fab hardFault pageQ restoring test power ownRecs peerRecs digestSets digestCmps dfBytes freeCtr) :
    Stays k s0 ⟨s.pending, s.fuses, s.boot, s.flash, s.cnt, s.host, ctxs, regions, hbm, ports, fab, s.scree, hardFault, pageQ, restoring, test, s.debug, s.presence, power, s.i3c, s.hostMem, ownRecs, peerRecs, digestSets, digestCmps, dfBytes, freeCtr⟩ ↔ Stays k s0 s := by
  constructor <;> refine fun h => ⟨h.1, h.2, fun p hp => ?_, h.4⟩ <;> cases p <;>
    first
    | exact h.3 _ hp
    | exact absurd (hk_test.symm.trans hp) Bool.false_ne_true

theorem Stays.debug_iff {s0 s : State} (hk_debug : k .debug = false) (ctxs regions hbm ports fab hardFault pageQ restoring debug power ownRecs peerRecs digestSets digestCmps dfBytes freeCtr) :
    Stays k s0 ⟨s.pending, s.fuses, s.boot, s.flash, s.cnt, s.host, ctxs, regions, hbm, ports, fab, s.scree, hardFault, pageQ, restoring, s.test, debug, s.presence, power, s.i3c, s.hostMem, ownRecs, peerRecs, digestSets, digestCmps, dfBytes, freeCtr⟩ ↔ Stays k s0 s := by
  constructor <;> refine fun h => ⟨h.1, h.2, fun p hp => ?_, h.4⟩ <;> cases p <;>
    first
    | exact h.3 _ hp
    | exact absurd (hk_debug.symm.trans hp) Bool.false_ne_true

theorem Stays.hostMem_iff {s0 s : State} (hk_hostMem : k .hostMem = false) (ctxs regions hbm ports fab hardFault pageQ restoring power hostMem ownRecs peerRecs digestSets digestCmps dfBytes freeCtr) :
    Stays k s0 ⟨s.pending, s.fuses, s.boot, s.flash, s.cnt, s.host, ctxs, regions, hbm, ports, fab, s.scree, hardFault, pageQ, restoring, s.test, s.debug, s.presence, power, s.i3c, hostMem, ownRecs, peerRecs, digestSets, digestCmps, dfBytes, freeCtr⟩ ↔ Stays k s0 s := by
  constructor <;> refine fun h => ⟨h.1, h.2, fun p hp => ?_, h.4⟩ <;> cases p <;>
    first
    | exact h.3 _ hp
    | exact absurd (hk_hostMem.symm.trans hp) Bool.false_ne_true

theorem Stays.i3c_iff {s0 s : State} (hk_i3c : k .i3c = false) (ctxs regions hbm ports fab hardFault pageQ restoring power i_dyn i_straps i_file i_reply ownRecs peerRecs digestSets digestCmps dfBytes freeCtr) :
    Stays k s0 ⟨s.pending, s.fuses, s.boot, s.flash, s.cnt, s.host, ctxs, regions, hbm, ports, fab, s.scree, hardFault, pageQ, restoring, s.test, s.debug, s.presence, power, ⟨i_dyn, i_straps, s.i3c.off, i_file, i_reply⟩, s.hostMem, ownRecs, peerRecs, digestSets, digestCmps, dfBytes, freeCtr⟩ ↔ Stays k s0 s := by
  constructor <;> refine fun h => ⟨h.1, h.2, fun p hp => ?_, h.4⟩ <;> cases p <;>
    first
    | exact h.3 _ hp
    | exact absurd (hk_i3c.symm.trans hp) Bool.false_ne_true

theorem Stays.cntboot_iff {s0 s : State} (hk_cnt : k .cnt = false) (b_stage b_env b_pick b_bootfail b_imageCode b_slotB b_imageVer b_cosigned b_measured b_ownerK b_ownerP b_sealBroken b_jumper b_stage9 b_trainedAt b_readyAt b_tw cnt ctxs regions hbm ports fab hardFault pageQ restoring power ownRecs peerRecs digestSets digestCmps dfBytes freeCtr) :
    Stays k s0 ⟨s.pending, s.fuses, ⟨s.boot.phase, b_stage, b_env, b_pick, b_bootfail, b_imageCode, b_slotB, b_imageVer, b_cosigned, b_measured, s.boot.cfg, b_ownerK, b_ownerP, b_sealBroken, b_jumper, b_stage9, b_trainedAt, b_readyAt, b_tw⟩, s.flash, cnt, s.host, ctxs, regions, hbm, ports, fab, s.scree, hardFault, pageQ, restoring, s.test, s.debug, s.presence, power, s.i3c, s.hostMem, ownRecs, peerRecs, digestSets, digestCmps, dfBytes, freeCtr⟩ ↔ Stays k s0 s := by
  constructor <;> refine fun h => ⟨h.1, h.2, fun p hp => ?_, h.4⟩ <;> cases p <;>
    first
    | exact h.3 _ hp
    | exact absurd (hk_cnt.symm.trans hp) Bool.false_ne_true

theorem Stays.phase_iff {s0 s : State} (hk_phase : k .phase = false) (b_phase b_stage b_env b_pick b_bootfail b_imageCode b_slotB b_imageVer b_cosigned b_measured b_ownerK b_ownerP b_sealBroken b_jumper b_stage9 b_trainedAt b_readyAt b_tw h_trained h_pci h_tlmbase h_msimod h_latch h_dbOverrun h_hdmDenied h_nestedSeen h_uncorrSeen h_msix h_rdata h_cxlData h_cxlPoison h_tseq h_tlmStart ctxs regions hbm ports fab hardFault pageQ restoring power ownRecs peerRecs digestSets digestCmps dfBytes freeCtr) :
    Stays k s0 ⟨s.pending, s.fuses, ⟨b_phase, b_stage, b_env, b_pick, b_bootfail, b_imageCode, b_slotB, b_imageVer, b_cosigned, b_measured, s.boot.cfg, b_ownerK, b_ownerP, b_sealBroken, b_jumper, b_stage9, b_trainedAt, b_readyAt, b_tw⟩, s.flash, s.cnt, ⟨h_trained, h_pci, h_tlmbase, h_msimod, h_latch, h_dbOverrun, h_hdmDenied, h_nestedSeen, h_uncorrSeen, s.host.rings, h_msix, h_rdata, h_cxlData, h_cxlPoison, h_tseq, h_tlmStart⟩, ctxs, regions, hbm, ports, fab, s.scree, hardFault, pageQ, restoring, s.test, s.debug, s.presence, power, s.i3c, s.hostMem, ownRecs, peerRecs, digestSets, digestCmps, dfBytes, freeCtr⟩ ↔ Stays k s0 s := by
  constructor <;> refine fun h => ⟨h.1, h.2, fun p hp => ?_, h.4⟩ <;> cases p <;>
    first
    | exact h.3 _ hp
    | exact absurd (hk_phase.symm.trans hp) Bool.false_ne_true

theorem Stays.end_iff {s0 s : State} (hk_phase : k .phase = false) (hk_test : k .test = false) (b_phase b_stage b_env b_pick b_bootfail b_imageCode b_slotB b_imageVer b_cosigned b_measured b_ownerK b_ownerP b_sealBroken b_jumper b_stage9 b_trainedAt b_readyAt b_tw h_trained h_pci h_tlmbase h_msimod h_latch h_dbOverrun h_hdmDenied h_nestedSeen h_uncorrSeen h_msix h_rdata h_cxlData h_cxlPoison h_tseq h_tlmStart ctxs regions hbm ports fab hardFault pageQ restoring test power ownRecs peerRecs digestSets digestCmps dfBytes freeCtr) :
    Stays k s0 ⟨s.pending, s.fuses, ⟨b_phase, b_stage, b_env, b_pick, b_bootfail, b_imageCode, b_slotB, b_imageVer, b_cosigned, b_measured, s.boot.cfg, b_ownerK, b_ownerP, b_sealBroken, b_jumper, b_stage9, b_trainedAt, b_readyAt, b_tw⟩, s.flash, s.cnt, ⟨h_trained, h_pci, h_tlmbase, h_msimod, h_latch, h_dbOverrun, h_hdmDenied, h_nestedSeen, h_uncorrSeen, s.host.rings, h_msix, h_rdata, h_cxlData, h_cxlPoison, h_tseq, h_tlmStart⟩, ctxs, regions, hbm, ports, fab, s.scree, hardFault, pageQ, restoring, test, s.debug, s.presence, power, s.i3c, s.hostMem, ownRecs, peerRecs, digestSets, digestCmps, dfBytes, freeCtr⟩ ↔ Stays k s0 s := by
  constructor <;> refine fun h => ⟨h.1, h.2, fun p hp => ?_, h.4⟩ <;> cases p <;>
    first
    | exact h.3 _ hp
    | exact absurd (hk_phase.symm.trans hp) Bool.false_ne_true
    | exact absurd (hk_test.symm.trans hp) Bool.false_ne_true

/-- A state that differs from `s` in other parts only. -/
theorem Stays.lit {s0 s : State} (h : Stays k s0 s) (ctxs regions hbm ports fab hardFault pageQ restoring power ownRecs peerRecs digestSets digestCmps dfBytes freeCtr) : Stays k s0 ⟨s.pending, s.fuses, s.boot, s.flash, s.cnt, s.host, ctxs, regions, hbm, ports, fab, s.scree, hardFault, pageQ, restoring, s.test, s.debug, s.presence, power, s.i3c, s.hostMem, ownRecs, peerRecs, digestSets, digestCmps, dfBytes, freeCtr⟩ :=
  (Stays.lit_iff ..).2 h

theorem foldl_keeps {α β : Type} {P : β → Prop} {f : β → α → β} {l : List α} {b : β} (hf : ∀ b a, P b → P (f b a)) (hb : P b) :
    P (l.foldl f b) := by
  induction l generalizing b with
  | nil => exact hb
  | cons a l ih => exact ih (hf b a hb)

theorem updRegion_stays {s0 s : State} (h : Stays k s0 s) (g f) : Stays k s0 (updRegion s g f) := Stays.lit h ..
theorem updCtx_stays {s0 s : State} (h : Stays k s0 s) (g f) : Stays k s0 (updCtx s g f) := Stays.lit h ..
theorem updPort_stays {s0 s : State} (h : Stays k s0 s) (g f) : Stays k s0 (updPort s g f) := Stays.lit h ..
theorem updHbm_stays {s0 s : State} (h : Stays k s0 s) (f) : Stays k s0 (updHbm s f) := Stays.lit h ..
theorem updFab_stays {s0 s : State} (h : Stays k s0 s) (f) : Stays k s0 (updFab s f) := Stays.lit h ..

/-- A change to one ring keeps `Stays` when it keeps the bound on that ring's queue. -/
theorem updRing_stays {s0 s : State} (h : Stays k s0 s) (c : CtxId) {f : Ring → Ring}
    (hf : s.host.rings[c].msgs.length ≤ 256 → (f s.host.rings[c]).msgs.length ≤ 256) : Stays k s0 (updRing s c f) := by
  refine ⟨h.1, h.2, fun p hp => by cases p <;> exact h.3 _ hp, fun hb => ?_⟩
  obtain ⟨h1, h2, h3⟩ := h.4 hb
  refine ⟨h1, fun d => ?_, h3⟩
  simp only [updRing, Fin.getElem_fin, Vector.getElem_set]
  split
  · exact hf (by simpa using h2 c)
  · exact h2 d

/-! ## The parts of a result -/

theorem stays_of_state1 {α : Type} {s0 t : State} {v : α} {p : State × α} (hq : p = (t, v)) (h : Stays k s0 p.1) :
    Stays k s0 t := by
  subst hq
  exact h

theorem stays_of_state2 {α : Type} {s0 t : State} {v : α} {p : α × State} (hq : p = (v, t)) (h : Stays k s0 p.2) :
    Stays k s0 t := by
  subst hq
  exact h

theorem stays_of_state22 {α β : Type} {s0 t : State} {v : α} {w : β} {p : α × β × State} (hq : p = (v, w, t))
    (h : Stays k s0 p.2.2) : Stays k s0 t := by
  subst hq
  exact h

theorem stays_of_eng2 {α : Type} {s0 : State} {e : Eng} {v : α} {p : α × Eng} (hq : p = (v, e)) (h : Stays k s0 p.2.s) :
    Stays k s0 e.s := by
  subst hq
  exact h

theorem stays_of_eng22 {α β : Type} {s0 : State} {e : Eng} {v : α} {w : β} {p : α × β × Eng} (hq : p = (v, w, e))
    (h : Stays k s0 p.2.2.s) : Stays k s0 e.s := by
  subst hq
  exact h

theorem stays_of_eng222 {α β γ : Type} {s0 : State} {e : Eng} {v : α} {w : β} {x : γ} {p : α × β × γ × Eng} (hq : p = (v, w, x, e))
    (h : Stays k s0 p.2.2.2.s) : Stays k s0 e.s := by
  subst hq
  exact h

theorem stays_of_acc1 {α : Type} {s0 : State} {e : VAcc} {v : α} {p : VAcc × α} (hq : p = (e, v)) (h : Stays k s0 p.1.e.s) :
    Stays k s0 e.e.s := by
  subst hq
  exact h

theorem stays_of_acc2 {α : Type} {s0 : State} {e : VAcc} {v : α} {p : α × VAcc} (hq : p = (v, e)) (h : Stays k s0 p.2.e.s) :
    Stays k s0 e.e.s := by
  subst hq
  exact h

theorem stays_of_acc22 {α β : Type} {s0 : State} {e : VAcc} {v : α} {w : β} {p : α × β × VAcc} (hq : p = (v, w, e))
    (h : Stays k s0 p.2.2.e.s) : Stays k s0 e.e.s := by
  subst hq
  exact h

theorem dropFirst_length {α : Type} (p : α → Bool) (l l' : List α) (h : dropFirst p l = some l') : l'.length + 1 = l.length := by
  induction l generalizing l' with
  | nil => simp [dropFirst] at h
  | cons a l ih =>
    simp only [dropFirst] at h
    split at h
    · simp at h; simp [h]
    · cases hd : dropFirst p l with
      | none => simp [hd] at h
      | some q => simp [hd] at h; subst h; simp [ih q hd]

theorem ringPush_bound (r : Ring) (m : Msg) (h : r.msgs.length ≤ 256) : (ringPush r m).msgs.length ≤ 256 := by
  unfold ringPush
  split
  · simp; omega
  · split
    · have := dropFirst_length _ _ _ ‹_›; simp; omega
    · split
      · have := dropFirst_length _ _ _ ‹_›; simp; omega
      · exact h

theorem post_stays {s0 s : State} (h : Stays k s0 s) (c t g y p) : Stays k s0 (post s c t g y p) :=
  updRing_stays h c fun hr => ringPush_bound _ _ hr

theorem postAll_stays {s0 s : State} (h : Stays k s0 s) (cs t p) : Stays k s0 (postAll s cs t p) :=
  foldl_keeps (P := Stays k s0) (fun _ _ hb => post_stays hb ..) h

theorem sendRec_stays {s0 s : State} (h : Stays k s0 s) (r) : Stays k s0 (sendRec s r) := by
  unfold sendRec
  repeat' first
    | exact h
    | apply post_stays
    | apply postAll_stays
    | dsimp only
    | split

theorem makeRec_stays {s0 s : State} (h : Stays k s0 s) (r) : Stays k s0 (makeRec s r).1 := by
  unfold makeRec
  dsimp only
  apply sendRec_stays
  refine ⟨h.1, h.2, fun p hp => by cases p <;> exact h.3 _ hp, fun hb => ?_⟩
  obtain ⟨h1, h2, h3⟩ := h.4 hb
  refine ⟨?_, h2, h3⟩
  dsimp only
  split <;> simp [h1]

theorem corrected_stays {s0 s : State} (h : Stays k s0 s) (r) : Stays k s0 (corrected s r) := by
  unfold corrected
  dsimp only
  split
  · refine ⟨h.1, h.2, fun p hp => by cases p <;> exact h.3 _ hp, fun hb => ?_⟩
    obtain ⟨h1, h2, h3⟩ := h.4 hb
    exact ⟨by simp [h1], h2, h3⟩
  · exact makeRec_stays h _

theorem haltColls_stays {s0 s : State} (h : Stays k s0 s) (c) : Stays k s0 (haltColls s c) := by
  unfold haltColls
  repeat' first
    | (guard_target =ₛ Stays k s0 s; exact h)
    | with_reducible apply updFab_stays

theorem moveEnvelope_stays {s0 s : State} (h : Stays k s0 s) : Stays k s0 (moveEnvelope s) := Stays.lit h ..

theorem dropMirrorWrites_stays {s0 s : State} (h : Stays k s0 s) (c) : Stays k s0 (dropMirrorWrites s c) := by
  unfold dropMirrorWrites
  dsimp only
  exact updPort_stays h ..

theorem haltFabric_stays {s0 s : State} (h : Stays k s0 s) : Stays k s0 (haltFabric s) := by
  unfold haltFabric
  repeat' first
    | (guard_target =ₛ Stays k s0 s; exact h)
    | simp only [Stays.lit_iff]

theorem endLaunch_stays {s0 s : State} (h : Stays k s0 s) (c st) : Stays k s0 (endLaunch s c st) := by
  unfold endLaunch
  repeat' first
    | (guard_target =ₛ Stays k s0 s; exact h)
    | with_reducible apply updCtx_stays
    | with_reducible apply post_stays
    | with_reducible apply moveEnvelope_stays
    | with_reducible apply updRing_stays
    | (intro hr; exact hr)
    | split
    | simp only [Stays.lit_iff]
theorem haltCtx_stays {s0 s : State} (h : Stays k s0 s) (c) : Stays k s0 (haltCtx s c) := by
  unfold haltCtx
  repeat' first
    | (guard_target =ₛ Stays k s0 s; exact h)
    | with_reducible apply updCtx_stays
    | with_reducible apply endLaunch_stays
    | with_reducible apply haltFabric_stays
    | with_reducible apply haltColls_stays
    | with_reducible apply dropMirrorWrites_stays
    | simp only [Stays.lit_iff]
theorem MAcc.saw_ok {s0 : State} {a : MAcc} {e : Eng} (h : Stays k s0 e.s) (x) : Stays k s0 (a.saw x e).e.s := h

theorem sendFault_stays {s0 : State} {s : State} (h : Stays k s0 s) (a1 a2) : Stays k s0 (sendFault s a1 a2) := by
  unfold sendFault
  repeat' first
    | with_reducible assumption
    | with_reducible apply post_stays
    | with_reducible refine foldl_keeps (P := fun e : State => Stays k s0 e) (fun _ _ _ => ?_) ?_

theorem addAbort_stays {s0 : State} {s : State} (h : Stays k s0 s) (a1 a2) : Stays k s0 (addAbort s a1 a2) := by
  unfold addAbort
  repeat' first
    | with_reducible assumption
    | with_reducible apply updCtx_stays
    | with_reducible apply sendFault_stays
    | split

theorem noteHalt_stays {s0 : State} {s : State} (h : Stays k s0 s) (a1 a2) : Stays k s0 (noteHalt s a1 a2) := by
  unfold noteHalt
  repeat' first
    | with_reducible assumption
    | with_reducible apply updCtx_stays
    | with_reducible apply addAbort_stays
    | with_reducible refine foldl_keeps (P := fun e : State => Stays k s0 e) (fun _ _ _ => ?_) ?_

theorem updEnd_stays {s0 : State} {s : State} (h : Stays k s0 s) (a1 a2) : Stays k s0 (updEnd s a1 a2) := by
  unfold updEnd
  repeat' first
    | with_reducible assumption
    | with_reducible apply updPort_stays
    | split
    | simp only [Stays.lit_iff]

theorem putEntry_stays {s0 : State} {s : State} (h : Stays k s0 s) (a1 a2) : Stays k s0 (putEntry s a1 a2) := by
  unfold putEntry
  repeat' first
    | with_reducible assumption
    | with_reducible apply updHbm_stays

theorem syncLeaf_stays {s0 : State} {s : State} (h : Stays k s0 s) (a1 a2) : Stays k s0 (syncLeaf s a1 a2) := by
  unfold syncLeaf
  repeat' first
    | with_reducible assumption
    | with_reducible apply putEntry_stays
    | split

theorem syncWhere_stays {s0 : State} {s : State} (h : Stays k s0 s) (a1) : Stays k s0 (syncWhere s a1) := by
  unfold syncWhere
  repeat' first
    | with_reducible assumption
    | with_reducible apply syncLeaf_stays
    | with_reducible refine foldl_keeps (P := fun e : State => Stays k s0 e) (fun _ _ _ => ?_) ?_

theorem syncResid_stays {s0 : State} {s : State} (h : Stays k s0 s) (a1) : Stays k s0 (syncResid s a1) := by
  unfold syncResid
  repeat' first
    | with_reducible assumption
    | with_reducible apply syncWhere_stays

theorem makeTab_stays {s0 : State} {s : State} (h : Stays k s0 s) (a1 a2 a3 a4) : Stays k s0 (makeTab s a1 a2 a3 a4) := by
  unfold makeTab
  repeat' first
    | with_reducible assumption
    | with_reducible apply updCtx_stays
    | with_reducible apply putEntry_stays
    | split

theorem makeTabs_stays {s0 : State} {s : State} (h : Stays k s0 s) (a1 a2) : Stays k s0 (makeTabs s a1 a2) := by
  unfold makeTabs
  repeat' first
    | with_reducible assumption
    | with_reducible apply makeTab_stays

theorem sendOn_stays {s0 : State} {s : State} (h : Stays k s0 s) (a1 a2 a3 a4) : Stays k s0 (sendOn s a1 a2 a3 a4) := by
  unfold sendOn
  repeat' first
    | with_reducible assumption
    | with_reducible apply updEnd_stays

theorem sendFlit_stays {s0 : State} {s : State} (h : Stays k s0 s) (a1 a2 a3 a4) : Stays k s0 (sendFlit s a1 a2 a3 a4) := by
  unfold sendFlit
  repeat' first
    | with_reducible assumption
    | with_reducible apply sendOn_stays

theorem sendPage_stays {s0 : State} {s : State} (h : Stays k s0 s) (a1 a2 a3 a4 a5 a6 a7) : Stays k s0 (sendPage s a1 a2 a3 a4 a5 a6 a7) := by
  unfold sendPage
  repeat' first
    | with_reducible assumption
    | with_reducible apply sendFlit_stays
    | with_reducible refine foldl_keeps (P := fun e : State => Stays k s0 e) (fun _ _ _ => ?_) ?_

theorem hbmCorrected_stays {s0 : State} {s : State} (h : Stays k s0 s) (a1 a2 a3) : Stays k s0 (hbmCorrected s a1 a2 a3) := by
  unfold hbmCorrected
  repeat' first
    | with_reducible assumption
    | with_reducible apply corrected_stays
    | with_reducible apply updHbm_stays
    | with_reducible refine foldl_keeps (P := fun e : State => Stays k s0 e) (fun _ _ _ => ?_) ?_

theorem hbmPoisoned_stays {s0 : State} {s : State} (h : Stays k s0 s) (a1 a2 a3) : Stays k s0 (hbmPoisoned s a1 a2 a3).1 := by
  unfold hbmPoisoned
  repeat' first
    | with_reducible assumption
    | with_reducible apply syncWhere_stays
    | with_reducible apply updHbm_stays
    | split
    | dsimp only

theorem enterHardFault_stays {s0 : State} {s : State} (h : Stays k s0 s) (a1 a2) : Stays k s0 (enterHardFault s a1 a2) := by
  unfold enterHardFault
  repeat' first
    | with_reducible assumption
    | with_reducible apply haltFabric_stays
    | with_reducible apply haltCtx_stays
    | with_reducible apply makeRec_stays
    | with_reducible apply sendFault_stays
    | with_reducible refine foldl_keeps (P := fun e : State => Stays k s0 e) (fun _ _ _ => ?_) ?_
    | split
    | simp only [Stays.lit_iff]

theorem sendCtrl_stays {s0 : State} {s : State} (h : Stays k s0 s) (a1 a2 a3 a4) : Stays k s0 (sendCtrl s a1 a2 a3 a4) := by
  unfold sendCtrl
  repeat' first
    | with_reducible assumption
    | with_reducible apply sendFlit_stays

theorem floodAbort_stays {s0 : State} {s : State} (h : Stays k s0 s) (a1 a2 a3) : Stays k s0 (floodAbort s a1 a2 a3) := by
  unfold floodAbort
  repeat' first
    | with_reducible assumption
    | with_reducible apply sendCtrl_stays
    | with_reducible refine foldl_keeps (P := fun e : State => Stays k s0 e) (fun _ _ _ => ?_) ?_

theorem noteSeen_stays {s0 : State} {s : State} (h : Stays k s0 s) (a1 a2 a3) : Stays k s0 (noteSeen s a1 a2 a3) := by
  unfold noteSeen
  repeat' first
    | with_reducible assumption
    | with_reducible apply updFab_stays

theorem raiseFault_stays {s0 : State} {s : State} (h : Stays k s0 s) (a1) : Stays k s0 (raiseFault s a1) := by
  unfold raiseFault
  repeat' first
    | with_reducible assumption
    | with_reducible apply makeRec_stays
    | with_reducible apply enterHardFault_stays
    | with_reducible apply noteHalt_stays
    | with_reducible apply haltCtx_stays
    | with_reducible apply floodAbort_stays
    | with_reducible apply noteSeen_stays
    | with_reducible apply sendFault_stays
    | with_reducible refine foldl_keeps (P := fun e : State => Stays k s0 e) (fun _ _ _ => ?_) ?_
    | split
    | dsimp only

theorem busFault_stays {s0 : State} {s : State} (h : Stays k s0 s) (a1 a2 a3) : Stays k s0 (busFault s a1 a2 a3) := by
  unfold busFault
  repeat' first
    | with_reducible assumption
    | with_reducible apply makeRec_stays
    | with_reducible apply raiseFault_stays
    | split

theorem hbmRefused_stays {s0 : State} {s : State} (h : Stays k s0 s) (a1 a2) : Stays k s0 (hbmRefused s a1 a2).1 := by
  unfold hbmRefused
  repeat' first
    | with_reducible assumption
    | with_reducible apply updHbm_stays

theorem hbmStore_stays {s0 : State} {s : State} (h : Stays k s0 s) (a1 a2 a3) : Stays k s0 (hbmStore s a1 a2 a3).1 := by
  unfold hbmStore
  repeat' first
    | with_reducible assumption
    | with_reducible apply hbmRefused_stays
    | with_reducible apply hbmCorrected_stays
    | with_reducible apply updHbm_stays
    | split

theorem sendResp_stays {s0 : State} {s : State} (h : Stays k s0 s) (a1 a2 a3 a4 a5) : Stays k s0 (sendResp s a1 a2 a3 a4 a5) := by
  unfold sendResp
  repeat' first
    | with_reducible assumption
    | with_reducible apply sendOn_stays

theorem sramCorrected_stays {s0 : State} {s : State} (h : Stays k s0 s) (a1 a2 a3 a4 a5) : Stays k s0 (sramCorrected s a1 a2 a3 a4 a5) := by
  unfold sramCorrected
  repeat' first
    | with_reducible assumption
    | with_reducible apply corrected_stays
    | with_reducible apply updRegion_stays
    | with_reducible refine foldl_keeps (P := fun e : State => Stays k s0 e) (fun _ _ _ => ?_) ?_

theorem noteBad_stays {s0 : State} {s : State} (h : Stays k s0 s) (a1) : Stays k s0 (noteBad s a1) := by
  unfold noteBad
  repeat' first
    | with_reducible assumption
    | with_reducible apply enterHardFault_stays
    | with_reducible apply makeRec_stays
    | split

theorem streamFault_stays {s0 : State} {s : State} (h : Stays k s0 s) (a1 a2 a3) : Stays k s0 (streamFault s a1 a2 a3) := by
  unfold streamFault
  repeat' first
    | with_reducible assumption
    | with_reducible apply raiseFault_stays

theorem regionFault_stays {s0 : State} {s : State} (h : Stays k s0 s) (a1 a2) : Stays k s0 (regionFault s a1 a2) := by
  unfold regionFault
  repeat' first
    | with_reducible assumption
    | with_reducible apply raiseFault_stays

theorem dieFault_stays {s0 : State} {s : State} (h : Stays k s0 s) (a1 a2) : Stays k s0 (dieFault s a1 a2) := by
  unfold dieFault
  repeat' first
    | with_reducible assumption
    | with_reducible apply raiseFault_stays

theorem postEnabled_stays {s0 : State} {s : State} (h : Stays k s0 s) (a1 a2) : Stays k s0 (postEnabled s a1 a2) := by
  unfold postEnabled
  repeat' first
    | with_reducible assumption
    | with_reducible apply postAll_stays

theorem moduleFault_stays {s0 : State} {s : State} (h : Stays k s0 s) (a1) : Stays k s0 (moduleFault s a1) := by
  unfold moduleFault
  repeat' first
    | with_reducible assumption
    | with_reducible apply dieFault_stays

end Sys2Proof.Machine
end

