-- ==== Sys2Proof/Laws/KeptPages.lean ====
section
/-! SUPPORT. `Stays` for the accesses of engines to scratchpads and pages. -/

namespace Sys2Proof.Machine

set_option Elab.async false

variable {k : Part → Bool}

/-! ## Pages -/

theorem allocFrame_stays {s0 s t : State} {f} (hq : allocFrame s = some (f, t)) (h : Stays k s0 s) : Stays k s0 t := by
  simp only [allocFrame, Option.map_eq_some_iff] at hq
  obtain ⟨f', _, he⟩ := hq
  cases he
  exact Stays.lit h ..

theorem allocPair_stays {s0 s t : State} {f q} (hq : allocPair s q = some (f, t)) (h : Stays k s0 s) : Stays k s0 t := by
  simp only [allocPair, Option.map_eq_some_iff] at hq
  obtain ⟨f', _, he⟩ := hq
  cases he
  exact Stays.lit h ..

theorem drawTag_stays {s0 s t : State} {a b} (hq : drawTag s = some (a, b, t)) (h : Stays k s0 s) : Stays k s0 t := by
  simp only [drawTag, Option.map_eq_some_iff] at hq
  obtain ⟨f', _, he⟩ := hq
  cases he
  exact Stays.lit h ..

theorem beginTxn_stays {s0 : State} {s : State} (h : Stays k s0 s) (a1) : Stays k s0 (beginTxn s a1) := by
  unfold beginTxn
  repeat' first
    | with_reducible assumption
    | with_reducible refine drawTag_stays (by assumption) ?_
    | with_reducible apply updFab_stays
    | with_reducible apply sendPage_stays
    | split

theorem startTxn_stays {s0 : State} {s : State} (h : Stays k s0 s) (a1 a2 a3 a4 a5 a6 a7 a8 a9) : Stays k s0 (startTxn s a1 a2 a3 a4 a5 a6 a7 a8 a9) := by
  unfold startTxn
  repeat' first
    | with_reducible assumption
    | with_reducible apply beginTxn_stays

theorem addTiles_stays {s0 : State} {s : State} (h : Stays k s0 s) (a1 a2 a3) : Stays k s0 (addTiles s a1 a2 a3) := by
  unfold addTiles
  repeat' first
    | with_reducible assumption
    | with_reducible apply updCtx_stays
    | with_reducible apply hbmStore_stays
    | with_reducible apply busFault_stays
    | with_reducible refine stays_of_state1 (by assumption) ?_
    | with_reducible refine foldl_keeps (P := fun e : State => Stays k s0 e) (fun _ _ _ => ?_) ?_
    | split
    | dsimp only

theorem engStop_stays {s0 : State} {s : Eng} (h : Stays k s0 s.s) (a1 a2) : Stays k s0 (engStop s a1 a2).s := by
  unfold engStop
  repeat' first
    | with_reducible assumption
    | split

theorem engSramStop_stays {s0 : State} {s : Eng} (h : Stays k s0 s.s) (a1) : Stays k s0 (engSramStop s a1).s := by
  unfold engSramStop
  repeat' first
    | with_reducible assumption
    | with_reducible apply engStop_stays

theorem engFix_stays {s0 : State} {s : Eng} (h : Stays k s0 s.s) (a1) : Stays k s0 (engFix s a1).s := by
  unfold engFix
  repeat' first
    | with_reducible assumption

theorem engFlushSram_stays {s0 : State} {s : Eng} (h : Stays k s0 s.s) : Stays k s0 (engFlushSram s).s := by
  unfold engFlushSram
  repeat' first
    | with_reducible assumption
    | with_reducible apply engSramStop_stays
    | with_reducible apply engFix_stays
    | split
    | dsimp only

theorem engFindings_stays {s0 : State} {s : Eng} (h : Stays k s0 s.s) (a1 a2 a3 a4) : Stays k s0 (engFindings s a1 a2 a3 a4).s := by
  unfold engFindings
  repeat' first
    | with_reducible assumption
    | with_reducible apply hbmCorrected_stays
    | with_reducible apply hbmPoisoned_stays
    | with_reducible apply engStop_stays
    | split

theorem engTranslate_stays {s0 : State} {s : Eng} (h : Stays k s0 s.s) (a1 a2) : Stays k s0 (engTranslate s a1 a2).s := by
  unfold engTranslate
  repeat' first
    | with_reducible assumption
    | with_reducible apply updRegion_stays
    | with_reducible apply engFindings_stays
    | with_reducible refine foldl_keeps (P := fun e : Eng => Stays k s0 e.s) (fun _ _ _ => ?_) ?_
    | split
    | dsimp only

theorem engFlushHbm_stays {s0 : State} {s : Eng} (h : Stays k s0 s.s) : Stays k s0 (engFlushHbm s).s := by
  unfold engFlushHbm
  repeat' first
    | with_reducible assumption
    | with_reducible apply hbmRefused_stays
    | with_reducible apply engStop_stays
    | with_reducible apply hbmCorrected_stays
    | with_reducible apply updHbm_stays
    | split
    | dsimp only

theorem engCtxRead_stays {s0 : State} {s : Eng} (h : Stays k s0 s.s) (a1 a2) : Stays k s0 (engCtxRead s a1 a2).2.s := by
  unfold engCtxRead
  repeat' first
    | with_reducible assumption
    | with_reducible apply engStop_stays
    | with_reducible apply engTranslate_stays
    | with_reducible apply engFlushHbm_stays
    | with_reducible apply engFindings_stays
    | split
    | dsimp only

theorem engRead_stays {s0 : State} {s : Eng} (h : Stays k s0 s.s) (a1 a2) : Stays k s0 (engRead s a1 a2).2.s := by
  unfold engRead
  repeat' first
    | with_reducible assumption
    | with_reducible apply engFlushSram_stays
    | with_reducible apply engFix_stays
    | with_reducible apply engSramStop_stays
    | split
    | dsimp only

theorem engOpen_stays {s0 : State} {s : State} (h : Stays k s0 s) (a1 a2 a3 a4 a5 a6) : Stays k s0 (engOpen s a1 a2 a3 a4 a5 a6).s := by
  unfold engOpen
  repeat' first
    | with_reducible assumption

theorem engFlush_stays {s0 : State} {s : Eng} (h : Stays k s0 s.s) : Stays k s0 (engFlush s).s := by
  unfold engFlush
  repeat' first
    | with_reducible assumption
    | with_reducible apply engFlushHbm_stays
    | with_reducible apply engFlushSram_stays

theorem engStopped_stays {s0 : State} {e : Eng} (h : Stays k s0 e.s) (e0) : Stays k s0 (engStopped e0 e).s := by
  unfold engStopped
  split <;> exact h

theorem engRun_stays {s0 s : State} (h : Stays k s0 s) {f : State → Option Nat → Eng} (hf : ∀ q n, Stays k s0 q → Stays k s0 (f q n).s) :
    Stays k s0 (engRun s f).s := by
  unfold engRun
  repeat' first
    | with_reducible assumption
    | with_reducible apply engFlush_stays
    | with_reducible apply engStopped_stays
    | with_reducible apply hf
    | split
    | simp only [Stays.lit_iff]

theorem engFlag_stays {s0 : State} {s : Eng} (h : Stays k s0 s.s) (a1) : Stays k s0 (engFlag s a1).s := by
  unfold engFlag
  repeat' first
    | with_reducible assumption

theorem engSpend_stays {s0 : State} {s : Eng} (h : Stays k s0 s.s) : Stays k s0 (engSpend s).2.s := by
  unfold engSpend
  repeat' first
    | with_reducible assumption
    | split

theorem engWrite_stays {s0 : State} {s : Eng} (h : Stays k s0 s.s) (a1 a2) : Stays k s0 (engWrite s a1 a2).s := by
  unfold engWrite
  repeat' first
    | with_reducible assumption
    | with_reducible apply engSpend_stays
    | with_reducible apply engFlushSram_stays
    | with_reducible refine stays_of_eng2 (by assumption) ?_
    | split
    | dsimp only

theorem engFirstWrite_stays {s0 : State} {s : Eng} (h : Stays k s0 s.s) (a1 a2 a3 a4) : Stays k s0 (engFirstWrite s a1 a2 a3 a4).s := by
  unfold engFirstWrite
  repeat' first
    | with_reducible assumption
    | with_reducible apply hbmCorrected_stays
    | with_reducible apply hbmPoisoned_stays
    | with_reducible apply engStop_stays
    | with_reducible apply updHbm_stays
    | with_reducible apply updCtx_stays
    | split
    | simp only [Stays.lit_iff]

theorem fetchUnits_stays {s0 : State} {s : State} (h : Stays k s0 s) (a1 a2 a3) : Stays k s0 (fetchUnits s a1 a2 a3) := by
  unfold fetchUnits
  repeat' first
    | with_reducible assumption
    | with_reducible apply startTxn_stays
    | with_reducible refine foldl_keeps (P := fun e : State => Stays k s0 e) (fun _ _ _ => ?_) ?_
    | split

theorem engHbmWrite_stays {s0 : State} {s : Eng} (h : Stays k s0 s.s) (a1 a2 a3 a4) : Stays k s0 (engHbmWrite s a1 a2 a3 a4).s := by
  unfold engHbmWrite
  repeat' first
    | with_reducible assumption
    | with_reducible apply updHbm_stays
    | with_reducible apply engFlushHbm_stays
    | split

theorem noteOut_stays {s0 : State} {s : Eng} (h : Stays k s0 s.s) (a1 a2) : Stays k s0 (noteOut s a1 a2).s := by
  unfold noteOut
  repeat' first
    | with_reducible assumption

theorem engDigest_stays {s0 : State} {s : Eng} (h : Stays k s0 s.s) (a1 a2 a3) : Stays k s0 (engDigest s a1 a2 a3).s := by
  unfold engDigest
  repeat' first
    | with_reducible assumption
    | with_reducible refine foldl_keeps (P := fun e : Eng => Stays k s0 e.s) (fun _ _ _ => ?_) ?_
    | split
    | dsimp only

theorem engCtxWrite_stays {s0 : State} {s : Eng} (h : Stays k s0 s.s) (a1 a2) : Stays k s0 (engCtxWrite s a1 a2).s := by
  unfold engCtxWrite
  repeat' first
    | with_reducible assumption
    | with_reducible apply engSpend_stays
    | with_reducible apply engStop_stays
    | with_reducible apply engTranslate_stays
    | with_reducible apply engFirstWrite_stays
    | with_reducible apply engHbmWrite_stays
    | with_reducible apply noteOut_stays
    | with_reducible apply updHbm_stays
    | with_reducible apply engDigest_stays
    | with_reducible refine stays_of_eng2 (by assumption) ?_
    | split
    | dsimp only

theorem sendOut_stays {s0 : State} {s : State} (h : Stays k s0 s) (a1 a2 a3 a4) : Stays k s0 (sendOut s a1 a2 a3 a4) := by
  unfold sendOut
  repeat' first
    | with_reducible assumption
    | with_reducible apply startTxn_stays
    | with_reducible refine foldl_keeps (P := fun e : State => Stays k s0 e) (fun _ _ _ => ?_) ?_
    | split

theorem engClose_stays {s0 : State} {s : Eng} (h : Stays k s0 s.s) (a1) : Stays k s0 (engClose s a1).1 := by
  unfold engClose
  repeat' first
    | with_reducible assumption
    | with_reducible apply updRegion_stays
    | with_reducible apply sramCorrected_stays
    | with_reducible apply sendOut_stays
    | split

theorem engFault_stays {s0 : State} {s : State} (h : Stays k s0 s) (a1 a2) : Stays k s0 (engFault s a1 a2) := by
  unfold engFault
  repeat' first
    | with_reducible assumption
    | with_reducible apply busFault_stays
    | split

theorem nextWaiting_stays {s0 : State} {s : State} (h : Stays k s0 s) : Stays k s0 (nextWaiting s) := by
  unfold nextWaiting
  repeat' first
    | with_reducible assumption
    | with_reducible apply beginTxn_stays
    | with_reducible apply updFab_stays
    | split

theorem freeTxn_stays {s0 : State} {s : State} (h : Stays k s0 s) (a1) : Stays k s0 (freeTxn s a1) := by
  unfold freeTxn
  repeat' first
    | with_reducible assumption
    | with_reducible apply nextWaiting_stays
    | with_reducible apply updFab_stays

/-! ## Operands -/

theorem engElem_stays {s0 : State} {s : Eng} (h : Stays k s0 s.s) (a1 a2) : Stays k s0 (engElem s a1 a2).2.s := by
  unfold engElem
  repeat' first
    | with_reducible assumption
    | with_reducible apply engCtxRead_stays
    | with_reducible apply engRead_stays
    | split

theorem engElems_stays {s0 : State} {e : Eng} (h : Stays k s0 e.s) (d i n) : Stays k s0 (engElems e d i n).2.s := by
  induction n generalizing e i with
  | zero => exact h
  | succ n ih =>
  unfold engElems
  repeat' first
    | with_reducible assumption
    | with_reducible apply ih
    | with_reducible apply engElem_stays

theorem engPutBytes_stays {s0 : State} {s : Eng} (h : Stays k s0 s.s) (a1 a2 a3) : Stays k s0 (engPutBytes s a1 a2 a3).s := by
  unfold engPutBytes
  repeat' first
    | with_reducible assumption
    | with_reducible apply engCtxWrite_stays
    | with_reducible apply engWrite_stays
    | split

theorem engPut_stays {s0 : State} {s : Eng} (h : Stays k s0 s.s) (a1 a2 a3) : Stays k s0 (engPut s a1 a2 a3).s := by
  unfold engPut
  repeat' first
    | with_reducible assumption
    | with_reducible apply engCtxRead_stays
    | with_reducible apply engRead_stays
    | with_reducible apply engPutBytes_stays
    | split

theorem engPutPair_stays {s0 : State} {s : Eng} (h : Stays k s0 s.s) (a1 a2 a3 a4) : Stays k s0 (engPutPair s a1 a2 a3 a4).s := by
  unfold engPutPair
  repeat' first
    | with_reducible assumption
    | with_reducible apply engPutBytes_stays

theorem engPutAll_stays {s0 : State} {e : Eng} (h : Stays k s0 e.s) (d i l) : Stays k s0 (engPutAll e d i l).s := by
  induction l generalizing e i with
  | nil => exact h
  | cons a l ih =>
  unfold engPutAll
  repeat' first
    | with_reducible assumption
    | with_reducible apply ih
    | with_reducible apply engPut_stays

end Sys2Proof.Machine
end

