-- ==== Sys2Proof/Laws/KeptCluster.lean ====
section
/-! SUPPORT. `Stays` for the array, the vector engine, the channels and the solver engine. -/

namespace Sys2Proof.Machine

set_option Elab.async false

variable {k : Part → Bool}

/-! ## Array -/

theorem chargeRetry_stays {s0 : State} {s : State} (h : Stays k s0 s) (a1 a2 a3 a4 a5) : Stays k s0 (chargeRetry s a1 a2 a3 a4 a5) := by
  unfold chargeRetry
  repeat' first
    | with_reducible assumption
    | with_reducible apply corrected_stays
    | with_reducible apply updRegion_stays
    | with_reducible apply streamFault_stays
    | split
    | dsimp only

theorem preElem_stays {s0 : State} {s : Eng} (h : Stays k s0 s.s) (a1 a2 a3 a4) : Stays k s0 (preElem s a1 a2 a3 a4).2.2.s := by
  unfold preElem
  repeat' first
    | with_reducible assumption
    | with_reducible apply engElem_stays
    | with_reducible apply engStop_stays
    | split

theorem drainCell_stays {s0 : State} {s : Drain} (h : Stays k s0 s.e.s) (a1 a2 a3 a4) : Stays k s0 (drainCell s a1 a2 a3 a4).e.s := by
  unfold drainCell
  repeat' first
    | with_reducible assumption
    | with_reducible apply engElem_stays
    | with_reducible apply engPut_stays
    | with_reducible refine stays_of_eng2 (by assumption) ?_
    | split
    | dsimp only

theorem sideVec_stays {s0 : State} {s : Eng} (h : Stays k s0 s.s) (a1 a2 a3 a4 a5) : Stays k s0 (sideVec s a1 a2 a3 a4 a5).2.s := by
  unfold sideVec
  repeat' first
    | with_reducible assumption
    | with_reducible apply engStop_stays
    | with_reducible apply engElems_stays
    | split
    | dsimp only

theorem feedStep_stays {s0 : State} {s : Feed} (h : Stays k s0 s.e.s) (a1) : Stays k s0 (feedStep s a1).e.s := by
  unfold feedStep
  repeat' first
    | with_reducible assumption
    | with_reducible apply sideVec_stays

theorem sideScale_stays {s0 : State} {s : Eng} (h : Stays k s0 s.s) (a1 a2) : Stays k s0 (sideScale s a1 a2).2.s := by
  unfold sideScale
  repeat' first
    | with_reducible assumption
    | with_reducible apply engElems_stays
    | with_reducible refine stays_of_eng2 (by assumption) ?_
    | split

theorem feedClose_stays {s0 : State} {s : Feed} (h : Stays k s0 s.e.s) (a1 a2 a3) : Stays k s0 (feedClose s a1 a2 a3) := by
  unfold feedClose
  repeat' first
    | with_reducible assumption
    | with_reducible apply engClose_stays
    | with_reducible apply updRegion_stays
    | with_reducible apply engFault_stays

theorem feedResident_stays {s0 : State} {f : Feed} (h : Stays k s0 f.e.s) (p n) : Stays k s0 (feedResident p n f).e.s := by
  induction n generalizing f with
  | zero => exact h
  | succ n ih =>
  unfold feedResident
  repeat' first
    | with_reducible assumption
    | with_reducible apply ih
    | with_reducible apply feedStep_stays
    | split
    | dsimp only

theorem execPassStart_stays {s0 s t : State} (h : Stays k s0 s) (a1 a2) (ht : execPassStart a1 a2 s = .next t) : Stays k s0 t := by
  unfold execPassStart at ht
  cases ht
  repeat' first
    | with_reducible assumption
    | with_reducible apply engOpen_stays
    | with_reducible apply sideScale_stays
    | with_reducible apply streamFault_stays
    | with_reducible apply feedClose_stays
    | with_reducible apply feedResident_stays
    | with_reducible apply engFault_stays
    | with_reducible apply engClose_stays
    | split
    | dsimp only

theorem execDirectFeed_stays {s0 s t : State} (h : Stays k s0 s) (a1 a2) (ht : execDirectFeed a1 a2 s = .next t) : Stays k s0 t := by
  unfold execDirectFeed at ht
  cases ht
  repeat' first
    | with_reducible assumption
    | with_reducible apply fetchUnits_stays
    | with_reducible apply updRegion_stays
    | with_reducible apply engOpen_stays
    | with_reducible apply feedStep_stays
    | with_reducible apply feedClose_stays
    | with_reducible apply feedResident_stays
    | with_reducible apply engFault_stays
    | split
    | simp only [Stays.lit_iff]

theorem preCells_stays {s0 : State} {s : Eng} (h : Stays k s0 s.s) (a1 a2) : Stays k s0 (preCells s a1 a2).2.2.s := by
  unfold preCells
  repeat' first
    | with_reducible assumption
    | with_reducible apply preElem_stays
    | with_reducible refine foldl_keeps (P := fun e : _ × _ × Eng => Stays k s0 e.2.2.s) (fun _ _ _ => ?_) ?_
    | split

theorem execPreloadSweep_stays {s0 s t : State} (h : Stays k s0 s) (a1 a2 a3) (ht : execPreloadSweep a1 a2 a3 s = .next t) : Stays k s0 t := by
  unfold execPreloadSweep at ht
  cases ht
  repeat' first
    | with_reducible assumption
    | with_reducible apply engOpen_stays
    | with_reducible apply preCells_stays
    | with_reducible apply engClose_stays
    | with_reducible apply engFault_stays
    | with_reducible apply updRegion_stays
    | split
    | dsimp only

theorem execDrainSweep_stays {s0 s t : State} (h : Stays k s0 s) (a1 a2) (ht : execDrainSweep a1 a2 s = .next t) : Stays k s0 t := by
  unfold execDrainSweep at ht
  cases ht
  repeat' first
    | with_reducible assumption
    | with_reducible apply engOpen_stays
    | with_reducible apply drainCell_stays
    | with_reducible apply engFlush_stays
    | with_reducible apply engStopped_stays
    | with_reducible apply preCells_stays
    | with_reducible apply engClose_stays
    | with_reducible apply engFault_stays
    | with_reducible apply updRegion_stays
    | with_reducible refine foldl_keeps (P := fun e : Drain => Stays k s0 e.e.s) (fun _ _ _ => ?_) ?_
    | split
    | simp only [Stays.lit_iff]

theorem lockCompare_stays {s0 : State} {s : State} (h : Stays k s0 s) (a1 a2) : Stays k s0 (lockCompare s a1 a2) := by
  unfold lockCompare
  repeat' first
    | with_reducible assumption
    | with_reducible apply raiseFault_stays
    | with_reducible apply post_stays
    | with_reducible apply postAll_stays
    | split
    | dsimp only

theorem lockRecord_stays {s0 : State} {s : State} (h : Stays k s0 s) (a1 a2 a3 a4 a5) : Stays k s0 (lockRecord s a1 a2 a3 a4 a5) := by
  unfold lockRecord
  repeat' first
    | with_reducible assumption
    | with_reducible apply startTxn_stays
    | with_reducible apply lockCompare_stays
    | split
    | simp only [Stays.lit_iff]

theorem passDone_stays {s0 : State} {s : State} (h : Stays k s0 s) (a1 a2 a3) : Stays k s0 (passDone s a1 a2 a3) := by
  unfold passDone
  repeat' first
    | with_reducible assumption
    | with_reducible apply updRegion_stays
    | with_reducible apply lockRecord_stays
    | split

theorem execPassCompletion_stays {s0 s t : State} (h : Stays k s0 s) (a1 a2) (ht : execPassCompletion a1 a2 s = .next t) : Stays k s0 t := by
  unfold execPassCompletion at ht
  cases ht
  repeat' first
    | with_reducible assumption
    | with_reducible apply updRegion_stays
    | with_reducible apply passDone_stays
    | split
    | dsimp only

theorem macroRetry_stays {s0 : State} {s : State} (h : Stays k s0 s) (a1 a2) : Stays k s0 (macroRetry s a1 a2) := by
  unfold macroRetry
  repeat' first
    | with_reducible assumption
    | with_reducible apply chargeRetry_stays
    | split

theorem retryRun_stays {s0 : State} {s : State} (h : Stays k s0 s) (a1 a2 a3 a4) : Stays k s0 (retryRun s a1 a2 a3 a4) := by
  unfold retryRun
  repeat' first
    | with_reducible assumption
    | with_reducible apply updRegion_stays
    | with_reducible apply chargeRetry_stays
    | split

theorem execPassRetry_stays {s0 s t : State} (h : Stays k s0 s) (a1 a2) (ht : execPassRetry a1 a2 s = .next t) : Stays k s0 t := by
  unfold execPassRetry at ht
  cases ht
  repeat' first
    | with_reducible assumption
    | with_reducible apply macroRetry_stays
    | with_reducible apply retryRun_stays
    | split

theorem execDrainRowRecompute_stays {s0 s t : State} (h : Stays k s0 s) (a1 a2) (ht : execDrainRowRecompute a1 a2 s = .next t) : Stays k s0 t := by
  unfold execDrainRowRecompute at ht
  cases ht
  repeat' first
    | with_reducible assumption
    | with_reducible apply macroRetry_stays
    | with_reducible apply retryRun_stays
    | split

theorem execSolverBorrow_stays {s0 s t : State} (h : Stays k s0 s) (a1 a2) (ht : execSolverBorrow a1 a2 s = .next t) : Stays k s0 t := by
  unfold execSolverBorrow at ht
  cases ht
  repeat' first
    | with_reducible assumption
    | with_reducible apply updRegion_stays
    | split

/-! ## VectorEng -/

theorem vFlag_stays {s0 : State} {s : VAcc} (h : Stays k s0 s.e.s) (a1) : Stays k s0 (vFlag s a1).e.s := by
  unfold vFlag
  repeat' first
    | with_reducible assumption
    | with_reducible apply engFlag_stays

theorem vRead_stays {s0 : State} {s : VAcc} (h : Stays k s0 s.e.s) (a1 a2) : Stays k s0 (vRead s a1 a2).2.e.s := by
  unfold vRead
  repeat' first
    | with_reducible assumption
    | with_reducible apply engStop_stays
    | with_reducible apply vFlag_stays
    | with_reducible apply engElem_stays
    | split

theorem vInput_stays {s0 : State} {s : VAcc} (h : Stays k s0 s.e.s) (a1 a2 a3 a4) : Stays k s0 (vInput s a1 a2 a3 a4).2.e.s := by
  unfold vInput
  repeat' first
    | with_reducible assumption
    | with_reducible apply vRead_stays
    | split

theorem vCheck_stays {s0 : State} {s : VAcc} (h : Stays k s0 s.e.s) (a1) : Stays k s0 (vCheck s a1).e.s := by
  unfold vCheck
  repeat' first
    | with_reducible assumption

theorem vResult_stays {s0 : State} {s : VAcc} (h : Stays k s0 s.e.s) (a1 a2) : Stays k s0 (vResult s a1 a2).2.e.s := by
  unfold vResult
  repeat' first
    | with_reducible assumption
    | with_reducible apply vInput_stays
    | with_reducible apply vCheck_stays
    | with_reducible apply vFlag_stays
    | with_reducible refine stays_of_acc2 (by assumption) ?_
    | split

theorem vWrite_stays {s0 : State} {s : VAcc} (h : Stays k s0 s.e.s) (a1 a2 a3) : Stays k s0 (vWrite s a1 a2 a3).e.s := by
  unfold vWrite
  repeat' first
    | with_reducible assumption
    | with_reducible apply engPut_stays

theorem putResult_stays {s0 : State} {s : VAcc} (h : Stays k s0 s.e.s) (a1 a2 a3 a4 a5) : Stays k s0 (putResult s a1 a2 a3 a4 a5).e.s := by
  unfold putResult
  repeat' first
    | with_reducible assumption
    | with_reducible apply vWrite_stays
    | with_reducible apply vFlag_stays

theorem runVmap_stays {s0 : State} {s : VAcc} (h : Stays k s0 s.e.s) (a1 a2) : Stays k s0 (runVmap s a1 a2).e.s := by
  unfold runVmap
  repeat' first
    | with_reducible assumption
    | with_reducible apply vResult_stays
    | with_reducible apply vRead_stays
    | with_reducible apply vWrite_stays
    | with_reducible apply putResult_stays
    | with_reducible refine stays_of_acc2 (by assumption) ?_
    | with_reducible refine foldl_keeps (P := fun e : VAcc => Stays k s0 e.e.s) (fun _ _ _ => ?_) ?_
    | split

theorem vectorResults_stays {s0 : State} {s : VAcc} (h : Stays k s0 s.e.s) (a1 a2 a3) : Stays k s0 (vectorResults s a1 a2 a3).2.e.s := by
  unfold vectorResults
  repeat' first
    | with_reducible assumption
    | with_reducible apply vResult_stays
    | with_reducible refine foldl_keeps (P := fun e : _ × VAcc => Stays k s0 e.2.e.s) (fun _ _ _ => ?_) ?_

theorem reduceGroup_stays {s0 : State} {s : VAcc} (h : Stays k s0 s.e.s) (a1 a2) : Stays k s0 (reduceGroup s a1 a2).2.2.e.s := by
  unfold reduceGroup
  repeat' first
    | with_reducible assumption
    | with_reducible apply vectorResults_stays
    | with_reducible apply vCheck_stays
    | with_reducible refine foldl_keeps (P := fun e : _ × VAcc => Stays k s0 e.2.e.s) (fun _ _ _ => ?_) ?_
    | split
    | dsimp only

theorem runVred_stays {s0 : State} {s : VAcc} (h : Stays k s0 s.e.s) (a1 a2) : Stays k s0 (runVred s a1 a2).e.s := by
  unfold runVred
  repeat' first
    | with_reducible assumption
    | with_reducible apply reduceGroup_stays
    | with_reducible apply vWrite_stays
    | with_reducible apply vFlag_stays
    | with_reducible refine stays_of_acc22 (by assumption) ?_
    | with_reducible refine foldl_keeps (P := fun e : VAcc => Stays k s0 e.e.s) (fun _ _ _ => ?_) ?_
    | split
    | dsimp only

theorem runVtopk_stays {s0 : State} {s : VAcc} (h : Stays k s0 s.e.s) (a1 a2 a3) : Stays k s0 (runVtopk s a1 a2 a3).e.s := by
  unfold runVtopk
  repeat' first
    | with_reducible assumption
    | with_reducible apply vectorResults_stays
    | with_reducible apply vWrite_stays
    | with_reducible apply vFlag_stays
    | with_reducible refine foldl_keeps (P := fun e : VAcc => Stays k s0 e.e.s) (fun _ _ _ => ?_) ?_
    | with_reducible refine foldl_keeps (P := fun e : _ × VAcc => Stays k s0 e.2.e.s) (fun _ _ _ => ?_) ?_
    | split

theorem runVcmprs_stays {s0 : State} {s : VAcc} (h : Stays k s0 s.e.s) (a1 a2 a3 a4) : Stays k s0 (runVcmprs s a1 a2 a3 a4).e.s := by
  unfold runVcmprs
  repeat' first
    | with_reducible assumption
    | with_reducible apply vResult_stays
    | with_reducible apply vRead_stays
    | with_reducible apply vWrite_stays
    | with_reducible apply vFlag_stays
    | with_reducible refine stays_of_acc1 (by assumption) ?_
    | with_reducible refine stays_of_acc2 (by assumption) ?_
    | with_reducible refine foldl_keeps (P := fun e : VAcc × _ => Stays k s0 e.1.e.s) (fun _ _ _ => ?_) ?_
    | split
    | dsimp only

theorem runVexpnd_stays {s0 : State} {s : VAcc} (h : Stays k s0 s.e.s) (a1 a2 a3) : Stays k s0 (runVexpnd s a1 a2 a3).e.s := by
  unfold runVexpnd
  repeat' first
    | with_reducible assumption
    | with_reducible apply vResult_stays
    | with_reducible apply vRead_stays
    | with_reducible apply vWrite_stays
    | with_reducible apply vFlag_stays
    | with_reducible refine foldl_keeps (P := fun e : VAcc × _ => Stays k s0 e.1.e.s) (fun _ _ _ => ?_) ?_
    | split
    | dsimp only

theorem smaxRow_stays {s0 : State} {s : VAcc} (h : Stays k s0 s.e.s) (a1 a2 a3) : Stays k s0 (smaxRow s a1 a2 a3).2.e.s := by
  unfold smaxRow
  repeat' first
    | with_reducible assumption
    | with_reducible apply vectorResults_stays
    | with_reducible apply vCheck_stays
    | with_reducible refine foldl_keeps (P := fun e : _ × VAcc => Stays k s0 e.2.e.s) (fun _ _ _ => ?_) ?_

theorem smaxWrite_stays {s0 : State} {s : VAcc} (h : Stays k s0 s.e.s) (a1 a2 a3 a4) : Stays k s0 (smaxWrite s a1 a2 a3 a4).e.s := by
  unfold smaxWrite
  repeat' first
    | with_reducible assumption
    | with_reducible apply vResult_stays
    | with_reducible apply putResult_stays
    | with_reducible apply vWrite_stays
    | with_reducible refine foldl_keeps (P := fun e : VAcc => Stays k s0 e.e.s) (fun _ _ _ => ?_) ?_
    | split
    | dsimp only

theorem runVsmax_stays {s0 : State} {s : VAcc} (h : Stays k s0 s.e.s) (a1 a2 a3) : Stays k s0 (runVsmax s a1 a2 a3).e.s := by
  unfold runVsmax
  repeat' first
    | with_reducible assumption
    | with_reducible apply engRead_stays
    | with_reducible apply smaxRow_stays
    | with_reducible apply engStop_stays
    | with_reducible apply engWrite_stays
    | with_reducible apply smaxWrite_stays
    | with_reducible refine stays_of_acc2 (by assumption) ?_
    | with_reducible refine foldl_keeps (P := fun e : VAcc => Stays k s0 e.e.s) (fun _ _ _ => ?_) ?_
    | split
    | dsimp only

theorem vIndex_stays {s0 : State} {s : VAcc} (h : Stays k s0 s.e.s) (a1 a2) : Stays k s0 (vIndex s a1 a2).2.e.s := by
  unfold vIndex
  repeat' first
    | with_reducible assumption
    | with_reducible apply vRead_stays
    | split

theorem noteOor_stays {s0 : State} {s : VAcc} (h : Stays k s0 s.e.s) : Stays k s0 (noteOor s).e.s := by
  unfold noteOor
  repeat' first
    | with_reducible assumption

theorem runVgath_stays {s0 : State} {s : VAcc} (h : Stays k s0 s.e.s) (a1 a2 a3) : Stays k s0 (runVgath s a1 a2 a3).e.s := by
  unfold runVgath
  repeat' first
    | with_reducible assumption
    | with_reducible apply vIndex_stays
    | with_reducible apply vRead_stays
    | with_reducible apply vWrite_stays
    | with_reducible apply vFlag_stays
    | with_reducible apply noteOor_stays
    | with_reducible refine stays_of_acc2 (by assumption) ?_
    | with_reducible refine foldl_keeps (P := fun e : VAcc => Stays k s0 e.e.s) (fun _ _ _ => ?_) ?_
    | split

theorem runVscat_stays {s0 : State} {s : VAcc} (h : Stays k s0 s.e.s) (a1 a2 a3) : Stays k s0 (runVscat s a1 a2 a3).e.s := by
  unfold runVscat
  repeat' first
    | with_reducible assumption
    | with_reducible apply vIndex_stays
    | with_reducible apply vRead_stays
    | with_reducible apply vWrite_stays
    | with_reducible apply vFlag_stays
    | with_reducible apply noteOor_stays
    | with_reducible refine stays_of_acc2 (by assumption) ?_
    | with_reducible refine foldl_keeps (P := fun e : VAcc => Stays k s0 e.e.s) (fun _ _ _ => ?_) ?_
    | split

theorem runVscadd_stays {s0 : State} {s : VAcc} (h : Stays k s0 s.e.s) (a1 a2 a3) : Stays k s0 (runVscadd s a1 a2 a3).e.s := by
  unfold runVscadd
  repeat' first
    | with_reducible assumption
    | with_reducible apply vIndex_stays
    | with_reducible apply vRead_stays
    | with_reducible apply vWrite_stays
    | with_reducible apply vFlag_stays
    | with_reducible apply noteOor_stays
    | with_reducible refine stays_of_acc2 (by assumption) ?_
    | with_reducible refine foldl_keeps (P := fun e : VAcc => Stays k s0 e.e.s) (fun _ _ _ => ?_) ?_
    | split

theorem runVl128_stays {s0 : State} {s : VAcc} (h : Stays k s0 s.e.s) (a1 a2 a3) : Stays k s0 (runVl128 s a1 a2 a3).e.s := by
  unfold runVl128
  repeat' first
    | with_reducible assumption
    | with_reducible apply vRead_stays
    | with_reducible apply vFlag_stays
    | with_reducible apply vWrite_stays
    | with_reducible refine stays_of_acc2 (by assumption) ?_
    | with_reducible refine foldl_keeps (P := fun e : VAcc => Stays k s0 e.e.s) (fun _ _ _ => ?_) ?_
    | split
    | dsimp only

theorem vWrites_stays {s0 : State} {s : VAcc} (h : Stays k s0 s.e.s) (a1 a2 a3) : Stays k s0 (vWrites s a1 a2 a3).e.s := by
  unfold vWrites
  repeat' first
    | with_reducible assumption
    | with_reducible apply vWrite_stays
    | with_reducible refine foldl_keeps (P := fun e : VAcc => Stays k s0 e.e.s) (fun _ _ _ => ?_) ?_

theorem vReads'_stays {s0 : State} {s : VAcc} (h : Stays k s0 s.e.s) (a1 a2 a3) : Stays k s0 (vReads' s a1 a2 a3).2.e.s := by
  unfold vReads'
  repeat' first
    | with_reducible assumption
    | with_reducible apply vRead_stays
    | with_reducible refine foldl_keeps (P := fun e : _ × VAcc => Stays k s0 e.2.e.s) (fun _ _ _ => ?_) ?_

theorem runVg16_stays {s0 : State} {s : VAcc} (h : Stays k s0 s.e.s) (a1 a2 a3 a4 a5) : Stays k s0 (runVg16 s a1 a2 a3 a4 a5).e.s := by
  unfold runVg16
  repeat' first
    | with_reducible assumption
    | with_reducible apply vRead_stays
    | with_reducible apply vWrite_stays
    | with_reducible apply vWrites_stays
    | with_reducible apply vReads'_stays
    | with_reducible apply vFlag_stays
    | with_reducible refine foldl_keeps (P := fun e : VAcc => Stays k s0 e.e.s) (fun _ _ _ => ?_) ?_
    | split
    | dsimp only

theorem runVtw16_stays {s0 : State} {s : VAcc} (h : Stays k s0 s.e.s) (a1 a2 a3 a4 a5) : Stays k s0 (runVtw16 s a1 a2 a3 a4 a5).e.s := by
  unfold runVtw16
  repeat' first
    | with_reducible assumption
    | with_reducible apply vReads'_stays
    | with_reducible apply vWrites_stays
    | with_reducible apply vWrite_stays
    | with_reducible apply vRead_stays
    | with_reducible apply vFlag_stays
    | with_reducible refine foldl_keeps (P := fun e : VAcc => Stays k s0 e.e.s) (fun _ _ _ => ?_) ?_
    | split
    | dsimp only

theorem runVec_stays {s0 : State} {s : VAcc} (h : Stays k s0 s.e.s) : Stays k s0 (runVec s).e.s := by
  unfold runVec
  repeat' first
    | with_reducible assumption
    | with_reducible apply runVmap_stays
    | with_reducible apply runVred_stays
    | with_reducible apply runVtopk_stays
    | with_reducible apply runVcmprs_stays
    | with_reducible apply runVexpnd_stays
    | with_reducible apply runVsmax_stays
    | with_reducible apply runVgath_stays
    | with_reducible apply runVscat_stays
    | with_reducible apply runVscadd_stays
    | with_reducible apply runVl128_stays
    | with_reducible apply runVg16_stays
    | with_reducible apply runVtw16_stays
    | split
    | dsimp only

theorem execVectorStart_stays {s0 s t : State} (h : Stays k s0 s) (a1 a2) (ht : execVectorStart a1 a2 s = .next t) : Stays k s0 t := by
  unfold execVectorStart at ht
  cases ht
  repeat' first
    | with_reducible assumption
    | with_reducible apply streamFault_stays
    | with_reducible apply runVec_stays
    | with_reducible apply engOpen_stays
    | with_reducible apply engFlush_stays
    | with_reducible apply engStopped_stays
    | with_reducible apply engClose_stays
    | with_reducible apply engFault_stays
    | with_reducible apply updRegion_stays
    | split
    | simp only [Stays.lit_iff]

theorem execVectorRetry_stays {s0 s t : State} (h : Stays k s0 s) (a1 a2) (ht : execVectorRetry a1 a2 s = .next t) : Stays k s0 t := by
  unfold execVectorRetry at ht
  cases ht
  repeat' first
    | with_reducible assumption
    | with_reducible apply updRegion_stays
    | with_reducible apply chargeRetry_stays
    | split

theorem execVectorCompletion_stays {s0 s t : State} (h : Stays k s0 s) (a1 a2) (ht : execVectorCompletion a1 a2 s = .next t) : Stays k s0 t := by
  unfold execVectorCompletion at ht
  cases ht
  repeat' first
    | with_reducible assumption
    | with_reducible apply updRegion_stays
    | split

/-! ## Channel -/

theorem noteAdmitted_stays {s0 : State} {s : State} (h : Stays k s0 s) (a1 a2) : Stays k s0 (noteAdmitted s a1 a2) := by
  unfold noteAdmitted
  repeat' first
    | with_reducible assumption
    | with_reducible apply updRegion_stays

theorem landBytes_stays {s0 : State} {s : State} (h : Stays k s0 s) (a1 a2 a3) : Stays k s0 (landBytes s a1 a2 a3).1 := by
  unfold landBytes
  repeat' first
    | with_reducible assumption
    | with_reducible apply busFault_stays
    | with_reducible apply sramCorrected_stays
    | with_reducible apply updRegion_stays
    | split
    | dsimp only

theorem fabricEvent_stays {s0 : State} {s : State} (h : Stays k s0 s) (a1 a2) : Stays k s0 (fabricEvent s a1 a2) := by
  unfold fabricEvent
  repeat' first
    | with_reducible assumption
    | with_reducible apply updRegion_stays
    | split

theorem sendLanded_stays {s0 : State} {s : State} (h : Stays k s0 s) (a1 a2 a3 a4) : Stays k s0 (sendLanded s a1 a2 a3 a4) := by
  unfold sendLanded
  repeat' first
    | with_reducible assumption
    | with_reducible apply updRegion_stays
    | with_reducible apply fabricEvent_stays
    | split

theorem setRun_stays {s0 : State} {s : State} (h : Stays k s0 s) (a1 a2 a3) : Stays k s0 (setRun s a1 a2 a3) := by
  unfold setRun
  repeat' first
    | with_reducible assumption
    | with_reducible apply updRegion_stays

theorem sendSource_stays {s0 : State} {s : State} (h : Stays k s0 s) (a1 a2) : Stays k s0 (sendSource s a1 a2).2.s := by
  unfold sendSource
  repeat' first
    | with_reducible assumption
    | with_reducible apply engElems_stays
    | with_reducible apply engOpen_stays

theorem tileElem_stays {s0 : State} {s : Eng} (h : Stays k s0 s.s) (a1 a2) : Stays k s0 (tileElem s a1 a2).2.s := by
  unfold tileElem
  repeat' first
    | with_reducible assumption
    | with_reducible apply engStop_stays
    | split

theorem copyRead_stays {s0 : State} {s : Eng} (h : Stays k s0 s.s) (a1 a2 a3) : Stays k s0 (copyRead s a1 a2 a3).2.s := by
  unfold copyRead
  repeat' first
    | with_reducible assumption
    | with_reducible apply tileElem_stays
    | with_reducible apply engElem_stays
    | split

theorem copyStep_stays {s0 : State} {s : Eng} (h : Stays k s0 s.s) (a1 a2 a3 a4) : Stays k s0 (copyStep a1 a2 a3 a4 s).2.s := by
  unfold copyStep
  repeat' first
    | with_reducible assumption
    | with_reducible apply copyRead_stays
    | with_reducible apply engFlag_stays

theorem copyFrom_stays {s0 : State} {e : Eng} (h : Stays k s0 e.s) (src dst tile n i) : Stays k s0 (copyFrom src dst tile n i e).s := by
  induction n using Nat.strongRecOn generalizing e i with
  | ind n ih =>
  unfold copyFrom
  repeat' first
    | with_reducible assumption
    | with_reducible apply ih _ (by omega)
    | with_reducible apply copyStep_stays
    | with_reducible apply engPut_stays
    | with_reducible apply engPutPair_stays
    | with_reducible refine stays_of_eng2 (by assumption) ?_
    | split

theorem moveElems_stays {s0 : State} {s : State} (h : Stays k s0 s) (a1 a2 a3 a4 a5) : Stays k s0 (moveElems s a1 a2 a3 a4 a5).1 := by
  unfold moveElems
  repeat' first
    | with_reducible assumption
    | with_reducible apply engRun_stays
    | with_reducible apply copyFrom_stays
    | with_reducible apply engOpen_stays
    | with_reducible apply engClose_stays
    | with_reducible apply updRegion_stays
    | (intro d q hq)

theorem noteSend_stays {s0 : State} {s : State} (h : Stays k s0 s) (a1 a2 a3 a4 a5 a6) : Stays k s0 (noteSend s a1 a2 a3 a4 a5 a6) := by
  unfold noteSend
  repeat' first
    | with_reducible assumption
    | with_reducible apply updFab_stays

theorem sendAway_stays {s0 : State} {s : State} (h : Stays k s0 s) (a1 a2 a3 a4) : Stays k s0 (sendAway s a1 a2 a3 a4) := by
  unfold sendAway
  repeat' first
    | with_reducible assumption
    | with_reducible apply sendSource_stays
    | with_reducible apply engClose_stays
    | with_reducible refine drawTag_stays (by assumption) ?_
    | with_reducible apply engFault_stays
    | with_reducible apply setRun_stays
    | with_reducible apply noteSend_stays
    | with_reducible apply sendOn_stays
    | with_reducible refine foldl_keeps (P := fun e : State => Stays k s0 e) (fun _ _ _ => ?_) ?_
    | split
    | dsimp only

theorem landRuns_stays {s0 : State} {s : State} (h : Stays k s0 s) (t l) : Stays k s0 (landRuns s t l).1 := by
  induction l generalizing s with
  | nil => exact h
  | cons a l ih =>
  unfold landRuns
  repeat' first
    | with_reducible assumption
    | with_reducible apply ih
    | with_reducible apply landBytes_stays
    | with_reducible refine stays_of_state1 (by assumption) ?_
    | split

theorem sendHere_stays {s0 : State} {s : State} (h : Stays k s0 s) (a1 a2 a3) : Stays k s0 (sendHere s a1 a2 a3) := by
  unfold sendHere
  repeat' first
    | with_reducible assumption
    | with_reducible apply streamFault_stays
    | with_reducible apply setRun_stays
    | with_reducible apply noteAdmitted_stays
    | with_reducible refine drawTag_stays (by assumption) ?_
    | with_reducible apply sendAway_stays
    | with_reducible apply sendSource_stays
    | with_reducible apply engClose_stays
    | with_reducible apply engFault_stays
    | with_reducible apply noteSend_stays
    | with_reducible apply landRuns_stays
    | with_reducible apply updRegion_stays
    | split
    | dsimp only

theorem openWindow_stays {s0 : State} {s : State} (h : Stays k s0 s) (a1 a2) : Stays k s0 (openWindow s a1 a2) := by
  unfold openWindow
  repeat' first
    | with_reducible assumption
    | with_reducible apply updRegion_stays

theorem chanEffects_stays {s0 : State} {s : State} (h : Stays k s0 s) (a1 a2 a3) : Stays k s0 (chanEffects s a1 a2 a3) := by
  unfold chanEffects
  repeat' first
    | with_reducible assumption
    | with_reducible apply updRegion_stays
    | with_reducible apply sendLanded_stays
    | with_reducible apply freeTxn_stays
    | with_reducible apply fabricEvent_stays
    | split

theorem settle_stays {s0 : State} {s : State} (h : Stays k s0 s) (a1 a2 a3) : Stays k s0 (settle s a1 a2 a3) := by
  unfold settle
  repeat' first
    | with_reducible assumption
    | with_reducible apply updRegion_stays

theorem moveData_stays {s0 : State} {s : State} (h : Stays k s0 s) (a1 a2 a3) : Stays k s0 (moveData s a1 a2 a3) := by
  unfold moveData
  repeat' first
    | with_reducible assumption
    | with_reducible apply moveElems_stays
    | with_reducible apply engFault_stays
    | with_reducible apply settle_stays

theorem fillData_stays {s0 : State} {s : State} (h : Stays k s0 s) (a1 a2 a3) : Stays k s0 (fillData s a1 a2 a3) := by
  unfold fillData
  repeat' first
    | with_reducible assumption
    | with_reducible apply setRun_stays
    | with_reducible apply moveElems_stays
    | with_reducible apply updRegion_stays
    | with_reducible apply engFault_stays
    | with_reducible apply settle_stays
    | split
    | dsimp only

theorem chanWork_stays {s0 : State} {s : State} (h : Stays k s0 s) (a1 a2 a3) : Stays k s0 (chanWork s a1 a2 a3) := by
  unfold chanWork
  repeat' first
    | with_reducible assumption
    | with_reducible apply setRun_stays
    | with_reducible apply sendAway_stays
    | with_reducible apply sendHere_stays
    | with_reducible apply fetchUnits_stays
    | with_reducible apply fillData_stays
    | with_reducible apply moveData_stays
    | split
    | dsimp only

theorem execChannelOpStart_stays {s0 s t : State} (h : Stays k s0 s) (a1 a2) (ht : execChannelOpStart a1 a2 s = .next t) : Stays k s0 t := by
  unfold execChannelOpStart at ht
  cases ht
  repeat' first
    | with_reducible assumption
    | with_reducible apply updRegion_stays
    | with_reducible apply chanWork_stays
    | with_reducible apply openWindow_stays
    | split

theorem execChannelOpCompletion_stays {s0 s t : State} (h : Stays k s0 s) (a1 a2) (ht : execChannelOpCompletion a1 a2 s = .next t) : Stays k s0 t := by
  unfold execChannelOpCompletion at ht
  cases ht
  repeat' first
    | with_reducible assumption
    | with_reducible apply addTiles_stays
    | with_reducible apply chanEffects_stays
    | with_reducible apply updRegion_stays
    | split

/-! ## Solver -/

theorem blkRead_stays {s0 : State} {s : Eng} (h : Stays k s0 s.s) (a1 a2 a3) : Stays k s0 (blkRead s a1 a2 a3).2.s := by
  unfold blkRead
  repeat' first
    | with_reducible assumption
    | with_reducible apply engCtxRead_stays
    | with_reducible apply engRead_stays
    | with_reducible refine stays_of_eng2 (by assumption) ?_
    | split

theorem blkWrite_stays {s0 : State} {s : Eng} (h : Stays k s0 s.s) (a1 a2 a3 a4) : Stays k s0 (blkWrite s a1 a2 a3 a4).s := by
  unfold blkWrite
  repeat' first
    | with_reducible assumption
    | with_reducible apply engCtxWrite_stays
    | with_reducible apply engWrite_stays
    | split

theorem takeSolver_stays {s0 : State} {s : State} (h : Stays k s0 s) (a1 a2) : Stays k s0 (takeSolver s a1 a2) := by
  unfold takeSolver
  repeat' first
    | with_reducible assumption
    | with_reducible apply updRegion_stays
    | split

theorem writeUpper_stays {s0 : State} {s : Eng} (h : Stays k s0 s.s) (a1 a2 a3) : Stays k s0 (writeUpper s a1 a2 a3).s := by
  unfold writeUpper
  repeat' first
    | with_reducible assumption
    | with_reducible apply blkWrite_stays
    | with_reducible refine foldl_keeps (P := fun e : Eng => Stays k s0 e.s) (fun _ _ _ => ?_) ?_
    | split
    | dsimp only

theorem writeFull_stays {s0 : State} {s : Eng} (h : Stays k s0 s.s) (a1 a2 a3 a4) : Stays k s0 (writeFull s a1 a2 a3 a4).s := by
  unfold writeFull
  repeat' first
    | with_reducible assumption
    | with_reducible apply blkWrite_stays
    | with_reducible refine foldl_keeps (P := fun e : Eng => Stays k s0 e.s) (fun _ _ _ => ?_) ?_

theorem nanFill_stays {s0 : State} {s : Eng} (h : Stays k s0 s.s) (a1) : Stays k s0 (nanFill s a1).s := by
  unfold nanFill
  repeat' first
    | with_reducible assumption
    | with_reducible apply writeUpper_stays
    | with_reducible apply blkWrite_stays
    | with_reducible apply writeFull_stays
    | with_reducible refine foldl_keeps (P := fun e : Eng => Stays k s0 e.s) (fun _ _ _ => ?_) ?_
    | split

theorem readMat_stays {s0 : State} {s : Eng} (h : Stays k s0 s.s) (a1 a2 a3 a4) : Stays k s0 (readMat s a1 a2 a3 a4).2.s := by
  unfold readMat
  repeat' first
    | with_reducible assumption
    | with_reducible apply blkRead_stays
    | with_reducible refine foldl_keeps (P := fun e : _ × Eng => Stays k s0 e.2.s) (fun _ _ _ => ?_) ?_

theorem runFold_stays {s0 : State} {s : MAcc} (h : Stays k s0 s.e.s) (a1) : Stays k s0 (runFold s a1).e.s := by
  unfold runFold
  repeat' first
    | with_reducible assumption
    | with_reducible apply blkRead_stays
    | with_reducible apply blkWrite_stays
    | with_reducible refine stays_of_eng2 (by assumption) ?_
    | with_reducible refine foldl_keeps (P := fun e : MAcc => Stays k s0 e.e.s) (fun _ _ _ => ?_) ?_
    | split

theorem readUpper_stays {s0 : State} {s : Eng} (h : Stays k s0 s.s) (a1 a2) : Stays k s0 (readUpper s a1 a2).2.s := by
  unfold readUpper
  repeat' first
    | with_reducible assumption
    | with_reducible apply readMat_stays

theorem readRoot_stays {s0 : State} {s : Eng} (h : Stays k s0 s.s) (a1 a2) : Stays k s0 (readRoot s a1 a2).2.s := by
  unfold readRoot
  repeat' first
    | with_reducible assumption
    | with_reducible apply blkRead_stays
    | with_reducible apply readUpper_stays
    | with_reducible refine foldl_keeps (P := fun e : _ × Eng => Stays k s0 e.2.s) (fun _ _ _ => ?_) ?_
    | split

theorem runDampnorm_stays {s0 : State} {s : MAcc} (h : Stays k s0 s.e.s) (a1) : Stays k s0 (runDampnorm s a1).e.s := by
  unfold runDampnorm
  repeat' first
    | with_reducible assumption
    | with_reducible apply readUpper_stays
    | with_reducible apply MAcc.saw_ok
    | with_reducible apply writeUpper_stays
    | with_reducible apply blkWrite_stays

theorem runNorm_stays {s0 : State} {s : MAcc} (h : Stays k s0 s.e.s) (a1) : Stays k s0 (runNorm s a1).e.s := by
  unfold runNorm
  repeat' first
    | with_reducible assumption
    | with_reducible apply readUpper_stays
    | with_reducible apply MAcc.saw_ok

theorem readSolve_stays {s0 : State} {s : Eng} (h : Stays k s0 s.s) (a1) : Stays k s0 (readSolve s a1).2.2.2.s := by
  unfold readSolve
  repeat' first
    | with_reducible assumption
    | with_reducible apply readUpper_stays
    | with_reducible apply readMat_stays
    | with_reducible refine foldl_keeps (P := fun e : _ × Eng => Stays k s0 e.2.s) (fun _ _ _ => ?_) ?_

theorem runSolve_stays {s0 : State} {s : MAcc} (h : Stays k s0 s.e.s) (a1 a2 a3 a4) : Stays k s0 (runSolve s a1 a2 a3 a4).e.s := by
  unfold runSolve
  repeat' first
    | with_reducible assumption
    | with_reducible apply writeFull_stays

theorem runChol_stays {s0 : State} {s : MAcc} (h : Stays k s0 s.e.s) (a1 a2) : Stays k s0 (runChol s a1 a2).e.s := by
  unfold runChol
  repeat' first
    | with_reducible assumption
    | with_reducible apply writeUpper_stays
    | with_reducible apply blkWrite_stays
    | with_reducible refine foldl_keeps (P := fun e : Eng => Stays k s0 e.s) (fun _ _ _ => ?_) ?_

theorem runInv_stays {s0 : State} {s : MAcc} (h : Stays k s0 s.e.s) (a1 a2) : Stays k s0 (runInv s a1 a2).e.s := by
  unfold runInv
  repeat' first
    | with_reducible assumption
    | with_reducible apply writeUpper_stays

theorem writeRoot_stays {s0 : State} {s : Eng} (h : Stays k s0 s.s) (a1 a2 a3) : Stays k s0 (writeRoot s a1 a2 a3).s := by
  unfold writeRoot
  repeat' first
    | with_reducible assumption
    | with_reducible apply blkWrite_stays
    | with_reducible apply writeUpper_stays
    | with_reducible apply engCtxWrite_stays
    | with_reducible apply engWrite_stays
    | with_reducible refine foldl_keeps (P := fun e : Eng => Stays k s0 e.s) (fun _ _ _ => ?_) ?_
    | split

theorem runIroot_stays {s0 : State} {s : MAcc} (h : Stays k s0 s.e.s) (a1 a2) : Stays k s0 (runIroot s a1 a2).e.s := by
  unfold runIroot
  repeat' first
    | with_reducible assumption
    | with_reducible apply blkRead_stays
    | with_reducible apply readRoot_stays
    | with_reducible apply writeRoot_stays
    | with_reducible refine stays_of_eng2 (by assumption) ?_
    | split
    | dsimp only

/-- A predicate that every write keeps holds after the free bytes of the work areas. -/
theorem scribble_keeps (P : Eng → Prop) (h1 : ∀ e a l, P e → P (engCtxWrite e a l)) (h2 : ∀ e a l, P e → P (engWrite e a l))
    {a : MAcc} (he : P a.e) (m) : P (scribble a m).e := by
  unfold scribble
  dsimp only
  generalize List.range 131072 = r
  generalize tdOf 0 = z
  have hc : ∀ (e : Eng) (a : Nat) (b : Bool) (l : List Byte), P e → P (if b = true then engCtxWrite e a l else engWrite e a l) := by
    intro e a b l he
    cases b
    · exact h2 _ _ _ he
    · exact h1 _ _ _ he
  have hw : P (match macroWork m with
      | some (d, n) => (List.range (n / 16)).foldl (fun e i =>
          if (d.kind == kCONTEXT) = true then
            engCtxWrite e (d.base + 16 * i) ((List.range 16).map fun j => Config.workByte (m.params ++ a.seen) (16 * i + j))
          else engWrite e (d.base + 16 * i) ((List.range 16).map fun j => Config.workByte (m.params ++ a.seen) (16 * i + j))) a.e
      | none => a.e) := by
    split
    · exact foldl_keeps (fun e i he => hc e _ _ _ he) he
    · exact he
  split
  · exact foldl_keeps (fun e i he => hc e _ _ _ he) hw
  · exact hw

theorem scribble_stays {s0 : State} {a : MAcc} (h : Stays k s0 a.e.s) (m) : Stays k s0 (scribble a m).e.s :=
  scribble_keeps (fun e => Stays k s0 e.s) (fun _ _ _ he => engCtxWrite_stays he ..) (fun _ _ _ he => engWrite_stays he ..) h m

theorem runMacro_stays {s0 : State} {s : MAcc} (h : Stays k s0 s.e.s) (a1) : Stays k s0 (runMacro s a1).e.s := by
  unfold runMacro
  repeat' first
    | with_reducible assumption
    | with_reducible apply nanFill_stays
    | with_reducible apply runFold_stays
    | with_reducible apply runDampnorm_stays
    | with_reducible apply runNorm_stays
    | with_reducible apply readSolve_stays
    | with_reducible apply MAcc.saw_ok
    | with_reducible apply runSolve_stays
    | with_reducible apply readUpper_stays
    | with_reducible apply runChol_stays
    | with_reducible apply runInv_stays
    | with_reducible apply runIroot_stays
    | with_reducible apply scribble_stays
    | with_reducible refine stays_of_eng2 (by assumption) ?_
    | with_reducible refine stays_of_eng222 (by assumption) ?_
    | split
    | dsimp only

theorem execMacroStart_stays {s0 s t : State} (h : Stays k s0 s) (a1) (ht : execMacroStart a1 s = .next t) : Stays k s0 t := by
  unfold execMacroStart at ht
  cases ht
  repeat' first
    | with_reducible assumption
    | with_reducible apply takeSolver_stays
    | with_reducible apply fetchUnits_stays
    | with_reducible apply updRegion_stays
    | with_reducible apply runMacro_stays
    | with_reducible apply engOpen_stays
    | with_reducible apply engFlush_stays
    | with_reducible apply engStopped_stays
    | with_reducible apply engClose_stays
    | with_reducible apply engFault_stays
    | split
    | simp only [Stays.lit_iff]

theorem execMacroCompletion_stays {s0 s t : State} (h : Stays k s0 s) (a1) (ht : execMacroCompletion a1 s = .next t) : Stays k s0 t := by
  unfold execMacroCompletion at ht
  cases ht
  repeat' first
    | with_reducible assumption
    | with_reducible apply addTiles_stays
    | with_reducible apply updRegion_stays
    | split

theorem execSolverRerun_stays {s0 s t : State} (h : Stays k s0 s) (a1) (ht : execSolverRerun a1 s = .next t) : Stays k s0 t := by
  unfold execSolverRerun at ht
  cases ht
  repeat' first
    | with_reducible assumption
    | with_reducible apply chargeRetry_stays
    | split

end Sys2Proof.Machine
end

