-- ==== Sys2Proof/Laws/KeptFabric.lean ====
section
/-! SUPPORT. `Stays` for the collectives, the ports, lending, comparison, commit, paging, timing and scrubbing. -/

namespace Sys2Proof.Machine

set_option Elab.async false

variable {k : Part → Bool}

/-! ## Collective -/

theorem putColl_stays {s0 : State} {s : State} (h : Stays k s0 s) (a1) : Stays k s0 (putColl s a1) := by
  unfold putColl
  repeat' first
    | with_reducible assumption
    | with_reducible apply updFab_stays

theorem collRead_stays {s0 : State} {s : Eng} (h : Stays k s0 s.s) (a1) : Stays k s0 (collRead s a1).2.2.s := by
  unfold collRead
  repeat' first
    | with_reducible assumption
    | with_reducible apply engElems_stays
    | with_reducible apply engRead_stays
    | split
    | dsimp only

theorem chanPhase_stays {s0 : State} {s : State} (h : Stays k s0 s) (a1 a2 a3) : Stays k s0 (chanPhase s a1 a2 a3) := by
  unfold chanPhase
  repeat' first
    | with_reducible assumption
    | with_reducible apply updRegion_stays

theorem collFinish_stays {s0 : State} {s : State} (h : Stays k s0 s) (a1 a2 a3) : Stays k s0 (collFinish s a1 a2 a3) := by
  unfold collFinish
  repeat' first
    | with_reducible assumption
    | with_reducible apply engRun_stays
    | with_reducible apply engOpen_stays
    | with_reducible apply collRead_stays
    | with_reducible apply engFlag_stays
    | with_reducible apply engPutAll_stays
    | with_reducible apply engWrite_stays
    | with_reducible apply engClose_stays
    | with_reducible apply updRegion_stays
    | with_reducible apply updFab_stays
    | with_reducible apply engFault_stays
    | with_reducible apply chanPhase_stays
    | (intro d q hq)
    | split

theorem sendStep_stays {s0 : State} {s : State} (h : Stays k s0 s) (a1 a2 a3 a4 a5 a6 a7) : Stays k s0 (sendStep s a1 a2 a3 a4 a5 a6 a7) := by
  unfold sendStep
  repeat' first
    | with_reducible assumption
    | with_reducible apply updEnd_stays

theorem firstSteps_stays {s0 : State} {s : State} (h : Stays k s0 s) (a1 a2 a3) : Stays k s0 (firstSteps s a1 a2 a3) := by
  unfold firstSteps
  repeat' first
    | with_reducible assumption
    | with_reducible apply sendStep_stays
    | with_reducible refine foldl_keeps (P := fun e : State => Stays k s0 e) (fun _ _ _ => ?_) ?_
    | split

theorem takeStep_stays {s0 : State} {s : State} (h : Stays k s0 s) (a1 a2) : Stays k s0 (takeStep s a1 a2) := by
  unfold takeStep
  repeat' first
    | with_reducible assumption
    | with_reducible apply streamFault_stays
    | with_reducible apply updRegion_stays
    | with_reducible apply putColl_stays
    | with_reducible apply collFinish_stays
    | with_reducible apply sendStep_stays
    | split
    | dsimp only

theorem takeEarly_stays {s0 : State} {s : State} (h : Stays k s0 s) (a1 a2 a3) : Stays k s0 (takeEarly s a1 a2 a3) := by
  unfold takeEarly
  repeat' first
    | with_reducible assumption
    | with_reducible apply updFab_stays
    | with_reducible apply takeStep_stays
    | with_reducible refine foldl_keeps (P := fun e : State => Stays k s0 e) (fun _ _ _ => ?_) ?_
    | split

theorem execCollectiveStart_stays {s0 s t : State} (h : Stays k s0 s) (a1 a2) (ht : execCollectiveStart a1 a2 s = .next t) : Stays k s0 t := by
  unfold execCollectiveStart at ht
  cases ht
  repeat' first
    | with_reducible assumption
    | with_reducible apply collFinish_stays
    | with_reducible apply collRead_stays
    | with_reducible apply engOpen_stays
    | with_reducible apply engClose_stays
    | with_reducible apply updRegion_stays
    | with_reducible apply engFault_stays
    | with_reducible apply chanPhase_stays
    | with_reducible apply firstSteps_stays
    | with_reducible apply updFab_stays
    | with_reducible apply takeEarly_stays
    | split
    | dsimp only

/-! ## Fabric -/

theorem acceptFlit_stays {s0 : State} {s : State} (h : Stays k s0 s) (a1) : Stays k s0 (acceptFlit s a1) := by
  unfold acceptFlit
  repeat' first
    | with_reducible assumption
    | with_reducible apply updEnd_stays

theorem giveCredit_stays {s0 : State} {s : State} (h : Stays k s0 s) (a1 a2) : Stays k s0 (giveCredit s a1 a2) := by
  unfold giveCredit
  repeat' first
    | with_reducible assumption
    | with_reducible apply updEnd_stays

theorem landFlit_stays {s0 : State} {s : State} (h : Stays k s0 s) (a1 a2) : Stays k s0 (landFlit s a1 a2) := by
  unfold landFlit
  dsimp only
  repeat' first
    | with_reducible assumption
    | with_reducible apply giveCredit_stays
    | with_reducible apply updEnd_stays
    | with_reducible apply sendResp_stays
    | with_reducible apply noteAdmitted_stays
    | with_reducible apply landBytes_stays
    | with_reducible apply sendLanded_stays
    | split

theorem answerPage_stays {s0 : State} {s : State} (h : Stays k s0 s) (a1 a2 a3) : Stays k s0 (answerPage s a1 a2 a3) := by
  unfold answerPage
  repeat' first
    | with_reducible assumption
    | with_reducible apply sendResp_stays

theorem drainHeld_stays {s0 : State} {s : State} (h : Stays k s0 s) (p vc n) : Stays k s0 (drainHeld p vc n s) := by
  induction n generalizing s with
  | zero => exact h
  | succ n ih =>
  unfold drainHeld
  repeat' first
    | with_reducible assumption
    | with_reducible apply ih
    | with_reducible apply landFlit_stays
    | with_reducible apply updPort_stays
    | split

theorem execLandingGateAdmit_stays {s0 s t : State} (h : Stays k s0 s) (a1) (ht : execLandingGateAdmit a1 s = .next t) : Stays k s0 t := by
  unfold execLandingGateAdmit at ht
  cases ht
  repeat' first
    | with_reducible assumption
    | with_reducible apply drainHeld_stays
    | with_reducible apply sendHere_stays
    | split

theorem collResidue_stays {s0 : State} {s : State} (h : Stays k s0 s) (a1 a2) : Stays k s0 (collResidue s a1 a2) := by
  unfold collResidue
  repeat' first
    | with_reducible assumption
    | with_reducible apply raiseFault_stays

theorem arriveStep_stays {s0 : State} {s : State} (h : Stays k s0 s) (a1 a2 a3 a4 a5 a6) : Stays k s0 (arriveStep s a1 a2 a3 a4 a5 a6) := by
  unfold arriveStep
  repeat' first
    | with_reducible assumption
    | with_reducible apply collResidue_stays
    | with_reducible apply takeStep_stays
    | with_reducible apply updFab_stays
    | with_reducible apply regionFault_stays
    | split
    | dsimp only

theorem discardFlit_stays {s0 : State} {s : State} (h : Stays k s0 s) (a1) : Stays k s0 (discardFlit s a1) := by
  unfold discardFlit
  repeat' first
    | with_reducible assumption
    | with_reducible apply updEnd_stays

theorem receive_stays {s0 : State} {s : State} (h : Stays k s0 s) (p f want) {f2 : State → State} (hf : ∀ q, Stays k s0 q → Stays k s0 (f2 q)) : Stays k s0 (receive s p f want f2) := by
  unfold receive
  repeat' first
    | with_reducible assumption
    | with_reducible apply hf
    | with_reducible apply discardFlit_stays
    | with_reducible apply dieFault_stays
    | with_reducible apply giveCredit_stays
    | with_reducible apply acceptFlit_stays
    | split

theorem receiveNow_stays {s0 : State} {s : State} (h : Stays k s0 s) (p f want) {f2 : State → State} (hf : ∀ q, Stays k s0 q → Stays k s0 (f2 q)) : Stays k s0 (receiveNow s p f want f2) := by
  unfold receiveNow
  repeat' first
    | with_reducible assumption
    | with_reducible apply hf
    | with_reducible apply receive_stays
    | with_reducible apply giveCredit_stays
    | (intro q hq)

theorem gatherPage_stays {s0 : State} {s : State} (h : Stays k s0 s) (a1 a2) : Stays k s0 (gatherPage s a1 a2).1 := by
  unfold gatherPage
  repeat' first
    | with_reducible assumption
    | with_reducible apply updPort_stays
    | split
    | dsimp only

theorem servePage_stays {s0 : State} {s : State} (h : Stays k s0 s) (p f kind) {f2 : State → List Byte → State} (hf : ∀ q l, Stays k s0 q → Stays k s0 (f2 q l)) : Stays k s0 (servePage s p f kind f2) := by
  unfold servePage
  repeat' first
    | with_reducible assumption
    | with_reducible apply hf
    | with_reducible apply receiveNow_stays
    | with_reducible apply gatherPage_stays
    | with_reducible apply sendResp_stays
    | with_reducible refine stays_of_state1 (by assumption) ?_
    | (intro q hq)
    | split

theorem dropStale_stays {s0 : State} {s : State} (h : Stays k s0 s) (a1 a2) : Stays k s0 (dropStale s a1 a2) := by
  unfold dropStale
  repeat' first
    | with_reducible assumption
    | with_reducible apply giveCredit_stays
    | with_reducible apply updFab_stays

theorem firstFlit_stays {s0 : State} {s : State} (h : Stays k s0 s) (a1 a2 a3 a4) : Stays k s0 (firstFlit s a1 a2 a3 a4) := by
  unfold firstFlit
  repeat' first
    | with_reducible assumption
    | with_reducible apply streamFault_stays
    | split

theorem gatherStep_stays {s0 : State} {s : State} (h : Stays k s0 s) (a1 a2 a3 a4 a5) : Stays k s0 (gatherStep s a1 a2 a3 a4 a5).1 := by
  unfold gatherStep
  repeat' first
    | with_reducible assumption
    | with_reducible apply firstFlit_stays
    | with_reducible apply updEnd_stays
    | split
    | dsimp only

theorem execCollReceive_stays {s0 s t : State} (h : Stays k s0 s) (a1 a2 a3 a4 a5 a6) (ht : execCollReceive a1 a2 a3 a4 a5 a6 s = .next t) : Stays k s0 t := by
  unfold execCollReceive at ht
  cases ht
  repeat' first
    | with_reducible assumption
    | with_reducible apply receive_stays
    | with_reducible apply dropStale_stays
    | with_reducible apply gatherStep_stays
    | with_reducible apply giveCredit_stays
    | with_reducible apply arriveStep_stays
    | with_reducible refine stays_of_state1 (by assumption) ?_
    | (intro q hq)
    | split
    | dsimp only

theorem execDataReceive_stays {s0 s t : State} (h : Stays k s0 s) (a1 a2) (ht : execDataReceive a1 a2 s = .next t) : Stays k s0 t := by
  unfold execDataReceive at ht
  cases ht
  repeat' first
    | with_reducible assumption
    | with_reducible apply receive_stays
    | with_reducible apply dropStale_stays
    | with_reducible apply landFlit_stays
    | with_reducible apply updPort_stays
    | (intro q hq)
    | split
    | dsimp only

theorem execFlitTransmit_stays {s0 s t : State} (h : Stays k s0 s) (a1 a2) (ht : execFlitTransmit a1 a2 s = .next t) : Stays k s0 t := by
  unfold execFlitTransmit at ht
  cases ht
  repeat' first
    | with_reducible assumption
    | with_reducible apply updEnd_stays
    | split

theorem execCreditReturn_stays {s0 s t : State} (h : Stays k s0 s) (a1 a2) (ht : execCreditReturn a1 a2 s = .next t) : Stays k s0 t := by
  unfold execCreditReturn at ht
  cases ht
  repeat' first
    | with_reducible assumption
    | with_reducible apply updEnd_stays
    | split

theorem execLinkReplay_stays {s0 s t : State} (h : Stays k s0 s) (a1) (ht : execLinkReplay a1 s = .next t) : Stays k s0 t := by
  unfold execLinkReplay at ht
  cases ht
  repeat' first
    | with_reducible assumption
    | with_reducible apply updEnd_stays
    | split

theorem execLinkTimeout_stays {s0 s t : State} (h : Stays k s0 s) (a1) (ht : execLinkTimeout a1 s = .next t) : Stays k s0 t := by
  unfold execLinkTimeout at ht
  cases ht
  repeat' first
    | with_reducible assumption
    | with_reducible apply dieFault_stays
    | split

theorem execLinkTraining_stays {s0 s t : State} (h : Stays k s0 s) (a1 a2 a3 a4 a5) (ht : execLinkTraining a1 a2 a3 a4 a5 s = .next t) : Stays k s0 t := by
  unfold execLinkTraining at ht
  cases ht
  repeat' first
    | with_reducible assumption
    | with_reducible apply updPort_stays
    | split
    | simp only [Stays.boot_iff]

theorem execFlitDiscard_stays {s0 s t : State} (h : Stays k s0 s) (a1 a2) (ht : execFlitDiscard a1 a2 s = .next t) : Stays k s0 t := by
  unfold execFlitDiscard at ht
  cases ht
  repeat' first
    | with_reducible assumption
    | with_reducible apply discardFlit_stays
    | split

theorem execAcknowledgement_stays {s0 s t : State} (h : Stays k s0 s) (a1 a2) (ht : execAcknowledgement a1 a2 s = .next t) : Stays k s0 t := by
  unfold execAcknowledgement at ht
  cases ht
  repeat' first
    | with_reducible assumption
    | with_reducible apply updEnd_stays
    | split
    | dsimp only

theorem execPortTrainingLost_stays {s0 s t : State} (h : Stays k s0 s) (a1) (ht : execPortTrainingLost a1 s = .next t) : Stays k s0 t := by
  unfold execPortTrainingLost at ht
  cases ht
  repeat' first
    | with_reducible assumption
    | with_reducible apply updPort_stays
    | split
    | simp only [Stays.boot_iff]

/-! ## Lending -/

theorem lendFrames_stays {s0 s t : State} {p c n l} (hq : lendFrames p c n s = some (l, t)) (h : Stays k s0 s) : Stays k s0 t := by
  induction n generalizing s l with
  | zero =>
    cases hq
    exact h
  | succ n ih =>
    unfold lendFrames at hq
    split at hq
    · cases hq
    · simp only [Option.map_eq_some_iff] at hq
      obtain ⟨⟨l', t'⟩, hq, he⟩ := hq
      cases he
      exact ih hq (updHbm_stays (allocFrame_stays ‹_› h) _)

theorem mirrorFrames_stays {s0 s t : State} {c l} (hq : mirrorFrames c l s = some t) (h : Stays k s0 s) : Stays k s0 t := by
  induction l generalizing s with
  | nil =>
    cases hq
    exact h
  | cons a l ih =>
    unfold mirrorFrames at hq
    repeat' first
      | (with_reducible refine ih (by assumption) ?_)
      | (cases hq; done)
      | (dsimp only at hq)
      | split at hq
      | with_reducible assumption
      | with_reducible refine allocPair_stays (by assumption) ?_
      | with_reducible apply updHbm_stays

theorem execLendReq_stays {s0 s t : State} (h : Stays k s0 s) (a1 a2) (ht : execLendReq a1 a2 s = .next t) : Stays k s0 t := by
  unfold execLendReq at ht
  cases ht
  repeat' first
    | with_reducible assumption
    | with_reducible apply servePage_stays
    | with_reducible apply answerPage_stays
    | with_reducible refine mirrorFrames_stays (by assumption) ?_
    | with_reducible refine lendFrames_stays (by assumption) ?_
    | with_reducible apply sendPage_stays
    | (intro d q hq)
    | split
    | dsimp only

theorem askRebuild_stays {s0 : State} {s : State} (h : Stays k s0 s) (a1 a2) : Stays k s0 (askRebuild s a1 a2) := by
  unfold askRebuild
  repeat' first
    | with_reducible assumption
    | with_reducible apply sendCtrl_stays
    | simp only [Stays.lit_iff]

theorem updTxn_stays {s0 : State} {s : State} (h : Stays k s0 s) (a1 a2) : Stays k s0 (updTxn s a1 a2) := by
  unfold updTxn
  repeat' first
    | with_reducible assumption
    | with_reducible apply updFab_stays

theorem keepData_stays {s0 : State} {s : State} (h : Stays k s0 s) (a1 a2) : Stays k s0 (keepData s a1 a2) := by
  unfold keepData
  repeat' first
    | with_reducible assumption
    | with_reducible apply updTxn_stays
    | split

theorem execLendAns_stays {s0 s t : State} (h : Stays k s0 s) (a1 a2) (ht : execLendAns a1 a2 s = .next t) : Stays k s0 t := by
  unfold execLendAns at ht
  cases ht
  repeat' first
    | with_reducible assumption
    | with_reducible apply receiveNow_stays
    | with_reducible apply keepData_stays
    | (intro q hq)

theorem noteRebuilt_stays {s0 : State} {s : State} (h : Stays k s0 s) (a1 a2) : Stays k s0 (noteRebuilt s a1 a2) := by
  unfold noteRebuilt
  repeat' first
    | with_reducible assumption
    | split
    | simp only [Stays.lit_iff]

theorem mirrorGone_stays {s0 : State} {s : State} (h : Stays k s0 s) (a1) : Stays k s0 (mirrorGone s a1) := by
  unfold mirrorGone
  repeat' first
    | with_reducible assumption
    | with_reducible apply noteRebuilt_stays
    | split

theorem execLendFree_stays {s0 s t : State} (h : Stays k s0 s) (a1 a2) (ht : execLendFree a1 a2 s = .next t) : Stays k s0 t := by
  unfold execLendFree at ht
  cases ht
  repeat' first
    | with_reducible assumption
    | with_reducible apply servePage_stays
    | with_reducible apply answerPage_stays
    | with_reducible apply updHbm_stays
    | with_reducible apply mirrorGone_stays
    | (intro d q hq)
    | split
    | dsimp only

theorem remoteBusError_stays {s0 : State} {s : State} (h : Stays k s0 s) (a1 a2) : Stays k s0 (remoteBusError s a1 a2) := by
  unfold remoteBusError
  repeat' first
    | with_reducible assumption
    | with_reducible apply hbmPoisoned_stays
    | with_reducible apply busFault_stays

theorem execRdReq_stays {s0 s t : State} (h : Stays k s0 s) (a1 a2) (ht : execRdReq a1 a2 s = .next t) : Stays k s0 t := by
  unfold execRdReq at ht
  cases ht
  repeat' first
    | with_reducible assumption
    | with_reducible apply servePage_stays
    | with_reducible apply answerPage_stays
    | with_reducible apply hbmCorrected_stays
    | with_reducible apply remoteBusError_stays
    | with_reducible apply sendPage_stays
    | (intro d q hq)
    | split
    | dsimp only

theorem execRdData_stays {s0 s t : State} (h : Stays k s0 s) (a1 a2) (ht : execRdData a1 a2 s = .next t) : Stays k s0 t := by
  unfold execRdData at ht
  cases ht
  repeat' first
    | with_reducible assumption
    | with_reducible apply receiveNow_stays
    | with_reducible apply keepData_stays
    | (intro q hq)

theorem rebuildMirror_stays {s0 : State} {s : State} (h : Stays k s0 s) (a1) : Stays k s0 (rebuildMirror s a1) := by
  unfold rebuildMirror
  repeat' first
    | with_reducible assumption
    | with_reducible apply askRebuild_stays
    | split

theorem mirrorFirstWrite_stays {s0 : State} {s : State} (h : Stays k s0 s) (a1 a2 a3) : Stays k s0 (mirrorFirstWrite s a1 a2 a3).1 := by
  unfold mirrorFirstWrite
  repeat' first
    | with_reducible assumption
    | with_reducible apply hbmCorrected_stays
    | with_reducible apply hbmPoisoned_stays
    | with_reducible apply rebuildMirror_stays
    | with_reducible apply raiseFault_stays
    | with_reducible apply updHbm_stays
    | split
    | simp only [Stays.lit_iff]

theorem mirrorOpen_stays {s0 : State} {s : State} (h : Stays k s0 s) (c page l) : Stays k s0 (mirrorOpen s c page l).1 := by
  induction l generalizing s with
  | nil => exact h
  | cons a l ih =>
  unfold mirrorOpen
  repeat' first
    | with_reducible assumption
    | with_reducible apply ih
    | with_reducible apply mirrorFirstWrite_stays
    | with_reducible refine stays_of_state1 (by assumption) ?_
    | split

theorem writePieces_stays {s0 : State} {s : State} (h : Stays k s0 s) (l b) : Stays k s0 (writePieces s l b).1 := by
  induction l generalizing s b with
  | nil => exact h
  | cons a l ih =>
  unfold writePieces
  repeat' first
    | with_reducible assumption
    | with_reducible apply ih
    | with_reducible apply hbmStore_stays
    | with_reducible apply busFault_stays
    | with_reducible refine stays_of_state1 (by assumption) ?_
    | split

theorem execWrReq_stays {s0 s t : State} (h : Stays k s0 s) (a1 a2) (ht : execWrReq a1 a2 s = .next t) : Stays k s0 t := by
  unfold execWrReq at ht
  cases ht
  repeat' first
    | with_reducible assumption
    | with_reducible apply servePage_stays
    | with_reducible apply answerPage_stays
    | with_reducible apply mirrorOpen_stays
    | with_reducible apply writePieces_stays
    | with_reducible apply updHbm_stays
    | with_reducible apply noteRebuilt_stays
    | (intro d q hq)
    | split
    | dsimp only

/-! ## Repro -/

theorem writeRecords_stays {s0 : State} {s : State} (h : Stays k s0 s) (a1 a2) : Stays k s0 (writeRecords s a1 a2) := by
  unfold writeRecords
  repeat' first
    | with_reducible assumption
    | with_reducible apply updHbm_stays
    | with_reducible refine foldl_keeps (P := fun e : State => Stays k s0 e) (fun _ _ _ => ?_) ?_
    | split
    | dsimp only

theorem sendDigestSet_stays {s0 : State} {s : State} (h : Stays k s0 s) (a1 a2) : Stays k s0 (sendDigestSet s a1 a2) := by
  unfold sendDigestSet
  repeat' first
    | with_reducible assumption
    | with_reducible apply startTxn_stays
    | split

theorem askTiles_stays {s0 : State} {s : State} (h : Stays k s0 s) (a1) : Stays k s0 (askTiles s a1) := by
  unfold askTiles
  repeat' first
    | with_reducible assumption
    | with_reducible apply startTxn_stays

theorem reportCmp_stays {s0 : State} {s : State} (h : Stays k s0 s) (a1 a2) : Stays k s0 (reportCmp s a1 a2) := by
  unfold reportCmp
  repeat' first
    | with_reducible assumption
    | with_reducible apply post_stays
    | simp only [Stays.lit_iff]

theorem compareSet_stays {s0 : State} {s : State} (h : Stays k s0 s) (a1 a2) : Stays k s0 (compareSet s a1 a2) := by
  unfold compareSet
  repeat' first
    | with_reducible assumption
    | with_reducible apply raiseFault_stays
    | with_reducible apply reportCmp_stays
    | with_reducible apply askTiles_stays
    | split
    | simp only [Stays.lit_iff]

theorem execDigestSet_stays {s0 s t : State} (h : Stays k s0 s) (a1 a2) (ht : execDigestSet a1 a2 s = .next t) : Stays k s0 t := by
  unfold execDigestSet at ht
  cases ht
  repeat' first
    | with_reducible assumption
    | with_reducible apply servePage_stays
    | with_reducible apply answerPage_stays
    | with_reducible apply compareSet_stays
    | (intro d q hq)
    | split
    | simp only [Stays.lit_iff]

theorem execTileReq_stays {s0 s t : State} (h : Stays k s0 s) (a1 a2) (ht : execTileReq a1 a2 s = .next t) : Stays k s0 t := by
  unfold execTileReq at ht
  cases ht
  repeat' first
    | with_reducible assumption
    | with_reducible apply servePage_stays
    | with_reducible apply answerPage_stays
    | with_reducible apply hbmCorrected_stays
    | with_reducible apply remoteBusError_stays
    | with_reducible apply sendPage_stays
    | (intro d q hq)
    | split
    | dsimp only

theorem tilesAnswered_stays {s0 : State} {s : State} (h : Stays k s0 s) (a1) : Stays k s0 (tilesAnswered s a1) := by
  unfold tilesAnswered
  repeat' first
    | with_reducible assumption
    | with_reducible apply reportCmp_stays
    | with_reducible apply askTiles_stays
    | split
    | simp only [Stays.lit_iff]

theorem execTileData_stays {s0 s t : State} (h : Stays k s0 s) (a1 a2) (ht : execTileData a1 a2 s = .next t) : Stays k s0 t := by
  unfold execTileData at ht
  cases ht
  repeat' first
    | with_reducible assumption
    | with_reducible apply receiveNow_stays
    | with_reducible apply keepData_stays
    | with_reducible apply tilesAnswered_stays
    | with_reducible apply askTiles_stays
    | with_reducible refine foldl_keeps (P := fun e : State => Stays k s0 e) (fun _ _ _ => ?_) ?_
    | (intro q hq)
    | split
    | dsimp only

theorem execPassRec_stays {s0 s t : State} (h : Stays k s0 s) (a1 a2) (ht : execPassRec a1 a2 s = .next t) : Stays k s0 t := by
  unfold execPassRec at ht
  cases ht
  repeat' first
    | with_reducible assumption
    | with_reducible apply servePage_stays
    | with_reducible apply answerPage_stays
    | with_reducible apply lockCompare_stays
    | (intro d q hq)
    | split
    | simp only [Stays.lit_iff]

theorem execLockstepTimeout_stays {s0 s t : State} (h : Stays k s0 s) (a1 a2 a3 a4) (ht : execLockstepTimeout a1 a2 a3 a4 s = .next t) : Stays k s0 t := by
  unfold execLockstepTimeout at ht
  cases ht
  repeat' first
    | with_reducible assumption
    | with_reducible apply raiseFault_stays
    | split
    | simp only [Stays.lit_iff]

/-! ## Commit -/

theorem execStepStart_stays {s0 s t : State} (h : Stays k s0 s) (a1) (ht : execStepStart a1 s = .next t) : Stays k s0 t := by
  unfold execStepStart at ht
  cases ht
  repeat' first
    | with_reducible assumption
    | with_reducible apply noteHalt_stays
    | with_reducible apply haltCtx_stays
    | with_reducible apply makeRec_stays
    | with_reducible apply updCtx_stays
    | with_reducible apply updFab_stays
    | split
    | simp only [Stays.lit_iff]

theorem abortCtx_stays {s0 : State} {s : State} (h : Stays k s0 s) (a1 a2) : Stays k s0 (abortCtx s a1 a2).1 := by
  unfold abortCtx
  repeat' first
    | with_reducible assumption
    | with_reducible apply updCtx_stays
    | with_reducible apply noteHalt_stays
    | with_reducible apply haltCtx_stays
    | with_reducible apply updHbm_stays
    | split

theorem abortAll_stays {s0 : State} {s : State} (h : Stays k s0 s) (a1 a2) : Stays k s0 (abortAll s a1 a2) := by
  unfold abortAll
  repeat' first
    | with_reducible assumption
    | with_reducible apply abortCtx_stays
    | with_reducible apply sendFault_stays
    | with_reducible refine stays_of_state1 (by assumption) ?_
    | with_reducible refine foldl_keeps (P := fun e : State × _ => Stays k s0 e.1) (fun _ _ _ => ?_) ?_
    | split
    | dsimp only

theorem nowAligned_stays {s0 : State} {s : State} (hk_cnt : k .cnt = false) (h : Stays k s0 s) (a1) : Stays k s0 (nowAligned s a1) := by
  unfold nowAligned
  repeat' first
    | with_reducible assumption
    | simp only [Stays.cntboot_iff hk_cnt]

theorem alignTo_stays {s0 : State} {s : State} (hk_cnt : k .cnt = false) (h : Stays k s0 s) (a1 a2) : Stays k s0 (alignTo s a1 a2) := by
  unfold alignTo
  repeat' first
    | with_reducible assumption
    | with_reducible apply nowAligned_stays
    | split
    | simp only [Stays.cnt_iff hk_cnt]

theorem sendVote_stays {s0 : State} {s : State} (h : Stays k s0 s) (a1 a2 a3 a4 a5) : Stays k s0 (sendVote s a1 a2 a3 a4 a5) := by
  unfold sendVote
  repeat' first
    | with_reducible assumption
    | with_reducible apply sendCtrl_stays

theorem takeVotes_stays {s0 : State} {s : State} (h : Stays k s0 s) (c w l) : Stays k s0 (takeVotes s c w l).1 := by
  induction l generalizing s w with
  | nil => exact h
  | cons a l ih =>
  unfold takeVotes
  repeat' first
    | with_reducible assumption
    | with_reducible apply ih
    | with_reducible apply sendVote_stays
    | split

theorem enterPhases_stays {s0 : State} {s : State} (h : Stays k s0 s) (c n w) : Stays k s0 (enterPhases c n s w).1 := by
  induction n generalizing s w with
  | zero => exact h
  | succ n ih =>
  unfold enterPhases
  repeat' first
    | with_reducible assumption
    | with_reducible apply ih
    | with_reducible apply sendVote_stays
    | with_reducible apply takeVotes_stays
    | split
    | dsimp only

theorem setWave_stays {s0 : State} {s : State} (h : Stays k s0 s) (a1 a2) : Stays k s0 (setWave s a1 a2) := by
  unfold setWave
  repeat' first
    | with_reducible assumption
    | with_reducible apply updCtx_stays

theorem execVote_stays {s0 s t : State} (h : Stays k s0 s) (a1 a2) (ht : execVote a1 a2 s = .next t) : Stays k s0 t := by
  unfold execVote at ht
  cases ht
  repeat' first
    | with_reducible assumption
    | with_reducible apply receiveNow_stays
    | with_reducible apply raiseFault_stays
    | with_reducible apply enterPhases_stays
    | with_reducible apply takeVotes_stays
    | with_reducible apply setWave_stays
    | (intro q hq)
    | split
    | dsimp only

theorem execAbortReceive_stays {s0 s t : State} (h : Stays k s0 s) (a1 a2) (ht : execAbortReceive a1 a2 s = .next t) : Stays k s0 t := by
  unfold execAbortReceive at ht
  cases ht
  repeat' first
    | with_reducible assumption
    | with_reducible apply receiveNow_stays
    | with_reducible apply noteSeen_stays
    | with_reducible apply floodAbort_stays
    | with_reducible apply abortAll_stays
    | (intro q hq)
    | split
    | dsimp only

theorem execCountAlign_stays {s0 s t : State} (hk_cnt : k .cnt = false) (h : Stays k s0 s) (a1 a2 a3) (ht : execCountAlign a1 a2 a3 s = .next t) : Stays k s0 t := by
  unfold execCountAlign at ht
  cases ht
  repeat' first
    | with_reducible assumption
    | with_reducible apply alignTo_stays
    | with_reducible apply nowAligned_stays
    | split

theorem execCountRemeasure_stays {s0 s t : State} (hk_cnt : k .cnt = false) (h : Stays k s0 s) (a1) (ht : execCountRemeasure a1 s = .next t) : Stays k s0 t := by
  unfold execCountRemeasure at ht
  cases ht
  repeat' first
    | with_reducible assumption
    | with_reducible apply moduleFault_stays
    | split
    | simp only [Stays.cnt_iff hk_cnt]

theorem execGrefLoss_stays {s0 s t : State} (hk_cnt : k .cnt = false) (h : Stays k s0 s) (a1) (ht : execGrefLoss a1 s = .next t) : Stays k s0 t := by
  unfold execGrefLoss at ht
  cases ht
  repeat' first
    | with_reducible assumption
    | with_reducible apply moduleFault_stays
    | split
    | simp only [Stays.cnt_iff hk_cnt]

theorem execStepComplete_stays {s0 s t : State} (h : Stays k s0 s) (a1) (ht : execStepComplete a1 s = .next t) : Stays k s0 t := by
  unfold execStepComplete at ht
  cases ht
  repeat' first
    | with_reducible assumption
    | with_reducible apply sendDigestSet_stays
    | with_reducible apply writeRecords_stays
    | with_reducible apply enterPhases_stays
    | with_reducible apply setWave_stays
    | with_reducible apply compareSet_stays
    | split
    | simp only [Stays.lit_iff]

theorem execFlip_stays {s0 s t : State} (h : Stays k s0 s) (a1) (ht : execFlip a1 s = .next t) : Stays k s0 t := by
  unfold execFlip at ht
  cases ht
  repeat' first
    | with_reducible assumption
    | with_reducible apply updHbm_stays
    | with_reducible apply updCtx_stays
    | with_reducible apply post_stays
    | with_reducible apply endLaunch_stays
    | with_reducible apply sendFault_stays
    | with_reducible apply noteHalt_stays
    | with_reducible apply haltCtx_stays
    | split
    | dsimp only

theorem execCommitRefused_stays {s0 s t : State} (h : Stays k s0 s) (a1) (ht : execCommitRefused a1 s = .next t) : Stays k s0 t := by
  unfold execCommitRefused at ht
  cases ht
  repeat' first
    | with_reducible assumption
    | with_reducible apply makeRec_stays
    | with_reducible apply sendFault_stays
    | with_reducible apply noteHalt_stays
    | with_reducible apply haltCtx_stays
    | with_reducible refine stays_of_state1 (by assumption) ?_
    | split
    | dsimp only

theorem execWaveTimeout_stays {s0 s t : State} (h : Stays k s0 s) (a1) (ht : execWaveTimeout a1 s = .next t) : Stays k s0 t := by
  unfold execWaveTimeout at ht
  cases ht
  repeat' first
    | with_reducible assumption
    | with_reducible apply raiseFault_stays
    | split

theorem execLostFaultsReport_stays {s0 s t : State} (h : Stays k s0 s) (a1) (ht : execLostFaultsReport a1 s = .next t) : Stays k s0 t := by
  unfold execLostFaultsReport at ht
  cases ht
  repeat' first
    | with_reducible assumption
    | with_reducible apply sendFault_stays
    | with_reducible apply updCtx_stays
    | split

/-! ## Paging -/

theorem growTables_stays {s0 s t : State} {c n} (hq : growTables c n s = some t) (h : Stays k s0 s) : Stays k s0 t := by
  induction n generalizing s with
  | zero =>
    cases hq
    exact h
  | succ n ih =>
    unfold growTables at hq
    repeat' first
      | (with_reducible refine ih (by assumption) ?_)
      | (cases hq; done)
      | split at hq
      | with_reducible assumption
      | with_reducible refine allocFrame_stays (by assumption) ?_
      | with_reducible apply updCtx_stays
      | with_reducible apply updHbm_stays

theorem mapIn_stays {s0 : State} {s : State} (h : Stays k s0 s) (a1 a2 a3) : Stays k s0 (mapIn s a1 a2 a3) := by
  unfold mapIn
  repeat' first
    | with_reducible assumption
    | with_reducible apply syncResid_stays
    | with_reducible apply makeTabs_stays
    | with_reducible apply updCtx_stays

theorem makeResid_stays {s0 : State} {s : State} (h : Stays k s0 s) (a1 a2 a3 a4 a5) : Stays k s0 (makeResid s a1 a2 a3 a4 a5) := by
  unfold makeResid
  repeat' first
    | with_reducible assumption
    | with_reducible apply updHbm_stays
    | with_reducible apply mapIn_stays

theorem dropCached_stays {s0 : State} {s : State} (h : Stays k s0 s) (a1 a2) : Stays k s0 (dropCached s a1 a2) := by
  unfold dropCached
  repeat' first
    | with_reducible assumption
    | simp only [Stays.lit_iff]

theorem freeMirror_stays {s0 : State} {s : State} (h : Stays k s0 s) (a1 a2 a3) : Stays k s0 (freeMirror s a1 a2 a3) := by
  unfold freeMirror
  repeat' first
    | with_reducible assumption
    | with_reducible apply startTxn_stays
    | split

theorem unmapPage_stays {s0 : State} {s : State} (h : Stays k s0 s) (a1 a2) : Stays k s0 (unmapPage s a1 a2).1 := by
  unfold unmapPage
  repeat' first
    | with_reducible assumption
    | with_reducible apply syncLeaf_stays
    | with_reducible apply dropCached_stays
    | with_reducible apply updCtx_stays
    | with_reducible apply updHbm_stays
    | with_reducible apply freeMirror_stays
    | with_reducible apply syncResid_stays
    | split
    | dsimp only

theorem sendFrees_stays {s0 : State} {s : State} (h : Stays k s0 s) (a1 a2) : Stays k s0 (sendFrees s a1 a2) := by
  unfold sendFrees
  repeat' first
    | with_reducible assumption
    | with_reducible apply startTxn_stays
    | with_reducible refine foldl_keeps (P := fun e : State => Stays k s0 e) (fun _ _ _ => ?_) ?_
    | split
    | dsimp only

theorem pumpMig_stays {s0 : State} {s : State} (h : Stays k s0 s) (a1) : Stays k s0 (pumpMig s a1) := by
  unfold pumpMig
  repeat' first
    | with_reducible assumption
    | with_reducible apply startTxn_stays
    | split

theorem startMig_stays {s0 : State} {s : State} (h : Stays k s0 s) (a1 a2) : Stays k s0 (startMig s a1 a2) := by
  unfold startMig
  repeat' first
    | with_reducible assumption
    | with_reducible apply pumpMig_stays
    | with_reducible apply syncResid_stays
    | with_reducible apply updHbm_stays

theorem takeMig_stays {s0 : State} {s : State} (h : Stays k s0 s) (a1 a2) : Stays k s0 (takeMig s a1 a2) := by
  unfold takeMig
  repeat' first
    | with_reducible assumption
    | with_reducible apply pumpMig_stays
    | with_reducible apply updHbm_stays

theorem pumpRestore_stays {s0 : State} {s : State} (h : Stays k s0 s) (a1) : Stays k s0 (pumpRestore s a1) := by
  unfold pumpRestore
  repeat' first
    | with_reducible assumption
    | with_reducible apply startTxn_stays
    | split
    | simp only [Stays.lit_iff]

theorem takeRestore_stays {s0 : State} {s : State} (h : Stays k s0 s) (a1 a2 a3) : Stays k s0 (takeRestore s a1 a2 a3) := by
  unfold takeRestore
  repeat' first
    | with_reducible assumption
    | with_reducible apply updHbm_stays
    | with_reducible apply pumpRestore_stays
    | with_reducible refine foldl_keeps (P := fun e : State × _ => Stays k s0 e.1) (fun _ _ _ => ?_) ?_
    | split
    | simp only [Stays.lit_iff]

theorem carried_stays {s0 : State} {s : State} (h : Stays k s0 s) (a1) : Stays k s0 (carried s a1) := by
  unfold carried
  repeat' first
    | with_reducible assumption
    | with_reducible apply hbmPoisoned_stays
    | with_reducible apply noteBad_stays
    | with_reducible refine foldl_keeps (P := fun e : State => Stays k s0 e) (fun _ _ _ => ?_) ?_

theorem sendRebuild_stays {s0 : State} {s : State} (h : Stays k s0 s) (a1) : Stays k s0 (sendRebuild s a1) := by
  unfold sendRebuild
  repeat' first
    | with_reducible assumption
    | with_reducible apply updHbm_stays
    | with_reducible apply hbmCorrected_stays
    | with_reducible apply hbmPoisoned_stays
    | with_reducible apply raiseFault_stays
    | with_reducible apply startTxn_stays
    | split
    | dsimp only

theorem pumpRebuild_stays {s0 : State} {s : State} (h : Stays k s0 s) (a1) : Stays k s0 (pumpRebuild s a1) := by
  unfold pumpRebuild
  repeat' first
    | with_reducible assumption
    | with_reducible apply sendRebuild_stays
    | with_reducible apply startTxn_stays
    | split

theorem pageTurn_stays {s0 : State} {s : State} (h : Stays k s0 s) (a1) : Stays k s0 (pageTurn s a1).1 := by
  unfold pageTurn
  repeat' first
    | with_reducible assumption
    | split
    | simp only [Stays.lit_iff]

theorem takeHeldRebuild_stays {s0 s t : State} {p f} (hq : takeHeldRebuild s p f = some t) (h : Stays k s0 s) : Stays k s0 t := by
  unfold takeHeldRebuild at hq
  split at hq
  · cases hq
    exact giveCredit_stays (updPort_stays h ..) ..
  · cases hq

theorem startRebuild_stays {s0 : State} {s : State} (h : Stays k s0 s) (a1) : Stays k s0 (startRebuild s a1) := by
  unfold startRebuild
  repeat' first
    | with_reducible assumption
    | with_reducible apply pumpRebuild_stays
    | with_reducible apply updHbm_stays

theorem execMirrorRebuild_stays {s0 s t : State} (h : Stays k s0 s) (a1 a2) (ht : execMirrorRebuild a1 a2 s = .next t) : Stays k s0 t := by
  unfold execMirrorRebuild at ht
  cases ht
  repeat' first
    | with_reducible assumption
    | with_reducible apply pumpRebuild_stays
    | with_reducible refine takeHeldRebuild_stays (by assumption) ?_
    | with_reducible apply startRebuild_stays
    | with_reducible apply receive_stays
    | with_reducible apply giveCredit_stays
    | with_reducible apply updPort_stays
    | (intro q hq)
    | split

theorem putPage_stays {s0 : State} {s : State} (h : Stays k s0 s) (a1 a2 a3) : Stays k s0 (putPage s a1 a2 a3) := by
  unfold putPage
  repeat' first
    | with_reducible assumption
    | with_reducible apply updHbm_stays
    | with_reducible apply startTxn_stays
    | with_reducible refine foldl_keeps (P := fun e : State => Stays k s0 e) (fun _ _ _ => ?_) ?_
    | split

theorem execMigrationComplete_stays {s0 s t : State} (h : Stays k s0 s) (a1) (ht : execMigrationComplete a1 s = .next t) : Stays k s0 t := by
  unfold execMigrationComplete at ht
  cases ht
  repeat' first
    | with_reducible assumption
    | with_reducible apply pumpMig_stays
    | with_reducible apply carried_stays
    | with_reducible apply hbmCorrected_stays
    | with_reducible apply putPage_stays
    | with_reducible apply updHbm_stays
    | with_reducible apply syncResid_stays
    | with_reducible apply dropCached_stays
    | with_reducible apply sendFrees_stays
    | with_reducible refine foldl_keeps (P := fun e : State => Stays k s0 e) (fun _ _ _ => ?_) ?_
    | split

theorem execPendingEviction_stays {s0 s t : State} (h : Stays k s0 s) (a1) (ht : execPendingEviction a1 s = .next t) : Stays k s0 t := by
  unfold execPendingEviction at ht
  cases ht
  repeat' first
    | with_reducible assumption
    | with_reducible apply startMig_stays
    | with_reducible apply updHbm_stays
    | split

/-! ## Timing -/

theorem domainFault_stays {s0 : State} {s : State} (h : Stays k s0 s) (a1 a2) : Stays k s0 (domainFault s a1 a2) := by
  unfold domainFault
  repeat' first
    | with_reducible assumption
    | with_reducible apply regionFault_stays
    | with_reducible apply raiseFault_stays
    | split

theorem execRecalibration_stays {s0 s t : State} (h : Stays k s0 s) (a1 a2) (ht : execRecalibration a1 a2 s = .next t) : Stays k s0 t := by
  unfold execRecalibration at ht
  cases ht
  repeat' first
    | with_reducible assumption
    | with_reducible apply domainFault_stays
    | split
    | simp only [Stays.boot_iff]

theorem execRailFloor_stays {s0 s t : State} (h : Stays k s0 s) (a1 a2 a3) (ht : execRailFloor a1 a2 a3 s = .next t) : Stays k s0 t := by
  unfold execRailFloor at ht
  cases ht
  repeat' first
    | with_reducible assumption
    | with_reducible apply raiseFault_stays
    | split

theorem execPromiseOverrun_stays {s0 s t : State} (h : Stays k s0 s) (a1 a2) (ht : execPromiseOverrun a1 a2 s = .next t) : Stays k s0 t := by
  unfold execPromiseOverrun at ht
  cases ht
  repeat' first
    | with_reducible assumption
    | with_reducible apply streamFault_stays
    | split

/-! ## Integrity -/

theorem execSramWriteBack_stays {s0 s t : State} (h : Stays k s0 s) (a1) (ht : execSramWriteBack a1 s = .next t) : Stays k s0 t := by
  unfold execSramWriteBack at ht
  cases ht
  repeat' first
    | with_reducible assumption
    | with_reducible apply updRegion_stays
    | split

theorem execHbmWriteBack_stays {s0 s t : State} (h : Stays k s0 s) (ht : execHbmWriteBack s = .next t) : Stays k s0 t := by
  unfold execHbmWriteBack at ht
  cases ht
  repeat' first
    | with_reducible assumption
    | with_reducible apply updHbm_stays
    | split

theorem execPoisonScan_stays {s0 s t : State} (h : Stays k s0 s) (a1) (ht : execPoisonScan a1 s = .next t) : Stays k s0 t := by
  unfold execPoisonScan at ht
  dsimp only at ht
  injection ht with ht
  rw [← ht]
  apply syncWhere_stays
  exact Stays.lit h ..

theorem mothAct_stays {s0 : State} {s : State} (h : Stays k s0 s) (a1 a2) : Stays k s0 (mothAct s a1 a2) := by
  unfold mothAct
  repeat' first
    | with_reducible assumption
    | with_reducible apply raiseFault_stays
    | with_reducible apply rebuildMirror_stays
    | with_reducible apply updCtx_stays
    | with_reducible apply noteBad_stays
    | with_reducible apply updHbm_stays
    | split

theorem execMothHbmRead_stays {s0 s t : State} (h : Stays k s0 s) (a1 a2 a3) (ht : execMothHbmRead a1 a2 a3 s = .next t) : Stays k s0 t := by
  unfold execMothHbmRead at ht
  cases ht
  repeat' first
    | with_reducible assumption
    | with_reducible apply updHbm_stays
    | with_reducible apply hbmCorrected_stays
    | with_reducible apply hbmPoisoned_stays
    | with_reducible apply mothAct_stays
    | split
    | dsimp only

theorem mothSram_stays {s0 : State} {s : State} (h : Stays k s0 s) (a1 a2 a3 a4 a5) : Stays k s0 (mothSram s a1 a2 a3 a4 a5) := by
  unfold mothSram
  repeat' first
    | with_reducible assumption
    | with_reducible apply updRegion_stays
    | with_reducible apply sramCorrected_stays
    | with_reducible apply raiseFault_stays
    | with_reducible apply noteBad_stays
    | with_reducible refine foldl_keeps (P := fun e : State => Stays k s0 e) (fun _ _ _ => ?_) ?_
    | split

theorem mothRecords_stays {s0 : State} {s : State} (h : Stays k s0 s) (a1 a2 a3) : Stays k s0 (mothRecords s a1 a2 a3) := by
  unfold mothRecords
  repeat' first
    | with_reducible assumption
    | with_reducible apply makeRec_stays
    | with_reducible apply corrected_stays
    | with_reducible refine foldl_keeps (P := fun e : State => Stays k s0 e) (fun _ _ _ => ?_) ?_
    | split

theorem execMothSramRead_stays {s0 s t : State} (h : Stays k s0 s) (a1 a2 a3) (ht : execMothSramRead a1 a2 a3 s = .next t) : Stays k s0 t := by
  unfold execMothSramRead at ht
  cases ht
  repeat' first
    | with_reducible assumption
    | with_reducible apply updRegion_stays
    | with_reducible apply mothSram_stays
    | with_reducible apply mothRecords_stays
    | split
    | dsimp only

theorem execCoalesceWindowClose_stays {s0 s t : State} (h : Stays k s0 s) (q) (ht : execCoalesceWindowClose q s = .next t) : Stays k s0 t := by
  cases ht
  have hb : ∀ w, Stays k s0 { s with scree := { s.scree with windows := w } } := fun _ => ⟨h.1, h.2, fun p hp => by cases p <;> exact h.3 _ hp, h.4⟩
  repeat' first
    | with_reducible assumption
    | with_reducible apply hb
    | with_reducible apply sendRec_stays
    | split

end Sys2Proof.Machine
end

