-- ==== Sys2Proof/Laws/KeptRegion.lean ====
section
/-! SUPPORT. `Stays` for the issue of bundles and the beats of a region. -/

namespace Sys2Proof.Machine

set_option Elab.async false

variable {k : Part → Bool}

/-! ## Region -/

theorem endBeat_stays {s0 : State} {s : State} (h : Stays k s0 s) (a1) : Stays k s0 (endBeat s a1).1 := by
  unfold endBeat
  repeat' first
    | with_reducible assumption
    | with_reducible apply updRegion_stays
    | with_reducible apply raiseFault_stays
    | split
    | dsimp only

theorem passBeats3_stays {s0 : State} {s : State} (h : Stays k s0 s) (a1 a2) : Stays k s0 (passBeats3 s a1 a2) := by
  unfold passBeats3
  repeat' first
    | with_reducible assumption
    | with_reducible apply updRegion_stays

theorem issueStream_stays {s0 : State} {s : State} (h : Stays k s0 s) (a1 a2 a3) : Stays k s0 (issueStream s a1 a2 a3) := by
  unfold issueStream
  repeat' first
    | with_reducible assumption
    | with_reducible apply sramCorrected_stays
    | with_reducible apply raiseFault_stays
    | with_reducible apply busFault_stays
    | with_reducible apply updRegion_stays
    | split
    | dsimp only

theorem execBundleIssue_stays {s0 s t : State} (h : Stays k s0 s) (a1 a2 a3) (ht : execBundleIssue a1 a2 a3 s = .next t) : Stays k s0 t := by
  unfold execBundleIssue at ht
  cases ht
  repeat' first
    | with_reducible assumption
    | with_reducible apply endBeat_stays
    | with_reducible apply updRegion_stays
    | with_reducible apply raiseFault_stays
    | with_reducible apply passBeats3_stays
    | with_reducible apply issueStream_stays
    | with_reducible refine stays_of_state1 (by assumption) ?_
    | split
    | dsimp only

theorem execSegmentOverrun_stays {s0 s t : State} (h : Stays k s0 s) (a1 a2) (ht : execSegmentOverrun a1 a2 s = .next t) : Stays k s0 t := by
  unfold execSegmentOverrun at ht
  cases ht
  repeat' first
    | with_reducible assumption
    | with_reducible apply streamFault_stays
    | split

theorem execRemoteStall_stays {s0 s t : State} (h : Stays k s0 s) (a1 a2) (ht : execRemoteStall a1 a2 s = .next t) : Stays k s0 t := by
  unfold execRemoteStall at ht
  cases ht
  repeat' first
    | with_reducible assumption
    | with_reducible apply streamFault_stays
    | split

end Sys2Proof.Machine
end

