-- ==== Sys2Proof/Laws/KeptHost.lean ====
section
/-! SUPPORT. `Stays` for the host commands, start-up, the registers, gated commands, power and the sideband. -/

namespace Sys2Proof.Machine

set_option Elab.async false

variable {k : Part → Bool}

/-! ## HostCmd -/

theorem sayAccept_stays {s0 : State} {s : State} (h : Stays k s0 s) (a1 a2 a3 a4) : Stays k s0 (sayAccept s a1 a2 a3 a4) := by
  unfold sayAccept
  repeat' first
    | with_reducible assumption
    | with_reducible apply post_stays
    | split

theorem advanceHead_stays {s0 : State} {s : State} (h : Stays k s0 s) (a1) : Stays k s0 (advanceHead s a1) := by
  unfold advanceHead
  repeat' first
    | with_reducible assumption
    | with_reducible apply updRing_stays
    | (intro hr; exact hr)

theorem accept_stays {s0 : State} {s : State} (h : Stays k s0 s) (a1 a2 a3 a4 a5) : Stays k s0 (accept s a1 a2 a3 a4 a5) := by
  unfold accept
  repeat' first
    | with_reducible assumption
    | with_reducible apply sayAccept_stays
    | with_reducible apply updRing_stays
    | with_reducible apply advanceHead_stays
    | (intro hr; exact hr)

theorem reject_stays {s0 : State} {s : State} (h : Stays k s0 s) (a1 a2 a3 a4) : Stays k s0 (reject s a1 a2 a3 a4) := by
  unfold reject
  repeat' first
    | with_reducible assumption
    | with_reducible apply post_stays
    | with_reducible apply advanceHead_stays

theorem unmapAll_stays {s0 : State} {s : State} (h : Stays k s0 s) (a1 a2) : Stays k s0 (unmapAll s a1 a2).1 := by
  unfold unmapAll
  repeat' first
    | with_reducible assumption
    | with_reducible apply unmapPage_stays
    | with_reducible refine foldl_keeps (P := fun e : State × _ => Stays k s0 e.1) (fun _ _ _ => ?_) ?_

theorem updCmd_stays {s0 : State} {s : State} (h : Stays k s0 s) (a1 a2 a3 a4) : Stays k s0 (updCmd s a1 a2 a3 a4) := by
  unfold updCmd
  repeat' first
    | with_reducible assumption
    | with_reducible apply updRing_stays
    | (intro hr; exact hr)

theorem hostWrite_stays {s0 : State} {s : State} (hk_hostMem : k .hostMem = false) (h : Stays k s0 s) (a1 a2) : Stays k s0 (hostWrite s a1 a2) := by
  unfold hostWrite
  repeat' first
    | with_reducible assumption
    | simp only [Stays.hostMem_iff hk_hostMem]

theorem freeRegions_stays {s0 : State} {s : State} (h : Stays k s0 s) (a1 a2) : Stays k s0 (freeRegions s a1 a2) := by
  unfold freeRegions
  repeat' first
    | with_reducible assumption
    | simp only [Stays.lit_iff]

theorem askReads_stays {s0 : State} {s : State} (h : Stays k s0 s) (a1 a2) : Stays k s0 (askReads s a1 a2) := by
  unfold askReads
  repeat' first
    | with_reducible assumption
    | with_reducible apply startTxn_stays
    | with_reducible refine foldl_keeps (P := fun e : State => Stays k s0 e) (fun _ _ _ => ?_) ?_
    | split

theorem askAgain_stays {s0 : State} {s : State} (h : Stays k s0 s) (a1 a2) : Stays k s0 (askAgain s a1 a2) := by
  unfold askAgain
  repeat' first
    | with_reducible assumption
    | with_reducible apply pumpRestore_stays
    | with_reducible apply askReads_stays
    | split

theorem command_stays {s0 : State} {s : State} (h : Stays k s0 s) (c mine check bound run) {effect : Desc → State → State} (hf : ∀ d q, Stays k s0 q → Stays k s0 (effect d q)) : Stays k s0 (command s c mine check bound run effect) := by
  unfold command
  repeat' first
    | with_reducible assumption
    | with_reducible apply hf
    | with_reducible apply reject_stays
    | with_reducible apply accept_stays
    | split

theorem closeCtx_stays {s0 : State} {s : State} (h : Stays k s0 s) (a1) : Stays k s0 (closeCtx s a1) := by
  unfold closeCtx
  repeat' first
    | with_reducible assumption
    | with_reducible apply command_stays
    | with_reducible apply unmapAll_stays
    | with_reducible apply freeRegions_stays
    | with_reducible apply sendFrees_stays
    | with_reducible apply updCtx_stays
    | (intro d q hq)

theorem endCfgWrite_stays {s0 s : State} (hk_flash : k .flash = false) (h : Stays k s0 s) (a1) : Stays k s0 (endCfgWrite s a1) := by
  unfold endCfgWrite
  split
  · exact ⟨h.1, h.2, fun p hp => by cases p <;> first | exact h.3 _ hp | exact absurd (hk_flash.symm.trans hp) Bool.false_ne_true, h.4⟩
  · exact h

theorem endRestore_stays {s0 : State} {s : State} (h : Stays k s0 s) (a1) : Stays k s0 (endRestore s a1) := by
  unfold endRestore
  repeat' first
    | with_reducible assumption
    | with_reducible apply updCtx_stays
    | with_reducible apply updHbm_stays
    | split
    | simp only [Stays.lit_iff]

theorem execDoorbell_stays {s0 s t : State} (h : Stays k s0 s) (a1 a2 a3) (ht : execDoorbell a1 a2 a3 s = .next t) : Stays k s0 t := by
  unfold execDoorbell at ht
  cases ht
  repeat' first
    | with_reducible assumption
    | with_reducible apply updRing_stays
    | (intro hr; exact hr)
    | split
    | simp only [Stays.host_iff]

theorem execOpenCtx_stays {s0 s t : State} (h : Stays k s0 s) (a1) (ht : execOpenCtx a1 s = .next t) : Stays k s0 t := by
  unfold execOpenCtx at ht
  cases ht
  repeat' first
    | with_reducible assumption
    | with_reducible apply command_stays
    | with_reducible apply updCtx_stays
    | (intro d q hq)

theorem execCloseCtx_stays {s0 s t : State} (h : Stays k s0 s) (a1) (ht : execCloseCtx a1 s = .next t) : Stays k s0 t := by
  unfold execCloseCtx at ht
  cases ht
  repeat' first
    | with_reducible assumption
    | with_reducible apply closeCtx_stays
    | with_reducible apply pageTurn_stays
    | with_reducible refine stays_of_state1 (by assumption) ?_
    | split

theorem execSetSeeds_stays {s0 s t : State} (h : Stays k s0 s) (a1) (ht : execSetSeeds a1 s = .next t) : Stays k s0 t := by
  unfold execSetSeeds at ht
  cases ht
  repeat' first
    | with_reducible assumption
    | with_reducible apply command_stays
    | with_reducible apply updCtx_stays
    | (intro d q hq)

theorem query_stays {s0 : State} {s : State} (hk_hostMem : k .hostMem = false) (h : Stays k s0 s) (a1 a2 a3 a4) : Stays k s0 (query s a1 a2 a3 a4) := by
  unfold query
  repeat' first
    | with_reducible assumption
    | with_reducible apply command_stays
    | with_reducible apply hostWrite_stays
    | (intro d q hq)

theorem execQueryContext_stays {s0 s t : State} (hk_hostMem : k .hostMem = false) (h : Stays k s0 s) (a1) (ht : execQueryContext a1 s = .next t) : Stays k s0 t := by
  unfold execQueryContext at ht
  cases ht
  repeat' first
    | with_reducible assumption
    | with_reducible apply query_stays

theorem execQueryScree_stays {s0 s t : State} (hk_hostMem : k .hostMem = false) (h : Stays k s0 s) (a1) (ht : execQueryScree a1 s = .next t) : Stays k s0 t := by
  unfold execQueryScree at ht
  cases ht
  repeat' first
    | with_reducible assumption
    | with_reducible apply query_stays

theorem execQueryPage_stays {s0 s t : State} (hk_hostMem : k .hostMem = false) (h : Stays k s0 s) (a1) (ht : execQueryPage a1 s = .next t) : Stays k s0 t := by
  unfold execQueryPage at ht
  cases ht
  repeat' first
    | with_reducible assumption
    | with_reducible apply query_stays

theorem execQueryDebug_stays {s0 s t : State} (hk_hostMem : k .hostMem = false) (h : Stays k s0 s) (a1) (ht : execQueryDebug a1 s = .next t) : Stays k s0 t := by
  unfold execQueryDebug at ht
  cases ht
  repeat' first
    | with_reducible assumption
    | with_reducible apply query_stays

theorem execAckError_stays {s0 s t : State} (h : Stays k s0 s) (c) (ht : execAckError c s = .next t) : Stays k s0 t := by
  cases ht
  refine command_stays h _ _ _ _ _ fun d q h => ⟨h.1, h.2, fun p hp => by cases p <;> exact h.3 _ hp, fun hb => ?_⟩
  obtain ⟨h1, h2, h3⟩ := h.4 hb
  exact ⟨by simp [h1], h2, h3⟩

theorem sayDone_stays {s0 : State} {s : State} (h : Stays k s0 s) (a1 a2) : Stays k s0 (sayDone s a1 a2) := by
  unfold sayDone
  repeat' first
    | with_reducible assumption
    | with_reducible apply post_stays
    | split

theorem execCommandCompletion_stays {s0 s t : State} (hk_flash : k .flash = false) (h : Stays k s0 s) (a1 a2 a3) (ht : execCommandCompletion a1 a2 a3 s = .next t) : Stays k s0 t := by
  unfold execCommandCompletion at ht
  cases ht
  repeat' first
    | with_reducible assumption
    | with_reducible apply askAgain_stays
    | with_reducible apply updRing_stays
    | with_reducible apply endRestore_stays
    | with_reducible apply endCfgWrite_stays
    | with_reducible apply sayDone_stays
    | (intro hr; exact hr)
    | split

/-! ## HostMem -/

theorem mapPages_stays {s0 s t : State} {c d f i l} (hq : mapPages c d f i l s = some t) (h : Stays k s0 s) : Stays k s0 t := by
  induction l generalizing s i with
  | nil =>
    cases hq
    exact h
  | cons a l ih =>
    unfold mapPages at hq
    split at hq
    · split at hq
      · cases hq
      · refine ih hq (makeResid_stays ?_ ..)
        rename_i ha
        split at ha
        · exact allocPair_stays ha h
        · exact allocFrame_stays ha h
    · exact ih hq (makeResid_stays h ..)
    · exact ih hq (makeResid_stays h ..)

theorem applyMap_stays {s0 s t : State} {c d f} (hq : applyMap s c d f = some t) (h : Stays k s0 s) : Stays k s0 t := by
  simp only [applyMap, Option.bind_eq_some_iff] at hq
  obtain ⟨q, h1, h2⟩ := hq
  exact mapPages_stays h2 (growTables_stays h1 h)

theorem applyUnmap_stays {s0 : State} {s : State} (h : Stays k s0 s) (a1 a2) : Stays k s0 (applyUnmap s a1 a2) := by
  unfold applyUnmap
  repeat' first
    | with_reducible assumption
    | with_reducible apply unmapAll_stays
    | with_reducible apply sendFrees_stays

theorem applyShare_stays {s0 s t : State} {c d} (hq : applyShare s c d = some t) (h : Stays k s0 s) : Stays k s0 t := by
  simp only [applyShare, Option.map_eq_some_iff] at hq
  obtain ⟨q, h1, rfl⟩ := hq
  have h2 := growTables_stays h1 h
  refine foldl_keeps (P := Stays k s0) (fun b e hb => ?_) h2
  split
  · exact mapIn_stays hb ..
  · exact hb

theorem hostPhysRead_stays {s0 : State} {s : HostRd} (h : Stays k s0 s.s) (a1 a2 a3 a4) : Stays k s0 (hostPhysRead s a1 a2 a3 a4).s := by
  unfold hostPhysRead
  repeat' first
    | with_reducible assumption
    | with_reducible apply hbmCorrected_stays
    | with_reducible apply hbmPoisoned_stays
    | with_reducible apply busFault_stays
    | with_reducible refine foldl_keeps (P := fun e : State => Stays k s0 e) (fun _ _ _ => ?_) ?_

theorem hostPoolRead_stays {s0 : State} {s : HostRd} (h : Stays k s0 s.s) (a1 a2 a3 a4) : Stays k s0 (hostPoolRead s a1 a2 a3 a4).s := by
  unfold hostPoolRead
  repeat' first
    | with_reducible assumption
    | with_reducible apply busFault_stays
    | with_reducible refine foldl_keeps (P := fun e : State => Stays k s0 e) (fun _ _ _ => ?_) ?_

theorem hostRead_stays {s0 : State} {s : HostRd} (h : Stays k s0 s.s) (a1 a2) : Stays k s0 (hostRead a1 s a2).s := by
  unfold hostRead
  repeat' first
    | with_reducible assumption
    | with_reducible apply hostPhysRead_stays
    | with_reducible apply hostPoolRead_stays
    | split

theorem promotePages_stays {s0 s t : State} {c d fr i l m f m2 f2} (hq : promotePages c d fr i l s m f = some (t, m2, f2)) (h : Stays k s0 s) : Stays k s0 t := by
  induction l generalizing s i m f with
  | nil =>
    cases hq
    exact h
  | cons a l ih =>
    unfold promotePages at hq
    repeat' first
      | (with_reducible refine ih (by assumption) ?_)
      | (cases hq; done)
      | (dsimp only at hq)
      | split at hq
      | with_reducible assumption
      | with_reducible apply updHbm_stays
      | with_reducible refine allocFrame_stays (by assumption) ?_
      | with_reducible apply startMig_stays
      | split

theorem applyRelease_stays {s0 : State} {s : State} (h : Stays k s0 s) (a1 a2) : Stays k s0 (applyRelease s a1 a2) := by
  unfold applyRelease
  repeat' first
    | with_reducible assumption
    | with_reducible apply updHbm_stays
    | with_reducible refine foldl_keeps (P := fun e : State => Stays k s0 e) (fun _ _ _ => ?_) ?_
    | split

theorem evictPages_stays {s0 : State} {s : State} (h : Stays k s0 s) (c d l f m n) : Stays k s0 (evictPages c d l f s m n).1 := by
  induction l generalizing s f m n with
  | nil => exact h
  | cons a l ih =>
  unfold evictPages
  repeat' first
    | with_reducible assumption
    | with_reducible apply ih
    | with_reducible apply startMig_stays
    | with_reducible apply sendFrees_stays
    | with_reducible apply updHbm_stays
    | split

theorem mapEffect_stays {s0 s t : State} {c d f m n} (hq : mapEffect s c d f = some (t, m, n)) (h : Stays k s0 s) : Stays k s0 t := by
  unfold mapEffect at hq
  split at hq
  · simp only [Option.map_eq_some_iff] at hq
    obtain ⟨q, h1, he⟩ := hq
    cases he
    exact applyMap_stays h1 h
  · cases hq
    exact applyUnmap_stays h ..
  · simp only [Option.map_eq_some_iff] at hq
    obtain ⟨q, h1, he⟩ := hq
    cases he
    exact applyShare_stays h1 h
  · simp only [Option.map_eq_some_iff] at hq
    obtain ⟨⟨q, m2, f2⟩, h1, he⟩ := hq
    cases he
    exact sendFrees_stays (promotePages_stays h1 h) ..
  · cases hq
    exact applyRelease_stays h ..
  · have := evictPages_stays h c d (evictPlan c (mmTier d) 0 (mmPages d) s).1 f [] 0
    simp only [Option.some.injEq] at hq
    rw [hq] at this
    exact this

theorem acceptMap_stays {s0 : State} {s : State} (h : Stays k s0 s) (c d f) {back : State → State} (hf : ∀ q, Stays k s0 q → Stays k s0 (back q)) : Stays k s0 (acceptMap s c d f back) := by
  unfold acceptMap
  repeat' first
    | with_reducible assumption
    | with_reducible apply hf
    | with_reducible apply reject_stays
    | with_reducible refine mapEffect_stays (by assumption) ?_
    | with_reducible apply accept_stays
    | with_reducible apply updCmd_stays
    | split

theorem askLender_stays {s0 : State} {s : State} (h : Stays k s0 s) (a1 a2 a3) : Stays k s0 (askLender s a1 a2 a3) := by
  unfold askLender
  repeat' first
    | with_reducible assumption
    | with_reducible apply startTxn_stays
    | with_reducible apply updRing_stays
    | (intro hr; exact hr)

theorem mapDesc_stays {s0 : State} {s : State} (h : Stays k s0 s) (a1 a2) : Stays k s0 (mapDesc s a1 a2) := by
  unfold mapDesc
  repeat' first
    | with_reducible assumption
    | with_reducible apply reject_stays
    | with_reducible apply acceptMap_stays
    | with_reducible apply askLender_stays
    | (intro q hq)
    | split
    | simp only [id_eq]

theorem mapRow_stays {s0 : State} {s : State} (h : Stays k s0 s) (a1 a2) : Stays k s0 (mapRow s a1 a2) := by
  unfold mapRow
  repeat' first
    | with_reducible assumption
    | with_reducible apply updRing_stays
    | with_reducible apply mapDesc_stays
    | with_reducible apply pageTurn_stays
    | with_reducible refine stays_of_state1 (by assumption) ?_
    | (intro hr; exact hr)
    | split
    | dsimp only

theorem mirrorHost_stays {s0 : State} {s : State} (h : Stays k s0 s) (a1 a2 a3 a4) : Stays k s0 (mirrorHost s a1 a2 a3 a4) := by
  unfold mirrorHost
  repeat' first
    | with_reducible assumption
    | with_reducible apply startTxn_stays
    | with_reducible refine foldl_keeps (P := fun e : State => Stays k s0 e) (fun _ _ _ => ?_) ?_
    | split

theorem sendUnits_stays {s0 : State} {s : State} (h : Stays k s0 s) (a1 a2 a3 a4) : Stays k s0 (sendUnits s a1 a2 a3 a4) := by
  unfold sendUnits
  repeat' first
    | with_reducible assumption
    | with_reducible apply startTxn_stays
    | with_reducible refine foldl_keeps (P := fun e : State => Stays k s0 e) (fun _ _ _ => ?_) ?_
    | split

theorem hostWritePiece_stays {s0 : State} {s : HostWr} (h : Stays k s0 s.s) (a1 a2 a3 a4) : Stays k s0 (hostWritePiece a1 a2 a3 s a4).s := by
  unfold hostWritePiece
  repeat' first
    | with_reducible assumption
    | with_reducible apply mirrorHost_stays
    | with_reducible apply updCtx_stays
    | with_reducible apply updHbm_stays
    | with_reducible apply hbmRefused_stays
    | with_reducible apply busFault_stays
    | with_reducible apply hbmCorrected_stays
    | with_reducible apply sendUnits_stays
    | split
    | simp only [Stays.lit_iff]

theorem hostAnswered_stays {s0 : State} {s : State} (hk_hostMem : k .hostMem = false) (h : Stays k s0 s) (a1 a2) : Stays k s0 (hostAnswered s a1 a2) := by
  unfold hostAnswered
  repeat' first
    | with_reducible assumption
    | with_reducible apply updCmd_stays
    | with_reducible apply hostWrite_stays
    | with_reducible apply updHbm_stays
    | with_reducible apply sendUnits_stays
    | split
    | dsimp only

theorem answered_stays {s0 : State} {s : State} (hk_hostMem : k .hostMem = false) (h : Stays k s0 s) (a1) : Stays k s0 (answered s a1) := by
  unfold answered
  repeat' first
    | with_reducible assumption
    | with_reducible apply updRegion_stays
    | with_reducible apply takeMig_stays
    | with_reducible apply takeRestore_stays
    | with_reducible apply sendRebuild_stays
    | with_reducible apply pumpRebuild_stays
    | with_reducible apply hostAnswered_stays
    | split
    | dsimp only

theorem giveBack_stays {s0 : State} {s : State} (h : Stays k s0 s) (a1 a2 a3 a4) : Stays k s0 (giveBack a1 a2 a3 a4 s) := by
  unfold giveBack
  repeat' first
    | with_reducible assumption
    | with_reducible apply freeMirror_stays
    | with_reducible apply sendFrees_stays
    | with_reducible refine foldl_keeps (P := fun e : State => Stays k s0 e) (fun _ _ _ => ?_) ?_
    | split

theorem lendAnswered_stays {s0 : State} {s : State} (h : Stays k s0 s) (a1 a2 a3) : Stays k s0 (lendAnswered s a1 a2 a3) := by
  unfold lendAnswered
  repeat' first
    | with_reducible assumption
    | with_reducible apply updRing_stays
    | with_reducible apply reject_stays
    | with_reducible apply giveBack_stays
    | with_reducible apply acceptMap_stays
    | (intro q hq)
    | (intro hr; exact hr)
    | split
    | dsimp only

theorem failChan_stays {s0 : State} {s : State} (h : Stays k s0 s) (a1 a2) : Stays k s0 (failChan s a1 a2) := by
  unfold failChan
  repeat' first
    | with_reducible assumption
    | with_reducible apply updRegion_stays

theorem refused_stays {s0 : State} {s : State} (h : Stays k s0 s) (a1) : Stays k s0 (refused s a1) := by
  unfold refused
  repeat' first
    | with_reducible assumption
    | with_reducible apply raiseFault_stays
    | with_reducible apply regionFault_stays
    | with_reducible apply failChan_stays
    | with_reducible apply updRegion_stays
    | with_reducible apply updHbm_stays
    | with_reducible apply updRing_stays
    | with_reducible apply reportCmp_stays
    | with_reducible refine foldl_keeps (P := fun e : State => Stays k s0 e) (fun _ _ _ => ?_) ?_
    | (intro hr; exact hr)
    | split

theorem execResp_stays {s0 s t : State} (hk_hostMem : k .hostMem = false) (h : Stays k s0 s) (a1 a2) (ht : execResp a1 a2 s = .next t) : Stays k s0 t := by
  unfold execResp at ht
  cases ht
  repeat' first
    | with_reducible assumption
    | with_reducible apply receiveNow_stays
    | with_reducible apply updFab_stays
    | with_reducible apply freeTxn_stays
    | with_reducible apply lendAnswered_stays
    | with_reducible apply refused_stays
    | with_reducible apply answered_stays
    | (intro q hq)
    | split
    | dsimp only

theorem memReadEffect_stays {s0 : State} {s : State} (hk_hostMem : k .hostMem = false) (h : Stays k s0 s) (a1 a2) : Stays k s0 (memReadEffect a1 a2 s) := by
  unfold memReadEffect
  repeat' first
    | with_reducible assumption
    | with_reducible apply hostWrite_stays
    | with_reducible apply hostPhysRead_stays
    | with_reducible apply hostRead_stays
    | with_reducible apply updCmd_stays
    | with_reducible apply askReads_stays
    | with_reducible refine foldl_keeps (P := fun e : HostRd => Stays k s0 e.s) (fun _ _ _ => ?_) ?_
    | split

theorem execMemRead_stays {s0 s t : State} (hk_hostMem : k .hostMem = false) (h : Stays k s0 s) (a1) (ht : execMemRead a1 s = .next t) : Stays k s0 t := by
  unfold execMemRead at ht
  cases ht
  repeat' first
    | with_reducible assumption
    | with_reducible apply command_stays
    | with_reducible apply memReadEffect_stays
    | (intro d q hq)

theorem rawWrite_stays {s0 : State} {s : State} (h : Stays k s0 s) (a1 a2 a3) : Stays k s0 (rawWrite a1 a2 s a3) := by
  unfold rawWrite
  repeat' first
    | with_reducible assumption
    | with_reducible apply updHbm_stays
    | with_reducible apply updRegion_stays
    | split

theorem memWriteEffect_stays {s0 : State} {s : State} (h : Stays k s0 s) (a1 a2 a3) : Stays k s0 (memWriteEffect a1 a2 a3 s) := by
  unfold memWriteEffect
  repeat' first
    | with_reducible assumption
    | with_reducible apply rawWrite_stays
    | with_reducible apply updCmd_stays
    | with_reducible apply hostWritePiece_stays
    | with_reducible apply askReads_stays
    | with_reducible refine foldl_keeps (P := fun e : State => Stays k s0 e) (fun _ _ _ => ?_) ?_
    | with_reducible refine foldl_keeps (P := fun e : HostWr => Stays k s0 e.s) (fun _ _ _ => ?_) ?_
    | split

theorem execMemWrite_stays {s0 s t : State} (h : Stays k s0 s) (a1 a2) (ht : execMemWrite a1 a2 s = .next t) : Stays k s0 t := by
  unfold execMemWrite at ht
  cases ht
  repeat' first
    | with_reducible assumption
    | with_reducible apply command_stays
    | with_reducible apply memWriteEffect_stays
    | (intro d q hq)

theorem execMap_stays {s0 s t : State} (h : Stays k s0 s) (a1) (ht : execMap a1 s = .next t) : Stays k s0 t := by
  unfold execMap at ht
  cases ht
  repeat' first
    | with_reducible assumption
    | with_reducible apply mapRow_stays

theorem execUnmap_stays {s0 s t : State} (h : Stays k s0 s) (a1) (ht : execUnmap a1 s = .next t) : Stays k s0 t := by
  unfold execUnmap at ht
  cases ht
  repeat' first
    | with_reducible assumption
    | with_reducible apply mapRow_stays

theorem execShare_stays {s0 s t : State} (h : Stays k s0 s) (a1) (ht : execShare a1 s = .next t) : Stays k s0 t := by
  unfold execShare at ht
  cases ht
  repeat' first
    | with_reducible assumption
    | with_reducible apply mapRow_stays

theorem execPromote_stays {s0 s t : State} (h : Stays k s0 s) (a1) (ht : execPromote a1 s = .next t) : Stays k s0 t := by
  unfold execPromote at ht
  cases ht
  repeat' first
    | with_reducible assumption
    | with_reducible apply mapRow_stays

theorem execRelease_stays {s0 s t : State} (h : Stays k s0 s) (a1) (ht : execRelease a1 s = .next t) : Stays k s0 t := by
  unfold execRelease at ht
  cases ht
  repeat' first
    | with_reducible assumption
    | with_reducible apply mapRow_stays

theorem execEvict_stays {s0 s t : State} (h : Stays k s0 s) (a1) (ht : execEvict a1 s = .next t) : Stays k s0 t := by
  unfold execEvict at ht
  cases ht
  repeat' first
    | with_reducible assumption
    | with_reducible apply mapRow_stays

/-! ## Startup -/

theorem terminate_stays {s0 : State} {s : State} (hk_phase : k .phase = false) (hk_test : k .test = false) (h : Stays k s0 s) (a1) : Stays k s0 (terminate s a1) := by
  unfold terminate
  repeat' first
    | with_reducible assumption
    | with_reducible apply moveEnvelope_stays
    | with_reducible apply haltCtx_stays
    | with_reducible refine foldl_keeps (P := fun e : State => Stays k s0 e) (fun _ _ _ => ?_) ?_
    | simp only [Stays.end_iff hk_phase hk_test]

theorem applyImage_stays {s0 s : State} (hk_cfg : k .cfg = false) (h : Stays k s0 s) (b l) : Stays k s0 (applyImage s b l) :=
  ⟨h.1, h.2, fun p hp => by cases p <;> first | exact h.3 _ hp | exact absurd (hk_cfg.symm.trans hp) Bool.false_ne_true, h.4⟩

theorem beginStages_stays {s0 : State} {s : State} (hk_phase : k .phase = false) (h : Stays k s0 s) (a1) : Stays k s0 (beginStages s a1) := by
  unfold beginStages
  repeat' first
    | with_reducible assumption
    | simp only [Stays.phase_iff hk_phase]

theorem domainStage_stays {s0 : State} {s : State} (hk_phase : k .phase = false) (hk_test : k .test = false) (hk_cfg : k .cfg = false) (h : Stays k s0 s) (a1) : Stays k s0 (domainStage s a1) := by
  unfold domainStage
  repeat' first
    | with_reducible assumption
    | with_reducible apply terminate_stays
    | with_reducible apply applyImage_stays
    | split

theorem flashStage_stays {s0 : State} {s : State} (hk_phase : k .phase = false) (hk_test : k .test = false) (h : Stays k s0 s) (a1) : Stays k s0 (flashStage s a1) := by
  unfold flashStage
  repeat' first
    | with_reducible assumption
    | with_reducible apply terminate_stays
    | split
    | simp only [Stays.boot_iff]

theorem verifyStage_stays {s0 : State} {s : State} (hk_phase : k .phase = false) (hk_test : k .test = false) (h : Stays k s0 s) : Stays k s0 (verifyStage s) := by
  unfold verifyStage
  repeat' first
    | with_reducible assumption
    | with_reducible apply terminate_stays
    | split
    | simp only [Stays.boot_iff]

theorem monitorStage_stays {s0 : State} {s : State} (hk_phase : k .phase = false) (hk_test : k .test = false) (h : Stays k s0 s) (a1) : Stays k s0 (monitorStage s a1) := by
  unfold monitorStage
  repeat' first
    | with_reducible assumption
    | with_reducible apply terminate_stays
    | split
    | simp only [Stays.boot_iff]

theorem memoryStage_stays {s0 : State} {s : State} (hk_phase : k .phase = false) (hk_test : k .test = false) (h : Stays k s0 s) (a1) : Stays k s0 (memoryStage s a1) := by
  unfold memoryStage
  repeat' first
    | with_reducible assumption
    | with_reducible apply terminate_stays
    | split
    | simp only [Stays.phase_iff hk_phase]

theorem stageWork_stays {s0 : State} {s : State} (hk_phase : k .phase = false) (hk_test : k .test = false) (hk_cfg : k .cfg = false) (h : Stays k s0 s) (a1 a2) : Stays k s0 (stageWork s a1 a2) := by
  unfold stageWork
  repeat' first
    | with_reducible assumption
    | with_reducible apply flashStage_stays
    | with_reducible apply verifyStage_stays
    | with_reducible apply domainStage_stays
    | with_reducible apply monitorStage_stays
    | with_reducible apply terminate_stays
    | with_reducible apply memoryStage_stays
    | split

theorem endStage_stays {s0 : State} {s : State} (hk_phase : k .phase = false) (hk_test : k .test = false) (hk_cfg : k .cfg = false) (h : Stays k s0 s) : Stays k s0 (endStage s) := by
  unfold endStage
  repeat' first
    | with_reducible assumption
    | with_reducible apply stageWork_stays
    | split
    | simp only [Stays.boot_iff]

theorem execCountTick_stays {s0 s t : State} (hk_cnt : k .cnt = false) (hk_phase : k .phase = false) (hk_test : k .test = false) (hk_cfg : k .cfg = false) (h : Stays k s0 s) (a1) (ht : execCountTick a1 s = .next t) : Stays k s0 t := by
  unfold execCountTick at ht
  cases ht
  repeat' first
    | with_reducible assumption
    | with_reducible apply endStage_stays
    | split
    | simp only [Stays.cnt_iff hk_cnt]

/-- The power goes: the fuses, the queue, the configuration memory and the memory of the host alone stay. -/
theorem powerLost_stays {s0 s : State} (hk_cfg : k .cfg = false) (hk_phase : k .phase = false) (hk_cnt : k .cnt = false) (hk_presence : k .presence = false) (hk_test : k .test = false) (hk_debug : k .debug = false) (hk_i3c : k .i3c = false) (h : Stays k s0 s) : Stays k s0 (powerLost s) :=
  ⟨h.1, h.2, fun p hp => by cases p <;> first | exact h.3 _ hp | exact absurd (hk_cfg.symm.trans hp) Bool.false_ne_true | exact absurd (hk_phase.symm.trans hp) Bool.false_ne_true | exact absurd (hk_cnt.symm.trans hp) Bool.false_ne_true | exact absurd (hk_presence.symm.trans hp) Bool.false_ne_true | exact absurd (hk_test.symm.trans hp) Bool.false_ne_true | exact absurd (hk_debug.symm.trans hp) Bool.false_ne_true | exact absurd (hk_i3c.symm.trans hp) Bool.false_ne_true,
    fun _ => ⟨List.length_replicate, fun c => by simp [powerLost, State.reset, HostIf.reset, Ring.reset], Nat.zero_lt_succ 63⟩⟩

theorem sayPresence_stays {s0 : State} {s : State} (h : Stays k s0 s) (a1 a2 a3) : Stays k s0 (sayPresence s a1 a2 a3) := by
  unfold sayPresence
  repeat' first
    | with_reducible assumption
    | with_reducible apply postEnabled_stays

theorem resetCore_stays {s0 s : State} (hk_cfg : k .cfg = false) (hk_phase : k .phase = false) (hk_cnt : k .cnt = false) (hk_presence : k .presence = false) (hk_test : k .test = false) (hk_debug : k .debug = false) (h : Stays k s0 s) {hi : HostIf}
    (hh : ∀ c : CtxId, hi.rings[c].msgs = []) (e) : Stays k s0 (resetCore s hi e) := by
  have hb : ∀ (cnt pr b pw),
      Stays k s0 { powerLost s with host := hi, i3c := s.i3c, cnt := cnt, presence := pr, boot := b, power := pw } :=
    fun _ _ _ _ => ⟨h.1, h.2, fun p hp => by cases p <;> first | exact h.3 _ hp | exact absurd (hk_cfg.symm.trans hp) Bool.false_ne_true | exact absurd (hk_phase.symm.trans hp) Bool.false_ne_true | exact absurd (hk_cnt.symm.trans hp) Bool.false_ne_true | exact absurd (hk_presence.symm.trans hp) Bool.false_ne_true | exact absurd (hk_test.symm.trans hp) Bool.false_ne_true | exact absurd (hk_debug.symm.trans hp) Bool.false_ne_true, fun hb => ⟨List.length_replicate, fun c => by
      have := hh c
      simp only [this, List.length_nil, Nat.zero_le], (h.4 hb).2.2⟩⟩
  unfold resetCore
  dsimp only
  split
  · exact sayPresence_stays (hb ..) ..
  · exact hb ..

theorem execModuleReset_stays {s0 s t : State} (hk_cfg : k .cfg = false) (hk_phase : k .phase = false) (hk_cnt : k .cnt = false) (hk_presence : k .presence = false) (hk_test : k .test = false) (hk_debug : k .debug = false) (h : Stays k s0 s) (v e) (ht : execModuleReset v e s = .next t) : Stays k s0 t := by
  cases ht
  split
  · exact h
  · refine beginStages_stays ?_ (resetCore_stays ?_ ?_ ?_ ?_ ?_ ?_ h (fun c => by simp [resetHost, resetRing, Ring.reset]) e) e <;> assumption

theorem execFundamentalReset_stays {s0 s t : State} (hk_cfg : k .cfg = false) (hk_phase : k .phase = false) (hk_cnt : k .cnt = false) (hk_presence : k .presence = false) (hk_test : k .test = false) (hk_debug : k .debug = false) (h : Stays k s0 s) (n e) (ht : execFundamentalReset n e s = .next t) : Stays k s0 t := by
  cases ht
  split
  · exact h
  · refine beginStages_stays ?_ (resetCore_stays ?_ ?_ ?_ ?_ ?_ ?_ h (fun c => by simp [coldHost, Ring.reset]) e) e <;> assumption

theorem execPowerOn_stays {s0 s t : State} (hk_cfg : k .cfg = false) (hk_phase : k .phase = false) (hk_cnt : k .cnt = false) (hk_presence : k .presence = false) (hk_test : k .test = false) (hk_debug : k .debug = false) (hk_i3c : k .i3c = false) (hk_flash : k .flash = false) (h : Stays k s0 s) (m e) (ht : execPowerOn m e s = .next t) :
    Stays k s0 t := by
  cases ht
  have hb : ∀ (fl cnt pw b), Stays k s0 { powerLost s with flash := fl, cnt := cnt, power := pw, boot := b } := fun _ _ _ _ =>
    ⟨h.1, h.2, fun p hp => by cases p <;> first | exact h.3 _ hp | exact absurd (hk_cfg.symm.trans hp) Bool.false_ne_true | exact absurd (hk_phase.symm.trans hp) Bool.false_ne_true | exact absurd (hk_cnt.symm.trans hp) Bool.false_ne_true | exact absurd (hk_presence.symm.trans hp) Bool.false_ne_true | exact absurd (hk_test.symm.trans hp) Bool.false_ne_true | exact absurd (hk_debug.symm.trans hp) Bool.false_ne_true | exact absurd (hk_i3c.symm.trans hp) Bool.false_ne_true | exact absurd (hk_flash.symm.trans hp) Bool.false_ne_true,
      fun _ => ⟨List.length_replicate, fun c => by simp [powerLost, State.reset, HostIf.reset, Ring.reset], Nat.zero_lt_succ 63⟩⟩
  repeat' first
    | with_reducible assumption
    | with_reducible apply terminate_stays
    | with_reducible apply beginStages_stays
    | with_reducible exact hb ..
    | split

theorem openJumper_stays {s0 : State} {s : State} (hk_presence : k .presence = false) (h : Stays k s0 s) : Stays k s0 (openJumper s) := by
  unfold openJumper
  repeat' first
    | with_reducible assumption
    | with_reducible apply sayPresence_stays
    | split
    | simp only [Stays.presence_iff hk_presence]

theorem execReady_stays {s0 s t : State} (hk_phase : k .phase = false) (hk_presence : k .presence = false) (h : Stays k s0 s) (ht : execReady s = .next t) : Stays k s0 t := by
  unfold execReady at ht
  cases ht
  repeat' first
    | with_reducible assumption
    | with_reducible apply openJumper_stays
    | with_reducible apply postEnabled_stays
    | split
    | simp only [Stays.phase_iff hk_phase]

theorem execPortWait_stays {s0 s t : State} (h : Stays k s0 s) (a1) (ht : execPortWait a1 s = .next t) : Stays k s0 t := by
  unfold execPortWait at ht
  cases ht
  repeat' first
    | with_reducible assumption
    | split
    | simp only [Stays.boot_iff]

theorem execAlignWait_stays {s0 s t : State} (h : Stays k s0 s) (ht : execAlignWait s = .next t) : Stays k s0 t := by
  unfold execAlignWait at ht
  cases ht
  repeat' first
    | with_reducible assumption
    | split
    | simp only [Stays.boot_iff]

theorem execHostPortTraining_stays {s0 s t : State} (h : Stays k s0 s) (ht : execHostPortTraining s = .next t) : Stays k s0 t := by
  unfold execHostPortTraining at ht
  cases ht
  repeat' first
    | with_reducible assumption
    | split
    | simp only [Stays.host_iff]

/-! ## Gated -/

theorem setStatus_stays {s0 : State} {s : State} (h : Stays k s0 s) (a1 a2 a3) : Stays k s0 (setStatus s a1 a2 a3) := by
  unfold setStatus
  repeat' first
    | with_reducible assumption
    | with_reducible apply updCmd_stays

theorem cfgEffect_stays {s0 s : State} (hk_flash : k .flash = false) (h : Stays k s0 s) (c l d q) : Stays k s0 (cfgEffect c l d q s) := by
  have hb : ∀ fl b, b.cfg = s.boot.cfg → b.phase = s.boot.phase → Stays k s0 { s with flash := fl, boot := b } := fun _ _ hc hd =>
    ⟨h.1, h.2, fun p hp => by cases p <;> first | exact h.3 _ hp | exact hc.trans (h.3 _ hp) | exact hd.trans (h.3 _ hp) | exact absurd (hk_flash.symm.trans hp) Bool.false_ne_true, h.4⟩
  unfold cfgEffect
  repeat' first
    | with_reducible assumption
    | with_reducible apply setStatus_stays
    | with_reducible exact hb _ _ rfl rfl
    | split
    | dsimp only

theorem endTest_stays {s0 : State} {s : State} (hk_test : k .test = false) (h : Stays k s0 s) : Stays k s0 (endTest s) := by
  unfold endTest
  repeat' first
    | with_reducible assumption
    | with_reducible apply updRegion_stays
    | with_reducible apply updHbm_stays
    | split
    | simp only [Stays.test_iff hk_test]

theorem enrolEffect_stays {s0 s : State} (hk_flash : k .flash = false) (h : Stays k s0 s) (c l d q) : Stays k s0 (enrolEffect c l d q s) := by
  have hb : ∀ fl b, b.cfg = s.boot.cfg → b.phase = s.boot.phase → Stays k s0 { s with flash := fl, boot := b } := fun _ _ hc hd =>
    ⟨h.1, h.2, fun p hp => by cases p <;> first | exact h.3 _ hp | exact hc.trans (h.3 _ hp) | exact hd.trans (h.3 _ hp) | exact absurd (hk_flash.symm.trans hp) Bool.false_ne_true, h.4⟩
  unfold enrolEffect
  repeat' first
    | with_reducible assumption
    | with_reducible apply setStatus_stays
    | with_reducible exact hb _ _ rfl rfl
    | split

theorem execAttest_stays {s0 s t : State} (hk_hostMem : k .hostMem = false) (h : Stays k s0 s) (a1) (ht : execAttest a1 s = .next t) : Stays k s0 t := by
  unfold execAttest at ht
  cases ht
  repeat' first
    | with_reducible assumption
    | with_reducible apply command_stays
    | with_reducible apply hostWrite_stays
    | (intro d q hq)

theorem execCfgWrite_stays {s0 s t : State} (hk_flash : k .flash = false) (h : Stays k s0 s) (c l d) (ht : execCfgWrite c l d s = .next t) : Stays k s0 t := by
  cases ht
  exact command_stays h _ _ _ _ _ fun d q hq => cfgEffect_stays hk_flash hq ..

theorem execTestModeEnable_stays {s0 s t : State} (hk_test : k .test = false) (h : Stays k s0 s) (a1) (ht : execTestModeEnable a1 s = .next t) : Stays k s0 t := by
  unfold execTestModeEnable at ht
  cases ht
  repeat' first
    | with_reducible assumption
    | with_reducible apply command_stays
    | with_reducible apply endTest_stays
    | (intro d q hq)
    | simp only [Stays.test_iff hk_test]

theorem execTestModeDisable_stays {s0 s t : State} (hk_test : k .test = false) (h : Stays k s0 s) (a1) (ht : execTestModeDisable a1 s = .next t) : Stays k s0 t := by
  unfold execTestModeDisable at ht
  cases ht
  repeat' first
    | with_reducible assumption
    | with_reducible apply command_stays
    | with_reducible apply endTest_stays
    | (intro d q hq)

theorem execDebugEnable_stays {s0 s t : State} (hk_debug : k .debug = false) (h : Stays k s0 s) (a1) (ht : execDebugEnable a1 s = .next t) : Stays k s0 t := by
  unfold execDebugEnable at ht
  cases ht
  repeat' first
    | with_reducible assumption
    | with_reducible apply command_stays
    | (intro d q hq)
    | simp only [Stays.debug_iff hk_debug]

theorem execOwnerEnrol_stays {s0 s t : State} (hk_flash : k .flash = false) (h : Stays k s0 s) (c l d) (ht : execOwnerEnrol c l d s = .next t) : Stays k s0 t := by
  cases ht
  exact command_stays h _ _ _ _ _ fun d q hq => enrolEffect_stays hk_flash hq ..

/-! ## HostReg -/

theorem deny_stays {s0 : State} {s : State} (h : Stays k s0 s) : Stays k s0 (deny s) := by
  unfold deny
  repeat' first
    | with_reducible assumption
    | simp only [Stays.host_iff]

theorem cxlPut_stays {s0 : State} {s : State} (h : Stays k s0 s) (a1 a2 a3) : Stays k s0 (cxlPut s a1 a2 a3) := by
  unfold cxlPut
  repeat' first
    | with_reducible assumption
    | with_reducible apply deny_stays
    | with_reducible apply hbmStore_stays
    | with_reducible apply busFault_stays
    | with_reducible apply syncWhere_stays
    | with_reducible apply updHbm_stays
    | with_reducible apply noteBad_stays
    | with_reducible refine stays_of_state1 (by assumption) ?_
    | split

theorem execMdropRead_stays {s0 s t : State} (h : Stays k s0 s) (a1) (ht : execMdropRead a1 s = .next t) : Stays k s0 t := by
  unfold execMdropRead at ht
  cases ht
  repeat' first
    | with_reducible assumption
    | with_reducible apply updRing_stays
    | (intro hr; exact hr)
    | split
    | simp only [Stays.host_iff]

theorem execMessageWrite_stays {s0 s t : State} (hk_hostMem : k .hostMem = false) (h : Stays k s0 s) (c) (ht : execMessageWrite c s = .next t) :
    Stays k s0 t := by
  cases ht
  split
  · exact h
  · rename_i m rest hm
    dsimp only
    split
    · exact h
    · simp only [Stays.host_iff]
      refine updRing_stays ((Stays.hostMem_iff hk_hostMem ..).2 h) _ fun hr => ?_
      simp only [hm, List.length_cons] at hr
      exact Nat.le_of_succ_le hr

theorem execMsixSend_stays {s0 s t : State} (h : Stays k s0 s) (a1) (ht : execMsixSend a1 s = .next t) : Stays k s0 t := by
  unfold execMsixSend at ht
  cases ht
  repeat' first
    | with_reducible assumption
    | split
    | simp only [Stays.host_iff]

theorem ringFront_bound (r : Ring) (m : Msg) (h : r.msgs.length ≤ 256) : (ringFront r m).msgs.length ≤ 256 := by
  have hp := ringPush_bound r m h
  unfold ringFront
  dsimp only
  split
  · simp only [List.length_cons, List.length_dropLast]
    have : (ringPush r m).msgs ≠ [] := fun he => by simp_all [List.getLast?]
    have := List.length_pos_iff.2 this
    omega
  · exact hp

theorem execRingEnable_stays {s0 s t : State} (h : Stays k s0 s) (c v) (ht : execRingEnable c v s = .next t) : Stays k s0 t := by
  cases ht
  repeat' first
    | with_reducible assumption
    | with_reducible apply updRing_stays
    | (intro hr; exact hr)
    | (intro hr; exact ringFront_bound _ _ hr)
    | split
    | dsimp only

theorem newInterval_stays {s0 : State} {s : State} (h : Stays k s0 s) : Stays k s0 (newInterval s) := by
  unfold newInterval
  repeat' first
    | with_reducible assumption
    | simp only [Stays.host_iff]

theorem execTelemetry_stays {s0 s t : State} (hk_hostMem : k .hostMem = false) (h : Stays k s0 s) (a1) (ht : execTelemetry a1 s = .next t) : Stays k s0 t := by
  unfold execTelemetry at ht
  cases ht
  repeat' first
    | with_reducible assumption
    | with_reducible apply hostWrite_stays
    | with_reducible apply newInterval_stays
    | with_reducible apply postEnabled_stays
    | split

theorem execGcountLatchRead_stays {s0 s t : State} (h : Stays k s0 s) (a1) (ht : execGcountLatchRead a1 s = .next t) : Stays k s0 t := by
  unfold execGcountLatchRead at ht
  cases ht
  repeat' first
    | with_reducible assumption
    | split
    | simp only [Stays.host_iff]

theorem writeRing_msgs (r : Ring) (o v) : (writeRing r o v).msgs = r.msgs := by
  unfold writeRing
  repeat' first
    | rfl
    | split

theorem writeReg_stays {s0 s : State} (h : Stays k s0 s) (o v) : Stays k s0 (writeReg s o v) := by
  unfold writeReg
  repeat' first
    | with_reducible assumption
    | (with_reducible refine updRing_stays ?_ _ fun hr => ?_)
    | (rw [writeRing_msgs]; assumption)
    | split
    | simp only [Stays.host_iff, clearErrsum]

theorem execRegisterWrite_stays {s0 s t : State} (h : Stays k s0 s) (a1 a2 a3) (ht : execRegisterWrite a1 a2 a3 s = .next t) : Stays k s0 t := by
  unfold execRegisterWrite at ht
  cases ht
  repeat' first
    | with_reducible assumption
    | with_reducible apply writeReg_stays
    | split

theorem execCxlMemRead_stays {s0 s t : State} (h : Stays k s0 s) (a1 a2) (ht : execCxlMemRead a1 a2 s = .next t) : Stays k s0 t := by
  unfold execCxlMemRead at ht
  cases ht
  repeat' first
    | with_reducible assumption
    | with_reducible apply hostPhysRead_stays
    | with_reducible apply deny_stays
    | with_reducible refine foldl_keeps (P := fun e : HostRd => Stays k s0 e.s) (fun _ _ _ => ?_) ?_
    | split
    | simp only [Stays.host_iff]

theorem execCxlMemWrite_stays {s0 s t : State} (h : Stays k s0 s) (a1 a2 a3) (ht : execCxlMemWrite a1 a2 a3 s = .next t) : Stays k s0 t := by
  unfold execCxlMemWrite at ht
  cases ht
  repeat' first
    | with_reducible assumption
    | with_reducible apply cxlPut_stays
    | with_reducible refine foldl_keeps (P := fun e : State => Stays k s0 e) (fun _ _ _ => ?_) ?_
    | split

/-! ## Launch -/

theorem loadEffect_stays {s0 : State} {s : State} (h : Stays k s0 s) (a1 a2 a3) : Stays k s0 (loadEffect a1 a2 a3 s) := by
  unfold loadEffect
  repeat' first
    | with_reducible assumption
    | with_reducible apply freeRegions_stays
    | with_reducible apply updCtx_stays
    | split
    | simp only [Stays.lit_iff]

theorem arm_stays {s0 : State} {s : State} (h : Stays k s0 s) (a1 a2 a3 a4) : Stays k s0 (arm s a1 a2 a3 a4) := by
  unfold arm
  repeat' first
    | with_reducible assumption
    | with_reducible apply updHbm_stays
    | with_reducible apply updCtx_stays
    | split
    | simp only [Stays.lit_iff]

theorem beginRestore_stays {s0 : State} {s : State} (h : Stays k s0 s) (a1 a2) : Stays k s0 (beginRestore s a1 a2) := by
  unfold beginRestore
  repeat' first
    | with_reducible assumption
    | with_reducible apply askRebuild_stays
    | split
    | simp only [Stays.lit_iff]

theorem execLoadProgram_stays {s0 s t : State} (h : Stays k s0 s) (a1 a2) (ht : execLoadProgram a1 a2 s = .next t) : Stays k s0 t := by
  unfold execLoadProgram at ht
  cases ht
  repeat' first
    | with_reducible assumption
    | with_reducible apply command_stays
    | with_reducible apply loadEffect_stays
    | (intro d q hq)

theorem execArmLaunch_stays {s0 s t : State} (h : Stays k s0 s) (a1) (ht : execArmLaunch a1 s = .next t) : Stays k s0 t := by
  unfold execArmLaunch at ht
  cases ht
  repeat' first
    | with_reducible assumption
    | with_reducible apply reject_stays
    | with_reducible apply arm_stays
    | with_reducible apply accept_stays
    | split
    | dsimp only

theorem execAbort_stays {s0 s t : State} (h : Stays k s0 s) (a1) (ht : execAbort a1 s = .next t) : Stays k s0 t := by
  unfold execAbort at ht
  cases ht
  repeat' first
    | with_reducible assumption
    | with_reducible apply command_stays
    | with_reducible apply raiseFault_stays
    | (intro d q hq)

theorem rollbackEffect_stays {s0 : State} {s : State} (h : Stays k s0 s) (a1) : Stays k s0 (rollbackEffect a1 s) := by
  unfold rollbackEffect
  repeat' first
    | with_reducible assumption
    | with_reducible apply updCtx_stays
    | with_reducible apply updHbm_stays

theorem execRollback_stays {s0 s t : State} (h : Stays k s0 s) (a1) (ht : execRollback a1 s = .next t) : Stays k s0 t := by
  unfold execRollback at ht
  cases ht
  repeat' first
    | with_reducible assumption
    | with_reducible apply command_stays
    | with_reducible apply rollbackEffect_stays
    | (intro d q hq)

theorem execRestoreFromBuddy_stays {s0 s t : State} (h : Stays k s0 s) (a1 a2) (ht : execRestoreFromBuddy a1 a2 s = .next t) : Stays k s0 t := by
  unfold execRestoreFromBuddy at ht
  cases ht
  repeat' first
    | with_reducible assumption
    | with_reducible apply command_stays
    | with_reducible apply pumpRestore_stays
    | with_reducible apply beginRestore_stays
    | (intro d q hq)

/-! ## PowerGov -/

theorem flagEvent_stays {s0 : State} {s : State} (h : Stays k s0 s) (a1) : Stays k s0 (flagEvent s a1) := by
  unfold flagEvent
  repeat' first
    | with_reducible assumption
    | simp only [Stays.lit_iff]

theorem sayPower_stays {s0 : State} {s : State} (h : Stays k s0 s) (a1 a2) : Stays k s0 (sayPower s a1 a2) := by
  unfold sayPower
  repeat' first
    | with_reducible assumption
    | with_reducible apply postEnabled_stays

theorem enterEvent_stays {s0 : State} {s : State} (h : Stays k s0 s) (a1 a2) : Stays k s0 (enterEvent s a1 a2) := by
  unfold enterEvent
  repeat' first
    | with_reducible assumption
    | with_reducible apply flagEvent_stays
    | with_reducible apply sayPower_stays
    | split
    | simp only [Stays.lit_iff]

theorem leaveEvent_stays {s0 : State} {s : State} (h : Stays k s0 s) (a1 a2 a3) : Stays k s0 (leaveEvent s a1 a2 a3) := by
  unfold leaveEvent
  repeat' first
    | with_reducible assumption
    | with_reducible apply flagEvent_stays
    | with_reducible apply sayPower_stays
    | split
    | simp only [Stays.lit_iff]

theorem execThermalStep_stays {s0 s t : State} (h : Stays k s0 s) (a1 a2 a3) (ht : execThermalStep a1 a2 a3 s = .next t) : Stays k s0 t := by
  unfold execThermalStep at ht
  cases ht
  repeat' first
    | with_reducible assumption
    | with_reducible apply enterEvent_stays
    | with_reducible apply leaveEvent_stays
    | split
    | simp only [Stays.lit_iff]

theorem bankHot_stays {s0 : State} {s : State} (h : Stays k s0 s) (a1) : Stays k s0 (bankHot s a1) := by
  unfold bankHot
  repeat' first
    | with_reducible assumption
    | split
    | simp only [Stays.lit_iff]

theorem execGovernorSample_stays {s0 s t : State} (h : Stays k s0 s) (a1 a2 a3) (ht : execGovernorSample a1 a2 a3 s = .next t) : Stays k s0 t := by
  unfold execGovernorSample at ht
  cases ht
  repeat' first
    | with_reducible assumption
    | with_reducible apply moveEnvelope_stays
    | with_reducible apply enterEvent_stays
    | with_reducible apply leaveEvent_stays
    | split
    | simp only [Stays.lit_iff]

theorem execLaunchRamp_stays {s0 s t : State} (h : Stays k s0 s) (a1) (ht : execLaunchRamp a1 s = .next t) : Stays k s0 t := by
  unfold execLaunchRamp at ht
  cases ht
  repeat' first
    | with_reducible assumption
    | with_reducible apply moveEnvelope_stays
    | split
    | simp only [Stays.lit_iff]

theorem execThermalTrip_stays {s0 s t : State} (hk_phase : k .phase = false) (hk_test : k .test = false) (h : Stays k s0 s) (a1 a2 a3) (ht : execThermalTrip a1 a2 a3 s = .next t) : Stays k s0 t := by
  unfold execThermalTrip at ht
  cases ht
  repeat' first
    | with_reducible assumption
    | with_reducible apply bankHot_stays
    | with_reducible apply terminate_stays
    | with_reducible apply moduleFault_stays
    | with_reducible apply enterEvent_stays
    | split
    | simp only [Stays.lit_iff]

theorem execTripShutdown_stays {s0 s t : State} (hk_phase : k .phase = false) (hk_test : k .test = false) (h : Stays k s0 s) (ht : execTripShutdown s = .next t) : Stays k s0 t := by
  unfold execTripShutdown at ht
  cases ht
  repeat' first
    | with_reducible assumption
    | with_reducible apply terminate_stays
    | split

theorem execInputUndervoltage_stays {s0 s t : State} (hk_phase : k .phase = false) (hk_test : k .test = false) (h : Stays k s0 s) (a1) (ht : execInputUndervoltage a1 s = .next t) : Stays k s0 t := by
  unfold execInputUndervoltage at ht
  cases ht
  repeat' first
    | with_reducible assumption
    | with_reducible apply terminate_stays
    | with_reducible apply moduleFault_stays
    | with_reducible apply enterEvent_stays
    | split
    | simp only [Stays.lit_iff]

theorem execInputDisconnect_stays {s0 s t : State} (hk_cfg : k .cfg = false) (hk_phase : k .phase = false) (hk_cnt : k .cnt = false) (hk_presence : k .presence = false) (hk_test : k .test = false) (hk_debug : k .debug = false) (hk_i3c : k .i3c = false) (h : Stays k s0 s) (m) (ht : execInputDisconnect m s = .next t) :
    Stays k s0 t := by
  cases ht
  split
  · exact h
  · refine powerLost_stays ?_ ?_ ?_ ?_ ?_ ?_ ?_ h <;> assumption

theorem execInputLow_stays {s0 s t : State} (h : Stays k s0 s) (a1) (ht : execInputLow a1 s = .next t) : Stays k s0 t := by
  unfold execInputLow at ht
  cases ht
  repeat' first
    | with_reducible assumption
    | with_reducible apply enterEvent_stays
    | split
    | simp only [Stays.lit_iff]

theorem execInputNormal_stays {s0 s t : State} (h : Stays k s0 s) (a1) (ht : execInputNormal a1 s = .next t) : Stays k s0 t := by
  unfold execInputNormal at ht
  cases ht
  repeat' first
    | with_reducible assumption
    | with_reducible apply leaveEvent_stays
    | split
    | simp only [Stays.lit_iff]

theorem execInputHigh_stays {s0 s t : State} (h : Stays k s0 s) (a1) (ht : execInputHigh a1 s = .next t) : Stays k s0 t := by
  unfold execInputHigh at ht
  cases ht
  repeat' first
    | with_reducible assumption
    | with_reducible apply enterEvent_stays
    | split
    | simp only [Stays.lit_iff]

/-! ## Sideband -/

theorem execPresencePress_stays {s0 s t : State} (hk_presence : k .presence = false) (h : Stays k s0 s) (a1) (ht : execPresencePress a1 s = .next t) : Stays k s0 t := by
  unfold execPresencePress at ht
  cases ht
  repeat' first
    | with_reducible assumption
    | with_reducible apply sayPresence_stays
    | split
    | simp only [Stays.presence_iff hk_presence]

theorem execPresenceWindowClose_stays {s0 s t : State} (hk_presence : k .presence = false) (hk_test : k .test = false) (h : Stays k s0 s) (ht : execPresenceWindowClose s = .next t) : Stays k s0 t := by
  unfold execPresenceWindowClose at ht
  cases ht
  repeat' first
    | with_reducible assumption
    | with_reducible apply sayPresence_stays
    | with_reducible apply endTest_stays
    | split
    | simp only [Stays.presence_iff hk_presence]

theorem execI3cPrivateWrite_stays {s0 s t : State} (hk_i3c : k .i3c = false) (h : Stays k s0 s) (a b) (ht : execI3cPrivateWrite a b s = .next t) :
    Stays k s0 t := by
  cases ht
  split
  · exact h
  · split
    · exact ⟨h.1, h.2, fun p hp => by cases p <;> first | exact h.3 _ hp | exact absurd (hk_i3c.symm.trans hp) Bool.false_ne_true, fun hb => ⟨(h.4 hb).1, (h.4 hb).2.1, Nat.mod_lt _ (by decide)⟩⟩
    · exact h

theorem execI3cPrivateRead_stays {s0 s t : State} (hk_i3c : k .i3c = false) (h : Stays k s0 s) (a1 a2 a3) (ht : execI3cPrivateRead a1 a2 a3 s = .next t) : Stays k s0 t := by
  unfold execI3cPrivateRead at ht
  cases ht
  repeat' first
    | with_reducible assumption
    | split
    | simp only [Stays.i3c_iff hk_i3c]

theorem execEntdaa_stays {s0 s t : State} (hk_i3c : k .i3c = false) (h : Stays k s0 s) (a1) (ht : execEntdaa a1 s = .next t) : Stays k s0 t := by
  unfold execEntdaa at ht
  cases ht
  repeat' first
    | with_reducible assumption
    | split
    | simp only [Stays.i3c_iff hk_i3c]

theorem execSetdasa_stays {s0 s t : State} (hk_i3c : k .i3c = false) (h : Stays k s0 s) (a1 a2) (ht : execSetdasa a1 a2 s = .next t) : Stays k s0 t := by
  unfold execSetdasa at ht
  cases ht
  repeat' first
    | with_reducible assumption
    | split
    | simp only [Stays.i3c_iff hk_i3c]

theorem execRstdaa_stays {s0 s t : State} (hk_i3c : k .i3c = false) (h : Stays k s0 s) (ht : execRstdaa s = .next t) : Stays k s0 t := by
  unfold execRstdaa at ht
  cases ht
  repeat' first
    | with_reducible assumption
    | split
    | simp only [Stays.i3c_iff hk_i3c]

theorem i3cReply_stays {s0 : State} {s : State} (hk_i3c : k .i3c = false) (h : Stays k s0 s) (a1 a2) : Stays k s0 (i3cReply s a1 a2) := by
  unfold i3cReply
  repeat' first
    | with_reducible assumption
    | split
    | simp only [Stays.i3c_iff hk_i3c]

theorem execGetpid_stays {s0 s t : State} (hk_i3c : k .i3c = false) (h : Stays k s0 s) (a1) (ht : execGetpid a1 s = .next t) : Stays k s0 t := by
  unfold execGetpid at ht
  cases ht
  repeat' first
    | with_reducible assumption
    | with_reducible apply i3cReply_stays

theorem execGetbcr_stays {s0 s t : State} (hk_i3c : k .i3c = false) (h : Stays k s0 s) (a1) (ht : execGetbcr a1 s = .next t) : Stays k s0 t := by
  unfold execGetbcr at ht
  cases ht
  repeat' first
    | with_reducible assumption
    | with_reducible apply i3cReply_stays

theorem execGetdcr_stays {s0 s t : State} (hk_i3c : k .i3c = false) (h : Stays k s0 s) (a1) (ht : execGetdcr a1 s = .next t) : Stays k s0 t := by
  unfold execGetdcr at ht
  cases ht
  repeat' first
    | with_reducible assumption
    | with_reducible apply i3cReply_stays

theorem execGetstatus_stays {s0 s t : State} (hk_i3c : k .i3c = false) (h : Stays k s0 s) (a1) (ht : execGetstatus a1 s = .next t) : Stays k s0 t := by
  unfold execGetstatus at ht
  cases ht
  repeat' first
    | with_reducible assumption
    | with_reducible apply i3cReply_stays

theorem execGetmwl_stays {s0 s t : State} (hk_i3c : k .i3c = false) (h : Stays k s0 s) (a1) (ht : execGetmwl a1 s = .next t) : Stays k s0 t := by
  unfold execGetmwl at ht
  cases ht
  repeat' first
    | with_reducible assumption
    | with_reducible apply i3cReply_stays

theorem execGetmrl_stays {s0 s t : State} (hk_i3c : k .i3c = false) (h : Stays k s0 s) (a1) (ht : execGetmrl a1 s = .next t) : Stays k s0 t := by
  unfold execGetmrl at ht
  cases ht
  repeat' first
    | with_reducible assumption
    | with_reducible apply i3cReply_stays

end Sys2Proof.Machine
end

