-- ==== Sys2Proof/Laws/Memory.lean ====
section
/-! SUPPORT. Reading after writing, and the canonical form: every operation over memories keeps it, and equal contents in it are
equal data. -/

namespace Sys2Proof.Machine

set_option Elab.async false

/-! ## Sparse stores -/

section
variable {α : Type} [DecidableEq α] {d : α}

theorem spWfFrom_mono {lo hi : Nat} {l : Sparse α} (h : spWfFrom d hi l = true) (hl : lo ≤ hi) : spWfFrom d lo l = true := by
  cases l with
  | nil => rfl
  | cons e l =>
    simp only [spWfFrom, Bool.and_eq_true, decide_eq_true_eq] at *
    exact ⟨⟨by omega, h.1.2⟩, h.2⟩

/-- A key below the first listed one reads as the default. -/
theorem spGet_below {lo k : Nat} {l : Sparse α} (h : spWfFrom d lo l = true) (hk : k < lo) : spGet d l k = d := by
  induction l generalizing lo with
  | nil => rfl
  | cons e l ih =>
    simp only [spWfFrom, Bool.and_eq_true, decide_eq_true_eq] at h
    simp only [spGet]
    rw [if_neg (by omega)]
    exact ih h.2 (by omega)

theorem spPut_wfFrom {lo k : Nat} {l : Sparse α} (x : α) (h : spWfFrom d lo l = true) (hk : lo ≤ k) :
    spWfFrom d lo (spPut d l k x) = true := by
  induction l generalizing lo with
  | nil =>
    simp only [spPut]
    split <;> simp_all [spWfFrom]
  | cons e l ih =>
    simp only [spWfFrom, Bool.and_eq_true, decide_eq_true_eq] at h
    obtain ⟨⟨h1, h2⟩, h3⟩ := h
    simp only [spPut]
    split
    · split
      · simp [spWfFrom, h1, h2, h3]
      · simp only [spWfFrom, Bool.and_eq_true, decide_eq_true_eq]
        exact ⟨⟨hk, ‹_›⟩, ⟨by omega, h2⟩, h3⟩
    · split
      · split
        · exact spWfFrom_mono h3 (by omega)
        · subst_vars
          simp only [spWfFrom, Bool.and_eq_true, decide_eq_true_eq]
          exact ⟨⟨hk, ‹_›⟩, h3⟩
      · simp only [spWfFrom, Bool.and_eq_true, decide_eq_true_eq]
        exact ⟨⟨h1, h2⟩, ih h3 (by omega)⟩

/-- A read after a write: the key written holds the value, every other key what it held. -/
theorem spGet_spPut {lo : Nat} {l : Sparse α} (h : spWfFrom d lo l = true) (k j : Nat) (x : α) :
    spGet d (spPut d l k x) j = if j = k then x else spGet d l j := by
  induction l generalizing lo with
  | nil =>
    by_cases hx : x = d <;> by_cases hj : j = k <;> simp [spPut, spGet, hx, hj] <;> grind
  | cons e l ih =>
    simp only [spWfFrom, Bool.and_eq_true, decide_eq_true_eq] at h
    obtain ⟨⟨h1, h2⟩, h3⟩ := h
    have hb : ∀ i, i ≤ e.1 → spGet d l i = d := fun i hi => spGet_below h3 (by omega)
    simp only [spPut]
    by_cases hk : k < e.1
    · have := hb j
      by_cases hx : x = d <;> by_cases hj : j = k <;> simp [spGet, hk, hx, hj] <;> grind
    · by_cases he : k = e.1
      · subst he
        have := hb j
        by_cases hx : x = d <;> by_cases hj : j = e.1 <;> simp [spGet, hx, hj] <;> grind
      · have := ih h3
        simp only [if_neg hk, if_neg he, spGet, this]
        by_cases hj : j = k <;> grind

/-- In canonical form, equal contents are equal data. -/
theorem sp_ext {lo : Nat} {l m : Sparse α} (hl : spWfFrom d lo l = true) (hm : spWfFrom d lo m = true)
    (h : ∀ k, spGet d l k = spGet d m k) : l = m := by
  induction l generalizing lo m with
  | nil =>
    cases m with
    | nil => rfl
    | cons f m =>
      simp only [spWfFrom, Bool.and_eq_true, decide_eq_true_eq] at hm
      have := h f.1
      simp only [spGet, if_true] at this
      exact absurd this.symm hm.1.2
  | cons e l ih =>
    simp only [spWfFrom, Bool.and_eq_true, decide_eq_true_eq] at hl
    obtain ⟨⟨h1, h2⟩, h3⟩ := hl
    cases m with
    | nil =>
      have := h e.1
      simp only [spGet, if_true] at this
      exact absurd this h2
    | cons f m =>
      simp only [spWfFrom, Bool.and_eq_true, decide_eq_true_eq] at hm
      obtain ⟨⟨g1, g2⟩, g3⟩ := hm
      have he := h e.1
      have hf := h f.1
      have ke : e.1 = f.1 := by
        rcases Nat.lt_trichotomy e.1 f.1 with hlt | heq | hgt
        · have := spGet_below (k := e.1) g3 (by omega)
          grind [spGet]
        · exact heq
        · have := spGet_below (k := f.1) h3 (by omega)
          grind [spGet]
      have ve : e.2 = f.2 := by grind [spGet]
      have hef : e = f := Prod.ext ke ve
      subst hef
      rw [ih h3 g3 fun k => ?_]
      by_cases hk : k = e.1
      · rw [hk, spGet_below h3 (by omega), spGet_below g3 (by omega)]
      · have := h k
        grind [spGet]

theorem spWfFrom_filter {lo : Nat} {l : Sparse α} (p : Nat × α → Bool) (h : spWfFrom d lo l = true) :
    spWfFrom d lo (l.filter p) = true := by
  induction l generalizing lo with
  | nil => rfl
  | cons e l ih =>
    simp only [spWfFrom, Bool.and_eq_true, decide_eq_true_eq] at h
    obtain ⟨⟨h1, h2⟩, h3⟩ := h
    simp only [List.filter]
    split
    · simp [spWfFrom, h1, h2, ih h3]
    · exact spWfFrom_mono (ih h3) (by omega)

theorem spPut_wf {l : Sparse α} (k : Nat) (x : α) (h : spWf d l = true) : spWf d (spPut d l k x) = true :=
  spPut_wfFrom x h (Nat.zero_le k)

end

/-! ## Overrides -/

section
variable {α : Type}

theorem ovWfFrom_mono {lo hi : Nat} {l : Sparse α} (h : ovWfFrom hi l = true) (hl : lo ≤ hi) : ovWfFrom lo l = true := by
  cases l with
  | nil => rfl
  | cons e l =>
    simp only [ovWfFrom, Bool.and_eq_true, decide_eq_true_eq] at *
    exact ⟨by omega, h.2⟩

theorem ovPut_wfFrom {lo k : Nat} {l : Sparse α} (x : α) (h : ovWfFrom lo l = true) (hk : lo ≤ k) :
    ovWfFrom lo (ovPut l k x) = true := by
  induction l generalizing lo with
  | nil => simp [ovPut, ovWfFrom, hk]
  | cons e l ih =>
    simp only [ovWfFrom, Bool.and_eq_true, decide_eq_true_eq] at h
    obtain ⟨h1, h3⟩ := h
    simp only [ovPut]
    split
    · simp only [ovWfFrom, Bool.and_eq_true, decide_eq_true_eq]
      exact ⟨hk, by omega, h3⟩
    · split
      · subst_vars
        simp only [ovWfFrom, Bool.and_eq_true, decide_eq_true_eq]
        exact ⟨hk, h3⟩
      · simp only [ovWfFrom, Bool.and_eq_true, decide_eq_true_eq]
        exact ⟨h1, ih h3 (by omega)⟩

theorem ovWfFrom_filter {lo : Nat} {l : Sparse α} (p : Nat × α → Bool) (h : ovWfFrom lo l = true) :
    ovWfFrom lo (l.filter p) = true := by
  induction l generalizing lo with
  | nil => rfl
  | cons e l ih =>
    simp only [ovWfFrom, Bool.and_eq_true, decide_eq_true_eq] at h
    obtain ⟨h1, h3⟩ := h
    simp only [List.filter]
    split
    · simp [ovWfFrom, h1, ih h3]
    · exact ovWfFrom_mono (ih h3) (by omega)

end

/-! ## Byte memories -/

theorem memPut_wf {m : Mem} (a : Nat) (b : Byte) (h : m.wf = true) : (memPut m a b).wf = true := spPut_wf a b h

theorem memGet_memPut {m : Mem} (h : m.wf = true) (a j : Nat) (b : Byte) :
    memGet (memPut m a b) j = if j = a then b else memGet m j := spGet_spPut h a j b

theorem memPutBytes_wf {m : Mem} (l : List Byte) (a : Nat) (h : m.wf = true) : (memPutBytes m a l).wf = true := by
  induction l generalizing m a with
  | nil => exact h
  | cons b l ih => exact ih (a + 1) (memPut_wf a b h)

/-- After a write of bytes: each written address reads its byte, every other address what it read before. -/
theorem memGet_memPutBytes {m : Mem} (l : List Byte) (a j : Nat) (h : m.wf = true) :
    memGet (memPutBytes m a l) j = if a ≤ j ∧ j < a + l.length then l.getD (j - a) 0 else memGet m j := by
  induction l generalizing m a with
  | nil =>
    rw [if_neg (by simp only [List.length_nil]; omega)]
    rfl
  | cons b l ih =>
    rw [memPutBytes, ih _ (memPut_wf a b h), memGet_memPut h]
    by_cases hj : j = a
    · subst hj
      rw [if_neg (by omega), if_pos rfl, if_pos (by simp only [List.length_cons]; omega)]
      simp
    · by_cases hr : a ≤ j ∧ j < a + (b :: l).length
      · rw [if_pos hr, if_pos (by simp only [List.length_cons] at hr; omega)]
        rw [show j - a = (j - (a + 1)) + 1 by omega]
        simp
      · rw [if_neg hr, if_neg (by simp only [List.length_cons] at hr; omega), if_neg hj]

theorem memZero_wf {m : Mem} (a n : Nat) (h : m.wf = true) : (memZero m a n).wf = true := spWfFrom_filter _ h

theorem memOfBytes_wf (l : List Byte) : (memOfBytes l).wf = true := memPutBytes_wf l 0 rfl

theorem memCopy_wf {m : Mem} (src dst n : Nat) (h : m.wf = true) : (memCopy m src dst n).wf = true := by
  unfold memCopy
  generalize List.map _ _ = part
  have : ∀ (p : List Host.Cell) (q : Mem), q.wf = true → (p.foldl (fun acc e => memPut acc e.1 e.2) q).wf = true := by
    intro p
    induction p with
    | nil => exact fun _ h => h
    | cons e p ih => exact fun q hq => ih _ (memPut_wf _ _ hq)
  exact this part _ (spWfFrom_filter _ h)

/-! ## The module's memories -/

theorem hbmZero_memOk {h : Hbm} (a n : Nat) (hh : h.memOk = true) : (hbmZero h a n).memOk = true := by
  simp only [Hbm.memOk, Bool.and_eq_true] at *
  exact ⟨⟨memZero_wf a n hh.1.1, hh.1.2⟩, ovWfFrom_filter _ hh.2⟩

theorem memPutBytes_foldl_wf {α : Type} (f : Mem → α → Mem) (hf : ∀ q a, q.wf = true → (f q a).wf = true) (l : List α) {m : Mem}
    (h : m.wf = true) : (l.foldl f m).wf = true := by
  induction l generalizing m with
  | nil => exact h
  | cons a l ih => exact ih (hf m a h)

theorem hbmPutWord_memOk {h : Hbm} (w : Nat) (d : BitVec 512) (hh : h.memOk = true) : (hbmPutWord h w d).memOk = true := by
  simp only [hbmPutWord, ovDel, Hbm.memOk, Bool.and_eq_true] at *
  exact ⟨⟨memPutBytes_wf _ _ hh.1.1, hh.1.2⟩, ovWfFrom_filter _ hh.2⟩

theorem hbmPutWords_memOk (k : Nat × BitVec 32 → Bool) (d : Nat → BitVec 512) (p : List (Nat × BitVec 32)) {q : Hbm}
    (hq : q.memOk = true) : (p.foldl (fun (q : Hbm) e => if k e then q else hbmPutWord q e.1 (d e.1)) q).memOk = true := by
  induction p generalizing q with
  | nil => exact hq
  | cons e p ih =>
    refine ih ?_
    dsimp only
    split
    · exact hq
    · exact hbmPutWord_memOk _ _ hq

theorem hbmWrite_memOk {h : Hbm} (a : Nat) (l : List Byte) (hh : h.memOk = true) : (hbmWrite h a l).memOk = true := by
  have hb := fun k d p => hbmPutWords_memOk k d p hh
  unfold hbmWrite
  dsimp only
  simp only [Hbm.memOk, Bool.and_eq_true] at hb ⊢
  refine ⟨⟨?_, (hb _ (fun w => (hbmCheck h w).2) _).1.2⟩, (hb _ (fun w => (hbmCheck h w).2) _).2⟩
  split
  · exact memPutBytes_wf _ _ (hb _ (fun w => (hbmCheck h w).2) _).1.1
  · refine memPutBytes_foldl_wf _ (fun q e hq => ?_) _ (hb _ (fun w => (hbmCheck h w).2) _).1.1
    split
    · exact hq
    · exact memPut_wf _ _ hq

theorem poisonWord_memOk {h : Hbm} (w : Nat) (hh : h.memOk = true) : (poisonWord h w).memOk = true := by
  simp only [Hbm.memOk, Bool.and_eq_true] at *
  exact ⟨hh.1, ovPut_wfFrom _ hh.2 (Nat.zero_le w)⟩

/-- The canonical form of an on-die store. -/
def Sram.memOk (m : Sram) : Bool := m.mem.wf && ovWfFrom 0 m.chk

theorem sramPutWord_memOk {m : Sram} (w : Nat) (d : BitVec 128) (h : m.memOk = true) : (sramPutWord m w d).memOk = true := by
  simp only [sramPutWord, ovDel, Sram.memOk, Bool.and_eq_true] at *
  exact ⟨memPutBytes_wf _ _ h.1, ovWfFrom_filter _ h.2⟩

theorem sramPutWords_memOk (k : Nat × BitVec 9 → Bool) (d : Nat → BitVec 128) (p : List (Nat × BitVec 9)) {q : Sram}
    (hq : q.memOk = true) : (p.foldl (fun (q : Sram) e => if k e then q else sramPutWord q e.1 (d e.1)) q).memOk = true := by
  induction p generalizing q with
  | nil => exact hq
  | cons e p ih =>
    refine ih ?_
    dsimp only
    split
    · exact hq
    · exact sramPutWord_memOk _ _ hq

theorem sramWrite_memOk {m : Sram} (a : Nat) (l : List Byte) (h : m.memOk = true) : (sramWrite m a l).memOk = true := by
  have hb := fun k d p => sramPutWords_memOk k d p h
  unfold sramWrite
  dsimp only
  simp only [Sram.memOk, Bool.and_eq_true] at hb ⊢
  split
  · exact ⟨memPutBytes_wf _ _ (hb _ (fun w => (sramCheck m w).2) _).1, (hb _ (fun w => (sramCheck m w).2) _).2⟩
  · refine ⟨memPutBytes_foldl_wf _ (fun q e hq => ?_) _ (hb _ (fun w => (sramCheck m w).2) _).1,
      (hb _ (fun w => (sramCheck m w).2) _).2⟩
    split
    · exact hq
    · exact memPut_wf _ _ hq

theorem memMove_wf (src : Mem) {dst : Mem} (a b n : Nat) (h : dst.wf = true) : (memMove src a dst b n).wf = true :=
  memPutBytes_foldl_wf _ (fun _ _ hq => memPut_wf _ _ hq) _ (spWfFrom_filter _ h)

/-- Every memory is in canonical form at reset. -/
theorem State.reset_memOk : State.reset.memOk = true := by
  have hr : Region.reset.memOk = true := by decide
  have hh : State.reset.hbm.memOk = true := by decide
  simp only [State.memOk, hh, Bool.true_and, Bool.and_eq_true, List.all_eq_true]
  refine ⟨rfl, fun g _ => ?_⟩
  simpa [State.reset] using hr

end Sys2Proof.Machine
end

