-- ==== Sys2Proof/Laws/State.lean ====
section
/-! SUPPORT. What each named update leaves and what it changes, field by field, so that no proof unfolds a record update. -/

namespace Sys2Proof.Machine

set_option Elab.async false

/-! ## The module -/

@[simp] theorem updRegion_pending (s : State) (k : RegionId) (f : Region → Region) : (updRegion s k f).pending = s.pending := rfl
@[simp] theorem updRegion_fuses (s : State) (k : RegionId) (f : Region → Region) : (updRegion s k f).fuses = s.fuses := rfl
@[simp] theorem updRegion_boot (s : State) (k : RegionId) (f : Region → Region) : (updRegion s k f).boot = s.boot := rfl
@[simp] theorem updRegion_flash (s : State) (k : RegionId) (f : Region → Region) : (updRegion s k f).flash = s.flash := rfl
@[simp] theorem updRegion_cnt (s : State) (k : RegionId) (f : Region → Region) : (updRegion s k f).cnt = s.cnt := rfl
@[simp] theorem updRegion_host (s : State) (k : RegionId) (f : Region → Region) : (updRegion s k f).host = s.host := rfl
@[simp] theorem updRegion_ctxs (s : State) (k : RegionId) (f : Region → Region) : (updRegion s k f).ctxs = s.ctxs := rfl
@[simp] theorem updRegion_hbm (s : State) (k : RegionId) (f : Region → Region) : (updRegion s k f).hbm = s.hbm := rfl
@[simp] theorem updRegion_ports (s : State) (k : RegionId) (f : Region → Region) : (updRegion s k f).ports = s.ports := rfl
@[simp] theorem updRegion_fab (s : State) (k : RegionId) (f : Region → Region) : (updRegion s k f).fab = s.fab := rfl
@[simp] theorem updRegion_scree (s : State) (k : RegionId) (f : Region → Region) : (updRegion s k f).scree = s.scree := rfl
@[simp] theorem updRegion_hardFault (s : State) (k : RegionId) (f : Region → Region) : (updRegion s k f).hardFault = s.hardFault := rfl
@[simp] theorem updRegion_pageQ (s : State) (k : RegionId) (f : Region → Region) : (updRegion s k f).pageQ = s.pageQ := rfl
@[simp] theorem updRegion_restoring (s : State) (k : RegionId) (f : Region → Region) : (updRegion s k f).restoring = s.restoring := rfl
@[simp] theorem updRegion_test (s : State) (k : RegionId) (f : Region → Region) : (updRegion s k f).test = s.test := rfl
@[simp] theorem updRegion_debug (s : State) (k : RegionId) (f : Region → Region) : (updRegion s k f).debug = s.debug := rfl
@[simp] theorem updRegion_presence (s : State) (k : RegionId) (f : Region → Region) : (updRegion s k f).presence = s.presence := rfl
@[simp] theorem updRegion_power (s : State) (k : RegionId) (f : Region → Region) : (updRegion s k f).power = s.power := rfl
@[simp] theorem updRegion_i3c (s : State) (k : RegionId) (f : Region → Region) : (updRegion s k f).i3c = s.i3c := rfl
@[simp] theorem updRegion_hostMem (s : State) (k : RegionId) (f : Region → Region) : (updRegion s k f).hostMem = s.hostMem := rfl
@[simp] theorem updRegion_ownRecs (s : State) (k : RegionId) (f : Region → Region) : (updRegion s k f).ownRecs = s.ownRecs := rfl
@[simp] theorem updRegion_peerRecs (s : State) (k : RegionId) (f : Region → Region) : (updRegion s k f).peerRecs = s.peerRecs := rfl
@[simp] theorem updRegion_digestSets (s : State) (k : RegionId) (f : Region → Region) : (updRegion s k f).digestSets = s.digestSets := rfl
@[simp] theorem updRegion_digestCmps (s : State) (k : RegionId) (f : Region → Region) : (updRegion s k f).digestCmps = s.digestCmps := rfl
@[simp] theorem updRegion_dfBytes (s : State) (k : RegionId) (f : Region → Region) : (updRegion s k f).dfBytes = s.dfBytes := rfl
@[simp] theorem updRegion_freeCtr (s : State) (k : RegionId) (f : Region → Region) : (updRegion s k f).freeCtr = s.freeCtr := rfl

@[simp] theorem updRegion_same (s : State) (k : RegionId) (f : Region → Region) : (updRegion s k f).regions[k] = f s.regions[k] := by
  simp [updRegion]

theorem updRegion_other (s : State) (k : RegionId) (f : Region → Region) (j : RegionId) (h : j ≠ k) : (updRegion s k f).regions[j] = s.regions[j] := by
  have : k.val ≠ j.val := fun e => h (Fin.ext e.symm)
  simp [updRegion, this]

@[simp] theorem updCtx_pending (s : State) (k : CtxId) (f : Ctx → Ctx) : (updCtx s k f).pending = s.pending := rfl
@[simp] theorem updCtx_fuses (s : State) (k : CtxId) (f : Ctx → Ctx) : (updCtx s k f).fuses = s.fuses := rfl
@[simp] theorem updCtx_boot (s : State) (k : CtxId) (f : Ctx → Ctx) : (updCtx s k f).boot = s.boot := rfl
@[simp] theorem updCtx_flash (s : State) (k : CtxId) (f : Ctx → Ctx) : (updCtx s k f).flash = s.flash := rfl
@[simp] theorem updCtx_cnt (s : State) (k : CtxId) (f : Ctx → Ctx) : (updCtx s k f).cnt = s.cnt := rfl
@[simp] theorem updCtx_host (s : State) (k : CtxId) (f : Ctx → Ctx) : (updCtx s k f).host = s.host := rfl
@[simp] theorem updCtx_regions (s : State) (k : CtxId) (f : Ctx → Ctx) : (updCtx s k f).regions = s.regions := rfl
@[simp] theorem updCtx_hbm (s : State) (k : CtxId) (f : Ctx → Ctx) : (updCtx s k f).hbm = s.hbm := rfl
@[simp] theorem updCtx_ports (s : State) (k : CtxId) (f : Ctx → Ctx) : (updCtx s k f).ports = s.ports := rfl
@[simp] theorem updCtx_fab (s : State) (k : CtxId) (f : Ctx → Ctx) : (updCtx s k f).fab = s.fab := rfl
@[simp] theorem updCtx_scree (s : State) (k : CtxId) (f : Ctx → Ctx) : (updCtx s k f).scree = s.scree := rfl
@[simp] theorem updCtx_hardFault (s : State) (k : CtxId) (f : Ctx → Ctx) : (updCtx s k f).hardFault = s.hardFault := rfl
@[simp] theorem updCtx_pageQ (s : State) (k : CtxId) (f : Ctx → Ctx) : (updCtx s k f).pageQ = s.pageQ := rfl
@[simp] theorem updCtx_restoring (s : State) (k : CtxId) (f : Ctx → Ctx) : (updCtx s k f).restoring = s.restoring := rfl
@[simp] theorem updCtx_test (s : State) (k : CtxId) (f : Ctx → Ctx) : (updCtx s k f).test = s.test := rfl
@[simp] theorem updCtx_debug (s : State) (k : CtxId) (f : Ctx → Ctx) : (updCtx s k f).debug = s.debug := rfl
@[simp] theorem updCtx_presence (s : State) (k : CtxId) (f : Ctx → Ctx) : (updCtx s k f).presence = s.presence := rfl
@[simp] theorem updCtx_power (s : State) (k : CtxId) (f : Ctx → Ctx) : (updCtx s k f).power = s.power := rfl
@[simp] theorem updCtx_i3c (s : State) (k : CtxId) (f : Ctx → Ctx) : (updCtx s k f).i3c = s.i3c := rfl
@[simp] theorem updCtx_hostMem (s : State) (k : CtxId) (f : Ctx → Ctx) : (updCtx s k f).hostMem = s.hostMem := rfl
@[simp] theorem updCtx_ownRecs (s : State) (k : CtxId) (f : Ctx → Ctx) : (updCtx s k f).ownRecs = s.ownRecs := rfl
@[simp] theorem updCtx_peerRecs (s : State) (k : CtxId) (f : Ctx → Ctx) : (updCtx s k f).peerRecs = s.peerRecs := rfl
@[simp] theorem updCtx_digestSets (s : State) (k : CtxId) (f : Ctx → Ctx) : (updCtx s k f).digestSets = s.digestSets := rfl
@[simp] theorem updCtx_digestCmps (s : State) (k : CtxId) (f : Ctx → Ctx) : (updCtx s k f).digestCmps = s.digestCmps := rfl
@[simp] theorem updCtx_dfBytes (s : State) (k : CtxId) (f : Ctx → Ctx) : (updCtx s k f).dfBytes = s.dfBytes := rfl
@[simp] theorem updCtx_freeCtr (s : State) (k : CtxId) (f : Ctx → Ctx) : (updCtx s k f).freeCtr = s.freeCtr := rfl

@[simp] theorem updCtx_same (s : State) (k : CtxId) (f : Ctx → Ctx) : (updCtx s k f).ctxs[k] = f s.ctxs[k] := by
  simp [updCtx]

theorem updCtx_other (s : State) (k : CtxId) (f : Ctx → Ctx) (j : CtxId) (h : j ≠ k) : (updCtx s k f).ctxs[j] = s.ctxs[j] := by
  have : k.val ≠ j.val := fun e => h (Fin.ext e.symm)
  simp [updCtx, this]

@[simp] theorem updPort_pending (s : State) (k : PortId) (f : Port → Port) : (updPort s k f).pending = s.pending := rfl
@[simp] theorem updPort_fuses (s : State) (k : PortId) (f : Port → Port) : (updPort s k f).fuses = s.fuses := rfl
@[simp] theorem updPort_boot (s : State) (k : PortId) (f : Port → Port) : (updPort s k f).boot = s.boot := rfl
@[simp] theorem updPort_flash (s : State) (k : PortId) (f : Port → Port) : (updPort s k f).flash = s.flash := rfl
@[simp] theorem updPort_cnt (s : State) (k : PortId) (f : Port → Port) : (updPort s k f).cnt = s.cnt := rfl
@[simp] theorem updPort_host (s : State) (k : PortId) (f : Port → Port) : (updPort s k f).host = s.host := rfl
@[simp] theorem updPort_ctxs (s : State) (k : PortId) (f : Port → Port) : (updPort s k f).ctxs = s.ctxs := rfl
@[simp] theorem updPort_regions (s : State) (k : PortId) (f : Port → Port) : (updPort s k f).regions = s.regions := rfl
@[simp] theorem updPort_hbm (s : State) (k : PortId) (f : Port → Port) : (updPort s k f).hbm = s.hbm := rfl
@[simp] theorem updPort_fab (s : State) (k : PortId) (f : Port → Port) : (updPort s k f).fab = s.fab := rfl
@[simp] theorem updPort_scree (s : State) (k : PortId) (f : Port → Port) : (updPort s k f).scree = s.scree := rfl
@[simp] theorem updPort_hardFault (s : State) (k : PortId) (f : Port → Port) : (updPort s k f).hardFault = s.hardFault := rfl
@[simp] theorem updPort_pageQ (s : State) (k : PortId) (f : Port → Port) : (updPort s k f).pageQ = s.pageQ := rfl
@[simp] theorem updPort_restoring (s : State) (k : PortId) (f : Port → Port) : (updPort s k f).restoring = s.restoring := rfl
@[simp] theorem updPort_test (s : State) (k : PortId) (f : Port → Port) : (updPort s k f).test = s.test := rfl
@[simp] theorem updPort_debug (s : State) (k : PortId) (f : Port → Port) : (updPort s k f).debug = s.debug := rfl
@[simp] theorem updPort_presence (s : State) (k : PortId) (f : Port → Port) : (updPort s k f).presence = s.presence := rfl
@[simp] theorem updPort_power (s : State) (k : PortId) (f : Port → Port) : (updPort s k f).power = s.power := rfl
@[simp] theorem updPort_i3c (s : State) (k : PortId) (f : Port → Port) : (updPort s k f).i3c = s.i3c := rfl
@[simp] theorem updPort_hostMem (s : State) (k : PortId) (f : Port → Port) : (updPort s k f).hostMem = s.hostMem := rfl
@[simp] theorem updPort_ownRecs (s : State) (k : PortId) (f : Port → Port) : (updPort s k f).ownRecs = s.ownRecs := rfl
@[simp] theorem updPort_peerRecs (s : State) (k : PortId) (f : Port → Port) : (updPort s k f).peerRecs = s.peerRecs := rfl
@[simp] theorem updPort_digestSets (s : State) (k : PortId) (f : Port → Port) : (updPort s k f).digestSets = s.digestSets := rfl
@[simp] theorem updPort_digestCmps (s : State) (k : PortId) (f : Port → Port) : (updPort s k f).digestCmps = s.digestCmps := rfl
@[simp] theorem updPort_dfBytes (s : State) (k : PortId) (f : Port → Port) : (updPort s k f).dfBytes = s.dfBytes := rfl
@[simp] theorem updPort_freeCtr (s : State) (k : PortId) (f : Port → Port) : (updPort s k f).freeCtr = s.freeCtr := rfl

@[simp] theorem updPort_same (s : State) (k : PortId) (f : Port → Port) : (updPort s k f).ports[k] = f s.ports[k] := by
  simp [updPort]

theorem updPort_other (s : State) (k : PortId) (f : Port → Port) (j : PortId) (h : j ≠ k) : (updPort s k f).ports[j] = s.ports[j] := by
  have : k.val ≠ j.val := fun e => h (Fin.ext e.symm)
  simp [updPort, this]

@[simp] theorem updHbm_pending (s : State) (f : Hbm → Hbm) : (updHbm s f).pending = s.pending := rfl
@[simp] theorem updHbm_fuses (s : State) (f : Hbm → Hbm) : (updHbm s f).fuses = s.fuses := rfl
@[simp] theorem updHbm_boot (s : State) (f : Hbm → Hbm) : (updHbm s f).boot = s.boot := rfl
@[simp] theorem updHbm_flash (s : State) (f : Hbm → Hbm) : (updHbm s f).flash = s.flash := rfl
@[simp] theorem updHbm_cnt (s : State) (f : Hbm → Hbm) : (updHbm s f).cnt = s.cnt := rfl
@[simp] theorem updHbm_host (s : State) (f : Hbm → Hbm) : (updHbm s f).host = s.host := rfl
@[simp] theorem updHbm_ctxs (s : State) (f : Hbm → Hbm) : (updHbm s f).ctxs = s.ctxs := rfl
@[simp] theorem updHbm_regions (s : State) (f : Hbm → Hbm) : (updHbm s f).regions = s.regions := rfl
@[simp] theorem updHbm_ports (s : State) (f : Hbm → Hbm) : (updHbm s f).ports = s.ports := rfl
@[simp] theorem updHbm_fab (s : State) (f : Hbm → Hbm) : (updHbm s f).fab = s.fab := rfl
@[simp] theorem updHbm_scree (s : State) (f : Hbm → Hbm) : (updHbm s f).scree = s.scree := rfl
@[simp] theorem updHbm_hardFault (s : State) (f : Hbm → Hbm) : (updHbm s f).hardFault = s.hardFault := rfl
@[simp] theorem updHbm_pageQ (s : State) (f : Hbm → Hbm) : (updHbm s f).pageQ = s.pageQ := rfl
@[simp] theorem updHbm_restoring (s : State) (f : Hbm → Hbm) : (updHbm s f).restoring = s.restoring := rfl
@[simp] theorem updHbm_test (s : State) (f : Hbm → Hbm) : (updHbm s f).test = s.test := rfl
@[simp] theorem updHbm_debug (s : State) (f : Hbm → Hbm) : (updHbm s f).debug = s.debug := rfl
@[simp] theorem updHbm_presence (s : State) (f : Hbm → Hbm) : (updHbm s f).presence = s.presence := rfl
@[simp] theorem updHbm_power (s : State) (f : Hbm → Hbm) : (updHbm s f).power = s.power := rfl
@[simp] theorem updHbm_i3c (s : State) (f : Hbm → Hbm) : (updHbm s f).i3c = s.i3c := rfl
@[simp] theorem updHbm_hostMem (s : State) (f : Hbm → Hbm) : (updHbm s f).hostMem = s.hostMem := rfl
@[simp] theorem updHbm_ownRecs (s : State) (f : Hbm → Hbm) : (updHbm s f).ownRecs = s.ownRecs := rfl
@[simp] theorem updHbm_peerRecs (s : State) (f : Hbm → Hbm) : (updHbm s f).peerRecs = s.peerRecs := rfl
@[simp] theorem updHbm_digestSets (s : State) (f : Hbm → Hbm) : (updHbm s f).digestSets = s.digestSets := rfl
@[simp] theorem updHbm_digestCmps (s : State) (f : Hbm → Hbm) : (updHbm s f).digestCmps = s.digestCmps := rfl
@[simp] theorem updHbm_dfBytes (s : State) (f : Hbm → Hbm) : (updHbm s f).dfBytes = s.dfBytes := rfl
@[simp] theorem updHbm_freeCtr (s : State) (f : Hbm → Hbm) : (updHbm s f).freeCtr = s.freeCtr := rfl

@[simp] theorem updHbm_at (s : State) (f : Hbm → Hbm) : (updHbm s f).hbm = f s.hbm := rfl

@[simp] theorem updFab_pending (s : State) (f : Fabric → Fabric) : (updFab s f).pending = s.pending := rfl
@[simp] theorem updFab_fuses (s : State) (f : Fabric → Fabric) : (updFab s f).fuses = s.fuses := rfl
@[simp] theorem updFab_boot (s : State) (f : Fabric → Fabric) : (updFab s f).boot = s.boot := rfl
@[simp] theorem updFab_flash (s : State) (f : Fabric → Fabric) : (updFab s f).flash = s.flash := rfl
@[simp] theorem updFab_cnt (s : State) (f : Fabric → Fabric) : (updFab s f).cnt = s.cnt := rfl
@[simp] theorem updFab_host (s : State) (f : Fabric → Fabric) : (updFab s f).host = s.host := rfl
@[simp] theorem updFab_ctxs (s : State) (f : Fabric → Fabric) : (updFab s f).ctxs = s.ctxs := rfl
@[simp] theorem updFab_regions (s : State) (f : Fabric → Fabric) : (updFab s f).regions = s.regions := rfl
@[simp] theorem updFab_hbm (s : State) (f : Fabric → Fabric) : (updFab s f).hbm = s.hbm := rfl
@[simp] theorem updFab_ports (s : State) (f : Fabric → Fabric) : (updFab s f).ports = s.ports := rfl
@[simp] theorem updFab_scree (s : State) (f : Fabric → Fabric) : (updFab s f).scree = s.scree := rfl
@[simp] theorem updFab_hardFault (s : State) (f : Fabric → Fabric) : (updFab s f).hardFault = s.hardFault := rfl
@[simp] theorem updFab_pageQ (s : State) (f : Fabric → Fabric) : (updFab s f).pageQ = s.pageQ := rfl
@[simp] theorem updFab_restoring (s : State) (f : Fabric → Fabric) : (updFab s f).restoring = s.restoring := rfl
@[simp] theorem updFab_test (s : State) (f : Fabric → Fabric) : (updFab s f).test = s.test := rfl
@[simp] theorem updFab_debug (s : State) (f : Fabric → Fabric) : (updFab s f).debug = s.debug := rfl
@[simp] theorem updFab_presence (s : State) (f : Fabric → Fabric) : (updFab s f).presence = s.presence := rfl
@[simp] theorem updFab_power (s : State) (f : Fabric → Fabric) : (updFab s f).power = s.power := rfl
@[simp] theorem updFab_i3c (s : State) (f : Fabric → Fabric) : (updFab s f).i3c = s.i3c := rfl
@[simp] theorem updFab_hostMem (s : State) (f : Fabric → Fabric) : (updFab s f).hostMem = s.hostMem := rfl
@[simp] theorem updFab_ownRecs (s : State) (f : Fabric → Fabric) : (updFab s f).ownRecs = s.ownRecs := rfl
@[simp] theorem updFab_peerRecs (s : State) (f : Fabric → Fabric) : (updFab s f).peerRecs = s.peerRecs := rfl
@[simp] theorem updFab_digestSets (s : State) (f : Fabric → Fabric) : (updFab s f).digestSets = s.digestSets := rfl
@[simp] theorem updFab_digestCmps (s : State) (f : Fabric → Fabric) : (updFab s f).digestCmps = s.digestCmps := rfl
@[simp] theorem updFab_dfBytes (s : State) (f : Fabric → Fabric) : (updFab s f).dfBytes = s.dfBytes := rfl
@[simp] theorem updFab_freeCtr (s : State) (f : Fabric → Fabric) : (updFab s f).freeCtr = s.freeCtr := rfl

@[simp] theorem updFab_at (s : State) (f : Fabric → Fabric) : (updFab s f).fab = f s.fab := rfl

@[simp] theorem updRing_pending (s : State) (k : CtxId) (f : Ring → Ring) : (updRing s k f).pending = s.pending := rfl
@[simp] theorem updRing_fuses (s : State) (k : CtxId) (f : Ring → Ring) : (updRing s k f).fuses = s.fuses := rfl
@[simp] theorem updRing_boot (s : State) (k : CtxId) (f : Ring → Ring) : (updRing s k f).boot = s.boot := rfl
@[simp] theorem updRing_flash (s : State) (k : CtxId) (f : Ring → Ring) : (updRing s k f).flash = s.flash := rfl
@[simp] theorem updRing_cnt (s : State) (k : CtxId) (f : Ring → Ring) : (updRing s k f).cnt = s.cnt := rfl
@[simp] theorem updRing_ctxs (s : State) (k : CtxId) (f : Ring → Ring) : (updRing s k f).ctxs = s.ctxs := rfl
@[simp] theorem updRing_regions (s : State) (k : CtxId) (f : Ring → Ring) : (updRing s k f).regions = s.regions := rfl
@[simp] theorem updRing_hbm (s : State) (k : CtxId) (f : Ring → Ring) : (updRing s k f).hbm = s.hbm := rfl
@[simp] theorem updRing_ports (s : State) (k : CtxId) (f : Ring → Ring) : (updRing s k f).ports = s.ports := rfl
@[simp] theorem updRing_fab (s : State) (k : CtxId) (f : Ring → Ring) : (updRing s k f).fab = s.fab := rfl
@[simp] theorem updRing_scree (s : State) (k : CtxId) (f : Ring → Ring) : (updRing s k f).scree = s.scree := rfl
@[simp] theorem updRing_hardFault (s : State) (k : CtxId) (f : Ring → Ring) : (updRing s k f).hardFault = s.hardFault := rfl
@[simp] theorem updRing_pageQ (s : State) (k : CtxId) (f : Ring → Ring) : (updRing s k f).pageQ = s.pageQ := rfl
@[simp] theorem updRing_restoring (s : State) (k : CtxId) (f : Ring → Ring) : (updRing s k f).restoring = s.restoring := rfl
@[simp] theorem updRing_test (s : State) (k : CtxId) (f : Ring → Ring) : (updRing s k f).test = s.test := rfl
@[simp] theorem updRing_debug (s : State) (k : CtxId) (f : Ring → Ring) : (updRing s k f).debug = s.debug := rfl
@[simp] theorem updRing_presence (s : State) (k : CtxId) (f : Ring → Ring) : (updRing s k f).presence = s.presence := rfl
@[simp] theorem updRing_power (s : State) (k : CtxId) (f : Ring → Ring) : (updRing s k f).power = s.power := rfl
@[simp] theorem updRing_i3c (s : State) (k : CtxId) (f : Ring → Ring) : (updRing s k f).i3c = s.i3c := rfl
@[simp] theorem updRing_hostMem (s : State) (k : CtxId) (f : Ring → Ring) : (updRing s k f).hostMem = s.hostMem := rfl
@[simp] theorem updRing_ownRecs (s : State) (k : CtxId) (f : Ring → Ring) : (updRing s k f).ownRecs = s.ownRecs := rfl
@[simp] theorem updRing_peerRecs (s : State) (k : CtxId) (f : Ring → Ring) : (updRing s k f).peerRecs = s.peerRecs := rfl
@[simp] theorem updRing_digestSets (s : State) (k : CtxId) (f : Ring → Ring) : (updRing s k f).digestSets = s.digestSets := rfl
@[simp] theorem updRing_digestCmps (s : State) (k : CtxId) (f : Ring → Ring) : (updRing s k f).digestCmps = s.digestCmps := rfl
@[simp] theorem updRing_dfBytes (s : State) (k : CtxId) (f : Ring → Ring) : (updRing s k f).dfBytes = s.dfBytes := rfl
@[simp] theorem updRing_freeCtr (s : State) (k : CtxId) (f : Ring → Ring) : (updRing s k f).freeCtr = s.freeCtr := rfl

@[simp] theorem updRing_host_trained (s : State) (k : CtxId) (f : Ring → Ring) : (updRing s k f).host.trained = s.host.trained := rfl
@[simp] theorem updRing_host_pci (s : State) (k : CtxId) (f : Ring → Ring) : (updRing s k f).host.pci = s.host.pci := rfl
@[simp] theorem updRing_host_tlmbase (s : State) (k : CtxId) (f : Ring → Ring) : (updRing s k f).host.tlmbase = s.host.tlmbase := rfl
@[simp] theorem updRing_host_msimod (s : State) (k : CtxId) (f : Ring → Ring) : (updRing s k f).host.msimod = s.host.msimod := rfl
@[simp] theorem updRing_host_latch (s : State) (k : CtxId) (f : Ring → Ring) : (updRing s k f).host.latch = s.host.latch := rfl
@[simp] theorem updRing_host_dbOverrun (s : State) (k : CtxId) (f : Ring → Ring) : (updRing s k f).host.dbOverrun = s.host.dbOverrun := rfl
@[simp] theorem updRing_host_hdmDenied (s : State) (k : CtxId) (f : Ring → Ring) : (updRing s k f).host.hdmDenied = s.host.hdmDenied := rfl
@[simp] theorem updRing_host_nestedSeen (s : State) (k : CtxId) (f : Ring → Ring) : (updRing s k f).host.nestedSeen = s.host.nestedSeen := rfl
@[simp] theorem updRing_host_uncorrSeen (s : State) (k : CtxId) (f : Ring → Ring) : (updRing s k f).host.uncorrSeen = s.host.uncorrSeen := rfl
@[simp] theorem updRing_host_msix (s : State) (k : CtxId) (f : Ring → Ring) : (updRing s k f).host.msix = s.host.msix := rfl
@[simp] theorem updRing_host_rdata (s : State) (k : CtxId) (f : Ring → Ring) : (updRing s k f).host.rdata = s.host.rdata := rfl
@[simp] theorem updRing_host_cxlData (s : State) (k : CtxId) (f : Ring → Ring) : (updRing s k f).host.cxlData = s.host.cxlData := rfl
@[simp] theorem updRing_host_cxlPoison (s : State) (k : CtxId) (f : Ring → Ring) : (updRing s k f).host.cxlPoison = s.host.cxlPoison := rfl
@[simp] theorem updRing_host_tseq (s : State) (k : CtxId) (f : Ring → Ring) : (updRing s k f).host.tseq = s.host.tseq := rfl
@[simp] theorem updRing_host_tlmStart (s : State) (k : CtxId) (f : Ring → Ring) : (updRing s k f).host.tlmStart = s.host.tlmStart := rfl

@[simp] theorem updRing_same (s : State) (k : CtxId) (f : Ring → Ring) : (updRing s k f).host.rings[k] = f s.host.rings[k] := by
  simp [updRing]

theorem updRing_other (s : State) (k : CtxId) (f : Ring → Ring) (j : CtxId) (h : j ≠ k) : (updRing s k f).host.rings[j] = s.host.rings[j] := by
  have : k.val ≠ j.val := fun e => h (Fin.ext e.symm)
  simp [updRing, this]

/-! ## The sending end of a link -/

@[simp] theorem updEnd_port (s : State) (p : PortId) (f : Port → Port) : updEnd s (.port p) f = updPort s p f := rfl

@[simp] theorem updEnd_bridge_pending (s : State) (a b : DieId) (f : Port → Port) : (updEnd s (.bridge a b) f).pending = s.pending := rfl
@[simp] theorem updEnd_bridge_fuses (s : State) (a b : DieId) (f : Port → Port) : (updEnd s (.bridge a b) f).fuses = s.fuses := rfl
@[simp] theorem updEnd_bridge_boot (s : State) (a b : DieId) (f : Port → Port) : (updEnd s (.bridge a b) f).boot = s.boot := rfl
@[simp] theorem updEnd_bridge_flash (s : State) (a b : DieId) (f : Port → Port) : (updEnd s (.bridge a b) f).flash = s.flash := rfl
@[simp] theorem updEnd_bridge_cnt (s : State) (a b : DieId) (f : Port → Port) : (updEnd s (.bridge a b) f).cnt = s.cnt := rfl
@[simp] theorem updEnd_bridge_host (s : State) (a b : DieId) (f : Port → Port) : (updEnd s (.bridge a b) f).host = s.host := rfl
@[simp] theorem updEnd_bridge_ctxs (s : State) (a b : DieId) (f : Port → Port) : (updEnd s (.bridge a b) f).ctxs = s.ctxs := rfl
@[simp] theorem updEnd_bridge_regions (s : State) (a b : DieId) (f : Port → Port) : (updEnd s (.bridge a b) f).regions = s.regions := rfl
@[simp] theorem updEnd_bridge_hbm (s : State) (a b : DieId) (f : Port → Port) : (updEnd s (.bridge a b) f).hbm = s.hbm := rfl
@[simp] theorem updEnd_bridge_ports (s : State) (a b : DieId) (f : Port → Port) : (updEnd s (.bridge a b) f).ports = s.ports := rfl
@[simp] theorem updEnd_bridge_scree (s : State) (a b : DieId) (f : Port → Port) : (updEnd s (.bridge a b) f).scree = s.scree := rfl
@[simp] theorem updEnd_bridge_hardFault (s : State) (a b : DieId) (f : Port → Port) : (updEnd s (.bridge a b) f).hardFault = s.hardFault := rfl
@[simp] theorem updEnd_bridge_pageQ (s : State) (a b : DieId) (f : Port → Port) : (updEnd s (.bridge a b) f).pageQ = s.pageQ := rfl
@[simp] theorem updEnd_bridge_restoring (s : State) (a b : DieId) (f : Port → Port) : (updEnd s (.bridge a b) f).restoring = s.restoring := rfl
@[simp] theorem updEnd_bridge_test (s : State) (a b : DieId) (f : Port → Port) : (updEnd s (.bridge a b) f).test = s.test := rfl
@[simp] theorem updEnd_bridge_debug (s : State) (a b : DieId) (f : Port → Port) : (updEnd s (.bridge a b) f).debug = s.debug := rfl
@[simp] theorem updEnd_bridge_presence (s : State) (a b : DieId) (f : Port → Port) : (updEnd s (.bridge a b) f).presence = s.presence := rfl
@[simp] theorem updEnd_bridge_power (s : State) (a b : DieId) (f : Port → Port) : (updEnd s (.bridge a b) f).power = s.power := rfl
@[simp] theorem updEnd_bridge_i3c (s : State) (a b : DieId) (f : Port → Port) : (updEnd s (.bridge a b) f).i3c = s.i3c := rfl
@[simp] theorem updEnd_bridge_hostMem (s : State) (a b : DieId) (f : Port → Port) : (updEnd s (.bridge a b) f).hostMem = s.hostMem := rfl
@[simp] theorem updEnd_bridge_ownRecs (s : State) (a b : DieId) (f : Port → Port) : (updEnd s (.bridge a b) f).ownRecs = s.ownRecs := rfl
@[simp] theorem updEnd_bridge_peerRecs (s : State) (a b : DieId) (f : Port → Port) : (updEnd s (.bridge a b) f).peerRecs = s.peerRecs := rfl
@[simp] theorem updEnd_bridge_digestSets (s : State) (a b : DieId) (f : Port → Port) : (updEnd s (.bridge a b) f).digestSets = s.digestSets := rfl
@[simp] theorem updEnd_bridge_digestCmps (s : State) (a b : DieId) (f : Port → Port) : (updEnd s (.bridge a b) f).digestCmps = s.digestCmps := rfl
@[simp] theorem updEnd_bridge_dfBytes (s : State) (a b : DieId) (f : Port → Port) : (updEnd s (.bridge a b) f).dfBytes = s.dfBytes := rfl
@[simp] theorem updEnd_bridge_freeCtr (s : State) (a b : DieId) (f : Port → Port) : (updEnd s (.bridge a b) f).freeCtr = s.freeCtr := rfl

@[simp] theorem endOf_updEnd (s : State) (l : Link) (f : Port → Port) : endOf (updEnd s l f) l = f (endOf s l) := by
  cases l <;> simp [endOf, updEnd, updPort]

/-! ## A region -/

@[simp] theorem updStream_ctx (r : Region) (k : StreamId) (f : Stream → Stream) : (updStream r k f).ctx = r.ctx := rfl
@[simp] theorem updStream_imem (r : Region) (k : StreamId) (f : Stream → Stream) : (updStream r k f).imem = r.imem := rfl
@[simp] theorem updStream_sdata (r : Region) (k : StreamId) (f : Stream → Stream) : (updStream r k f).sdata = r.sdata := rfl
@[simp] theorem updStream_sinit (r : Region) (k : StreamId) (f : Stream → Stream) : (updStream r k f).sinit = r.sinit := rfl
@[simp] theorem updStream_entry (r : Region) (k : StreamId) (f : Stream → Stream) : (updStream r k f).entry = r.entry := rfl
@[simp] theorem updStream_budget (r : Region) (k : StreamId) (f : Stream → Stream) : (updStream r k f).budget = r.budget := rfl
@[simp] theorem updStream_damaged (r : Region) (k : StreamId) (f : Stream → Stream) : (updStream r k f).damaged = r.damaged := rfl
@[simp] theorem updStream_scratch (r : Region) (k : StreamId) (f : Stream → Stream) : (updStream r k f).scratch = r.scratch := rfl
@[simp] theorem updStream_ev (r : Region) (k : StreamId) (f : Stream → Stream) : (updStream r k f).ev = r.ev := rfl
@[simp] theorem updStream_evPend (r : Region) (k : StreamId) (f : Stream → Stream) : (updStream r k f).evPend = r.evPend := rfl
@[simp] theorem updStream_admitted (r : Region) (k : StreamId) (f : Stream → Stream) : (updStream r k f).admitted = r.admitted := rfl
@[simp] theorem updStream_landed (r : Region) (k : StreamId) (f : Stream → Stream) : (updStream r k f).landed = r.landed := rfl
@[simp] theorem updStream_lastIssue (r : Region) (k : StreamId) (f : Stream → Stream) : (updStream r k f).lastIssue = r.lastIssue := rfl
@[simp] theorem updStream_clusters (r : Region) (k : StreamId) (f : Stream → Stream) : (updStream r k f).clusters = r.clusters := rfl
@[simp] theorem updStream_mq (r : Region) (k : StreamId) (f : Stream → Stream) : (updStream r k f).mq = r.mq := rfl
@[simp] theorem updStream_mrun (r : Region) (k : StreamId) (f : Stream → Stream) : (updStream r k f).mrun = r.mrun := rfl
@[simp] theorem updStream_mfetched (r : Region) (k : StreamId) (f : Stream → Stream) : (updStream r k f).mfetched = r.mfetched := rfl
@[simp] theorem updStream_masked (r : Region) (k : StreamId) (f : Stream → Stream) : (updStream r k f).masked = r.masked := rfl
@[simp] theorem updStream_chans (r : Region) (k : StreamId) (f : Stream → Stream) : (updStream r k f).chans = r.chans := rfl
@[simp] theorem updStream_wins (r : Region) (k : StreamId) (f : Stream → Stream) : (updStream r k f).wins = r.wins := rfl
@[simp] theorem updStream_dprefs (r : Region) (k : StreamId) (f : Stream → Stream) : (updStream r k f).dprefs = r.dprefs := rfl
@[simp] theorem updStream_collIssued (r : Region) (k : StreamId) (f : Stream → Stream) : (updStream r k f).collIssued = r.collIssued := rfl
@[simp] theorem updStream_collStarted (r : Region) (k : StreamId) (f : Stream → Stream) : (updStream r k f).collStarted = r.collStarted := rfl
@[simp] theorem updStream_tcache (r : Region) (k : StreamId) (f : Stream → Stream) : (updStream r k f).tcache = r.tcache := rfl
@[simp] theorem updStream_mothPos (r : Region) (k : StreamId) (f : Stream → Stream) : (updStream r k f).mothPos = r.mothPos := rfl
@[simp] theorem updStream_writeBacks (r : Region) (k : StreamId) (f : Stream → Stream) : (updStream r k f).writeBacks = r.writeBacks := rfl
@[simp] theorem updStream_tadm (r : Region) (k : StreamId) (f : Stream → Stream) : (updStream r k f).tadm = r.tadm := rfl
@[simp] theorem updStream_beatNo (r : Region) (k : StreamId) (f : Stream → Stream) : (updStream r k f).beatNo = r.beatNo := rfl
@[simp] theorem updStream_slices (r : Region) (k : StreamId) (f : Stream → Stream) : (updStream r k f).slices = r.slices := rfl
@[simp] theorem updStream_behind (r : Region) (k : StreamId) (f : Stream → Stream) : (updStream r k f).behind = r.behind := rfl
@[simp] theorem updStream_lateFills (r : Region) (k : StreamId) (f : Stream → Stream) : (updStream r k f).lateFills = r.lateFills := rfl

@[simp] theorem updStream_same (r : Region) (k : StreamId) (f : Stream → Stream) : (updStream r k f).streams[k] = f r.streams[k] := by
  simp [updStream]

theorem updStream_other (r : Region) (k : StreamId) (f : Stream → Stream) (j : StreamId) (h : j ≠ k) : (updStream r k f).streams[j] = r.streams[j] := by
  have : k.val ≠ j.val := fun e => h (Fin.ext e.symm)
  simp [updStream, this]

@[simp] theorem updCluster_ctx (r : Region) (k : ClusterId) (f : Cluster → Cluster) : (updCluster r k f).ctx = r.ctx := rfl
@[simp] theorem updCluster_imem (r : Region) (k : ClusterId) (f : Cluster → Cluster) : (updCluster r k f).imem = r.imem := rfl
@[simp] theorem updCluster_sdata (r : Region) (k : ClusterId) (f : Cluster → Cluster) : (updCluster r k f).sdata = r.sdata := rfl
@[simp] theorem updCluster_sinit (r : Region) (k : ClusterId) (f : Cluster → Cluster) : (updCluster r k f).sinit = r.sinit := rfl
@[simp] theorem updCluster_entry (r : Region) (k : ClusterId) (f : Cluster → Cluster) : (updCluster r k f).entry = r.entry := rfl
@[simp] theorem updCluster_budget (r : Region) (k : ClusterId) (f : Cluster → Cluster) : (updCluster r k f).budget = r.budget := rfl
@[simp] theorem updCluster_damaged (r : Region) (k : ClusterId) (f : Cluster → Cluster) : (updCluster r k f).damaged = r.damaged := rfl
@[simp] theorem updCluster_scratch (r : Region) (k : ClusterId) (f : Cluster → Cluster) : (updCluster r k f).scratch = r.scratch := rfl
@[simp] theorem updCluster_ev (r : Region) (k : ClusterId) (f : Cluster → Cluster) : (updCluster r k f).ev = r.ev := rfl
@[simp] theorem updCluster_evPend (r : Region) (k : ClusterId) (f : Cluster → Cluster) : (updCluster r k f).evPend = r.evPend := rfl
@[simp] theorem updCluster_admitted (r : Region) (k : ClusterId) (f : Cluster → Cluster) : (updCluster r k f).admitted = r.admitted := rfl
@[simp] theorem updCluster_landed (r : Region) (k : ClusterId) (f : Cluster → Cluster) : (updCluster r k f).landed = r.landed := rfl
@[simp] theorem updCluster_lastIssue (r : Region) (k : ClusterId) (f : Cluster → Cluster) : (updCluster r k f).lastIssue = r.lastIssue := rfl
@[simp] theorem updCluster_streams (r : Region) (k : ClusterId) (f : Cluster → Cluster) : (updCluster r k f).streams = r.streams := rfl
@[simp] theorem updCluster_mq (r : Region) (k : ClusterId) (f : Cluster → Cluster) : (updCluster r k f).mq = r.mq := rfl
@[simp] theorem updCluster_mrun (r : Region) (k : ClusterId) (f : Cluster → Cluster) : (updCluster r k f).mrun = r.mrun := rfl
@[simp] theorem updCluster_mfetched (r : Region) (k : ClusterId) (f : Cluster → Cluster) : (updCluster r k f).mfetched = r.mfetched := rfl
@[simp] theorem updCluster_masked (r : Region) (k : ClusterId) (f : Cluster → Cluster) : (updCluster r k f).masked = r.masked := rfl
@[simp] theorem updCluster_chans (r : Region) (k : ClusterId) (f : Cluster → Cluster) : (updCluster r k f).chans = r.chans := rfl
@[simp] theorem updCluster_wins (r : Region) (k : ClusterId) (f : Cluster → Cluster) : (updCluster r k f).wins = r.wins := rfl
@[simp] theorem updCluster_dprefs (r : Region) (k : ClusterId) (f : Cluster → Cluster) : (updCluster r k f).dprefs = r.dprefs := rfl
@[simp] theorem updCluster_collIssued (r : Region) (k : ClusterId) (f : Cluster → Cluster) : (updCluster r k f).collIssued = r.collIssued := rfl
@[simp] theorem updCluster_collStarted (r : Region) (k : ClusterId) (f : Cluster → Cluster) : (updCluster r k f).collStarted = r.collStarted := rfl
@[simp] theorem updCluster_tcache (r : Region) (k : ClusterId) (f : Cluster → Cluster) : (updCluster r k f).tcache = r.tcache := rfl
@[simp] theorem updCluster_mothPos (r : Region) (k : ClusterId) (f : Cluster → Cluster) : (updCluster r k f).mothPos = r.mothPos := rfl
@[simp] theorem updCluster_writeBacks (r : Region) (k : ClusterId) (f : Cluster → Cluster) : (updCluster r k f).writeBacks = r.writeBacks := rfl
@[simp] theorem updCluster_tadm (r : Region) (k : ClusterId) (f : Cluster → Cluster) : (updCluster r k f).tadm = r.tadm := rfl
@[simp] theorem updCluster_beatNo (r : Region) (k : ClusterId) (f : Cluster → Cluster) : (updCluster r k f).beatNo = r.beatNo := rfl
@[simp] theorem updCluster_slices (r : Region) (k : ClusterId) (f : Cluster → Cluster) : (updCluster r k f).slices = r.slices := rfl
@[simp] theorem updCluster_behind (r : Region) (k : ClusterId) (f : Cluster → Cluster) : (updCluster r k f).behind = r.behind := rfl
@[simp] theorem updCluster_lateFills (r : Region) (k : ClusterId) (f : Cluster → Cluster) : (updCluster r k f).lateFills = r.lateFills := rfl

@[simp] theorem updCluster_same (r : Region) (k : ClusterId) (f : Cluster → Cluster) : (updCluster r k f).clusters[k] = f r.clusters[k] := by
  simp [updCluster]

theorem updCluster_other (r : Region) (k : ClusterId) (f : Cluster → Cluster) (j : ClusterId) (h : j ≠ k) : (updCluster r k f).clusters[j] = r.clusters[j] := by
  have : k.val ≠ j.val := fun e => h (Fin.ext e.symm)
  simp [updCluster, this]

@[simp] theorem updChan_ctx (r : Region) (k : ChanId) (f : Channel → Channel) : (updChan r k f).ctx = r.ctx := rfl
@[simp] theorem updChan_imem (r : Region) (k : ChanId) (f : Channel → Channel) : (updChan r k f).imem = r.imem := rfl
@[simp] theorem updChan_sdata (r : Region) (k : ChanId) (f : Channel → Channel) : (updChan r k f).sdata = r.sdata := rfl
@[simp] theorem updChan_sinit (r : Region) (k : ChanId) (f : Channel → Channel) : (updChan r k f).sinit = r.sinit := rfl
@[simp] theorem updChan_entry (r : Region) (k : ChanId) (f : Channel → Channel) : (updChan r k f).entry = r.entry := rfl
@[simp] theorem updChan_budget (r : Region) (k : ChanId) (f : Channel → Channel) : (updChan r k f).budget = r.budget := rfl
@[simp] theorem updChan_damaged (r : Region) (k : ChanId) (f : Channel → Channel) : (updChan r k f).damaged = r.damaged := rfl
@[simp] theorem updChan_scratch (r : Region) (k : ChanId) (f : Channel → Channel) : (updChan r k f).scratch = r.scratch := rfl
@[simp] theorem updChan_ev (r : Region) (k : ChanId) (f : Channel → Channel) : (updChan r k f).ev = r.ev := rfl
@[simp] theorem updChan_evPend (r : Region) (k : ChanId) (f : Channel → Channel) : (updChan r k f).evPend = r.evPend := rfl
@[simp] theorem updChan_admitted (r : Region) (k : ChanId) (f : Channel → Channel) : (updChan r k f).admitted = r.admitted := rfl
@[simp] theorem updChan_landed (r : Region) (k : ChanId) (f : Channel → Channel) : (updChan r k f).landed = r.landed := rfl
@[simp] theorem updChan_lastIssue (r : Region) (k : ChanId) (f : Channel → Channel) : (updChan r k f).lastIssue = r.lastIssue := rfl
@[simp] theorem updChan_streams (r : Region) (k : ChanId) (f : Channel → Channel) : (updChan r k f).streams = r.streams := rfl
@[simp] theorem updChan_clusters (r : Region) (k : ChanId) (f : Channel → Channel) : (updChan r k f).clusters = r.clusters := rfl
@[simp] theorem updChan_mq (r : Region) (k : ChanId) (f : Channel → Channel) : (updChan r k f).mq = r.mq := rfl
@[simp] theorem updChan_mrun (r : Region) (k : ChanId) (f : Channel → Channel) : (updChan r k f).mrun = r.mrun := rfl
@[simp] theorem updChan_mfetched (r : Region) (k : ChanId) (f : Channel → Channel) : (updChan r k f).mfetched = r.mfetched := rfl
@[simp] theorem updChan_masked (r : Region) (k : ChanId) (f : Channel → Channel) : (updChan r k f).masked = r.masked := rfl
@[simp] theorem updChan_wins (r : Region) (k : ChanId) (f : Channel → Channel) : (updChan r k f).wins = r.wins := rfl
@[simp] theorem updChan_dprefs (r : Region) (k : ChanId) (f : Channel → Channel) : (updChan r k f).dprefs = r.dprefs := rfl
@[simp] theorem updChan_collIssued (r : Region) (k : ChanId) (f : Channel → Channel) : (updChan r k f).collIssued = r.collIssued := rfl
@[simp] theorem updChan_collStarted (r : Region) (k : ChanId) (f : Channel → Channel) : (updChan r k f).collStarted = r.collStarted := rfl
@[simp] theorem updChan_tcache (r : Region) (k : ChanId) (f : Channel → Channel) : (updChan r k f).tcache = r.tcache := rfl
@[simp] theorem updChan_mothPos (r : Region) (k : ChanId) (f : Channel → Channel) : (updChan r k f).mothPos = r.mothPos := rfl
@[simp] theorem updChan_writeBacks (r : Region) (k : ChanId) (f : Channel → Channel) : (updChan r k f).writeBacks = r.writeBacks := rfl
@[simp] theorem updChan_tadm (r : Region) (k : ChanId) (f : Channel → Channel) : (updChan r k f).tadm = r.tadm := rfl
@[simp] theorem updChan_beatNo (r : Region) (k : ChanId) (f : Channel → Channel) : (updChan r k f).beatNo = r.beatNo := rfl
@[simp] theorem updChan_slices (r : Region) (k : ChanId) (f : Channel → Channel) : (updChan r k f).slices = r.slices := rfl
@[simp] theorem updChan_behind (r : Region) (k : ChanId) (f : Channel → Channel) : (updChan r k f).behind = r.behind := rfl
@[simp] theorem updChan_lateFills (r : Region) (k : ChanId) (f : Channel → Channel) : (updChan r k f).lateFills = r.lateFills := rfl

@[simp] theorem updChan_same (r : Region) (k : ChanId) (f : Channel → Channel) : (updChan r k f).chans[k] = f r.chans[k] := by
  simp [updChan]

theorem updChan_other (r : Region) (k : ChanId) (f : Channel → Channel) (j : ChanId) (h : j ≠ k) : (updChan r k f).chans[j] = r.chans[j] := by
  have : k.val ≠ j.val := fun e => h (Fin.ext e.symm)
  simp [updChan, this]

@[simp] theorem updBank_passQ (c : Cluster) (k : Fin 2) (f : Bank → Bank) : (updBank c k f).passQ = c.passQ := rfl
@[simp] theorem updBank_nextBank (c : Cluster) (k : Fin 2) (f : Bank → Bank) : (updBank c k f).nextBank = c.nextBank := rfl
@[simp] theorem updBank_cur (c : Cluster) (k : Fin 2) (f : Bank → Bank) : (updBank c k f).cur = c.cur := rfl
@[simp] theorem updBank_chain (c : Cluster) (k : Fin 2) (f : Bank → Bank) : (updBank c k f).chain = c.chain := rfl
@[simp] theorem updBank_heldSeq (c : Cluster) (k : Fin 2) (f : Bank → Bank) : (updBank c k f).heldSeq = c.heldSeq := rfl
@[simp] theorem updBank_drained (c : Cluster) (k : Fin 2) (f : Bank → Bank) : (updBank c k f).drained = c.drained := rfl
@[simp] theorem updBank_tileQ (c : Cluster) (k : Fin 2) (f : Bank → Bank) : (updBank c k f).tileQ = c.tileQ := rfl
@[simp] theorem updBank_replay (c : Cluster) (k : Fin 2) (f : Bank → Bank) : (updBank c k f).replay = c.replay := rfl
@[simp] theorem updBank_pstat (c : Cluster) (k : Fin 2) (f : Bank → Bank) : (updBank c k f).pstat = c.pstat := rfl
@[simp] theorem updBank_vq (c : Cluster) (k : Fin 2) (f : Bank → Bank) : (updBank c k f).vq = c.vq := rfl
@[simp] theorem updBank_vrun (c : Cluster) (k : Fin 2) (f : Bank → Bank) : (updBank c k f).vrun = c.vrun := rfl
@[simp] theorem updBank_vstat (c : Cluster) (k : Fin 2) (f : Bank → Bank) : (updBank c k f).vstat = c.vstat := rfl
@[simp] theorem updBank_borrowed (c : Cluster) (k : Fin 2) (f : Bank → Bank) : (updBank c k f).borrowed = c.borrowed := rfl

@[simp] theorem updBank_same (c : Cluster) (k : Fin 2) (f : Bank → Bank) : (updBank c k f).banks[k] = f c.banks[k] := by
  simp [updBank]

theorem updBank_other (c : Cluster) (k : Fin 2) (f : Bank → Bank) (j : Fin 2) (h : j ≠ k) : (updBank c k f).banks[j] = c.banks[j] := by
  have : k.val ≠ j.val := fun e => h (Fin.ext e.symm)
  simp [updBank, this]

/-! ## Event counters -/

@[simp] theorem evAdd_ctx (r : Region) (e : Fin 64) (d : Int) (w : Option StreamId) : (evAdd r e d w).ctx = r.ctx := rfl
@[simp] theorem evAdd_imem (r : Region) (e : Fin 64) (d : Int) (w : Option StreamId) : (evAdd r e d w).imem = r.imem := rfl
@[simp] theorem evAdd_sdata (r : Region) (e : Fin 64) (d : Int) (w : Option StreamId) : (evAdd r e d w).sdata = r.sdata := rfl
@[simp] theorem evAdd_sinit (r : Region) (e : Fin 64) (d : Int) (w : Option StreamId) : (evAdd r e d w).sinit = r.sinit := rfl
@[simp] theorem evAdd_entry (r : Region) (e : Fin 64) (d : Int) (w : Option StreamId) : (evAdd r e d w).entry = r.entry := rfl
@[simp] theorem evAdd_budget (r : Region) (e : Fin 64) (d : Int) (w : Option StreamId) : (evAdd r e d w).budget = r.budget := rfl
@[simp] theorem evAdd_damaged (r : Region) (e : Fin 64) (d : Int) (w : Option StreamId) : (evAdd r e d w).damaged = r.damaged := rfl
@[simp] theorem evAdd_scratch (r : Region) (e : Fin 64) (d : Int) (w : Option StreamId) : (evAdd r e d w).scratch = r.scratch := rfl
@[simp] theorem evAdd_ev (r : Region) (e : Fin 64) (d : Int) (w : Option StreamId) : (evAdd r e d w).ev = r.ev := rfl
@[simp] theorem evAdd_admitted (r : Region) (e : Fin 64) (d : Int) (w : Option StreamId) : (evAdd r e d w).admitted = r.admitted := rfl
@[simp] theorem evAdd_landed (r : Region) (e : Fin 64) (d : Int) (w : Option StreamId) : (evAdd r e d w).landed = r.landed := rfl
@[simp] theorem evAdd_lastIssue (r : Region) (e : Fin 64) (d : Int) (w : Option StreamId) : (evAdd r e d w).lastIssue = r.lastIssue := rfl
@[simp] theorem evAdd_streams (r : Region) (e : Fin 64) (d : Int) (w : Option StreamId) : (evAdd r e d w).streams = r.streams := rfl
@[simp] theorem evAdd_clusters (r : Region) (e : Fin 64) (d : Int) (w : Option StreamId) : (evAdd r e d w).clusters = r.clusters := rfl
@[simp] theorem evAdd_mq (r : Region) (e : Fin 64) (d : Int) (w : Option StreamId) : (evAdd r e d w).mq = r.mq := rfl
@[simp] theorem evAdd_mrun (r : Region) (e : Fin 64) (d : Int) (w : Option StreamId) : (evAdd r e d w).mrun = r.mrun := rfl
@[simp] theorem evAdd_mfetched (r : Region) (e : Fin 64) (d : Int) (w : Option StreamId) : (evAdd r e d w).mfetched = r.mfetched := rfl
@[simp] theorem evAdd_masked (r : Region) (e : Fin 64) (d : Int) (w : Option StreamId) : (evAdd r e d w).masked = r.masked := rfl
@[simp] theorem evAdd_chans (r : Region) (e : Fin 64) (d : Int) (w : Option StreamId) : (evAdd r e d w).chans = r.chans := rfl
@[simp] theorem evAdd_wins (r : Region) (e : Fin 64) (d : Int) (w : Option StreamId) : (evAdd r e d w).wins = r.wins := rfl
@[simp] theorem evAdd_dprefs (r : Region) (e : Fin 64) (d : Int) (w : Option StreamId) : (evAdd r e d w).dprefs = r.dprefs := rfl
@[simp] theorem evAdd_collIssued (r : Region) (e : Fin 64) (d : Int) (w : Option StreamId) : (evAdd r e d w).collIssued = r.collIssued := rfl
@[simp] theorem evAdd_collStarted (r : Region) (e : Fin 64) (d : Int) (w : Option StreamId) : (evAdd r e d w).collStarted = r.collStarted := rfl
@[simp] theorem evAdd_tcache (r : Region) (e : Fin 64) (d : Int) (w : Option StreamId) : (evAdd r e d w).tcache = r.tcache := rfl
@[simp] theorem evAdd_mothPos (r : Region) (e : Fin 64) (d : Int) (w : Option StreamId) : (evAdd r e d w).mothPos = r.mothPos := rfl
@[simp] theorem evAdd_writeBacks (r : Region) (e : Fin 64) (d : Int) (w : Option StreamId) : (evAdd r e d w).writeBacks = r.writeBacks := rfl
@[simp] theorem evAdd_tadm (r : Region) (e : Fin 64) (d : Int) (w : Option StreamId) : (evAdd r e d w).tadm = r.tadm := rfl
@[simp] theorem evAdd_beatNo (r : Region) (e : Fin 64) (d : Int) (w : Option StreamId) : (evAdd r e d w).beatNo = r.beatNo := rfl
@[simp] theorem evAdd_slices (r : Region) (e : Fin 64) (d : Int) (w : Option StreamId) : (evAdd r e d w).slices = r.slices := rfl
@[simp] theorem evAdd_behind (r : Region) (e : Fin 64) (d : Int) (w : Option StreamId) : (evAdd r e d w).behind = r.behind := rfl
@[simp] theorem evAdd_lateFills (r : Region) (e : Fin 64) (d : Int) (w : Option StreamId) : (evAdd r e d w).lateFills = r.lateFills := rfl

@[simp] theorem evSet_ctx (r : Region) (e : Fin 64) (v : BitVec 16) (w : Option StreamId) : (evSet r e v w).ctx = r.ctx := rfl
@[simp] theorem evSet_imem (r : Region) (e : Fin 64) (v : BitVec 16) (w : Option StreamId) : (evSet r e v w).imem = r.imem := rfl
@[simp] theorem evSet_sdata (r : Region) (e : Fin 64) (v : BitVec 16) (w : Option StreamId) : (evSet r e v w).sdata = r.sdata := rfl
@[simp] theorem evSet_sinit (r : Region) (e : Fin 64) (v : BitVec 16) (w : Option StreamId) : (evSet r e v w).sinit = r.sinit := rfl
@[simp] theorem evSet_entry (r : Region) (e : Fin 64) (v : BitVec 16) (w : Option StreamId) : (evSet r e v w).entry = r.entry := rfl
@[simp] theorem evSet_budget (r : Region) (e : Fin 64) (v : BitVec 16) (w : Option StreamId) : (evSet r e v w).budget = r.budget := rfl
@[simp] theorem evSet_damaged (r : Region) (e : Fin 64) (v : BitVec 16) (w : Option StreamId) : (evSet r e v w).damaged = r.damaged := rfl
@[simp] theorem evSet_scratch (r : Region) (e : Fin 64) (v : BitVec 16) (w : Option StreamId) : (evSet r e v w).scratch = r.scratch := rfl
@[simp] theorem evSet_ev (r : Region) (e : Fin 64) (v : BitVec 16) (w : Option StreamId) : (evSet r e v w).ev = r.ev := rfl
@[simp] theorem evSet_admitted (r : Region) (e : Fin 64) (v : BitVec 16) (w : Option StreamId) : (evSet r e v w).admitted = r.admitted := rfl
@[simp] theorem evSet_landed (r : Region) (e : Fin 64) (v : BitVec 16) (w : Option StreamId) : (evSet r e v w).landed = r.landed := rfl
@[simp] theorem evSet_lastIssue (r : Region) (e : Fin 64) (v : BitVec 16) (w : Option StreamId) : (evSet r e v w).lastIssue = r.lastIssue := rfl
@[simp] theorem evSet_streams (r : Region) (e : Fin 64) (v : BitVec 16) (w : Option StreamId) : (evSet r e v w).streams = r.streams := rfl
@[simp] theorem evSet_clusters (r : Region) (e : Fin 64) (v : BitVec 16) (w : Option StreamId) : (evSet r e v w).clusters = r.clusters := rfl
@[simp] theorem evSet_mq (r : Region) (e : Fin 64) (v : BitVec 16) (w : Option StreamId) : (evSet r e v w).mq = r.mq := rfl
@[simp] theorem evSet_mrun (r : Region) (e : Fin 64) (v : BitVec 16) (w : Option StreamId) : (evSet r e v w).mrun = r.mrun := rfl
@[simp] theorem evSet_mfetched (r : Region) (e : Fin 64) (v : BitVec 16) (w : Option StreamId) : (evSet r e v w).mfetched = r.mfetched := rfl
@[simp] theorem evSet_masked (r : Region) (e : Fin 64) (v : BitVec 16) (w : Option StreamId) : (evSet r e v w).masked = r.masked := rfl
@[simp] theorem evSet_chans (r : Region) (e : Fin 64) (v : BitVec 16) (w : Option StreamId) : (evSet r e v w).chans = r.chans := rfl
@[simp] theorem evSet_wins (r : Region) (e : Fin 64) (v : BitVec 16) (w : Option StreamId) : (evSet r e v w).wins = r.wins := rfl
@[simp] theorem evSet_dprefs (r : Region) (e : Fin 64) (v : BitVec 16) (w : Option StreamId) : (evSet r e v w).dprefs = r.dprefs := rfl
@[simp] theorem evSet_collIssued (r : Region) (e : Fin 64) (v : BitVec 16) (w : Option StreamId) : (evSet r e v w).collIssued = r.collIssued := rfl
@[simp] theorem evSet_collStarted (r : Region) (e : Fin 64) (v : BitVec 16) (w : Option StreamId) : (evSet r e v w).collStarted = r.collStarted := rfl
@[simp] theorem evSet_tcache (r : Region) (e : Fin 64) (v : BitVec 16) (w : Option StreamId) : (evSet r e v w).tcache = r.tcache := rfl
@[simp] theorem evSet_mothPos (r : Region) (e : Fin 64) (v : BitVec 16) (w : Option StreamId) : (evSet r e v w).mothPos = r.mothPos := rfl
@[simp] theorem evSet_writeBacks (r : Region) (e : Fin 64) (v : BitVec 16) (w : Option StreamId) : (evSet r e v w).writeBacks = r.writeBacks := rfl
@[simp] theorem evSet_tadm (r : Region) (e : Fin 64) (v : BitVec 16) (w : Option StreamId) : (evSet r e v w).tadm = r.tadm := rfl
@[simp] theorem evSet_beatNo (r : Region) (e : Fin 64) (v : BitVec 16) (w : Option StreamId) : (evSet r e v w).beatNo = r.beatNo := rfl
@[simp] theorem evSet_slices (r : Region) (e : Fin 64) (v : BitVec 16) (w : Option StreamId) : (evSet r e v w).slices = r.slices := rfl
@[simp] theorem evSet_behind (r : Region) (e : Fin 64) (v : BitVec 16) (w : Option StreamId) : (evSet r e v w).behind = r.behind := rfl
@[simp] theorem evSet_lateFills (r : Region) (e : Fin 64) (v : BitVec 16) (w : Option StreamId) : (evSet r e v w).lateFills = r.lateFills := rfl

@[simp] theorem evEndBeat_ctx (r : Region) : (evEndBeat r).ctx = r.ctx := by
  rw [evEndBeat]
@[simp] theorem evEndBeat_imem (r : Region) : (evEndBeat r).imem = r.imem := by
  rw [evEndBeat]
@[simp] theorem evEndBeat_sdata (r : Region) : (evEndBeat r).sdata = r.sdata := by
  rw [evEndBeat]
@[simp] theorem evEndBeat_sinit (r : Region) : (evEndBeat r).sinit = r.sinit := by
  rw [evEndBeat]
@[simp] theorem evEndBeat_entry (r : Region) : (evEndBeat r).entry = r.entry := by
  rw [evEndBeat]
@[simp] theorem evEndBeat_budget (r : Region) : (evEndBeat r).budget = r.budget := by
  rw [evEndBeat]
@[simp] theorem evEndBeat_damaged (r : Region) : (evEndBeat r).damaged = r.damaged := by
  rw [evEndBeat]
@[simp] theorem evEndBeat_scratch (r : Region) : (evEndBeat r).scratch = r.scratch := by
  rw [evEndBeat]
@[simp] theorem evEndBeat_admitted (r : Region) : (evEndBeat r).admitted = r.admitted := by
  rw [evEndBeat]
@[simp] theorem evEndBeat_lastIssue (r : Region) : (evEndBeat r).lastIssue = r.lastIssue := by
  rw [evEndBeat]
@[simp] theorem evEndBeat_streams (r : Region) : (evEndBeat r).streams = r.streams := by
  rw [evEndBeat]
@[simp] theorem evEndBeat_clusters (r : Region) : (evEndBeat r).clusters = r.clusters := by
  rw [evEndBeat]
@[simp] theorem evEndBeat_mq (r : Region) : (evEndBeat r).mq = r.mq := by
  rw [evEndBeat]
@[simp] theorem evEndBeat_mrun (r : Region) : (evEndBeat r).mrun = r.mrun := by
  rw [evEndBeat]
@[simp] theorem evEndBeat_mfetched (r : Region) : (evEndBeat r).mfetched = r.mfetched := by
  rw [evEndBeat]
@[simp] theorem evEndBeat_masked (r : Region) : (evEndBeat r).masked = r.masked := by
  rw [evEndBeat]
@[simp] theorem evEndBeat_chans (r : Region) : (evEndBeat r).chans = r.chans := by
  rw [evEndBeat]
@[simp] theorem evEndBeat_wins (r : Region) : (evEndBeat r).wins = r.wins := by
  rw [evEndBeat]
@[simp] theorem evEndBeat_dprefs (r : Region) : (evEndBeat r).dprefs = r.dprefs := by
  rw [evEndBeat]
@[simp] theorem evEndBeat_collIssued (r : Region) : (evEndBeat r).collIssued = r.collIssued := by
  rw [evEndBeat]
@[simp] theorem evEndBeat_collStarted (r : Region) : (evEndBeat r).collStarted = r.collStarted := by
  rw [evEndBeat]
@[simp] theorem evEndBeat_tcache (r : Region) : (evEndBeat r).tcache = r.tcache := by
  rw [evEndBeat]
@[simp] theorem evEndBeat_mothPos (r : Region) : (evEndBeat r).mothPos = r.mothPos := by
  rw [evEndBeat]
@[simp] theorem evEndBeat_writeBacks (r : Region) : (evEndBeat r).writeBacks = r.writeBacks := by
  rw [evEndBeat]
@[simp] theorem evEndBeat_tadm (r : Region) : (evEndBeat r).tadm = r.tadm := by
  rw [evEndBeat]
@[simp] theorem evEndBeat_beatNo (r : Region) : (evEndBeat r).beatNo = r.beatNo := by
  rw [evEndBeat]
@[simp] theorem evEndBeat_slices (r : Region) : (evEndBeat r).slices = r.slices := by
  rw [evEndBeat]
@[simp] theorem evEndBeat_behind (r : Region) : (evEndBeat r).behind = r.behind := by
  rw [evEndBeat]
@[simp] theorem evEndBeat_lateFills (r : Region) : (evEndBeat r).lateFills = r.lateFills := by
  rw [evEndBeat]

/-- At the end of a beat each counter holds its net value (R209). -/
theorem evEndBeat_ev (r : Region) (e : Fin 64) : (evEndBeat r).ev[e] = BitVec.ofInt 16 (evNet r.ev[e] r.evPend[e]) := by
  simp [evEndBeat]

/-! ## Registers (R199, R113) -/

@[simp] theorem xRead_zero (st : Stream) : xRead st 0 = 0 := rfl

@[simp] theorem xWrite_zero (st : Stream) (v : W64) : xWrite st 0 v = st := rfl

@[simp] theorem pRead_zero (st : Stream) : pRead st 0 = true := rfl

@[simp] theorem pWrite_zero (st : Stream) (v : Bool) : pWrite st 0 v = st := rfl

@[simp] theorem mRead_zero (st : Stream) : mRead st 0 = BitVec.allOnes 128 := rfl

@[simp] theorem mWrite_zero (st : Stream) (v : BitVec 128) : mWrite st 0 v = st := rfl

/-- A scalar register that is not x0 holds what was written to it last. -/
theorem xRead_xWrite (st : Stream) (r : BitVec 5) (v : W64) (h : r ≠ 0) : xRead (xWrite st r v) r = v := by
  have h0 : ¬r = 0#5 := h
  simp [xRead, xWrite, h0]

theorem xRead_xWrite_other (st : Stream) (r q : BitVec 5) (v : W64) (h : q ≠ r) : xRead (xWrite st r v) q = xRead st q := by
  have hn : r.toNat ≠ q.toNat := fun e => h (BitVec.eq_of_toNat_eq e.symm)
  unfold xRead xWrite
  split
  · rfl
  · split
    · rfl
    · simp [hn]

end Sys2Proof.Machine
end

