-- ==== Sys2Proof/Tests/Slice0.lean ====
section
/-! SUPPORT. Tests on small states: checks against the manual's worked examples, ill-formed operands, and for each statement with
hypotheses a state and operands that meet them. -/

namespace Sys2Proof.Tests

open Sys2Proof.Machine

set_option Elab.async false
set_option maxRecDepth 100000

/-! ## Small states -/

/-- A module that is READY at count `n`, with every port trained and nothing else held. -/
def up (n : Nat) : State :=
  { State.reset with
    boot := { Boot.reset with phase := .ready },
    host := { HostIf.reset with trained := true },
    ports := Vector.replicate 6 { Port.reset with powered := true, state := 2 },
    cnt := { State.reset.cnt with count := BitVec.ofNat 64 n, elapsed := n, on := true, aligned := true } }

/-- With a port changed. -/
def port (s : State) (p : PortId) (f : Port → Port) : State := updPort s p f

/-- A flit waiting to go out. -/
def waiting (ty vc : BitVec 3) : TxFlit := { hdr := mkHdr ty vc true 0 0 0 0 0, payload := [], coll := none, due := 0, sent := none }

/-- A flit as it arrives, with SEQ 0. -/
def flit (hdr : BitVec 128) (payload : List Byte) : Flit := { hdr := sealHdr hdr 0 payload, payload := payload }

/-- A DATA flit, alone in its send, on a virtual channel, with REN, for region 0 and event 48. -/
def dataFlit (vc : BitVec 3) : Flit := flit (mkHdr tyDATA vc true 7 1 0x10 2 0) [0xAB, 0xCD]

/-- A RESP flit with TAG 7 and GEN 1: OK. -/
def respFlit : Flit := flit (mkHdr tyRESP 7 true 7 1 0 0 0) []

/-- A PAGE flit, alone in its request, of context 0. -/
def pageFlit (kind : BitVec 5) (l : List Byte) : Flit := flit (mkHdr tyPAGE 6 true 7 1 (pageMid kind 0) l.length 0) l

/-- A transaction with TAG 7 and GEN 1. -/
def txn (ask : Ask) : Txn :=
  { tag := 7, gen := 1, port := 0, who := .host 0, ask := ask, ctx := 0, addr := 0, len := 0, data := [] }

def withTxn (s : State) (ask : Ask) : State := { s with fab := { s.fab with txns := [txn ask] } }

/-- A message with nothing in it. -/
def msg (type : Byte) : Msg := { type := type, gen := 0, tag := 0, stamp := 0, payload := List.replicate 48 0 }

def withRing (s : State) (c : CtxId) (f : Ring → Ring) : State := updRing s c f

def withRegion (s : State) (f : Region → Region) : State := updRegion s 0 f

/-! ## States that meet the hypotheses of the statements: the block, registers, messages -/

theorem witness_StepRunsFrontCommand : ({ State.reset with pending := [.rstdaa] } : State).pending = .rstdaa :: [] := rfl

theorem witness_EveryStepAnswers : State.reset.pending = [] := rfl

theorem witness_StepKeepsInvariant :
    (up 0).bounded ∧ ∃ t, step { up 0 with pending := [.rstdaa] } = .next t :=
  ⟨⟨by decide +kernel, by decide +kernel, by decide +kernel⟩, _, rfl⟩

/-- Another device is fitted before power-on, whose first byte is not erased; a rail fails. -/
def badRail : BootEnv :=
  { railOk := false, inputOk := true, fuseOk := true, sealed := true, jumper := false,
    device := some { flashErased with main := [(0, 0x43)] }, flashOk := true, domainsOk := true, meas := [], hbmOk := true, initOk := true, coolOk := true }

theorem witness_ConfigurationMemoryWriters :
    ∃ t, step { State.reset with pending := [.powerOn 46001 badRail] } = .next t ∧ t.flash ≠ State.reset.flash :=
  ⟨_, rfl, by decide +kernel⟩

theorem witness_PartsChangeOnlyBy : touches .cnt .rstdaa = false ∧ ∃ t, exec .rstdaa (up 0) = .next t := ⟨rfl, _, rfl⟩

theorem witness_StreamRegistersHold : (31 : BitVec 5) ≠ 0 ∧ (1 : BitVec 5) ≠ 31 := by decide

theorem witness_MessageQueueLimits :
    (List.replicate 255 (msg mtReady)).length < 256 ∧ 256 ≤ (List.replicate 256 (msg mtReady)).length ∧
      224 ≤ (withRing (up 0) 1 fun r => { r with msgs := List.replicate 224 (msg mtReady) }).host.rings[(1 : CtxId)].msgs.length := by
  decide +kernel

theorem witness_RecordsAndEntries :
    State.reset.scree.slots.findIdx? (fun e => e.isNone) = some 0 ∧ (127 : Nat) ≠ 0 := by decide +kernel

/-! ## Flits and links -/

theorem witness_SealedFlitIsGood : (up 0).ports[(0 : PortId)].rxNext = 0 ∧ (List.replicate 240 (0 : Byte)).length ≤ 240 := by
  decide +kernel

/-- A DATA flit waits on channel 0 of port 0, with no flit unacknowledged. -/
def sending : State := port (up 0) 0 fun q => { q with txq := q.txq.set 0 [waiting tyDATA 0] }

theorem witness_FlitTransmission :
    (linkUp sending (.port 0) = true ∧ sending.ports[(0 : PortId)].txq[(0 : VcId)] = waiting tyDATA 0 :: [] ∧
      0 < sending.ports[(0 : PortId)].credits[(0 : VcId)] ∧ sending.ports[(0 : PortId)].unacked.length < 8192 ∧
      sending.ports[(0 : PortId)].txq[(7 : VcId)] = []) ∧
    (port sending 0 fun q => { q with credits := Vector.replicate 8 0 }).ports[(0 : PortId)].credits[(0 : VcId)] = 0 ∧
    8192 ≤ (port sending 0 fun q => { q with unacked := List.replicate 8192 (waiting tyDATA 0) }).ports[(0 : PortId)].unacked.length := by
  decide +kernel

/-- A flit of port 1 that was sent at count 0 is unacknowledged at count 1000, with a credit of channel 2 out. -/
def unacked : State :=
  port (up 1000) 1 fun q =>
    { q with unacked := [{ waiting tyDATA 2 with sent := some 0 }], credits := q.credits.set 2 (q.credits[2] - 1) }

/-- Start-up waits for the links; port 1 is up. -/
def training : State := { unacked with boot := { unacked.boot with phase := .linking } }

/-- A flit of the bridge from die 0 to die 3 that was sent at count 0 has come and is unacknowledged at count 100, with its credit
given. -/
def crossing : State :=
  updEnd (up 100) (.bridge 0 3) fun q =>
    { q with unacked := [{ waiting tyDATA 2 with sent := some 0 }], credits := q.credits.set 2 (q.credits[2] - 1),
             toReturn := q.toReturn.set 2 1, rxNext := 1 }

theorem witness_LinkControl :
    (linkUp unacked (.port 1) = true ∧ unacked.ports[(1 : PortId)].credits[(2 : VcId)] < Port.fullCredits[(2 : VcId)] ∧
      unacked.ports[(1 : PortId)].unacked = { waiting tyDATA 2 with sent := some 0 } :: [] ∧
      ((1 : BitVec 14) - hSeq (waiting tyDATA 2).hdr).toNat ≤ 1 ∧ unacked.ports[(1 : PortId)].unacked ≠ [] ∧
      flitGood unacked (.port 1) { hdr := 0, payload := [] } = false ∧ linkUp training (.port 1) = true ∧
      training.boot.phase = .linking ∧ unacked.boot.phase ≠ .linking) ∧
    (linkUp crossing (.bridge 0 3) = true ∧ (endOf crossing (.bridge 0 3)).credits[(2 : VcId)] < Port.fullCredits[(2 : VcId)] ∧
      0 < (endOf crossing (.bridge 0 3)).toReturn[(2 : VcId)] ∧
      (endOf crossing (.bridge 0 3)).unacked = { waiting tyDATA 2 with sent := some 0 } :: [] ∧
      ((1 : BitVec 14) - hSeq (waiting tyDATA 2).hdr).toNat ≤ ((endOf crossing (.bridge 0 3)).rxNext - hSeq (waiting tyDATA 2).hdr).toNat) ∧
    running unacked = true ∧ (∃ f ∈ (endOf unacked (.port 1)).unacked, ∃ n, f.sent = some n ∧ n + 1000 ≤ elapsed unacked) ∧
    running crossing = true ∧ (∃ f ∈ (endOf crossing (.bridge 0 3)).unacked, ∃ n, f.sent = some n ∧ n + 100 ≤ elapsed crossing) ∧
    linkLate (up 0) (.port 1) = false ∧ linkLate (up 0) (.bridge 0 3) = false := by
  refine ⟨by decide +kernel, by decide +kernel, by decide +kernel, ⟨_, List.mem_cons_self, _, rfl, ?_⟩, by decide +kernel,
    ⟨_, List.mem_cons_self, _, rfl, ?_⟩, ?_⟩ <;> decide +kernel

theorem witness_PortTraining :
    (up 0).boot.phase = .ready ∧ ∀ st : BitVec 2, st = 1 ∨ st = 3 →
      (port (up 0) 5 fun q => { q with state := st }).ports[(5 : PortId)].powered = true ∧
        (port (up 0) 5 fun q => { q with state := st }).ports[(5 : PortId)].state ≠ 2 := by
  decide +kernel

/-- A flit that breaks the layout: a DATA flit on virtual channel 6. -/
def badHeader : Flit := flit (mkHdr tyDATA 6 true 7 1 0 0 0) []

theorem witness_BadFlitsDoNothing :
    linkUp State.reset (.port 0) = false ∧ (linkUp (up 0) (.port 0) = true ∧ flitGood (up 0) (.port 0) { hdr := 0, payload := [] } = false) ∧
      flitGood (up 0) (.port 0) badHeader = true ∧ onLink (up 0) (.port 0) badHeader = true ∧ hdrLegal badHeader.hdr = false ∧
      linkOfAxis (up 0) 0 0 (.port 0) = true := by
  decide +kernel

theorem witness_SendLands :
    accepts (up 0) (.port 0) (dataFlit 5) ∧ hType (dataFlit 5).hdr = tyDATA ∧ hVc (dataFlit 5).hdr = 5 ∧ (up 0).fab.dropping = false ∧
      (up 0).hardFault = false ∧ (up 0).ports[(0 : PortId)].held[(5 : VcId)] = [] ∧ (0 : RegionId).val = (hRreg (dataFlit 5).hdr).toNat ∧
      enabled (up 0) 0 = true ∧ (up 0).regions[(0 : RegionId)].scratch.chk = [] ∧ hLast (dataFlit 5).hdr = true ∧
      hRen (dataFlit 5).hdr = true := by
  refine ⟨⟨?_, ?_, ?_, ?_⟩, ?_⟩ <;> decide +kernel

/-- Event 48 of region 0 stands at LAND_DEPTH. -/
def gateShut : State := withRegion (up 0) fun r => { r with ev := r.ev.set 48 2 }

/-- A send to region 0 waits in channel 3 of region 0. -/
def sendOp : ChanOp :=
  { stream := 0, sig := none, dop := dopDSEND, tds := 0, tdd := 0, mir := false, tqcl := 0, dlr := 0, tgt := 0, rreg := 0, ren := true,
    revt := 0, vc := 0, cop := 0, axis := 0, wfmt := 0, h := 0, seq := 0 }

def chanRun (op : ChanOp) (ph : ChanPhase) : ChanRun := { op := op, phase := ph, fetched := [], asked := [], tiles := [] }

def inChan (s : State) (k : ChanId) (op : ChanOp) (ph : ChanPhase) : State :=
  withRegion s fun r => updChan r k fun _ => { q := [], run := some (chanRun op ph), held := 0 }

theorem witness_LandingGate :
    (accepts gateShut (.port 0) (dataFlit 4) ∧ hType (dataFlit 4).hdr = tyDATA ∧ dropsTraffic gateShut = false ∧
      gateShut.ports[(0 : PortId)].isOpen[(hVc (dataFlit 4).hdr).toFin] = false ∧ gateHolds gateShut (dataFlit 4).hdr = true) ∧
    ((port (up 0) 0 fun q => { q with held := q.held.set 4 [dataFlit 4] }).ports[(0 : PortId)].held[(4 : VcId)] = [dataFlit 4] ∧
      headWaits (port (up 0) 0 fun q => { q with held := q.held.set 4 [dataFlit 4] }) 0 (dataFlit 4) = false) ∧
    (inChan (up 0) 3 sendOp .waiting).regions[(0 : RegionId)].chans[(3 : ChanId)].run = some (chanRun sendOp .waiting) := by
  refine ⟨⟨⟨?_, ?_, ?_, ?_⟩, ?_⟩, ?_, ?_⟩ <;> decide +kernel

theorem witness_ResponseEndsTransaction :
    accepts (withTxn (up 0) .send) (.port 0) respFlit ∧ accepts (up 0) (.port 0) respFlit ∧ hType respFlit.hdr = tyRESP ∧
      respTxn (withTxn (up 0) .send) (.port 0) respFlit.hdr = some (txn .send) ∧ isLend (txn .send).ask = false ∧
      (up 0).fab.waiting = [] ∧ respTxn (up 0) (.port 0) respFlit.hdr = none := by
  refine ⟨⟨?_, ?_, ?_, ?_⟩, ⟨?_, ?_, ?_, ?_⟩, ?_⟩ <;> decide +kernel

/-! ## Arithmetic and streams -/

/-- 1.5 and -2. -/
def vA : Val := .fin false 3 (-1)
def vB : Val := .fin true 1 1

theorem witness_ExactSumIgnoresOrder :
    [(vA, vA), (vB, vA)].Perm [(vB, vA), (vA, vA)] ∧
      ∀ l ∈ [[(vA, vA), (vB, vA)], [(vB, vA), (vA, vA)]],
        (l.foldl (fun (acc : AccCell × AF) ab => ((accProduct acc.1 ab.1 ab.2).1, acc.2 ||| (accProduct acc.1 ab.1 ab.2).2))
          (AccCell.zero, 0)).2 = 0 := by
  decide +kernel

theorem witness_ResiduesFollow : AccCell.zero.checks false = true ∧ AccCell.zero.checks true = true := by decide +kernel

theorem witness_SideFlagsStayAndBoundHolds :
    ({ AccCell.zero with pinf := true } : AccCell).pinf = true ∧ ({ AccCell.zero with ninf := true } : AccCell).ninf = true ∧
      ({ AccCell.zero with nanf := true } : AccCell).nanf = true ∧
      (BitVec.ofInt 128 (2 ^ 127 - 4)).toInt.natAbs ≤ 2 ^ 127 - 4 ∧ (Val.mul (.inf false) vA).isFinite = false := by
  decide +kernel

theorem witness_ScalarIntegers : (0 : W64) = 0 ∧ (1 : W64) ≠ 0 := by decide

/-- Stream `i` of region 0 runs from address 0, where the instruction memory holds a bundle with FORM 1, no wait and empty slots. -/
def runs (s : State) (i : StreamId) : State :=
  withRegion s fun r => updStream { r with imem := { mem := [(60, 0xFF), (61, 0xFF), (63, 0x10)], chk := [] } } i fun st =>
    { st with running := true }

/-- An open segment that has used all it declared. -/
def seg0 : Seg := { d := 10, counter := 10, retries := 3, allowance := 0 }

theorem witness_BundleIssues :
    let s := withRegion (runs (up 0) 1) fun r => updStream r 1 fun st => { st with seg := some seg0 }
    enabled s 0 = true ∧ running s = true ∧ beatToken s 0 = true ∧ evOverflow s.regions[(0 : RegionId)] = none ∧
      s.regions[(0 : RegionId)].imem.chk = [] ∧ s.regions[(0 : RegionId)].sdata.chk = [] ∧
      let u := updRegion s 0 evEndBeat
      (∀ j : StreamId, fetchFault u 0 j = none) ∧ pickStream u 0 = some 1 ∧
        let bg := bgBeat s.boot.cfg u.regions[(0 : RegionId)] none
        let v := passBeats3 (updRegion u 0 fun _ => bg.1) 0 bg.2
        let r := v.regions[(0 : RegionId)]
        let b := bundleAt r r.streams[(1 : StreamId)].pc
        issueFault v 0 1 b (scalarOut r r.streams[(1 : StreamId)] 1 (bS0 b)) (scalarOut r r.streams[(1 : StreamId)] 1 (bS1 b)) = none := by
  decide +kernel

/-- Event 63 of region 0 takes more than it holds. -/
def overflow : State := withRegion (up 0) fun r => evAdd r 63 (-1) none

theorem witness_BeatsWithoutIssue :
    (enabled (up 0) 0 = true ∧ running (up 0) = true ∧ beatToken (up 0) 0 = true ∧ evOverflow (up 0).regions[(0 : RegionId)] = none ∧
      (∀ j : StreamId, fetchFault (updRegion (up 0) 0 evEndBeat) 0 j = none) ∧ pickStream (updRegion (up 0) 0 evEndBeat) 0 = none) ∧
    enabled { up 0 with fuses := { (up 0).fuses with grade := .b } } 60 = false ∧
    beatToken { up 0 with power := { (up 0).power with under := true } } 0 = false ∧
    pickStream (runs (up 0) 2) 0 = some 2 ∧
    (enabled overflow 0 = true ∧ running overflow = true ∧ beatToken overflow 0 = true ∧
      evOverflow overflow.regions[(0 : RegionId)] = some 63) := by
  decide +kernel

/-- A launch that runs its step 5, or waits for its count. -/
def launch (started : Bool) : Launch :=
  { tag := 9, gen := 2, a := 0, s0 := 5, n := 2, promise := 0, u := 0, step := 5, started := started, due := 0, sStep := 0,
    wave := Wave.reset 5, ext := 0, lastFlip := none }

/-- Context 0 is open with a launch, and region 0 is its. -/
def launched (s : State) (started : Bool) : State :=
  withRegion (updCtx s 0 fun x => { x with opened := true, launch := some (launch started) }) fun r => { r with ctx := some 0, tadm := some 169000 }

theorem witness_TimingFaults :
    (withRegion (up 0) fun r => updStream r 0 fun st => { st with seg := some seg0 }).regions[(0 : RegionId)].streams[(0 : StreamId)].seg
      = some seg0 ∧
    (let s := withRegion (runs (up 0) 0) fun r => updStream r 0 fun st => { st with heldFrom := some 0 }
     s.regions[(0 : RegionId)].streams[(0 : StreamId)].heldFrom = some 0 ∧
       s.regions[(0 : RegionId)].streams[(0 : StreamId)].running = true) ∧
    (let s := launched (up 0) true
     s.regions[(0 : RegionId)].ctx = some 0 ∧ s.regions[(0 : RegionId)].tadm = some 169000 ∧
       s.ctxs[(0 : CtxId)].launch = some (launch true) ∧ (launch true).started = true ∧
       s.regions[(0 : RegionId)].streams[(2 : StreamId)].marked = false) ∧
    (withRegion (up 0) fun r => updStream r 2 fun st => { st with marked := true, ended := true }).regions[(0 : RegionId)].streams[(2 : StreamId)].marked
      = true := by
  decide +kernel

/-! ## Engines -/

/-- An operand side of one FP32 element of the scratchpad. -/
def side0 : Side :=
  { fmt := fFP32, src := 0, td := 0, sarr := false, sval := 0x3F800000, sdesc := 0, winId := 0, winSrc := 0, direct := false }

/-- A pass of one product. -/
def pass0 : PassOp :=
  { stream := 0, sig := some 3, f32c := false, a := side0, b := side0, m := 1, n := 1, k := 1, q := 0x3F800000, pre := 0, preTd := 0,
    dst := 0, tdd := 0, fmtOut := fFP32, sr := false, sat := false, fuse := 0, fuseTd := 0, capture := 0,
    more := false, cont := false, tri := 0, tid := 0 }

def passRun (ps : List PassOp) (feeding : Bool) (step : Nat) : PassRun :=
  { parts := ps, sa := 0x3F800000, sb := 0x3F800000, step := step, feeding := feeding, directA := false, directB := false, fetched := [], asked := [], retries := 0,
    dfSteps := 0, nonfin := 0, flags := 0, digest := 0 }

/-- Cluster 0 of region 0. -/
def cluster (s : State) : Cluster := s.regions[(0 : RegionId)].clusters[(0 : ClusterId)]

def withCluster (s : State) (f : Cluster → Cluster) : State := withRegion s fun r => updCluster r 0 f

/-- A pass whose last step is in, in bank 0. -/
def landed : State :=
  withCluster (up 0) fun cl => { updBank cl 0 (fun k => { k with phase := .landed, run := some (passRun [pass0] false 1) }) with nextBank := 0 }

def vec0 : VecOp :=
  { stream := 0, sig := some 4, vop := 1, i0 := some 0, i1 := none, i2 := none,
    o := some 0, mask := BitVec.allOnes 128, mp := none, k0 := 0, k1 := 0, k2 := 0, k3 := 0, sr := false,
    sat := false, lc := none, rdims := 0, rx := 5, tid := 0, aux := 0 }

def vecRun : VecRun := { op := vec0, rxVal := some 6, oor := 0, empty := 0, flags := 0, aflags := 0, retries := 0, release := [], ok := true, failed := false }

def mac0 : MacroOp :=
  { stream := 0, sig := some 5, mop := 4, bm := 1, da := 0, db := 0,
    dc := 0, dd := 0, de := 0, stage := 0, n := 1, r := 1, scm := false, scr := 0, cr := 0, beta := 0, omega := 0,
    init := false, lam := 0, dmode := 0, nmode := 0, taux := 0, pc := 0, start := 0, nc := 0, nw := 0, part := 0, ofmt := 0, rx := 7 }

def macRun : MacroRun :=
  { op := mac0, code := 0, nit := 0, cold := false, floored := 0, flags := 0, resid := 0, rxVal := some 8, failed := false, tiles := [] }

theorem witness_RetriesAreCharged :
    (let s := withRegion (up 0) fun r => { updStream r 0 (fun st => { st with seg := some seg0 }) with
        budget := Vector.replicate 3 { Budget.zero with lmax := 40 } }
     s.regions[(0 : RegionId)].streams[(0 : StreamId)].seg = some seg0 ∧ seg0.retries + 1 ≤ s.boot.cfg.rb ∧
       40 ≤ s.regions[(0 : RegionId)].budget[(0 : StreamId)].lmax) ∧ (1 : RegionId) ≠ 0 ∧
    (beatToken landed 0 = true ∧ (cluster landed).borrowed = false ∧ (cluster landed).banks[(cluster landed).nextBank].phase = .landed ∧
      (cluster landed).banks[(cluster landed).nextBank].run = some (passRun [pass0] false 1) ∧
      (passRun [pass0] false 1).parts.getLast? = some pass0 ∧ drainBank (cluster landed) = some 0) ∧
    (beatToken (up 0) 0 = true ∧ (cluster (withCluster (up 0) fun cl => { cl with vrun := some vecRun })).vrun = some vecRun ∧
      vecRun.failed = false) ∧
    (withRegion (up 0) fun r => { r with mrun := some macRun }).regions[(0 : RegionId)].mrun = some macRun ∧ macRun.failed = false := by
  decide +kernel

/-- A pass waits in the queue of cluster 0. -/
def queued : State := withCluster (up 0) fun cl => { cl with passQ := [pass0] }

theorem witness_PassesStart :
    (let e := engOpen queued 0 (BitVec.ofNat 8 0) 0 .off none []
     let run := passRun [pass0] false 0
     let f := feedResident pass0 (pass0.k + 1)
       { e := (sideScale (sideScale e side0 1).2 side0 1).2,
         cl := updBank { cluster queued with passQ := [], replay := openCapture (cluster queued).replay pass0, nextBank := 1 } 0
           fun k => { k with preloaded := false, preFlags := 0 },
         cells := (cluster queued).banks[(0 : Fin 2)].cells, run := run }
     beatToken queued 0 = true ∧ (cluster queued).passQ = pass0 :: [] ∧ startBank (cluster queued) pass0 = some 0 ∧
      (cluster queued).borrowed = false ∧ (sideScale e side0 1).1 = some run.sa ∧
      (sideScale (sideScale e side0 1).2 side0 1).1 = some run.sb ∧ (cluster queued).banks[(0 : Fin 2)].run = none ∧
      f.e.stop = none) := by
  decide +kernel

/-- A step of a pass waits for its operands; the region belongs to context 0. -/
def feeding : State :=
  withRegion (withCluster (up 0) fun cl =>
    { updBank cl 1 (fun k => { k with phase := .busy, run := some (passRun [pass0] true 0) }) with cur := some 1 })
    fun r => { r with ctx := some 0 }

/-- The same pass, whose operand A lies in a page of the context that a neighbour lends. -/
def feedingT2 : State :=
  let a : Side := { side0 with td := kWINDOW.setWidth 256 <<< 60, winSrc := kCONTEXT.setWidth 256 <<< 60 }
  updHbm (updCtx (withCluster feeding fun cl => updBank cl 1 fun k =>
        { k with run := some { passRun [{ pass0 with a := a }] true 0 with directA := true } }) 0
      fun x => { x with opened := true, pages := [(0, 3)] }) fun h =>
    { h with resids := [{ id := 3, owner := 0, loc := { tier := .t2, port := 1, frame := 9, lentTo := 0 }, ver := false, hostvis := false,
                          holds := 0, evicting := none, psn := false, mig := none, stripes := [] }] }

theorem witness_DirectFeeds :
    (let cl := cluster feeding
     beatToken feeding 0 = true ∧ cl.cur = some 1 ∧ cl.banks[(1 : Fin 2)].run = some (passRun [pass0] true 0) ∧
       (passRun [pass0] true 0).parts.getLast? = some pass0 ∧ feeding.regions[(0 : RegionId)].ctx = some 0 ∧
       (passRun [pass0] true 0).feeding = true ∧ t2Units feeding 0 (runDirect (passRun [pass0] true 0) pass0) = [] ∧
       waitsFor feeding (.feed 0 0) = false) ∧
    (∀ run, (cluster feedingT2).banks[(1 : Fin 2)].run = some run → ∀ p, run.parts.getLast? = some p →
      ((t2Units feedingT2 0 (runDirect run p)).filter fun u => !run.asked.contains u) ≠ []) := by
  refine ⟨by decide +kernel, ?_⟩
  intro run h
  cases h
  intro p h
  cases h
  decide +kernel

/-- The pass at the head of the queue has a preload. -/
def preloading : State := withCluster (up 0) fun cl => { cl with passQ := [{ pass0 with pre := 3, preTd := 0 }] }

theorem witness_PassesPreloadAndDrain :
    (let p : PassOp := { pass0 with pre := 3, preTd := 0 }
     let cl := cluster preloading
     beatToken preloading 0 = true ∧ nextFor cl 0 = some p ∧ cl.banks[(0 : Fin 2)].phase = .free ∧
       cl.banks[(0 : Fin 2)].preloaded = false ∧ p.pre ≠ 0 ∧ preloadReady cl 0 p = true ∧ cl.borrowed = false ∧
       (preCells (engOpen preloading 0 (BitVec.ofNat 8 0) 0 .off none []) cl p).2.2.stop = none) ∧
    (let run := passRun [pass0] false 1
     beatToken landed 0 = true ∧ drainBank (cluster landed) = some 0 ∧ (cluster landed).banks[(0 : Fin 2)].run = some run ∧
       nextFor (cluster landed) 0 = none ∧ pass0.dst ≠ 1 ∧ bankChecks (cluster landed).banks[(0 : Fin 2)] pass0 = true ∧
       (engFlush ((passCells pass0).foldl (fun d ij => drainCell d pass0 (cluster landed).banks[(0 : Fin 2)].cells ij.1 ij.2)
         { e := engOpen landed 0 (BitVec.ofNat 8 0) 0 .off none [], tile := [], run := run }).e).stop = none) := by
  decide +kernel

/-- A hold pass whose last step is in, in bank 0. -/
def holding : State :=
  withCluster landed fun cl => updBank cl 0 fun k => { k with run := some (passRun [{ pass0 with dst := 2 }] false 1) }

theorem witness_PassesComplete :
    let s := withCluster (up 0) fun cl => { cl with drained := [passRun [pass0] false 1] }
    (s.boot.cfg.lockEnable = false ∧ (cluster s).drained = passRun [pass0] false 1 :: [] ∧ (passRun [pass0] false 1).parts = [pass0]) ∧
      let p := { pass0 with dst := 2 }
      let k := (cluster holding).banks[(cluster holding).nextBank]
      holding.boot.cfg.lockEnable = false ∧ (cluster holding).drained = [] ∧ k.phase = .landed ∧ k.run = some (passRun [p] false 1) ∧
        p.dst = 2 ∧ bankChecks k p = true := by
  decide +kernel

theorem witness_VectorsRun :
    (let s := withCluster (up 0) fun cl => { cl with vq := [vec0] }
     let a := runVec { e := engOpen s 0 (BitVec.ofNat 8 0) 0 .off none [], cl := cluster s, v := vec0, oor := 0, empty := 0,
                       vf := if vecAlias vec0 then vfWriteAlias else 0, rx := none, ok := true }
     beatToken s 0 = true ∧ (cluster s).vrun = none ∧ (cluster s).vq = vec0 :: [] ∧ vecReady (cluster s) vec0 = true ∧
       holdModeOk (cluster s) vec0 = true ∧ (engFlush a.e).stop = none) ∧
    ((cluster (withCluster (up 0) fun cl => { cl with vrun := some vecRun })).vrun = some vecRun ∧ vecRun.failed = false ∧
      vecRun.ok = true) := by
  decide +kernel

/-- A macro at the head of the solver's queue, with its one cluster lent to it. -/
def macroReady : State :=
  withRegion (withCluster (up 0) fun cl => { cl with borrowed := true }) fun r => { r with mq := [mac0] }

theorem witness_MacrosStart :
    (let s := withRegion (up 0) fun r => { r with mq := [mac0] }
     beatToken s 0 = true ∧ s.regions[(0 : RegionId)].mrun = none ∧ s.regions[(0 : RegionId)].mq = mac0 :: [] ∧ mac0.bm.getLsbD 0 = true ∧
       borrowable (cluster s) = true) ∧
    (beatToken macroReady 0 = true ∧ (∀ c : ClusterId, mac0.bm.getLsbD c.val = true →
        macroReady.regions[(0 : RegionId)].clusters[c].borrowed = true) ∧ macroReady.regions[(0 : RegionId)].ctx = none ∧
      macroReady.regions[(0 : RegionId)].chans[(11 : ChanId)].run = none ∧ macroReady.regions[(0 : RegionId)].chans[(11 : ChanId)].q = [] ∧
      waitsFor macroReady (.solver 0) = false) := by
  decide +kernel

theorem witness_MacrosComplete :
    let s := withRegion (up 0) fun r => { r with mrun := some macRun }
    s.regions[(0 : RegionId)].mrun = some macRun ∧ macRun.failed = false ∧ waitsFor s (.solver 0) = false ∧ macRun.tiles = [] := by
  decide +kernel

/-! ## Channels, collectives, pages of other modules -/

/-- One element copied from the scratchpad to itself; a fill of window 0. -/
def copyOp : ChanOp := { sendOp with dop := dopDCOPY, ren := false }
def prefOp : ChanOp := { sendOp with dop := dopDPREF, ren := false, tdd := kWINDOW.setWidth 256 <<< 60 }

/-- Context 0 with page 0 in T3, and region 0 its. -/
def paged (s : State) : State :=
  withRegion (updHbm (updCtx s 0 fun x => { x with opened := true, pages := [(0, 3)] }) fun h =>
    { h with nextId := 4, resids := [{ id := 3, owner := 0, loc := { tier := .t3, port := 0, frame := 9, lentTo := 0 }, ver := false,
                                       hostvis := false, holds := 0, evicting := none, psn := false, mig := none, stripes := [] }] })
    fun r => { r with ctx := some 0, tcache := [(0, 0), (1, 0)] }

theorem witness_ChannelOperations :
    (let s := withRegion (up 0) fun r => updChan r 11 fun _ => { q := [copyOp], run := none, held := 0 }
     beatToken s 0 = true ∧ s.regions[(0 : RegionId)].chans[(11 : ChanId)].run = none ∧ s.regions[(0 : RegionId)].chans[(11 : ChanId)].q = copyOp :: [] ∧
       chanReady s 0 copyOp = true) ∧
    (∀ ph : ChanPhase, ph = .fetching ∨ ph = .moved →
      (inChan (up 0) 0 copyOp ph).regions[(0 : RegionId)].chans[(0 : ChanId)].run = some (chanRun copyOp ph)) ∧
    (chanRun copyOp .moved).phase = .moved ∧ (chanRun copyOp .fetching).phase = .fetching ∧
    waitsFor (inChan (up 0) 0 copyOp .moved) (chanWho 0 0) = false ∧ copyOp.dop = dopDCOPY ∧ (tdOf copyOp.tds).kind ≠ kTILEQ ∧
    (inChan (up 0) 0 prefOp .moved).regions[(0 : RegionId)].chans[(0 : ChanId)].run = some (chanRun prefOp .moved) ∧
    waitsFor (inChan (up 0) 0 prefOp .moved) (chanWho 0 0) = false ∧ prefOp.dop = dopDPREF ∧ (chanRun prefOp .moved).tiles = [] ∧
    (let s := inChan (up 0) 0 prefOp .fetching
     let run := chanRun prefOp .fetching
     s.regions[(0 : RegionId)].wins[(tdOf run.op.tdd).window].filled < fillReach s 0 0 run.op ∧
       (moveElems s 0 0 run s.regions[(0 : RegionId)].wins[(tdOf run.op.tdd).window].filled (fillReach s 0 0 run.op)).2.1 = none) := by
  refine ⟨by decide +kernel, ?_, by decide +kernel⟩
  intro ph h
  rcases h with rfl | rfl <;> decide +kernel

/-- A torus of two modules on each axis, this one at the origin. -/
def torus (s : State) : State := { s with boot := { s.boot with cfg := { s.boot.cfg with lx := 2, ly := 2, lz := 2, bz := 1, lend := 4 } } }

/-- A collective on axis X of one element, the sum of all members. -/
def collOp (a : AxisId) : ChanOp := { sendOp with dop := dopDCOLL, ren := false, axis := a }

def collRun (a : AxisId) : CollRun :=
  { g := 0, k := 2, axis := a, seq := 0, op := collOp a, elems := [1], exps := [], parts := [], left := 2, done := false }

def ringStep : CollStep := { cop := 0, wfmt := 0, h := 0, count := 2, gather := false, chunk := 0, upper := false, elems := [1], exps := [] }

def collFlit : Flit := flit (mkHdr tyCOLL 5 true 0 0 0 0 0) []

theorem witness_CollectivesRun :
    (let s := inChan (torus (up 0)) 2 (collOp 0) .waiting
     collChan s.regions[(0 : RegionId)] 0 = some (2, chanRun (collOp 0) .waiting) ∧ 2 ≤ collN s 0 ∧ s.fab.early = [] ∧
       (collRead (engOpen s 0 0xFF 0 .off none []) (collOp 0)).2.2.stop = none) ∧
    (let s := updFab (torus (up 0)) fun f => { f with colls := [collRun 0] }
     linkOfAxis s 0 0 (.port 1) = true ∧ accepts s (.port 1) collFlit ∧ hType collFlit.hdr = tyCOLL ∧ (hRreg collFlit.hdr).toNat = 0 ∧
       dropsTraffic s = false ∧ hLast (flit (mkHdr tyCOLL 5 false 0 0 0 0 0) []).hdr = false ∧
       (gatherStep (arrived s (.port 1) collFlit) 0 0 (.port 1) collFlit ringStep).2.isSome = true ∧
       findColl (gatherStep (arrived s (.port 1) collFlit) 0 0 (.port 1) collFlit ringStep).1 0 0 (hTag collFlit.hdr).toNat
         = some (collRun 0) ∧
       ((gatherStep (arrived s (.port 1) collFlit) 0 0 (.port 1) collFlit ringStep).2.map (stepMatches (collRun 0) (collN s 0)))
         = some false) ∧
    (let s := updEnd (updFab (up 0) fun f => { f with colls := [collRun 3] }) (.bridge 1 0) fun q =>
       { q with unacked := [{ waiting tyCOLL 5 with hdr := collFlit.hdr, coll := some ringStep }] }
     linkOfAxis s 0 3 (.bridge 1 0) = true ∧ accepts s (.bridge 1 0) collFlit ∧
       (gatherStep (arrived s (.bridge 1 0) collFlit) 0 3 (.bridge 1 0) collFlit ringStep).2.isSome = true ∧
       findColl (gatherStep (arrived s (.bridge 1 0) collFlit) 0 3 (.bridge 1 0) collFlit ringStep).1 0 3 (hTag collFlit.hdr).toNat
         = some (collRun 3)) := by
  refine ⟨?_, ⟨?_, ⟨?_, ?_, ?_, ?_⟩, ?_⟩, ?_, ⟨?_, ?_, ?_, ?_⟩, ?_⟩ <;> decide +kernel

/-- Frame 5 is lent to context 0 over port 0. -/
def lender : State := updHbm (torus (up 0)) fun h => { h with lent := [{ frame := 5, port := 0, ctx := 0 }] }

/-- A request is accepted and its last flit is here. -/
def served (s : State) (f : Flit) (l : List Byte) : Prop :=
  accepts s (.port 0) f ∧ hType f.hdr = tyPAGE ∧ (gatherPage (arrived s (.port 0) f) 0 f).2 = some l ∧ (gatherPage (arrived s (.port 0) f) 0 f).1.hardFault = false

theorem witness_PageRequestsServed_lend :
    let l := lendBlock 1 0 0
    let w := (gatherPage (arrived lender (.port 0) (pageFlit pkLendReq l)) 0 (pageFlit pkLendReq l)).1
    served lender (pageFlit pkLendReq l) l ∧ lendBlockOk l = true ∧ lendMirror l = false ∧ lentPages w + lendPages l ≤ w.boot.cfg.lend ∧
      lendBlockOk (lendBlock 4 0 0) = true ∧ w.boot.cfg.lend < lentPages w + lendPages (lendBlock 4 0 0) := by
  refine ⟨⟨⟨?_, ?_, ?_, ?_⟩, ?_⟩, ?_⟩ <;> decide +kernel

/-- A frame can be lent, whichever it is. -/
theorem lendFrames_one (s : State) (h : usedFrames s = []) : ∃ fs t, lendFrames 0 0 1 s = some (fs, t) := by
  simp [lendFrames, allocFrame, findFree, h]

theorem witness_PageRequestsServed_frames : ∃ fs t, lendFrames 0 0 1 (up 0) = some (fs, t) := lendFrames_one _ (by decide +kernel)

theorem witness_PageRequestsServed_free :
    let l := lendBlock 1 0 0 ++ leBytes 4 5
    let m := lendBlock 1 0 0 ++ leBytes 4 6
    served lender (pageFlit pkLendFree l) l ∧ lendBlockOk l = true ∧ lendMirror l = false ∧
      (∀ q ∈ frameList l (lendPages l), ∃ x ∈ lender.hbm.lent, x.port = 0 ∧ x.ctx = 0 ∧ x.frame = q) ∧
      ∃ q ∈ frameList m (lendPages m), ∀ x ∈ lender.hbm.lent, ¬(x.port = 0 ∧ x.ctx = 0 ∧ x.frame = q) := by
  refine ⟨⟨⟨?_, ?_, ?_, ?_⟩, ?_⟩, ?_⟩ <;> decide +kernel

/-- 64 bytes at the start of a frame. -/
def inFrame (f : Nat) : List Byte := addrBlock (f * frameBytes) 64 0

theorem witness_PageRequestsServed_data :
    served lender (pageFlit pkRdReq (inFrame 5)) (inFrame 5) ∧ addrBlockOk (inFrame 5) false = true ∧
      blockPieces lender 0 0 (inFrame 5) = some [(5 * frameBytes, 64)] ∧ blockPieces lender 0 0 (inFrame 6) = none ∧ lender.hbm.mdata = [] ∧
      (let l := inFrame 5 ++ List.replicate 64 1
       served lender (pageFlit pkWrReq l) l ∧ addrBlockOk l true = true ∧ adMirror l = false ∧ (l.drop 16).length = adLen l ∧
         adHost l = false ∧ (writePieces lender [(5 * frameBytes, 64)] (l.drop 16)).2 = true) := by
  refine ⟨⟨⟨?_, ?_, ?_, ?_⟩, ?_⟩, ?_, ?_, ?_, ?_, ⟨⟨?_, ?_, ?_, ?_⟩, ?_⟩, ?_⟩ <;> decide +kernel

/-- Context 0 has a replica range of one tile, with its digest area in page 0. -/
def replica : State :=
  updCtx (paged (torus (up 0))) 0 fun x => { x with dmap := [{ lid := 1, kind := 2, fmt := 0, base := frameBytes, len := frameBytes }] }

def tileReqOf (lid : Nat) : List Byte := leBytes 2 lid ++ [0, 0] ++ leBytes 4 0 ++ leBytes 4 1 ++ leBytes 4 0

theorem witness_PageRequestsServed_tiles :
    served replica (pageFlit pkTileReq (tileReqOf 1)) (tileReqOf 1) ∧ (tileEntries replica 0 (tileReqOf 1)).isSome = true ∧
      tileEntries replica 0 (tileReqOf 2) = none ∧ replica.hbm.mdata = [] := by
  refine ⟨⟨⟨?_, ?_, ?_, ?_⟩, ?_⟩, ?_⟩ <;> decide +kernel

/-- The same module in HARD_FAULT. -/
def hard (s : State) : State := { s with hardFault := true }

/-- A descriptor: an opcode and little-endian fields (byte, length, value), with TAG 9 and no deadline. -/
def desc (c : CtxId) (opc : Nat) (l : List (Nat × Nat × Nat)) : Desc :=
  ([(0, 1, opc), (2, 1, c.val), (4, 4, 9), (16, 8, noDeadline)] ++ l).foldl
    (fun (d : Desc) (e : Nat × Nat × Nat) => d ||| (BitVec.ofNat 1024 e.2.2 <<< (8 * e.1))) 0

theorem witness_HardFaultLasts :
    (let f := pageFlit pkPassRec []
     accepts (hard (up 0)) (.port 0) f ∧ hType f.hdr = tyPAGE ∧ (gatherPage (arrived (hard (up 0)) (.port 0) f) 0 f).2 = some [] ∧
       (gatherPage (arrived (hard (up 0)) (.port 0) f) 0 f).1.hardFault = true ∧ hPkind f.hdr = pkPassRec) ∧
    (let d := desc 3 opOPEN []
     reservedOk d = true ∧ dNat d 2 1 = (3 : CtxId).val ∧ dOpc d ≠ 0x0C ∧ dOpc d ≠ 0x0D ∧ dOpc d ≠ 0x0E) := by
  refine ⟨⟨⟨?_, ?_, ?_, ?_⟩, ?_⟩, ?_⟩ <;> decide +kernel

/-- A pass record for region 0, cluster 0, stream 0, and an own one of the same pass. -/
def passBytes : List Byte := List.replicate 32 0
def ownRec : PassRecord := { step := 0, region := 0, cluster := 0, stream := 0, seq := 0, digest := 0, atCount := 0 }

theorem witness_DataOfOtherModules :
    (∀ e ∈ ([(pkLendAns, Ask.lend false), (pkRdData, Ask.read), (pkTileData, Ask.tile)] : List (BitVec 5 × Ask)),
      (accepts (withTxn (up 0) e.2) (.port 0) (pageFlit e.1 [1]) ∧ hType (pageFlit e.1 [1]).hdr = tyPAGE) ∧
        findTxn (withTxn (up 0) e.2) (pageFlit e.1 [1]).hdr = some (txn e.2) ∧ hPkind (pageFlit e.1 [1]).hdr = e.1) ∧
    hLast (flit (mkHdr tyPAGE 6 false 7 1 (pageMid pkTileData 0) 1 0) [1]).hdr = false ∧
    (served (up 0) (pageFlit pkDigestSet (leBytes 8 5)) (leBytes 8 5) ∧ stepComplete (up 0) 0 (parseDigestSet (leBytes 8 5)).step = false ∧
      stepComplete (updCtx (up 0) 0 fun x => { x with launch := some { launch true with wave := { Wave.reset 5 with tOwn := some 0 } } }) 0
        (parseDigestSet (leBytes 8 5)).step = true) ∧
    (served (up 0) (pageFlit pkPassRec passBytes) passBytes ∧ (up 0).ownRecs.find? (samePass (parsePassRec passBytes 0)) = none ∧
      ({ up 0 with ownRecs := [ownRec] } : State).ownRecs.find? (samePass (parsePassRec passBytes 0)) = some ownRec ∧
      ownRec.digest = (parsePassRec passBytes 0).digest) ∧
    (ownRec.region.toNat = (0 : RegionId).val ∧ ownRec.cluster.toNat = (0 : ClusterId).val ∧ ownRec.stream.toNat = (0 : StreamId).val ∧
      ownRec.atCount + stallNs (up 10000000001) < now (up 10000000001)) := by
  refine ⟨?_, by decide +kernel, ⟨⟨⟨?_, ?_, ?_, ?_⟩, ?_⟩, ?_⟩, ⟨⟨⟨?_, ?_, ?_, ?_⟩, ?_⟩, ?_⟩, by decide +kernel⟩
  · intro e h
    simp only [List.mem_cons, List.not_mem_nil, or_false] at h
    rcases h with rfl | rfl | rfl <;> refine ⟨⟨⟨?_, ?_, ?_, ?_⟩, ?_⟩, ?_⟩ <;> decide +kernel
  all_goals decide +kernel

/-! ## The count and the steps -/

/-- A module that has not aligned. -/
def unaligned (s : State) : State := { s with cnt := { s.cnt with aligned := false } }

theorem witness_CountRows :
    ((up 0).boot.phase ≠ .off ∧ (up 0).boot.phase ≠ .starting ∧ (up 0).cnt.corr = 0 ∧ (up 0).cnt.ahead = 0 ∧
      2 ≤ ({ up 0 with cnt := { (up 0).cnt with ahead := 3 } } : State).cnt.ahead) ∧
    ((unaligned (up 0)).cnt.count ≤ 4 + BitVec.ofNat 64 100 ∧ (4 : W64) + BitVec.ofNat 64 100 < (unaligned (up 105)).cnt.count ∧
      (unaligned (up 0)).cnt.on = true ∧ (unaligned (up 0)).cnt.aligned = false ∧ alignPort (unaligned (up 0)) 0x20 = some 5 ∧
      alignPort (unaligned (up 0)) 0 = none ∧ parentPort (unaligned (up 0)).boot.cfg = none) ∧
    (({ up 0 with cnt := { (up 0).cnt with toPort := some 0 } } : State).cnt.toPort ≠ none ∧ 4000 < (4001 : Int).natAbs ∧
      (4000 : Int).natAbs ≤ 4000 ∧ (0 : Int) < 1 ∧ (0 : Int) ≤ 0 ∧ elapsed (up 999999) < (up 999999).cnt.measAt + 1000000 ∧
      (up 1000000).cnt.measAt + 1000000 ≤ elapsed (up 1000000)) ∧
    ((∃ t, exec (.countTick 7) (up 0) = .next t) ∧ now (up 0) + 2 * 7 < 2 ^ 64 ∧ ∀ m, Instr.countTick 7 ≠ .inputDisconnect m) := by
  refine ⟨by decide +kernel, by decide +kernel, by decide +kernel, ⟨_, rfl⟩, by decide +kernel, nofun⟩

theorem witness_ReferenceLoss : (up 0).boot.phase = .ready ∧ 1000 < 1001 := by decide +kernel

theorem witness_StepsStart :
    let s := launched (up 0) false
    s.ctxs[(0 : CtxId)].launch = some (launch false) ∧ (launch false).started = false ∧ isReady s = true ∧ (launch false).due ≤ now s ∧
      s.power.under = false ∧ s.regions[(1 : RegionId)].ctx ≠ some 0 ∧ s.regions[(0 : RegionId)].ctx = some 0 ∧ (1 : CtxId) ≠ 0 := by
  decide +kernel

/-- The launch with a wave: this module has voted, and `phase` axes are done. -/
def waved (phase : Nat) (ok : Bool) : Launch :=
  { launch true with wave := { Wave.reset 5 with tOwn := some 0, ownOk := true, phase := phase, acc := { (Wave.reset 5).acc with ok := ok } } }

def inWave (s : State) (l : Launch) : State := updCtx s 0 fun x => { x with opened := true, launch := some l }

/-- A VOTE for step `n` on axis X with one hop to go. -/
def voteFlit (n : Nat) : Flit := flit (mkHdr tyCTRL 7 true 0 0 (ctrlMid ckVote 0 false 0) 40 (ctrlLow 1)) (padTo 40 (leBytes 8 n))

/-- A ring of four on axis X. -/
def ring4 (s : State) : State := { s with boot := { s.boot with cfg := { s.boot.cfg with lx := 4 } } }

theorem witness_CommitWave :
    (let s := withRegion (launched (up 0) true) fun r => { r with streams := Vector.ofFn fun i => { r.streams[i] with marked := true } }
     s.ctxs[(0 : CtxId)].launch = some (launch true) ∧ (launch true).wave.tOwn = none ∧ stepMarked s 0 = true ∧ s.hardFault = false ∧
       (s.digestSets.find? fun e => e.1 == (0 : CtxId)) = none) ∧
    (let s := inWave (ring4 (up 0)) (waved 0 true)
     let m := parseVote 0 (voteFlit 5)
     accepts s (.port 0) (voteFlit 5) ∧ isCtrl ckVote (voteFlit 5).hdr = true ∧ s.ctxs[hCctx (voteFlit 5).hdr].launch = some (waved 0 true) ∧
       m.vote.step = BitVec.ofNat 64 (waved 0 true).step ∧ (parseVote 0 (voteFlit 6)).vote.step ≠ BitVec.ofNat 64 (waved 0 true).step ∧
       (waved 0 true).wave.tOwn ≠ none ∧ m.axis.val = (waved 0 true).wave.phase ∧ m.hops ≤ 1 ∧
       (waved 0 true).wave.got + 1 < axisLen s m.axis - 1 ∧ m.axis.val ≠ (waved 1 true).wave.phase) ∧
    ((waved 2 true).wave.tOwn = some 0 ∧ (waved 2 true).wave.phase < 3) ∧
    (let s := inWave (up 0) (waved 3 false)
     finishedWave s 0 = some (waved 3 false, (waved 3 false).wave) ∧ (waved 3 false).wave.acc.ok = false ∧
       (waved 3 false).wave.ownOk = true ∧ waveBound s (waved 3 false).wave ≤ now s) := by
  refine ⟨?_, ⟨⟨?_, ?_, ?_, ?_⟩, ?_⟩, ?_⟩ <;> decide +kernel

/-- An ABORT of the step after the running one. -/
def laterAbort : AbortInfo :=
  { cause := 1, origin := 0, acount := 0, astep := 6, all := false, own := false, hard := false, seq := none, lost := 0 }

theorem witness_StepsFlip :
    (∀ l ∈ [waved 3 true, { waved 3 true with n := 1 }], ∀ ws ∈ [[], [laterAbort]],
      let s := updCtx (inWave (up 4000) l) 0 fun x => { x with waits := ws }
      finishedWave s 0 = some (l, l.wave) ∧ l.wave.acc.ok = true ∧ flipCount s l.wave ≤ now s ∧ s.hardFault = false ∧
        s.ctxs[(0 : CtxId)].waits = ws) ∧
    (waved 3 true).step + 1 < (waved 3 true).s0 + (waved 3 true).n ∧ (waved 3 true).s0 + 1 ≤ (waved 3 true).step + 1 ∧
    [laterAbort] ≠ [] ∧ finishedWave (up 0) 0 = none ∧
    finishedWave (inWave (up 0) (waved 3 false)) 0 = some (waved 3 false, (waved 3 false).wave) ∧ (waved 3 false).wave.acc.ok = false ∧
    now (inWave (up 3999) (waved 3 true)) < flipCount (inWave (up 3999) (waved 3 true)) (waved 3 true).wave := by
  refine ⟨?_, by decide +kernel⟩
  intro l h ws h2
  simp only [List.mem_cons, List.not_mem_nil, or_false] at h h2
  rcases h with rfl | rfl <;> rcases h2 with rfl | rfl <;> decide +kernel

/-- A halt with one fault lost. -/
def halt1 : Halt :=
  { atCount := 0, faults := 17, lost := 1, lastAt := 0, lastCause := 1, lastOrigin := 0, lastCount := 0, lastStep := 0, lastAll := false,
    reported := false }

/-- An ABORT of a step, of context 0. -/
def abortOf (step : Nat) : Flit :=
  flit (mkHdr tyCTRL 7 true 0 0 (ctrlMid ckAbort 0 false 0) 32 (ctrlLow 0))
    (List.replicate 16 0 ++ leBytes 8 step ++ List.replicate 8 0)

def abortFlit : Flit := abortOf 0

theorem witness_AbortsSpread :
    (accepts (up 0) (.port 0) abortFlit ∧ isCtrl ckAbort abortFlit.hdr = true ∧
      seenAbort (arrived (up 0) (.port 0) abortFlit) (parseAbort abortFlit) (hCctx abortFlit.hdr) = false ∧
      seenAbort (noteSeen (up 1000000) 0 0 0) (parseAbort abortFlit) 0 = true ∧
      (let s := launched (up 0) true
       s.ctxs[hCctx (abortOf 6).hdr].launch = some (launch true) ∧ (launch true).started = true ∧
         (parseAbort (abortOf 6)).astep = BitVec.ofNat 64 ((launch true).step + 1) ∧ (parseAbort (abortOf 6)).all = false ∧
         s.hardFault = false)) ∧
    (updCtx (up 1000000) 0 fun x => { x with halt := some halt1 }).ctxs[(0 : CtxId)].halt = some halt1 ∧ halt1.lost ≠ 0 ∧
    halt1.reported = false ∧ halt1.lastAt + 1000000 ≤ now (up 1000000) := by
  refine ⟨⟨⟨?_, ?_, ?_, ?_⟩, ?_⟩, ?_⟩ <;> decide +kernel

theorem witness_FaultHaltsItsContext :
    let s := launched (up 0) true
    busy s 0 = true ∧ s.ctxs[(0 : CtxId)].halt = none ∧ s.hardFault = false ∧ restoringNow s = false ∧ s.regions[(0 : RegionId)].ctx = some 0 ∧
      s.regions[(1 : RegionId)].ctx ≠ some 0 := by
  decide +kernel

/-! ## Monitors, stores, pages -/

theorem witness_MonitorsAndRails :
    (let s : State := { up 0 with power := { (up 0).power with fabricOn := true } }
     s.boot.phase = .ready ∧ domainOn s (319 : Fin 363).val = true ∧ domainOn s (0 : Fin 363).val = true) ∧
      running (up 0) = true := by
  decide +kernel

/-- A page of T3 that comes to T1, one whose eviction waits, and the CORRECTED record of SEQ 4. -/
def moving : State := updHbm (up 0) fun h => { h with resids := [
  { id := 3, owner := 0, loc := { tier := .t3, port := 0, frame := 9, lentTo := 0 }, ver := false, hostvis := false, holds := 0,
    evicting := none, psn := false, mig := some { dst := { tier := .t1, port := 0, frame := 5, lentTo := 0 }, moved := [], got := 0, late := [] },
    stripes := [] }] }

def leaving : State := updHbm (up 0) fun h => { h with resids := [
  { id := 3, owner := 0, loc := { tier := .t1, port := 0, frame := 5, lentTo := 0 }, ver := false, hostvis := false, holds := 0,
    evicting := some { tier := .t3, port := 0, frame := 9, lentTo := 0 }, psn := false, mig := none, stripes := [] }] }

def corrected (co : Bool) (s : State) : State :=
  { s with scree := { s.scree with slots := (s.scree.slots.set 0 (some { blankRec s with cls := clCorrected, seq := 4, stamp := 0, coalesced := co })),
                                   windows := [4] } }

theorem witness_StoresAreScrubbed :
    (withRegion (up 0) fun r => { r with writeBacks := [(.scratch, 3)] }).regions[(0 : RegionId)].writeBacks = [(.scratch, 3)] ∧
    (updHbm (up 0) fun h => { h with writeBacks := [7] }).hbm.writeBacks = [7] ∧
    (up 0).boot.phase = .ready ∧ ovGet (up 0).hbm.mdata ((3 : DieId).val * dieWords + (up 0).hbm.mothPos[(3 : DieId)]) = none ∧
    (enabled (up 0) 63 = true ∧ (up 0).regions[(63 : RegionId)].scratch.chk = [] ∧ (up 0).regions[(63 : RegionId)].imem.chk = [] ∧
      (up 0).regions[(63 : RegionId)].sdata.chk = []) ∧
    (∀ e ∈ [(true, 1000000), (false, 1000000), (false, 999999)],
      let s := corrected e.1 (up e.2)
      s.scree.windows.contains 4 = true ∧ ∃ r : Rec,
        s.scree.slots.find? (fun e => match e with | some r => r.cls == clCorrected && r.seq == 4 | none => false) = some (some r) ∧
        r.coalesced = e.1 ∧ r.stamp.toNat + 1000000 = 1000000 ∧ now s = e.2) := by
  refine ⟨by decide +kernel, by decide +kernel, by decide +kernel, by decide +kernel, by decide +kernel, ?_⟩
  intro e h
  simp only [List.mem_cons, List.not_mem_nil, or_false] at h
  rcases h with rfl | rfl | rfl <;> refine ⟨by decide +kernel, _, rfl, ?_, ?_, ?_⟩ <;> decide +kernel

/-- A request of the Z+ neighbour for its mirror. -/
def rebuildFlit : Flit := flit (mkHdr tyCTRL 7 true 0 0 (ctrlMid ckRebuild 0 false 0) 8 (ctrlLow 0)) (leBytes 8 1)

theorem witness_PagesMove :
    (∃ r m, residById moving.hbm 3 = some r ∧ r.mig = some m ∧ moving.hardFault = false ∧ r.loc.tier = .t3 ∧ m.dst.tier = .t1) ∧
    accessed moving 3 = false ∧ accessed (updFab (updCtx moving 0 fun x => { x with pages := [(0, 3)] }) fun f => { f with txns := [txn .read] }) 3 = true ∧
    (∃ r dst, residById leaving.hbm 3 = some r ∧ r.evicting = some dst ∧ leaving.hardFault = false ∧ pageBusy leaving = false ∧
      r.holds = 0 ∧ (mappers leaving 3).all (fun c => !busy leaving c) = true) ∧
    (∀ s ∈ [up 0, launched (up 0) true], accepts s (.port 4) rebuildFlit ∧ isCtrl ckRebuild rebuildFlit.hdr = true ∧
      (s.hbm.rebuild[hCctx rebuildFlit.hdr]).isSome = false ∧ s.ports[(4 : PortId)].held[(7 : VcId)].contains rebuildFlit = false ∧
      s.hardFault = false) ∧
    busy (up 0) (hCctx rebuildFlit.hdr) = false ∧ busy (launched (up 0) true) (hCctx rebuildFlit.hdr) = true := by
  refine ⟨⟨_, _, rfl, rfl, ?_, ?_, ?_⟩, ?_, ?_, ⟨_, _, rfl, rfl, ?_, ?_, ?_, ?_⟩, ?_, by decide +kernel, by decide +kernel⟩
  case refine_10 =>
    intro s h
    simp only [List.mem_cons, List.not_mem_nil, or_false] at h
    rcases h with rfl | rfl <;> refine ⟨⟨?_, ?_, ?_, ?_⟩, ?_⟩ <;> decide +kernel
  all_goals decide +kernel

/-! ## Host commands -/

/-- The host has put one descriptor into a ring. -/
def offer (s : State) (c : CtxId) (d : Desc) : State := withRing s c fun r => { r with slots := [(0, d)], tail := 1 }

/-- Offered, with no deadline. -/
def offers (s : State) (c : CtxId) (opc : Nat) (d : Desc) : Bool :=
  headDesc s c == some d && dOpc d == opc && (commonReject s c d).isNone && dDeadline d == noDeadline

theorem offered_of {s : State} {c : CtxId} {opc : Nat} {d : Desc} (h : offers s c opc d = true) :
    offered s c opc d ∧ ∀ n, inTime s d n := by
  simp only [offers, Bool.and_eq_true, beq_iff_eq, Option.isNone_iff_eq_none] at h
  exact ⟨⟨h.1.1.1, h.1.1.2, h.1.2⟩, fun n => .inl h.2⟩

/-- Context 3 open, and the descriptor in its ring. -/
def opened (s : State) : State := updCtx s 3 fun x => { x with opened := true }

theorem witness_AcceptanceAndRejection :
    (∀ e ∈ [(opCFG, [(32, 4, 256)]), (opTEST, [(24, 1, 1)]), (opTEST, []), (opDEBUG, []), (opOWNER, [])],
      let d := desc 3 e.1 e.2
      let s := offer (up 0) 3 d
      headDesc s 3 = some d ∧ reservedOk d = true ∧ dNat d 2 1 = (3 : CtxId).val ∧ s.hardFault = false ∧ s.presence.isOpen = false ∧
        dOpc d = e.1) ∧
    (let d := desc 3 opOPEN []
     (offer (up 0) 3 d).host.rings[(3 : CtxId)].msgs.length < 256) ∧
    (let d := desc 3 opOPEN [] &&& ~~~((1 : Desc) <<< 191)
     headDesc (offer (up (2 ^ 63)) 3 d) 3 = some d ∧ dOpc d = opOPEN ∧ commonReject (offer (up (2 ^ 63)) 3 d) 3 d = none ∧
       (offer (up (2 ^ 63)) 3 d).ctxs[(3 : CtxId)].opened = false ∧ dDeadline d ≠ noDeadline ∧
       ¬(now (offer (up (2 ^ 63)) 3 d) + 50000 ≤ dDeadline d)) := by
  decide +kernel

/-- A record that awaits its acknowledgement. -/
def recorded (s : State) : State :=
  { s with scree := { s.scree with slots := s.scree.slots.set 0 (some { blankRec s with seq := 4, acked := false }) } }

theorem witness_ContextCommands :
    (∀ e ∈ [(opOPEN, [], up 0), (opCLOSE, [], opened (up 0)), (opSEEDS, [], opened (up 0)), (opABORT, [], up 0),
        (opABORT, [(24, 1, 1)], up 0), (opROLLBACK, [], updCtx (opened (up 0)) 3 fun x => { x with priorValid := true }),
        (opDEBUG, [], { up 0 with presence := { isOpen := true, byJumper := true, till := 0 } }),
        (opTEST, [(24, 1, 1), (25, 1, 63), (28, 4, 5)], { up 0 with presence := { isOpen := true, byJumper := true, till := 0 } }),
        (opTEST, [(24, 1, 0)], { up 0 with presence := { isOpen := true, byJumper := true, till := 0 } }),
        (opACK, [(24, 2, 4)], recorded (up 0))],
      let d := desc 3 e.1 e.2.1
      offers (offer e.2.2 3 d) 3 e.1 d = true ∧ (offer e.2.2 3 d).ctxs[(3 : CtxId)].pages = [] ∧ busy (offer e.2.2 3 d) 3 = false ∧
        anyBusy (offer e.2.2 3 d) = false ∧ pageBusy (offer e.2.2 3 d) = false ∧ e.2.2.pageQ = [] ∧ e.2.2.test = none) ∧
    (up 0).ctxs[(3 : CtxId)].opened = false ∧ (opened (up 0)).ctxs[(3 : CtxId)].opened = true ∧
    dNat (desc 3 opABORT []) 24 1 = 0 ∧ dNat (desc 3 opABORT [(24, 1, 1)]) 24 1 = 1 ∧
    frameTaken (up 0) (tmFrame (desc 3 opTEST [(24, 1, 1), (25, 1, 63), (28, 4, 5)])) = false ∧
    (recorded (up 0)).scree.slots.any (ackable ((desc 3 opACK [(24, 2, 4)]).extractLsb' 192 16)) = true := by
  decide +kernel

/-- The identity point of Ed448, encoded (RFC 8032, 5.2.2). -/
def identityKey : List Byte := 1 :: List.replicate 56 0

/-- A configuration image with the defaults of Table 16.8, one module, signed under the identity point. -/
def cfgImage : List Byte :=
  let entry (i off len : Nat) : List Byte := leBytes 2 (i + 1) ++ [0, 0] ++ leBytes 4 off ++ leBytes 4 len ++ leBytes 4 0
  let head := [0x43, 0x48, 0x53, 0x4B] ++ leBytes 2 1 ++ leBytes 2 0x100 ++ leBytes 4 1280 ++ leBytes 4 0 ++ leBytes 4 960 ++ leBytes 2 0 ++
    leBytes 2 9 ++ List.replicate 40 0
  let table := entry 0 256 128 ++ (entry 1 384 64 ++ entry 2 448 64 ++ entry 3 512 64 ++ entry 4 576 128 ++ entry 5 704 64 ++
    entry 6 768 64 ++ entry 7 832 64 ++ entry 8 896 64) ++ List.replicate 48 0
  let boot := padTo 128 (leBytes 4 0 ++ leBytes 4 64 ++ leBytes 4 0)
  let cal := padTo 64 (leBytes 4 0x3A9D4952 ++ List.replicate 6 5)
  let topo := padTo 64 [0, 0, 0, 1, 1, 1, 0, 0, 0, 0xFF, 0xFF, 0xFF]
  let power := padTo 64 (leBytes 2 8000 ++ [180, 40] ++ leBytes 2 20)
  let quotas := padTo 128 (List.replicate 52 0 ++ [4, 56, 0, 0] ++ leBytes 4 4000 ++ List.replicate 12 8)
  let timing := padTo 64 ([4, 2, 4, 1, 2, 16, 2, 0] ++ leBytes 4 10000)
  let integrity := padTo 64 ([24, 0] ++ leBytes 2 1)
  head ++ table ++ boot ++ cal ++ topo ++ power ++ quotas ++ timing ++ integrity ++ List.replicate 128 0 ++
    (padTo 64 identityKey ++ padTo 256 identityKey)

theorem edMulFrom_zero (m k : Nat) : edMulFrom m k edZero edZero = edZero := by
  induction m generalizing k with
  | zero => rfl
  | succ m ih =>
    have h : edAdd edZero edZero = edZero := by decide +kernel
    simp only [edMulFrom, h, ite_self, ih]

theorem edVerify_identity (ctx msg : List Byte) : edVerify identityKey ctx msg (padTo 114 identityKey) = true := by
  have h : edDecode identityKey = some edZero := by decide +kernel
  have h2 : edDecode ((padTo 114 identityKey).take 57) = some edZero := by decide +kernel
  simp only [edVerify, h, h2]
  have h3 : ∀ k, edMul 4 (edMul k edZero) = edZero := fun k => by simp only [edMul, edMulFrom_zero]
  rw [h3]
  decide +kernel

theorem leBytes_leNat (l : List Byte) : leBytes l.length (leNat l) = l := by
  induction l with
  | nil => rfl
  | cons b t ih =>
    have h : (b.toNat + 256 * leNat t) / 256 = leNat t := by have := b.isLt; omega
    simp only [List.length_cons, leBytes, leNat, h, ih]
    congr 1
    apply BitVec.eq_of_toNat_eq
    have := b.isLt
    simp only [BitVec.toNat_ofNat]
    omega

theorem leNat_lt (l : List Byte) : leNat l < 256 ^ l.length := by
  induction l with
  | nil => decide
  | cons b t ih =>
    have := b.isLt
    simp only [leNat, List.length_cons, Nat.pow_succ]
    omega

theorem vendorHash_ok : leBytes 64 (BitVec.ofNat 512 (leNat (shake256 identityKey 64))).toNat = shake256 identityKey 64 := by
  have h : (shake256 identityKey 64).length = 64 := by decide +kernel
  have h2 := leNat_lt (shake256 identityKey 64)
  rw [h] at h2
  rw [BitVec.toNat_ofNat, Nat.mod_eq_of_lt ((show (256 : Nat) ^ 64 = 2 ^ 512 by decide +kernel) ▸ h2)]
  have h3 := leBytes_leNat (shake256 identityKey 64)
  rwa [h] at h3

def fused (s : State) : State :=
  { s with fuses := { s.fuses with romVer := 0, vendorHash := BitVec.ofNat 512 (leNat (shake256 identityKey 64)) } }

theorem cfgImage_ok : imageReason (fused (up 0)).fuses none none cfgImage 1280 = none := by
  have hv : vendorOk (fused (up 0)).fuses cfgImage = true := by
    have h1 : sigBytes cfgImage 0 57 = identityKey := by decide +kernel
    have h2 : sigBytes cfgImage 64 114 = padTo 114 identityKey := by decide +kernel
    simp only [vendorOk, h1, h2, edVerify_identity, fused, vendorHash_ok, beq_self_eq_true, Bool.and_self]
  have h : imageReason (fused (up 0)).fuses none none cfgImage 1280 =
      if !vendorOk (fused (up 0)).fuses cfgImage then some rsVendor else none := by
    have e1 : headerOk cfgImage 1280 = true := by decide +kernel
    have e2 : tableOk cfgImage = true := by decide +kernel
    have e3 : ¬((fused (up 0)).fuses.romVer.toNat < sliceNat cfgImage 20 2) := by decide +kernel
    have e4 : ownerOk none none cfgImage = true := by decide +kernel
    have e5 : (rangesOk cfgImage (imgCfg cfgImage) && reservedZero cfgImage && crossOk (imgCfg cfgImage)) = true := by decide +kernel
    simp [imageReason, e1, e2, e3, e4, e5]
  simp [h, hv]

/-! A program image for 56 regions. One record serves as a region entry with 64 bytes of code and one of data at 0, as a budget of
one segment with L_max 64, and as an empty digest map: its parts lie on each other. -/

def progRecord : List Byte := padTo 32 (leBytes 8 0 ++ leBytes 4 64 ++ leBytes 2 1)

def progHead : List Byte :=
  [0x53, 0x48, 0x47, 0x50] ++ leBytes 2 1 ++ leBytes 2 56 ++ leBytes 8 5440 ++ leBytes 8 64 ++ leBytes 8 64 ++ leBytes 8 64 ++
    List.replicate 24 0

def progImage : List Byte := progHead ++ (List.replicate 168 progRecord).flatten

def progParsed : Image := { nreg := 56, regtab := 64, budget := 64, dmap := 64 }

theorem progRecord_length : progRecord.length = 32 := by decide +kernel
theorem progHead_length : progHead.length = 64 := by decide +kernel

theorem drop_records (i n : Nat) (h : i ≤ n) :
    (List.replicate n progRecord).flatten.drop (32 * i) = (List.replicate (n - i) progRecord).flatten := by
  induction i generalizing n with
  | zero => simp
  | succ i ih =>
    obtain ⟨n, rfl⟩ : ∃ m, n = m + 1 := ⟨n - 1, by omega⟩
    have e : 32 * (i + 1) = progRecord.length + 32 * i := by rw [progRecord_length]; omega
    rw [List.replicate_succ, List.flatten_cons, e, List.drop_length_add_append, ih n (by omega), Nat.add_sub_add_right]

theorem progSlice (i a n : Nat) (h : i < 168) (h2 : a + n ≤ 32) :
    sliceBytes progImage (64 + 32 * i + a) n = sliceBytes progRecord a n := by
  have e : 64 + 32 * i + a = progHead.length + (32 * i + a) := by rw [progHead_length]; omega
  have e2 : (progImage.drop (64 + 32 * i + a)).take n = (progRecord.drop a).take n := by
    rw [progImage, e, List.drop_length_add_append, ← List.drop_drop, drop_records i 168 (by omega)]
    obtain ⟨k, hk⟩ : ∃ k, 168 - i = k + 1 := ⟨167 - i, by omega⟩
    rw [hk, List.replicate_succ, List.flatten_cons, List.drop_append_of_le_length (by rw [progRecord_length]; omega),
      List.take_append_of_le_length (by rw [List.length_drop, progRecord_length]; omega)]
  simp only [sliceBytes, e2]

theorem progEntry (g : Nat) (h : g < 168) : regionEntryOk progImage 5440 (64 + 32 * g) = true := by
  have z (n : Nat) (h2 : n ≤ 32) : sliceBytes progImage (64 + 32 * g) n = sliceBytes progRecord 0 n := progSlice g 0 n h (by omega)
  have e : regionEntryOk progImage 5440 (64 + 32 * g) = regionEntryOk progRecord 5440 0 := by
    simp (disch := omega) only [regionEntryOk, zeroBytes, sliceNat, progSlice, z, Nat.zero_add]
  rw [e]
  decide +kernel

theorem progBudget (g : Nat) (h : g < 168) : (parseBudget progImage (64 + 32 * g)).2 = true := by
  have z (n : Nat) (h2 : n ≤ 32) : sliceBytes progImage (64 + 32 * g) n = sliceBytes progRecord 0 n := progSlice g 0 n h (by omega)
  have e : parseBudget progImage (64 + 32 * g) = parseBudget progRecord 0 := by
    simp (disch := omega) only [parseBudget, zeroBytes, sliceNat, progSlice, z, Nat.zero_add]
  rw [e]
  decide +kernel

theorem progImage_length : progImage.length = 5440 := by
  simp [progImage, progHead_length, progRecord_length]

theorem progImage_parse : parseImage progImage 5440 = some progParsed := by
  have e1 : sliceNat progImage 6 2 = 56 ∧ sliceNat progImage 16 8 = 64 ∧ sliceNat progImage 24 8 = 64 ∧ sliceNat progImage 32 8 = 64 ∧
      sliceBytes progImage 0 4 = [0x53, 0x48, 0x47, 0x50] ∧ sliceNat progImage 4 2 = 1 ∧ sliceNat progImage 8 8 = 5440 ∧
      zeroBytes progImage 40 24 = true := by decide +kernel
  have e2 : (List.range 56).all (fun g => regionEntryOk progImage 5440 (64 + 32 * g)) = true := by
    rw [List.all_eq_true]
    intro g h
    exact progEntry g (by have := List.mem_range.mp h; omega)
  simp [parseImage, e1, e2, progImage_length, progParsed, partOk]

theorem progImage_budgets : budgetsOk progImage progParsed = true := by
  rw [budgetsOk, List.all_eq_true]
  intro g h
  exact progBudget g (by have := List.mem_range.mp h; simpa [progParsed] using this)

theorem progImage_digests : parseDigestMap progImage progParsed = some ([], 0) := by
  have e1 : sliceNat progImage 64 6 = 0 ∧ sliceNat progImage (64 + 6) 2 = 0 := by decide +kernel
  simp [parseDigestMap, progParsed, e1, progImage_length, pairwiseFree]

theorem witness_QueriesAndCompletion :
    (∀ e ∈ [(0, up 0), (1, recorded (up 0)), (2, up 0), (3, { up 0 with debug := true })],
      let d := desc 3 opQUERY [(24, 1, e.1), (40, 1, 63), (41, 1, 2)]
      offers (offer e.2 3 d) 3 opQUERY d = true ∧ dNat d 24 1 = e.1 ∧ (smallBound (offer e.2 3 d) (queryBytes e.1)).isSome = true ∧
        debugWhat (offer e.2 3 d) d = some (63, 2) ∧ (offer e.2 3 d).regions[(63 : RegionId)].ctx = none ∧
        (offer e.2 3 d).scree.slots.length = 128) ∧
    (let d := desc 3 opATTEST []
     offers (offer (up 0) 3 d) 3 opATTEST d = true ∧ cmdRate (offer (up 0) 3 d) ≠ 0) ∧
    (let k := cmdOf (desc 3 opCLOSE [])
     let s := withRing (up 0) 3 fun r => { r with cmds := [k] }
     s.host.rings[(3 : CtxId)].cmds = [k] ∧ k.opc.toNat ≠ opARM ∧ k.opc.toNat ≠ opRESTORE ∧ cmdReady s 3 k = true) ∧
    (let k := cmdOf (desc 3 opCFG [])
     let s := withRing (up 0) 3 fun r => { r with cmds := [k] }
     s.host.rings[(3 : CtxId)].cmds = [k] ∧ k.opc.toNat = opCFG ∧ k.status = stDone ∧ cmdReady s 3 k = true) := by
  decide +kernel

/-- The presence window is open. -/
def here (s : State) : State := { s with presence := { isOpen := true, byJumper := true, till := 0 } }

/-- Context 3 open with page 0 in T3 and page 5 in T1, its tables in place, and quotas for more; context 0 maps its page 0 too. -/
def homes (s : State) : State :=
  let r (id : Nat) (t : Tier) (f : Nat) : Resid :=
    { id := id, owner := 3, loc := { tier := t, port := 0, frame := f, lentTo := 0 }, ver := false, hostvis := false, holds := 8,
      evicting := none, psn := false, mig := none, stripes := [] }
  let q : List Nat := [100, 100, 100, 100]
  let s := updCtx s 3 fun x => { x with opened := true, pages := [(0, 3), (5, 4)], tables := [100, 101, 102, 103, 104] }
  updHbm { s with boot := { s.boot with cfg := { s.boot.cfg with qT1 := q, qT2 := q, qT3 := q } } } fun h =>
    { h with nextId := 5, resids := [r 3 .t3 9, r 4 .t1 7] }

/-- Grade C, the fuses of the test image. -/
def gradeC (s : State) : State := { s with fuses := { s.fuses with grade := .c } }

theorem witness_LoadProgram :
    let d := desc 3 opLOAD [(32, 4, 5440), (40, 8, 2 ^ 55)]
    let s := offer (gradeC (opened (up 0))) 3 d
    offers s 3 opLOAD d = true ∧ loadReject s 3 progImage d = none ∧ parseImage progImage (dNat d 32 4) = some progParsed ∧
      ((moveTime (dNat d 32 4) (cmdRate s) 1).map (1000000 + ·)).isSome = true ∧ lpMask d 55 = true ∧ lpMask d 56 = false := by
  have h : dNat (desc 3 opLOAD [(32, 4, 5440), (40, 8, 2 ^ 55)]) 32 4 = 5440 := by decide +kernel
  refine ⟨by decide +kernel, ?_, by rw [h, progImage_parse], by decide +kernel, by decide +kernel, by decide +kernel⟩
  have e2 : (progParsed.nreg != nreg (offer (gradeC (opened (up 0))) 3 (desc 3 opLOAD [(32, 4, 5440), (40, 8, 2 ^ 55)]))) = false := by
    decide +kernel
  simp only [loadReject, h, progImage_parse, progImage_budgets, progImage_digests, e2, firstReject]
  rfl

theorem witness_ProgramAndDataCommands :
    (let d := desc 3 opARM [(24, 8, 20000000), (32, 8, 1), (40, 4, 1)]
     let s := offer (updRegion (opened (up 0)) 63 fun r => { r with ctx := some 3 }) 3 d
     offers s 3 opARM d = true ∧ armReject s 3 d = none) ∧
    (∀ e ∈ [(opREAD, false), (opWRITE, true)],
      let d := desc 3 e.1 [(40, 4, 4096)]
      let s := offer (homes (up 0)) 3 d
      offers s 3 e.1 d = true ∧ memReject s 3 d e.2 = none ∧ (memBound s 3 d).isSome = true) ∧
    (let d := desc 3 opCFG [(32, 4, 1280)]
     let s := offer (here (fused (up 0))) 3 d
     offers s 3 opCFG d = true ∧ anyBusy s = false ∧ dNat d 32 4 = 1280 ∧ s.fuses = (fused (up 0)).fuses ∧ s.boot.ownerK = none ∧
       s.boot.ownerP = none) ∧
    imageReason (fused (up 0)).fuses none none cfgImage 1280 = none ∧ cfgImage.length = 1280 ∧
    (let d := desc 3 opOWNER []
     offers (offer (here (up 0)) 3 d) 3 opOWNER d = true ∧ anyBusy (offer (here (up 0)) 3 d) = false ∧
       enrolOk (offer (here (up 0)) 3 d).boot.ownerK (padTo 192 identityKey) = true) ∧
    (let d := desc 3 opRESTORE []
     let s := offer (torus (opened (up 0))) 3 d
     let r : Restore := { step := 0, got := 0, own := true, left := 1 }
     let u := { s with restoring := s.restoring.set (3 : CtxId) (some r) }
     offers s 3 opRESTORE d = true ∧ restoreReject s 3 (some ([], 7)) = none ∧
       (∀ n, (taken s 3 d n).restoring[(3 : CtxId)] = none) ∧
       offers u 3 opRESTORE d = true ∧ restoreReject u 3 (some ([], 7)) = none ∧
       ∀ n, (taken u 3 d n).restoring[(3 : CtxId)] = some r) := by
  have h := cfgImage_ok
  have h2 : cfgImage.length = 1280 := by decide +kernel
  refine ⟨by decide +kernel, by decide +kernel, ⟨?_, ?_, ?_, rfl, ?_, ?_⟩, h, h2, by decide +kernel, ?_, ?_, fun _ => rfl, ?_, ?_,
    fun _ => rfl⟩ <;> decide +kernel

/-- What each page operation needs to be accepted at once. -/
def mapReady (s : State) (d : Desc) (op : Nat) : Bool :=
  offers s 3 opMAP d && mmOp d == op && !s.hardFault && !pageBusy s && s.pageQ.isEmpty && !(s.host.rings[(3 : CtxId)].lend).isSome &&
    (mapPre s 3 d).isNone && (lendNeed s 3 d).isNone && (mapPost s 3 d).isNone && (mapBound s 3 d).isSome

/-- MEM_MAP of one page: operation, tier, page, pool frame. -/
def mapDesc (op t p f : Nat) : Desc :=
  desc 3 opMAP [(24, 1, op), (25, 1, t), (28, 4, 1), (32, 8, p * frameBytes), (56, 8, f * frameBytes)]

theorem witness_PageCommands :
    (∀ e ∈ [(0, 2, 1, 6), (1, 0, 0, 0), (4, 0, 0, 0), (5, 2, 5, 6)],
      let d := mapDesc e.1 e.2.1 e.2.2.1 e.2.2.2
      let s := offer (homes (up 0)) 3 d
      mapReady s d e.1 = true ∧ (mapEffect (taken s 3 d ((mapBound s 3 d).getD 0)) 3 d []).isSome = true) ∧
    (let d := mapDesc 2 0 1 0 ||| ((3 : Desc) <<< (8 * 40))
     let s := offer (homes (up 0)) 3 d
     mapReady s d 2 = true ∧ (mapEffect (taken s 3 d ((mapBound s 3 d).getD 0)) 3 d []).isSome = true) ∧
    (let d := mapDesc 3 0 0 0
     mapReady (offer (homes (up 0)) 3 d) d 3 = true) ∧
    (let d := mapDesc 3 1 0 0 ||| ((1 : Desc) <<< (8 * 26))
     let s := offer (torus (homes (up 0))) 3 d
     offers s 3 opMAP d = true ∧ mmOp d = 3 ∧ (mapPre s 3 d).isNone = true ∧ (lendNeed s 3 d).isSome = true ∧ neighbourOk s d = true) ∧
    (let d := mapDesc 4 0 0 0
     0 ∈ mmPages d ∧ (residAt (applyRelease (homes (up 0)) 3 d) 3 0).isSome = true) ∧
    (let d := mapDesc 0 2 1 6
     mmTier d = .t3 ∧ mmCount d = 1 ∧ residAt (homes (up 0)) 3 (mmFirst d) = none ∧
       (∀ e ∈ (homes (up 0)).ctxs[(3 : CtxId)].pages, e.1 ≠ mmFirst d) ∧ (∀ r ∈ (homes (up 0)).hbm.resids, r.id < (homes (up 0)).hbm.nextId) ∧
       (applyMap (homes (up 0)) 3 d []).isSome = true) := by
  decide +kernel

theorem allocFrame_some (s : State) (h : usedFrames s = []) : ∃ f t, allocFrame s = some (f, t) := by
  simp [allocFrame, findFree, h]

/-- Context 3 with page 0 in T3, and nothing in T1. -/
def cold : State := updHbm (homes (up 0)) fun h => { h with resids := h.resids.filter fun r => r.loc.tier == .t3 }
def coldHome : State := updCtx cold 3 fun x => { x with pages := [(0, 3)], tables := [] }

theorem witness_PageCommands_promote :
    let d := mapDesc 3 0 0 0
    let s := offer coldHome 3 d
    mapReady s d 3 = true ∧ ∃ e, mapEffect (taken s 3 d ((mapBound s 3 d).getD 0)) 3 d [] = some e := by
  intro d s
  refine ⟨by decide +kernel, ?_⟩
  have h1 : mmOp d = 3 := by decide +kernel
  have h2 : mmPages d = [0] := by decide +kernel
  have h3 : mmTier d = .t1 := by decide +kernel
  have h5 : mmHold d = false := by decide +kernel
  generalize hu : taken s 3 d ((mapBound s 3 d).getD 0) = u
  have h4 : (residAt u 3 0).map (fun r => (r.mig, r.owner, r.evicting, r.id)) = some (none, 3, none, 3) := by subst hu; decide +kernel
  obtain ⟨r, h4, h6⟩ := Option.map_eq_some_iff.mp h4
  obtain ⟨h7, h8, h9, h10⟩ : r.mig = none ∧ r.owner = 3 ∧ r.evicting = none ∧ r.id = 3 := by simpa using h6
  simp only [mapEffect, h1, h2, promotePages, h4, h7, h3, h5, h8, h9, h10, beq_self_eq_true, if_true, Option.isSome_none]
  obtain ⟨f, t, e⟩ := allocFrame_some (updHbm (updHbm u fun h => updResid h 3 fun q => { q with holds := q.holds }) fun h =>
    updResid h 3 fun q => { q with evicting := none }) (by subst hu; decide +kernel)
  simp [e]

/-! ## A device with the test image in slot A -/

def cellsFrom : Nat → List Byte → List Host.Cell
  | _, [] => []
  | a, b :: l => (a, b) :: cellsFrom (a + 1) l

theorem spGet_cellsFrom (l : List Byte) (a i : Nat) (h : i < l.length) : spGet 0xFF (cellsFrom a l) (a + i) = l[i] := by
  induction l generalizing a i with
  | nil => simp at h
  | cons b l ih =>
    cases i with
    | zero => simp [cellsFrom, spGet]
    | succ i =>
      have e : a + (i + 1) = a + 1 + i := by omega
      rw [cellsFrom, spGet, if_neg (by omega), e]
      exact ih (a + 1) i (by simpa using h)

def slotDevice : Flash := { main := cellsFrom 0 cfgImage, sec := flashErased.sec.set 0 (secHolding (slotRecord 1 1280)) }

theorem secBytes_take (f : Flash) (i a n : Nat) (l : List Byte) (h : f.sec.getD i [] = l) (h2 : a + n ≤ l.length) :
    secBytes f i a n = (l.drop a).take n := by
  apply List.ext_getElem
  · simp [secBytes]; omega
  · intro k h3 h4
    have h5 : k < n := by simpa [secBytes] using h3
    simp only [secBytes, List.getElem_map, List.getElem_range, h, List.getElem_take, List.getElem_drop]
    rw [List.getD_eq_getElem?_getD, List.getElem?_eq_getElem (by omega), Option.getD_some]

theorem slotHead_length : (recordHead 1 1280).length = 16 ∧ (shake256 (recordHead 1 1280) 32).length = 32 := by decide +kernel

theorem slotDevice_record : slotComplete slotDevice false = true ∧ slotLen slotDevice false = 1280 := by
  obtain ⟨h1, h2⟩ := slotHead_length
  have e : slotDevice.sec.getD 0 [] = secHolding (slotRecord 1 1280) := rfl
  have e2 : (secHolding (slotRecord 1 1280)).length = 1024 := by simp [secHolding, slotRecord, h1, h2]
  have e3 : secHolding (slotRecord 1 1280) = recordHead 1 1280 ++ (shake256 (recordHead 1 1280) 32 ++ (List.replicate 16 0 ++ List.replicate 960 0xFF)) := by
    simp [secHolding, slotRecord, h1, h2]
  have e4 : secBytes slotDevice 0 0 48 = recordHead 1 1280 ++ shake256 (recordHead 1 1280) 32 := by
    rw [secBytes_take _ _ _ _ _ e (by omega), e3, List.drop_zero, show 48 = (recordHead 1 1280).length + 32 by omega, List.take_length_add_append,
      List.take_append_of_le_length (by omega), List.take_of_length_le (by omega)]
  have e5 : secBytes slotDevice 0 8 4 = ((recordHead 1 1280).drop 8).take 4 := by
    rw [secBytes_take _ _ _ _ _ e (by omega), e3, List.drop_append_of_le_length (by omega),
      List.take_append_of_le_length (by rw [List.length_drop]; omega)]
  refine ⟨?_, ?_⟩
  · have t : ∀ x : List Byte, (recordHead 1 1280 ++ x).take 16 = recordHead 1 1280 := fun x => by rw [← h1, List.take_left]
    have d : ∀ x : List Byte, (recordHead 1 1280 ++ x).drop 16 = x := fun x => by rw [← h1, List.drop_left]
    simp only [slotComplete, slotSec, Bool.false_eq_true, if_false, e4, t, d, beq_self_eq_true, Bool.and_true]
    rfl
  · simp only [slotLen, slotSec, Bool.false_eq_true, if_false, e5]
    rfl

theorem slotDevice_image : slotImage slotDevice false = cfgImage := by
  have h : cfgImage.length = 1280 := by decide +kernel
  simp only [slotImage, slotDevice_record.2, slotBase, Bool.false_eq_true, if_false, slotSize, flashBytes]
  apply List.ext_getElem
  · simp [h]
  · intro i h1 h2
    simp only [List.getElem_map, List.getElem_range, flashByte, slotDevice, spGet_cellsFrom cfgImage 0 i h2]

theorem slotDevice_order : slotOrder slotDevice = [false] ∧ ownerKeys slotDevice = (none, none) := by
  have h : slotComplete slotDevice true = false := by decide +kernel
  refine ⟨by simp [slotOrder, slotDevice_record.1, h], by decide +kernel⟩

/-! ## The host's registers, rings and memory -/

theorem witness_HostRegisters :
    hostUp (up 0) = true ∧ (((1024 : BitVec 11) - (up 0).host.rings[(3 : CtxId)].head).toNat ≤ 1024 ∧
      ¬(((1025 : BitVec 11) - (up 0).host.rings[(3 : CtxId)].head).toNat ≤ 1024)) ∧
    ((0x107 : W32).getLsbD 8 = true ∧ (0x107 : W32).extractLsb' 0 3 = (7 : BitVec 3) ∧ (up 0).host.rings[(3 : CtxId)].en = false ∧
      isReady (up 0) = true ∧ (up 0).host.rings[(3 : CtxId)].msgs.length < 256) := by
  decide +kernel

/-- Ring 3 is enabled with 64 entries, full when `full`, and one message waits. -/
def ring (full : Bool) (s : State) : State :=
  withRing s 3 fun r => { r with en := true, mrsize := 6, mrtail := if full then 64 else 63, k := 63, msgs := [msg mtTelemetry] }

theorem witness_MessagesAndTelemetry :
    (let s := ring false (up 0)
     hostUp s = true ∧ s.host.rings[(3 : CtxId)].en = true ∧ s.host.rings[(3 : CtxId)].msgs = [msg mtTelemetry] ∧
       (msg mtTelemetry).payload.length ≤ 48 ∧
       (s.host.rings[(3 : CtxId)].mrtail - s.host.rings[(3 : CtxId)].mrhead).toNat < ringSize s.host.rings[(3 : CtxId)]) ∧
    (let s := ring true (up 0)
     ringSize s.host.rings[(3 : CtxId)] ≤ (s.host.rings[(3 : CtxId)].mrtail - s.host.rings[(3 : CtxId)].mrhead).toNat) ∧
    (let s : State := { up 1000 with host := { (up 1000).host with msimod := 1, msix := (up 1000).host.msix.set 7 { due := true, last := some 0, sent := 1 } } }
     hostUp s = true ∧ s.host.msix[(7 : Fin 8)].due = true ∧
       ∀ n, s.host.msix[(7 : Fin 8)].last = some n → n + 1000 * (s.host.msimod.toNat % 65536) ≤ elapsed s) ∧
    (let s : State := { up 100000000 with host := { (up 0).host with tlmbase := 1 } }
     hostUp s = true ∧ s.boot.phase = .ready ∧ s.host.tlmbase.getLsbD 0 = true ∧ s.host.tlmStart + 100000000 ≤ now s) := by
  refine ⟨by decide +kernel, by decide +kernel, ⟨by decide +kernel, by decide +kernel, ?_⟩, by decide +kernel⟩
  intro n h
  have e : ({ up 1000 with host := { (up 1000).host with msimod := 1, msix := (up 1000).host.msix.set 7 { due := true, last := some 0, sent := 1 } } } :
      State).host.msix[(7 : Fin 8)].last = some 0 := by decide +kernel
  obtain rfl : 0 = n := Option.some.inj (e.symm.trans h)
  decide +kernel

/-- The page in frame 5 is host-visible. -/
def shown (s : State) : State := updHbm s fun h => { h with resids := [
  { id := 3, owner := 0, loc := { tier := .t1, port := 0, frame := 5, lentTo := 0 }, ver := false, hostvis := true, holds := 0,
    evicting := none, psn := false, mig := none, stripes := [] }] }

theorem witness_HostMemoryWindow :
    hostUp (shown (up 0)) = true ∧ 0 < 64 ∧ (5 * frameBytes) % 64 + 64 ≤ 64 ∧
      (visibleIn (shown (up 0)).hbm (5 * frameBytes / frameBytes)).isSome = true ∧ (shown (up 0)).hbm.mdata = [] ∧
      visibleIn (shown (up 0)).hbm (6 * frameBytes / frameBytes) = none := by
  decide +kernel

/-! ## Start-up, power and the sideband -/

/-- What a start finds when nothing is wrong: a device with the test image in slot A. -/
def found : BootEnv :=
  { railOk := true, inputOk := true, fuseOk := true, sealed := true, jumper := true, flashOk := true, domainsOk := true, hbmOk := true, initOk := true, coolOk := true,
    device := some slotDevice, meas := [] }

theorem trySlots_one {fu : Fuses} {f : Flash} {l : List Byte} {n : Nat} (o : List Bool) (acc : List (Bool × Reason))
    (h : o = [false] ∧ ownerKeys f = (none, none)) (h2 : slotImage f false = l) (h3 : slotLen f false = n)
    (h4 : imageReason fu none none l n = none) : (trySlots fu f o acc).1 = some (false, l) := by
  have e : slotReason fu f false = none := by rw [slotReason, h.2, h2, h3, h4]
  rw [h.1, trySlots, List.map_cons, e, firstSlot, h2]

theorem found_image : (trySlots (fused (up 0)).fuses slotDevice (slotOrder slotDevice) (recordReasons slotDevice)).1 = some (false, cfgImage) :=
  trySlots_one _ _ slotDevice_order slotDevice_image slotDevice_record.2 cfgImage_ok

/-- Waiting for its links. -/
def linking (s : State) : State := { s with boot := { s.boot with phase := .linking } }

/-- What a start finds when nothing answers. -/
def nothing : BootEnv := { found with flashOk := false, domainsOk := false, hbmOk := false, initOk := false, coolOk := false }

/-- A stage of start-up is under way, with slot A picked. -/
def starting (n : Nat) (env : BootEnv) : State :=
  { State.reset with boot := { Boot.reset with phase := .starting, stage := n, env := some env, pick := some false } }

/-- A voltage at the input that has held for some time. -/
def reading (mv ns : Nat) : InputMeas := { mv := mv, ma := 0, w := 0, ns := ns }

theorem witness_StartAndResets :
    ((fused State.reset).boot.phase = .off ∧ 46000 < 46001 ∧ found.railOk = true ∧ found.inputOk = true ∧ found.fuseOk = true ∧
      badRail.railOk = false ∧ ({ found with inputOk := false } : BootEnv).inputOk = false ∧ ({ found with fuseOk := false } : BootEnv).fuseOk = false) ∧
    (∀ n ∈ [2, 3, 4, 5, 6, 7, 8], ∀ env ∈ [found, nothing],
      (starting n env).boot.phase = .starting ∧ (starting n env).boot.env = some env ∧ (starting n env).boot.stage = n ∧
        (starting n env).boot.pick = some false) ∧
    (found.flashOk = true ∧ nothing.flashOk = false ∧ nothing.inputOk = true ∧ found.domainsOk = true ∧ nothing.domainsOk = false ∧
      found.hbmOk = true ∧ nothing.hbmOk = false ∧ found.initOk = true ∧ nothing.initOk = false ∧ found.coolOk = true ∧
      2 ≤ axisLen (torus (starting 5 found)) (axisOf 0) ∧ calibrate (starting 6 found) found.meas = none) ∧
    ((starting 4 nothing).fuses = State.reset.fuses ∧
      (trySlots State.reset.fuses flashErased (slotOrder flashErased) (recordReasons flashErased)).1 = none) ∧
    (linking (up 0)).boot.phase = .linking ∧ allTrained (linking (up 0)) = true ∧ (linking (up 0)).cnt.aligned = true ∧
    (let s := port (linking (up 2000000000)) 0 fun q => { q with powered := true, state := 1 }
     s.boot.phase = .linking ∧ s.ports[(0 : PortId)].powered = true ∧ s.ports[(0 : PortId)].state ≠ 2 ∧
       s.boot.stage9 + 2000000000 ≤ elapsed s ∧ allTrained s = false) ∧
    (let s := unaligned { linking (up 2000000000) with boot := { (linking (up 0)).boot with trainedAt := some 0 } }
     s.boot.phase = .linking ∧ allTrained s = true ∧ s.cnt.aligned = false ∧ s.boot.trainedAt = some 0 ∧ 0 + 2000000000 ≤ elapsed s) ∧
    hostUp (up 0) = true ∧ (up 0).boot.phase ≠ .off ∧ 100000 ≤ 100000 ∧ (reading 41999 50000).mv < 42000 ∧
    50000 ≤ (reading 41999 50000).ns ∧ 42000 ≤ (reading 42000 50000).mv ∧ (reading 41999 49999).ns < 50000 ∧
    (let s : State := { up 1000000 with power := { (up 0).power with trip := some 0 } }
     s.boot.phase = .ready ∧ s.power.trip = some 0 ∧ 0 + 1000000 ≤ elapsed s) ∧ elapsed (up 999999) < 0 + 1000000 := by
  refine ⟨by decide +kernel, ?_, by decide +kernel, ⟨rfl, by decide +kernel⟩, by decide +kernel⟩
  intro n _ env _
  exact ⟨rfl, rfl, rfl, rfl⟩

/-- In stage 4 the slot with the test image passes. -/
theorem witness_StartAndResets_image :
    let s := { fused (starting 4 found) with flash := slotDevice }
    s.boot.stage = 4 ∧ (trySlots s.fuses s.flash (slotOrder s.flash) (recordReasons s.flash)).1 = some (false, cfgImage) :=
  ⟨rfl, found_image⟩

theorem witness_PowerAndHeat :
    (up 0).boot.phase = .ready ∧ (up 0).boot.phase ≠ .off ∧ (∃ d : DieId, (up 0).power.dies[d].hotBank = false) ∧
    (bankHot (up 0) (some 2)).power.dies[(2 : DieId)].hotBank = true ∧
    (let s := launched (up 0) false
     s.ctxs[(0 : CtxId)].launch = some (launch false) ∧ s.boot.phase = .ready ∧ rampStart s (launch false).a ≤ now s) ∧
    (running (up 0) = true ∧ (up 0).power.dies[(0 : DieId)].stepAt = none) ∧ (up 0).power.trip = none ∧ (up 0).power.under = false ∧
    (let s : State := { up 100000 with power := { (up 0).power with dies := (up 0).power.dies.set 1 { (up 0).power.dies[(1 : DieId)] with stepAt := some 0 } } }
     s.power.dies[(1 : DieId)].stepAt = some 0 ∧ 0 + 100000 ≤ elapsed s) ∧
    (up 0).power.low = false ∧ (up 0).power.high = false ∧ (reading 45999 0).mv < 46000 ∧ 56000 < (reading 56001 0).mv ∧
    46000 < (reading 46001 0).mv ∧ (reading 56000 0).mv ≤ 56000 ∧
    ({ up 0 with power := { (up 0).power with low := true } } : State).power.low = true := by
  refine ⟨by decide +kernel, by decide +kernel, ⟨0, by decide +kernel⟩, by decide +kernel⟩

/-- The target has an address. -/
def named (s : State) : State := { s with i3c := { s.i3c with dyn := some 9 } }

theorem witness_SidebandAndPresence :
    i3cMine (named (up 0)) 9 = true ∧ i3cMine (named (up 0)) 8 = false ∧ (up 0).boot.phase ≠ .off ∧ (up 0).i3c.dyn = none ∧
    (up 0).presence.byJumper = false ∧ 50 ≤ 50 ∧
    (let s : State := { up 120000000000 with presence := { isOpen := true, byJumper := false, till := 120000000000 } }
     s.presence.isOpen = true ∧ s.presence.byJumper = false ∧ s.presence.till ≤ elapsed s) := by
  decide +kernel

/-! ## Ill-formed operands are refused -/

/-- A flit with a payload of 241 bytes. -/
def longFlit : Flit := { hdr := 0, payload := List.replicate 241 0 }
def fewRings : DomainMeas := { periods := [], temp := 0 }
def shortFlash : Flash := { main := [(2 ^ 26, 0)], sec := [] }

theorem test_wellFormed_refuses :
    [Instr.collReceive 0 0 (.port 0) longFlit ringStep false, .collReceive 0 0 (.port 0) collFlit { ringStep with count := 0 } false,
      .collReceive 0 3 (.bridge 2 2) collFlit ringStep false, .dataReceive (.port 0) longFlit, .dataReceive (.bridge 1 1) respFlit,
      .resp (.port 0) longFlit, .flitTransmit (.bridge 0 0) 5, .creditReturn (.bridge 0 0) 5, .acknowledgement (.bridge 3 3) 0,
      .linkReplay (.bridge 1 1), .linkTimeout (.bridge 2 2), .lendReq 0 longFlit, .lendAns 0 longFlit, .lendFree 0 longFlit, .rdReq 0 longFlit,
      .rdData 0 longFlit, .wrReq 0 longFlit, .digestSet 0 longFlit, .tileReq 0 longFlit, .tileData 0 longFlit, .passRec 0 longFlit, .vote 0 longFlit,
      .abortReceive 0 longFlit, .mirrorRebuild 0 longFlit, .flitDiscard (.port 0) longFlit, .recalibration 0 fewRings, .poisonScan 1572864,
      .doorbell 0 2048 [], .restoreFromBuddy 0 (some ([5, 4], 0)), .ownerEnrol 0 (List.replicate 193 0) true,
      .telemetry { shortfall := [], power := [] }, .registerWrite 0x40 false 0, .registerWrite 0x4C true 0, .registerWrite 0x114 false 0,
      .moduleReset 0 found, .fundamentalReset 0 found, .powerOn 0 { found with device := some shortFlash }, .cxlMemRead 60 5, .cxlMemRead 0 0,
      .cxlMemWrite (3072 * 2 ^ 30) [0] false].all (fun i => !WellFormed i) = true := by
  decide +kernel

theorem test_wellFormed_takes :
    [Instr.dataReceive (.port 0) respFlit, .linkTimeout (.bridge 1 2), .poisonScan 1572863, .doorbell 0 2047 [], .restoreFromBuddy 0 (some ([4, 5], 0)),
      .ownerEnrol 0 (List.replicate 192 0) true, .registerWrite 0x48 true 0, .registerWrite 0x118 false 0, .cxlMemRead 60 4].all WellFormed = true := by
  decide +kernel

/-- No row of the table has bits. -/
theorem test_no_word (n w : Nat) : decodeTableWord n w = none := rfl

/-! ## The manual's worked examples -/

/-- Example 2.1: 300, 500 with and without SATURATE, minus infinity and 2^-10 to E4M3. -/
theorem test_e4m3 : FloatFmt.e4m3.round .rne false (f32 0x43960000) = (0x79, 0) ∧ FloatFmt.e4m3.round .rne true (f32 0x43FA0000) = (0x7E, afCvtOvf ||| afCvtSat) ∧
    FloatFmt.e4m3.round .rne false (f32 0x43FA0000) = (0x7F, afCvtOvf) ∧ (FloatFmt.e4m3.round .rne true (f32 0xFF800000)).1 = 0xFE ∧
    (FloatFmt.e4m3.round .rne false (f32 0x3A800000)).1 = 0 := by
  decide +kernel

/-- Example 2.2: a bias of 1.5 * 2^-49, and of 2^90. -/
theorem test_preload : preloadVal (f32 0x27400000) = ({ AccCell.zero with n := 1, rn := 1 }, afPreInexact) ∧
    (preloadVal (f32 0x6C800000)).1.n = 0x7FFFFFFFFFFFFFFFFFFFFFFFFFFFFFFC ∧ (preloadVal (f32 0x6C800000)).2 &&& afPreSat = afPreSat := by
  decide +kernel

/-- Example 3.3: the unfused drain rounds once. -/
theorem test_drain :
    drainExact { AccCell.zero with n := 22906492245 } f32One f32One f32One fFP16 .rne false = (0x0555, 0) ∧
    toF32 (drainVal 22906492245 false false false Val.one Val.one Val.one) = 0x38AAAAAB := by
  decide +kernel

/-- Example 4.2: the lane tree keeps both terms of 1. -/
theorem test_laneTree : laneTree fAdd ([0x4B800000, 0x3F800000, 0x3F800000, 0x3F800000] ++ List.replicate 124 0) = 0x4B800001 := by
  decide +kernel

/-- Example 8.1: the bundle of the last curvature pass. -/
def bundle81 : BitVec 512 :=
  0x1000FF03390000010000000100000000000000001844810210928A54204800040000000000000000000000000000000000000000000000000000000000000000

theorem test_bundle81 : bundleLegal bundle81 1 = true ∧ bForm bundle81 = 1 ∧ bWait bundle81 = 0xFF ∧ bSig bundle81 = 3 ∧ sOpc (bS0 bundle81) = 0x39 ∧
    sFn (bS0 bundle81) = 1 ∧ sImm (bS0 bundle81) = 1 ∧ xOp (bX bundle81) = 1 ∧ xCl (bX bundle81) = 2 ∧ xFmtA (bX bundle81) = fFP16 ∧
    xSrcA (bX bundle81) = 1 ∧ xM (bX bundle81) = 8 ∧ xN (bX bundle81) = 8 ∧ xK (bX bundle81) = 9 ∧ xSa (bX bundle81) = 10 ∧
    xPre (bX bundle81) = 4 ∧ xPreSrc (bX bundle81) = 4 ∧ xTdd (bX bundle81) = 4 ∧ xFmtOut (bX bundle81) = fL128 ∧ xTri (bX bundle81) = 2 := by
  decide +kernel

/-- Example 8.2: a V slot that only the U stream may issue. -/
theorem test_slot82 : let v : BitVec 128 := 0x1218808420530004E000000000000000
    vLegal v 2 = true ∧ vLegal v 0 = false ∧ vLegal v 1 = false ∧ vOp v = opVMAP ∧ vI0 v = 0x21 ∧ vI1 v = 0x22 ∧ vI2 v = 0 ∧ vO v = 0x21 ∧
      vMp v = 0x10 ∧ vKx0 v = 5 ∧ vKx1 v = 6 ∧ vLc v = 0x27 := by
  decide +kernel

/-- Example 11.1: the flip of a full torus, and the next step start. -/
theorem test_flip : let c (s : State) : State := { s with boot := { s.boot with cfg := { s.boot.cfg with lx := 32, ly := 32, lz := 32 } } }
    let w : Wave := { (waved 3 true).wave with acc := { (waved 3 true).wave.acc with t := 5000000000 } }
    let s := inWave (c (up 5000052000)) { waved 3 true with wave := w }
    waveBound s w = 5000048000 ∧ flipCount s w = 5000052000 ∧
      (match exec (.flip 0) s with | .next t => (t.ctxs[(0 : CtxId)].launch).map (·.due) | _ => none) = some 5000102000 := by
  decide +kernel

/-- An 8 by 8 by 4 torus. -/
def torus884 (s : State) : State := { s with boot := { s.boot with cfg := { s.boot.cfg with lx := 8, ly := 8, lz := 4 } } }

/-- Example 12.1: the stream bounds and PROMISE. -/
theorem test_promise :
    let b (a n l h : Nat) : Nat := streamBound (up 0).boot.cfg (580 * (256 + (up 0).boot.cfg.guard)) { stepBeats := a, nseg := n, lmax := l, hops := h }
    b 800000 8 645 16 = 530603 ∧ b 1900000 9 1029 24 = 1238619 ∧ b 2400000 4 8192 64 = 1651090 ∧
      promiseOf (torus884 (up 0)) 40000000000 100 1651090 = 40167697000 := by
  decide +kernel

def desc151 : Desc :=
  BitVec.ofNat 1024 (leNat ([8, 0, 1, 0, 0x31, 0x0A, 0, 0, 2] ++ List.replicate 7 0 ++
    [0x00, 0x52, 0x1B, 0x5C, 0x09, 0, 0, 0, 0x00, 0x90, 0x2F, 0x50, 0x09, 0, 0, 0, 0x89, 0x13, 0, 0, 0, 0, 0, 0, 0x64, 0, 0, 0]))

def ready151 : State :=
  withRing (updRegion (updCtx (torus884 (up 39950000000)) 1 fun x => { x with opened := true, fresh := false, cairnStep := 5000 }) 7
    fun r => { r with ctx := some 1 }) 1 fun r => { r with slots := [(5, desc151)], head := 5, tail := 6 }

/-- What a command leaves. -/
def ran (i : Instr) (s : State) : State :=
  match exec i s with
  | .next t => t
  | _ => s

/-- Example 15.1: the descriptor arms the launch, and CHEAD reads 6. -/
theorem test_arm : regChead (ran (.armLaunch 1) ready151) 1 = 6 ∧
    ((ran (.armLaunch 1) ready151).ctxs[(1 : CtxId)].launch.map fun l => (l.s0, l.n, l.a)) = some (5001, 100, 40000000000) ∧
    ((ran (.armLaunch 1) ready151).host.rings[(1 : CtxId)].msgs.map fun m => (m.type, m.tag, m.gen, m.stamp)) =
      [(0x02, 0x0A31, 0x02, 39950000000)] := by
  decide +kernel

/-- Example 16.1: slot B's record is incomplete, and slot A passes. -/
theorem test_imageCode : imageCodeOf [(true, rsRecord)] = 0x41 ∧ imageCodeOf [(true, rsVendor)] = 0x45 := by decide +kernel

/-- Example 16.2: TOPO as BAR0 shows it, and the cross-check that needs LEAD of 37 ms. -/
theorem test_topo : let c : ImgCfg := { ImgCfg.default with x := 5, y := 2, z := 31, lx := 8, ly := 4, lz := 32, bx := 5, bY := 2, bz := 0, plimit := 7500, slew := 5 }
    regTopo { up 0 with boot := { (up 0).boot with cfg := c } } = 0x0E3F945F ∧ crossOk c = false ∧ crossOk { c with lead := 40 } = true := by
  decide +kernel

/-- Example 17.1: the ramp to L begins 3 ms before A. -/
theorem test_ramp : rampStart { up 0 with power := { (up 0).power with volts := 50000, ienv := 80000000 } } 40000000000 = 39997000000 := by
  decide +kernel

/-- R449, Table 15.18: the entry goes into the slot of its number, with PHASE 1 on the first turn. -/
theorem test_messageWrite :
    (match exec (.messageWrite 3) (ring false (up 0)) with
     | .next t => (memGet t.hostMem (64 * 63), memGet t.hostMem (64 * 63 + 1), memGet t.hostMem (64 * 63 + 2))
     | _ => (0, 0, 0)) = (mtTelemetry, 0x80, 3) := by
  decide +kernel

/-- R457, R522: a press opens the window for 120 s, and a private write sets the offset of the register file. -/
theorem test_sideband :
    (match exec (.presencePress 50) (up 7) with | .next t => (t.presence.isOpen, t.presence.till) | _ => (false, 0)) = (true, 120000000007) ∧
    (match exec (.i3cPrivateWrite 9 [0x24]) (named (up 0)) with | .next t => t.i3c.off | _ => 0) = 0x24 := by
  decide +kernel

end Sys2Proof.Tests
end

section
/-! PROOFS. The host's registers and rings (O54): what DOORBELL, REGISTER_WRITE, GCOUNT_LATCH_READ, MDROP_READ and RING_ENABLE do
while the host link is up, as one change of the host interface each. -/

namespace Sys2Proof.Machine

/-! ## Two changes of one ring -/

theorem updRing_updRing (s : State) (c : CtxId) (f g : Ring → Ring) :
    updRing (updRing s c f) c g = updRing s c fun r => g (f r) := by
  simp [updRing]

/-- A change of a ring is known by its value at the ring. -/
theorem updRing_congr (s : State) (c : CtxId) {f g : Ring → Ring} (h : f s.host.rings[c] = g s.host.rings[c]) :
    updRing s c f = updRing s c g := by
  unfold updRing
  rw [h]

/-- A change of a ring changes the rings alone. -/
theorem updRing_frame (s : State) (c : CtxId) (f : Ring → Ring) :
    updRing s c f = { s with host := { s.host with rings := (updRing s c f).host.rings } } := rfl

/-! ## DOORBELL (R438) -/

/-- The guard of DOORBELL is that of the register accesses. -/
theorem not_hostUp (s : State) : (s.boot.phase == .off || !s.host.trained) = !hostUp s := by
  simp only [hostUp, bne, Bool.not_and, Bool.not_not]

theorem exec_doorbell_up {s : State} (hup : hostUp s = true) (c : CtxId) (v : W32) (l : List (BitVec 1024)) :
    exec (.doorbell c v l) s = .next
      (let w := updRing s c fun r => { r with slots := putSlots r.slots r.tail.toNat (l.take 1024) }
       if 1024 < (v.extractLsb' 0 11 - w.host.rings[c].head).toNat then { w with host := { w.host with dbOverrun := true } }
       else updRing w c fun r => { r with tail := v.extractLsb' 0 11 }) := by
  have hcond : ¬(s.boot.phase == .off || !s.host.trained) = true := by
    rw [not_hostUp, hup]
    decide
  exact congrArg Host.Outcome.next (if_neg hcond)

/-! ## REGISTER_WRITE (R6, R10, R436) -/

theorem exec_registerWrite_narrow {s : State} (hup : hostUp s = true) (off : BitVec 16) (v : W64) (ha : off.toNat % 4 = 0) :
    exec (.registerWrite off false v) s = .next (writeReg s off.toNat (v.extractLsb' 0 32)) := by
  simp [exec, execRegisterWrite, hup, ha]

theorem exec_registerWrite_wide {s : State} (hup : hostUp s = true) (off : BitVec 16) (v : W64) (ha : off.toNat % 8 = 0) :
    exec (.registerWrite off true v) s =
      .next (writeReg (writeReg s off.toNat (v.extractLsb' 0 32)) (off.toNat + 4) (v.extractLsb' 32 32)) := by
  simp [exec, execRegisterWrite, hup, ha]

theorem putHalf_low_getLsbD (v : W64) (x : W32) (i : Nat) :
    (putHalf v false x).getLsbD i = if i < 32 then x.getLsbD i else v.getLsbD i := by
  have happ := BitVec.getLsbD_append (x := v.extractLsb' 32 32) (y := x) (i := i)
  refine happ.trans ?_
  split
  next => rfl
  next hhigh =>
    have hsum : 32 + (i - 32) = i := by omega
    rw [BitVec.getLsbD_extractLsb', hsum, Bool.and_eq_right_iff_imp]
    intro hbit
    have hi : i < 64 := BitVec.lt_of_getLsbD hbit
    exact decide_eq_true (by omega)

theorem putHalf_high_getLsbD (v : W64) (x : W32) (i : Nat) :
    (putHalf v true x).getLsbD i = if i < 32 then v.getLsbD i else x.getLsbD (i - 32) := by
  have happ := BitVec.getLsbD_append (x := x) (y := v.extractLsb' 0 32) (i := i)
  refine happ.trans ?_
  split
  next hlow => simp [hlow]
  next => rfl

/-- Writes of the two halves of a register set it whole, whatever bits `m` each of them leaves out. -/
theorem putHalf_both_masked (old v m : W64) :
    putHalf (putHalf old false (v.extractLsb' 0 32) &&& ~~~m) true (v.extractLsb' 32 32) &&& ~~~m = v &&& ~~~m := by
  apply BitVec.eq_of_getLsbD_eq
  intro i hi
  rw [BitVec.getLsbD_and, BitVec.getLsbD_and, putHalf_high_getLsbD]
  split
  next hlow => simp [-BitVec.getLsbD_eq_getElem, putHalf_low_getLsbD, hlow]
  next hhigh =>
    have hbit : i - 32 < 32 := by omega
    have hsum : 32 + (i - 32) = i := by omega
    simp [-BitVec.getLsbD_eq_getElem, BitVec.getLsbD_extractLsb', hbit, hsum]

theorem writeReg_tlmbase (s : State) (lo hi : W32) :
    writeReg (writeReg s 0x48 lo) 0x4C hi = { s with host := { s.host with
      tlmbase := tlmFields (putHalf (tlmFields (putHalf s.host.tlmbase false lo)) true hi) } } := rfl

theorem exec_registerWrite_tlmbase {s : State} (hup : hostUp s = true) (v : W64) :
    exec (.registerWrite 0x48 true v) s = .next { s with host := { s.host with tlmbase := v &&& ~~~0x1FFE } } := by
  rw [exec_registerWrite_wide hup _ _ rfl]
  exact congrArg (fun t => Host.Outcome.next { s with host := { s.host with tlmbase := t } })
    (putHalf_both_masked s.host.tlmbase v 0x1FFE)

theorem exec_registerWrite_msimod {s : State} (hup : hostUp s = true) (v : W64) :
    exec (.registerWrite 0x50 false v) s = .next { s with host := { s.host with msimod := v.setWidth 32 &&& 0xFFFF } } := by
  rw [exec_registerWrite_narrow hup _ _ rfl, ← BitVec.setWidth_eq_extractLsb' (by omega)]
  rfl

theorem exec_registerWrite_errsum {s : State} (hup : hostUp s = true) (v : W64) :
    exec (.registerWrite 0x30 false v) s = .next { s with host := clearErrsum s.host (v.extractLsb' 0 32) } := by
  rw [exec_registerWrite_narrow hup _ _ rfl]
  rfl

/-- ERRSUM takes its bits from the low word, so a wide value clears the bits that it names itself. -/
theorem clearErrsum_extract (h : HostIf) (v : W64) :
    clearErrsum h (v.extractLsb' 0 32) = { h with
      dbOverrun := h.dbOverrun && !v.getLsbD 3, hdmDenied := h.hdmDenied && !v.getLsbD 2,
      nestedSeen := h.nestedSeen && !v.getLsbD 1, uncorrSeen := h.uncorrSeen && !v.getLsbD 0 } := by
  simp [clearErrsum]

/-- Table 15.8: the block of context `c` begins at 0x100 + 0x40 c. -/
theorem writeReg_block (s : State) (c : CtxId) (o : Nat) (ho : o < 0x40) (v : W32) :
    writeReg s (0x100 + o + 0x40 * c.val) v = updRing s c fun r => writeRing r o v := by
  have hc : c.val < 4 := c.isLt
  have hblock : (0x100 + o + 0x40 * c.val - 0x100) / 0x40 = c.val := by omega
  have hoff : (0x100 + o + 0x40 * c.val) % 0x40 = o := by omega
  have hctx : (BitVec.ofNat 2 c.val).toFin = c := Fin.ext (Nat.mod_eq_of_lt hc)
  unfold writeReg
  rw [if_neg (by omega), if_neg (by omega), if_neg (by omega), if_neg (by omega), if_pos (by omega), hblock, hoff, hctx]

theorem blockOffset_toNat (c : CtxId) (o : Nat) (ho : o < 0x40) :
    (BitVec.ofNat 16 (0x100 + o + 0x40 * c.val)).toNat = 0x100 + o + 0x40 * c.val := by
  have hc : c.val < 4 := c.isLt
  rw [BitVec.toNat_ofNat]
  omega

theorem exec_registerWrite_block {s : State} (hup : hostUp s = true) (c : CtxId) (o : Nat) (ho : o < 0x40) (ha : o % 4 = 0) (v : W64) :
    exec (.registerWrite (BitVec.ofNat 16 (0x100 + o + 0x40 * c.val)) false v) s =
      .next (updRing s c fun r => writeRing r o (v.extractLsb' 0 32)) := by
  have hn := blockOffset_toNat c o ho
  rw [exec_registerWrite_narrow hup _ _ (by omega), hn, writeReg_block s c o ho]

theorem exec_registerWrite_block_wide {s : State} (hup : hostUp s = true) (c : CtxId) (o : Nat) (ho : o + 4 < 0x40) (ha : o % 8 = 0)
    (v : W64) :
    exec (.registerWrite (BitVec.ofNat 16 (0x100 + o + 0x40 * c.val)) true v) s =
      .next (updRing s c fun r => writeRing (writeRing r o (v.extractLsb' 0 32)) (o + 4) (v.extractLsb' 32 32)) := by
  have hn := blockOffset_toNat c o (by omega)
  have hnext : 0x100 + o + 0x40 * c.val + 4 = 0x100 + (o + 4) + 0x40 * c.val := by omega
  rw [exec_registerWrite_wide hup _ _ (by omega), hn, writeReg_block s c o (by omega), hnext, writeReg_block _ c _ ho, updRing_updRing]

/-- MRBASE written whole; it stays while EN is 1 (R449). -/
theorem writeRing_mrbase (r : Ring) (v : W64) :
    writeRing (writeRing r 0x08 (v.extractLsb' 0 32)) 0x0C (v.extractLsb' 32 32) =
      if r.en then r else { r with mrbase := v &&& ~~~0xFFF } := by
  cases hen : r.en with
  | true => simp [writeRing, hen]
  | false =>
    have hbase := putHalf_both_masked r.mrbase v 0xFFF
    simp only [writeRing, hen, Bool.false_eq_true, if_false, mrbaseFields, hbase]

theorem exec_registerWrite_mrhead {s : State} (hup : hostUp s = true) (c : CtxId) (v : W64) :
    exec (.registerWrite (BitVec.ofNat 16 (0x118 + 0x40 * c.val)) false v) s =
      .next (updRing s c fun r => { r with mrhead := v.setWidth 32 }) := by
  rw [exec_registerWrite_block hup c 0x18 (by omega) rfl, ← BitVec.setWidth_eq_extractLsb' (by omega)]
  rfl

theorem exec_registerWrite_mrsize {s : State} (hup : hostUp s = true) (c : CtxId) (v : W64) :
    exec (.registerWrite (BitVec.ofNat 16 (0x110 + 0x40 * c.val)) false v) s =
      .next (updRing s c fun r => if r.en then r else { r with mrsize := v.setWidth 5 }) := by
  have hfield : (v.extractLsb' 0 32).extractLsb' 0 5 = v.setWidth 5 := by
    rw [← BitVec.setWidth_eq_extractLsb' (by omega), ← BitVec.setWidth_eq_extractLsb' (by omega),
      BitVec.setWidth_setWidth_of_le _ (by omega)]
  rw [exec_registerWrite_block hup c 0x10 (by omega) rfl, ← hfield]
  rfl

theorem exec_registerWrite_mrbase {s : State} (hup : hostUp s = true) (c : CtxId) (v : W64) :
    exec (.registerWrite (BitVec.ofNat 16 (0x108 + 0x40 * c.val)) true v) s =
      .next (updRing s c fun r => if r.en then r else { r with mrbase := v &&& ~~~0xFFF }) := by
  rw [exec_registerWrite_block_wide hup c 0x08 (by omega) rfl]
  exact congrArg (fun f => Host.Outcome.next (updRing s c f)) (funext fun r => writeRing_mrbase r v)

/-! ## Reads with an effect (R10, Table 15.6) -/

theorem exec_gcountLatchRead_low {s : State} (hup : hostUp s = true) :
    exec (.gcountLatchRead false) s = .next { s with host :=
      { s.host with rdata := s.cnt.count &&& 0xFFFFFFFF, latch := s.cnt.count.extractLsb' 32 32 } } := by
  have hlow : (s.cnt.count.extractLsb' 0 32).setWidth 64 = s.cnt.count &&& 0xFFFFFFFF := by
    generalize s.cnt.count = n
    apply BitVec.eq_of_toNat_eq
    rw [BitVec.toNat_setWidth_of_le (by omega), BitVec.extractLsb'_toNat, Nat.shiftRight_zero, BitVec.toNat_and]
    exact (Nat.and_two_pow_sub_one_eq_mod n.toNat 32).symm
  simp [exec, execGcountLatchRead, hup, hlow]

theorem exec_gcountLatchRead_high {s : State} (hup : hostUp s = true) :
    exec (.gcountLatchRead true) s = .next { s with host := { s.host with rdata := s.host.latch.setWidth 64 } } := by
  simp [exec, execGcountLatchRead, hup]

theorem exec_mdropRead_up {s : State} (hup : hostUp s = true) (c : CtxId) :
    exec (.mdropRead c) s = .next { s with host := { s.host with
      rdata := s.host.rings[c].mdrop.setWidth 64, rings := s.host.rings.set c { s.host.rings[c] with mdrop := 0 } } } := by
  simp [exec, execMdropRead, hup, updRing]

/-! ## RING_ENABLE (R449, R450, R452) -/

/-- Whatever R450 drops, a push changes the messages and MDROP alone. -/
theorem ringPush_frame (r : Ring) (m : Msg) :
    ringPush r m = { r with msgs := (ringPush r m).msgs, mdrop := (ringPush r m).mdrop } := by
  unfold ringPush
  split
  · rfl
  · split
    · rfl
    · split <;> rfl

theorem ringFront_frame (r : Ring) (m : Msg) :
    ringFront r m = { r with msgs := (ringFront r m).msgs, mdrop := (ringFront r m).mdrop } := by
  have hpush := ringPush_frame r m
  unfold ringFront
  dsimp only
  split
  · rw [hpush]
  · exact hpush

theorem ringFront_of_room (r : Ring) (m : Msg) (h : r.msgs.length < 256) : ringFront r m = { r with msgs := m :: r.msgs } := by
  simp [ringFront, ringPush, h]

/-- The READY message of a ring that is enabled. -/
def readyMsg (s : State) : Msg :=
  { type := mtReady, gen := 0, tag := 0, stamp := s.cnt.count, payload := padTo 48 (readyBytes s) }

/-- The ring whose MRCTL is written with `v`, before any READY message: EN from 0 to 1 starts the numbering at 0. -/
def withMrctl (v : W32) (r : Ring) : Ring :=
  { r with en := v.getLsbD 8, vec := v.extractLsb' 0 3, k := if v.getLsbD 8 && !r.en then 0 else r.k }

/-- The ring after RING_ENABLE. -/
def enabledRing (s : State) (v : W32) (r : Ring) : Ring :=
  if v.getLsbD 8 && !r.en && isReady s then ringFront (withMrctl v r) (readyMsg s) else withMrctl v r

theorem exec_ringEnable_up {s : State} (hup : hostUp s = true) (c : CtxId) (v : W32) :
    exec (.ringEnable c v) s = .next (updRing s c (enabledRing s v)) := by
  have hdown : ¬(!hostUp s) = true := by simp [hup]
  refine (congrArg Host.Outcome.next (if_neg hdown)).trans ?_
  refine congrArg Host.Outcome.next ?_
  cases hcond : (v.getLsbD 8 && !s.host.rings[c].en && isReady s) with
  | true =>
    refine (if_pos hcond).trans ((updRing_updRing ..).trans (updRing_congr s c ?_))
    exact (if_pos hcond).symm
  | false =>
    have hcond' := Bool.eq_false_iff.mp hcond
    refine (if_neg hcond').trans (updRing_congr s c ?_)
    exact (if_neg hcond').symm

/-- RING_ENABLE sets EN, VEC and the numbering alike, with and without a READY message. -/
theorem enabledRing_frame (s : State) (v : W32) (r : Ring) :
    enabledRing s v r = { withMrctl v r with msgs := (enabledRing s v r).msgs, mdrop := (enabledRing s v r).mdrop } := by
  unfold enabledRing
  split
  · exact ringFront_frame ..
  · rfl

theorem enabledRing_en (s : State) (v : W32) (r : Ring) : (enabledRing s v r).en = v.getLsbD 8 := by
  rw [enabledRing_frame]; rfl

theorem enabledRing_vec (s : State) (v : W32) (r : Ring) : (enabledRing s v r).vec = v.extractLsb' 0 3 := by
  rw [enabledRing_frame]; rfl

theorem enabledRing_k (s : State) (v : W32) (r : Ring) :
    (enabledRing s v r).k = if v.getLsbD 8 && !r.en then 0 else r.k := by
  rw [enabledRing_frame]; rfl

theorem enabledRing_k_of_rise (s : State) {v : W32} {r : Ring} (hv : v.getLsbD 8 = true) (hen : r.en = false) :
    (enabledRing s v r).k = 0 := by
  rw [enabledRing_k, hv, hen]; rfl

theorem enabledRing_msgs_of_rise {s : State} {v : W32} {r : Ring} (hv : v.getLsbD 8 = true) (hen : r.en = false)
    (hready : isReady s = true) (hroom : r.msgs.length < 256) : (enabledRing s v r).msgs = readyMsg s :: r.msgs := by
  have hcond : (v.getLsbD 8 && !r.en && isReady s) = true := by rw [hv, hen, hready]; rfl
  rw [enabledRing, if_pos hcond, ringFront_of_room (withMrctl v r) (readyMsg s) hroom]
  rfl

/-- Without a rise of EN the ring keeps its messages, and its number of entries (R449). -/
theorem enabledRing_of_no_rise (s : State) {v : W32} {r : Ring} (h : v.getLsbD 8 = false ∨ r.en = true) :
    (enabledRing s v r).k = r.k ∧ (enabledRing s v r).msgs = r.msgs := by
  have hrise : (v.getLsbD 8 && !r.en) = false := by
    rcases h with hv | hen
    · rw [hv, Bool.false_and]
    · rw [hen, Bool.not_true, Bool.and_false]
  refine ⟨by rw [enabledRing_k, hrise]; rfl, ?_⟩
  rw [enabledRing, hrise]
  rfl

/-! ## The obligation -/

/-- Settles O54: each command's own law above gives its clause. That messages queued while EN was 0 stay behind READY is the
model's reading (notes/assumptions/10). -/
theorem hostRegisters : Obligations.HostRegisters := by
  refine ⟨fun s c v l hup => ?_, fun s v hup => ⟨exec_registerWrite_tlmbase hup v, exec_registerWrite_msimod hup v, ?_, fun c => ?_⟩,
    fun s hup => ⟨exec_gcountLatchRead_low hup, exec_gcountLatchRead_high hup⟩, fun s c hup => ?_, fun s c v hup => ?_⟩
  · intro w tail
    rw [exec_doorbell_up hup]
    simp only [updRing_same, ← Nat.not_le, ite_not]
    rfl
  · refine ⟨_, exec_registerWrite_errsum hup v, ?_⟩
    rw [clearErrsum_extract]
    exact ⟨rfl, rfl, rfl, rfl⟩
  · exact ⟨exec_registerWrite_mrhead hup c v, exec_registerWrite_mrsize hup c v, exec_registerWrite_mrbase hup c v⟩
  · refine ⟨_, exec_mdropRead_up hup c, rfl, ?_, rfl⟩
    simp
  · refine ⟨_, exec_ringEnable_up hup c v, ?_⟩
    rw [updRing_same]
    exact ⟨enabledRing_en .., enabledRing_vec ..,
      fun hv hen => ⟨enabledRing_k_of_rise s hv hen, fun hready hroom =>
        ⟨readyMsg s, enabledRing_msgs_of_rise hv hen hready hroom, rfl, rfl⟩⟩,
      enabledRing_of_no_rise s, fun d hd => updRing_other s c _ d hd, updRing_frame ..⟩

end Sys2Proof.Machine
end

section
/-! PROOFS. What each link does alone: arriving flits that no row takes (O17), and credits, acknowledgements, replays, discards, lost
training and late flits (O15). -/

namespace Sys2Proof.Machine

/-! ## Arriving flits (R296 to R298) -/

section
variable {s : State} {l : Link} {f : Flit} (want : BitVec 128 → Bool) (k : State → State)

/-- Only a link that is up takes a flit. -/
theorem receive_of_down (hup : linkUp s l = false) : receive s l f want k = s := by
  simp [receive, hup]

theorem receive_of_bad (hup : linkUp s l = true) (hbad : flitGood s l f = false) : receive s l f want k = discardFlit s l := by
  simp [receive, hup, hbad]

/-- The layout of the header is read before its kind (R296). -/
theorem receive_of_illegal (hup : linkUp s l = true) (hgood : flitGood s l f = true) (hon : onLink s l f = true)
    (hill : hdrLegal f.hdr = false) : receive s l f want k = dieFault (arrived s l f) (receiveDie l) cLinkProtocol := by
  simp [receive, arrived, hup, hgood, hon, hill]

end

/-- The rows of a flit that arrives on a port and on no bridge: page transactions, votes and aborts. MIRROR_REBUILD, which also goes
on with a flit that the port holds, is not among them. -/
def portRows (p : PortId) (f : Flit) : List Instr :=
  [.lendReq p f, .lendAns p f, .lendFree p f, .rdReq p f, .rdData p f, .wrReq p f, .digestSet p f, .tileReq p f, .tileData p f,
    .passRec p f, .vote p f, .abortReceive p f]

/-- The row `i` is the arrival of the flit `f` on the link `l`. -/
def isArrival (s : State) (l : Link) (f : Flit) (i : Instr) : Prop :=
  i = .dataReceive l f ∨ i = .resp l f ∨ (∃ g a r b, i = .collReceive g a l f r b ∧ linkOfAxis s g a l = true) ∨
    ∃ p, l = .port p ∧ i ∈ portRows p f

/-- A page request that arrives is received before it is served. -/
theorem servePage_eq_receive (s : State) (p : PortId) (f : Flit) (kind : BitVec 5) (k : State → List Byte → State) :
    ∃ want k', servePage s p f kind k = receive s (.port p) f want k' := by
  unfold servePage receiveNow
  exact ⟨_, _, rfl⟩

theorem exec_of_servePage {s : State} {p : PortId} {f : Flit} {i : Instr} {kind : BitVec 5} {k : State → List Byte → State}
    (hi : exec i s = .next (servePage s p f kind k)) : ∃ want k', exec i s = .next (receive s (.port p) f want k') := by
  obtain ⟨want, k', hserve⟩ := servePage_eq_receive s p f kind k
  exact ⟨want, k', hserve ▸ hi⟩

theorem exec_portRows {p : PortId} {f : Flit} {i : Instr} (s : State) (hi : i ∈ portRows p f) :
    ∃ want k, exec i s = .next (receive s (.port p) f want k) := by
  simp only [portRows, List.mem_cons, List.not_mem_nil, or_false] at hi
  rcases hi with rfl | rfl | rfl | rfl | rfl | rfl | rfl | rfl | rfl | rfl | rfl | rfl
  · exact exec_of_servePage rfl
  · exact ⟨_, _, rfl⟩
  · exact exec_of_servePage rfl
  · exact exec_of_servePage rfl
  · exact ⟨_, _, rfl⟩
  · exact exec_of_servePage rfl
  · exact exec_of_servePage rfl
  · exact exec_of_servePage rfl
  · exact ⟨_, _, rfl⟩
  · exact exec_of_servePage rfl
  · exact ⟨_, _, rfl⟩
  · exact ⟨_, _, rfl⟩

theorem exec_collReceive_of_axis {s : State} {g : RegionId} {a : AxisId} {l : Link} (haxis : linkOfAxis s g a l = true) (f : Flit)
    (r : CollStep) (resid : Bool) : ∃ want k, exec (.collReceive g a l f r resid) s = .next (receive s l f want k) := by
  have hcond : ¬(!linkOfAxis s g a l) = true := by
    rw [haxis]
    decide
  exact ⟨_, _, congrArg Host.Outcome.next (if_neg hcond)⟩

/-- Every row of an arriving flit goes through `receive`, whatever it then does with a flit that it takes. -/
theorem exec_of_isArrival {s : State} {l : Link} {f : Flit} {i : Instr} (hi : isArrival s l f i) :
    ∃ want k, exec i s = .next (receive s l f want k) := by
  rcases hi with rfl | rfl | ⟨g, a, r, b, rfl, haxis⟩ | ⟨p, rfl, hrow⟩
  · exact ⟨_, _, rfl⟩
  · exact ⟨_, _, rfl⟩
  · exact exec_collReceive_of_axis haxis f r b
  · exact exec_portRows s hrow

/-- Settles O17: every row of an arriving flit goes through `receive`, which answers before the row's own work. That a reserved
PKIND or CKIND, a LEN above 240 and a wrong virtual channel break the layout is the model's reading (notes/assumptions/15). -/
theorem badFlitsDoNothing : Obligations.BadFlitsDoNothing := by
  intro s l f i hi
  obtain ⟨want, k, hexec⟩ := exec_of_isArrival hi
  rw [hexec]
  exact ⟨fun hup => congrArg _ (receive_of_down want k hup), fun hup hbad => congrArg _ (receive_of_bad want k hup hbad),
    fun hup hgood hon hill => congrArg _ (receive_of_illegal want k hup hgood hon hill)⟩

/-! ## Rows of one link (R298, R302, R533) -/

section
variable {s : State}

theorem exec_creditReturn_port {p : PortId} {vc : VcId} (hup : linkUp s (.port p) = true)
    (hroom : (endOf s (.port p)).credits[vc] < Port.fullCredits[vc]) :
    exec (.creditReturn (.port p) vc) s =
      .next (updPort s p fun q => { q with credits := q.credits.set vc (q.credits[vc] + 1) }) := by
  simp only [exec, execCreditReturn, hup, hroom, decide_true, Bool.and_true, if_true, updEnd_port]

theorem exec_creditReturn_bridge {a b : DieId} {vc : VcId} (hup : linkUp s (.bridge a b) = true)
    (hroom : (endOf s (.bridge a b)).credits[vc] < Port.fullCredits[vc]) (hgiven : 0 < (endOf s (.bridge a b)).toReturn[vc]) :
    exec (.creditReturn (.bridge a b) vc) s = .next (updEnd s (.bridge a b) fun q =>
      { q with credits := q.credits.set vc (q.credits[vc] + 1), toReturn := q.toReturn.set vc (q.toReturn[vc] - 1) }) := by
  simp only [exec, execCreditReturn, hup, hroom, hgiven, decide_true, Bool.and_true, if_true]

theorem mayAck_of_le {l : Link} {q : Port} {t : TxFlit} {n : Nat} (hlen : n ≤ q.unacked.length)
    (hrecv : ∀ a b, l = .bridge a b → n ≤ (q.rxNext - hSeq t.hdr).toNat) : mayAck l q t n = true := by
  refine Bool.and_eq_true_iff.mpr ⟨decide_eq_true hlen, ?_⟩
  cases l with
  | port p => rfl
  | bridge a b => exact decide_eq_true (hrecv a b rfl)

theorem exec_acknowledgement_up {l : Link} {seq : BitVec 14} {t : TxFlit} {rest : List TxFlit} (hup : linkUp s l = true)
    (hfirst : (endOf s l).unacked = t :: rest) (hmay : mayAck l (endOf s l) t (seq - hSeq t.hdr).toNat = true) :
    exec (.acknowledgement l seq) s =
      .next (updEnd s l fun q => { q with unacked := q.unacked.drop (seq - hSeq t.hdr).toNat }) := by
  simp only [exec, execAcknowledgement, hup, hfirst, hmay, if_true]

theorem exec_linkReplay_up {l : Link} (hup : linkUp s l = true) (hsent : (endOf s l).unacked ≠ []) :
    exec (.linkReplay l) s = .next (updEnd s l fun q => { q with replays := q.replays + 1 }) := by
  simp [exec, execLinkReplay, hup, hsent]

theorem exec_flitDiscard_bad {l : Link} {f : Flit} (hup : linkUp s l = true) (hbad : flitGood s l f = false) :
    exec (.flitDiscard l f) s = .next (discardFlit s l) := by
  simp [exec, execFlitDiscard, hup, hbad]

theorem exec_portTrainingLost_up {p : PortId} (hup : linkUp s (.port p) = true) :
    exec (.portTrainingLost p) s = .next
      (let t := updPort s p fun q => { q with state := 1 }
       if s.boot.phase = .linking then { t with boot := { t.boot with trainedAt := none } } else t) := by
  simp only [exec, execPortTrainingLost, hup, if_true, updPort_boot, beq_iff_eq]

/-! ## Late flits (R299) -/

/-- One flit sent at `n` and not acknowledged within the bound makes its link late. -/
theorem linkLate_of_unacked {l : Link} {t : TxFlit} {n : Nat} (hmem : t ∈ (endOf s l).unacked) (hsent : t.sent = some n)
    (hlate : n + ackBound l ≤ elapsed s) : linkLate s l = true := by
  refine Bool.or_eq_true_iff.mpr (.inl (List.any_eq_true.mpr ⟨t, hmem, ?_⟩))
  simp [hsent, hlate]

theorem exec_linkTimeout_late {l : Link} (hrun : running s = true) (hlate : linkLate s l = true) :
    exec (.linkTimeout l) s = .next (dieFault s (sendDie l) cLinkTimeout) := by
  simp [exec, execLinkTimeout, hrun, hlate]

theorem exec_linkTimeout_within {l : Link} (hin : linkLate s l = false) : exec (.linkTimeout l) s = .next s := by
  simp [exec, execLinkTimeout, hin]

end

/-- Settles O15: each row's own law above gives its clause. That a port whose training is lost keeps its numbering, credits and
replay store is the model's reading (notes/assumptions/41). -/
theorem linkControl : Obligations.LinkControl := by
  refine ⟨fun s l hup => ⟨fun vc hroom => ⟨?_, ?_⟩, fun seq t rest hfirst hlen hrecv => ?_, exec_linkReplay_up hup,
    fun f hbad => exec_flitDiscard_bad hup hbad, ?_⟩, fun s l => ⟨?_, exec_linkTimeout_within⟩⟩
  · rintro p rfl
    exact exec_creditReturn_port hup hroom
  · rintro a b rfl hgiven
    exact exec_creditReturn_bridge hup hroom hgiven
  · rw [← hfirst] at hlen
    exact exec_acknowledgement_up hup hfirst (mayAck_of_le hlen hrecv)
  · rintro p rfl
    exact exec_portTrainingLost_up hup
  · rintro hrun ⟨t, hmem, n, hsent, hlate⟩
    exact exec_linkTimeout_late hrun (linkLate_of_unacked hmem hsent hlate)

end Sys2Proof.Machine
end

section
/-! PROOFS. Exact accumulation (O21, O22): what one product does to a cell, case by case, and why the order of products that
saturate nothing does not matter (R52 to R54, R377). -/

namespace Sys2Proof.Machine

/-! ## One addition of a product (R52, R53) -/

/-- What a finite product adds to N, in units of 2^-48. -/
def productAddend (neg : Bool) (m : Nat) (e : Int) : Int :=
  signedM neg (if -48 ≤ e then m * 2 ^ (e + 48).toNat else m / 2 ^ (-48 - e).toNat)

section
variable {c : AccCell} {a b : Val}

theorem accProduct_of_nan (h : Val.mul a b = .nan) : accProduct c a b = (c.mark false false true, 0) := by
  simp only [accProduct, h]

theorem accProduct_of_inf {neg : Bool} (h : Val.mul a b = .inf neg) : accProduct c a b = (c.mark (!neg) neg false, 0) := by
  simp only [accProduct, h]

theorem accProduct_of_fin {neg : Bool} {m : Nat} {e : Int} (h : Val.mul a b = .fin neg m e) :
    accProduct c a b =
      let r := l128Clamp (c.n.toInt + productAddend neg m e)
      ({ c with n := BitVec.ofInt 128 r.1, rn := residAfter c a b e r.1 (r.2 != 0) }, r.2) := by
  simp only [accProduct, h, productAddend]

end

@[simp] theorem AccCell.mark_n (c : AccCell) (p n x : Bool) : (c.mark p n x).n = c.n := rfl
@[simp] theorem AccCell.mark_rn (c : AccCell) (p n x : Bool) : (c.mark p n x).rn = c.rn := rfl

theorem l128Clamp_natAbs_le (n : Int) : (l128Clamp n).1.natAbs ≤ 2 ^ 127 - 4 := by
  unfold l128Clamp l128Max
  split
  · omega
  · split <;> omega

/-- A sum that sets no ACC_SAT is exact. -/
theorem l128Clamp_of_no_sat {n : Int} (h : (l128Clamp n).2 = 0) : l128Clamp n = (n, 0) := by
  have hhi : ¬ l128Max < n := fun hlt => absurd h (by rw [l128Clamp, if_pos hlt]; decide)
  have hlo : ¬ n < -l128Max := fun hlt => absurd h (by rw [l128Clamp, if_neg hhi, if_pos hlt]; decide)
  rw [l128Clamp, if_neg hhi, if_neg hlo]

/-- A clamped sum fits the 128 bits of N. -/
theorem toInt_ofInt_clamp (n : Int) : (BitVec.ofInt 128 (l128Clamp n).1).toInt = (l128Clamp n).1 := by
  have hle := l128Clamp_natAbs_le n
  exact BitVec.toInt_ofInt_eq_self (by decide) (by omega) (by omega)

/-- Settles O22, by the three kinds of product: a NaN or an infinity marks the flags alone, and a finite one is clamped. -/
theorem sideFlagsStayAndBoundHolds : Obligations.SideFlagsStayAndBoundHolds := by
  intro c a b
  cases h : Val.mul a b with
  | nan => simp +contextual [accProduct_of_nan h, AccCell.mark]
  | inf neg => simp +contextual [accProduct_of_inf h, AccCell.mark]
  | fin neg m e =>
    rw [accProduct_of_fin h]
    refine ⟨id, id, id, fun _ => ?_, fun hfin => absurd hfin (by simp [Val.isFinite])⟩
    simp only [toInt_ofInt_clamp]
    exact l128Clamp_natAbs_le _

/-! ## The residue beside N (R377) -/

theorem resid_toNat (n : Int) : ((resid n).toNat : Int) = n % 7 := by
  have hle := Int.emod_nonneg n (by decide : (7 : Int) ≠ 0)
  have hlt := Int.emod_lt_of_pos n (by decide : (0 : Int) < 7)
  rw [resid, BitVec.toNat_ofNat, Nat.mod_eq_of_lt (by omega)]
  omega

/-- Powers of two repeat modulo 7 with period three. -/
theorem two_pow_mod_seven (k : Nat) : 2 ^ k % 7 = 2 ^ (k % 3) % 7 := by
  have hsplit : 2 ^ k = (2 ^ 3) ^ (k / 3) * 2 ^ (k % 3) := by rw [← Nat.pow_mul, ← Nat.pow_add, Nat.div_add_mod]
  have hone : (2 ^ 3) ^ (k / 3) % 7 = 1 := by rw [Nat.pow_mod, show 2 ^ 3 % 7 = 1 from rfl, Nat.one_pow]
  rw [hsplit, Nat.mul_mod, hone, Nat.one_mul, Nat.mod_mod]

/-- The step on residues gives the residue of the sum (R377). -/
theorem cellStep_resid (x y n : Int) (k : Nat) : cellStep (resid x) (resid y) k (resid n) = resid (n + x * y * 2 ^ k) := by
  have hpow : (2 : Int) ^ k % 7 = 2 ^ (k % 3) % 7 := mod_cast two_pow_mod_seven k
  refine congrArg (BitVec.ofNat 3) (Int.ofNat.inj ?_)
  simp only [Int.ofNat_eq_natCast]
  rw [Int.toNat_of_nonneg (Int.emod_nonneg _ (by decide))]
  push_cast [resid_toNat]
  simp [Int.add_emod, Int.mul_emod, hpow]

theorem signedM_mul (s t : Bool) (m n : Nat) : signedM s m * signedM t n = signedM (s != t) (m * n) := by
  cases s <;> cases t <;> simp [signedM, Int.neg_mul, Int.mul_neg]

theorem signedM_mul_pow (s : Bool) (m k : Nat) : signedM s (m * 2 ^ k) = signedM s m * 2 ^ k := by
  cases s <;> simp [signedM, Int.neg_mul]

/-- Only two finite factors have a finite product. -/
theorem mul_eq_fin {a b : Val} {neg : Bool} {m : Nat} {e : Int} (h : Val.mul a b = .fin neg m e) :
    ∃ s j x t k y, a = .fin s j x ∧ b = .fin t k y ∧ neg = (s != t) ∧ m = j * k := by
  unfold Val.mul at h
  split at h
  case h_6 s j x t k y =>
    cases h
    exact ⟨s, j, x, t, k, y, rfl, rfl, rfl, rfl⟩
  -- A zero times an infinity is NaN, and any other infinite factor makes an infinity.
  case h_4 | h_5 => split at h <;> cases h
  case h_1 | h_2 | h_3 => cases h

theorem signif_mul_of_fin {a b : Val} {neg : Bool} {m : Nat} {e : Int} (h : Val.mul a b = .fin neg m e) :
    a.signif * b.signif = signedM neg m := by
  obtain ⟨s, j, x, t, k, y, rfl, rfl, rfl, rfl⟩ := mul_eq_fin h
  exact signedM_mul ..

theorem checkBeat_iff {n : BitVec 128} {rn : BitVec 3} : checkBeat n rn = true ↔ rn = resid n.toInt := by
  rw [checkBeat, beq_iff_eq, eq_comm]

/-- Beside an N that it agrees with, a residue goes on to that of the next N. -/
theorem residAfter_eq {c : AccCell} {a b : Val} {neg : Bool} {m : Nat} {e : Int} (hc : checkBeat c.n c.rn = true)
    (h : Val.mul a b = .fin neg m e) :
    let r := l128Clamp (c.n.toInt + productAddend neg m e)
    residAfter c a b e r.1 (r.2 != 0) = resid r.1 := by
  intro r
  by_cases hshort : (r.2 != 0 || decide (e < -48)) = true
  · rw [residAfter, if_pos hshort]
  · obtain ⟨hsat, he⟩ : r.2 = 0 ∧ -48 ≤ e := by simpa using hshort
    have hr : r = _ := l128Clamp_of_no_sat hsat
    rw [residAfter, if_neg hshort, checkBeat_iff.mp hc, cellStep_resid, signif_mul_of_fin h, hr, productAddend, if_pos he,
      signedM_mul_pow]

/-- A product leaves N and its residue in agreement (R377). -/
theorem checkBeat_accProduct {c : AccCell} (a b : Val) (hc : checkBeat c.n c.rn = true) :
    checkBeat (accProduct c a b).1.n (accProduct c a b).1.rn = true := by
  cases h : Val.mul a b with
  | nan => simpa [accProduct_of_nan h] using hc
  | inf neg => simpa [accProduct_of_inf h] using hc
  | fin neg m e =>
    rw [accProduct_of_fin h]
    simp only [checkBeat_iff, toInt_ofInt_clamp]
    exact residAfter_eq hc h

/-! ## Order of products (R54) -/

/-- What one product leaves in a cell that held nothing, but for the residue. -/
def productDelta : Val → AccCell
  | .nan => AccCell.zero.mark false false true
  | .inf neg => AccCell.zero.mark (!neg) neg false
  | .fin neg m e => { AccCell.zero with n := BitVec.ofInt 128 (productAddend neg m e) }

/-- Two cells together, without bound and without residue. -/
def AccCell.plus (c d : AccCell) : AccCell :=
  { n := c.n + d.n, pinf := c.pinf || d.pinf, ninf := c.ninf || d.ninf, nanf := c.nanf || d.nanf, rn := 0, dup := c.dup ||| d.dup }

theorem AccCell.plus_right_comm (c d e : AccCell) : (c.plus d).plus e = (c.plus e).plus d := by
  simp only [AccCell.plus, AccCell.mk.injEq, true_and]
  exact ⟨by ac_rfl, Bool.or_right_comm .., Bool.or_right_comm .., Bool.or_right_comm .., by ac_rfl⟩

/-- A product that sets no ACC_SAT adds its delta, whatever the cell holds. -/
theorem accProduct_of_no_sat {c : AccCell} {a b : Val} (h : (accProduct c a b).2 = 0) :
    { (accProduct c a b).1 with rn := 0 } = c.plus (productDelta (Val.mul a b)) := by
  cases hv : Val.mul a b with
  | nan => simp [accProduct_of_nan hv, productDelta, AccCell.plus, AccCell.mark, AccCell.zero]
  | inf neg => simp [accProduct_of_inf hv, productDelta, AccCell.plus, AccCell.mark, AccCell.zero]
  | fin neg m e =>
    rw [accProduct_of_fin hv] at h ⊢
    simp [l128Clamp_of_no_sat h, productDelta, AccCell.plus, AccCell.zero, BitVec.ofInt_add]

/-- One step of an accumulation: the cell after a product, and the flags so far. -/
def accStep (acc : AccCell × AF) (ab : Val × Val) : AccCell × AF :=
  ((accProduct acc.1 ab.1 ab.2).1, acc.2 ||| (accProduct acc.1 ab.1 ab.2).2)

/-- An accumulation that sets no flag adds up the deltas of its products. -/
theorem foldl_accStep_of_no_sat (l : List (Val × Val)) (acc : AccCell × AF) (h : (l.foldl accStep acc).2 = 0) :
    acc.2 = 0 ∧ { (l.foldl accStep acc).1 with rn := 0 } =
      (l.map fun ab => productDelta (Val.mul ab.1 ab.2)).foldl AccCell.plus { acc.1 with rn := 0 } := by
  induction l generalizing acc with
  | nil => exact ⟨h, rfl⟩
  | cons ab l ih =>
    obtain ⟨hstep, hrest⟩ := ih (accStep acc ab) h
    obtain ⟨hacc, hprod⟩ := BitVec.or_eq_zero_iff.mp hstep
    refine ⟨hacc, hrest.trans ?_⟩
    exact congrArg (List.foldl AccCell.plus · _) (accProduct_of_no_sat hprod)

theorem checkBeat_foldl (l : List (Val × Val)) {acc : AccCell × AF} (h : checkBeat acc.1.n acc.1.rn = true) :
    checkBeat (l.foldl accStep acc).1.n (l.foldl accStep acc).1.rn = true :=
  foldl_keeps (P := fun acc : AccCell × AF => checkBeat acc.1.n acc.1.rn = true) (fun _ ab => checkBeat_accProduct ab.1 ab.2) h

/-- Cells that agree but for their residues, each of which agrees with its N, are equal. -/
theorem eq_of_checkBeat {c d : AccCell} (h : { c with rn := 0 } = { d with rn := 0 }) (hc : checkBeat c.n c.rn = true)
    (hd : checkBeat d.n d.rn = true) : c = d := by
  cases c
  cases d
  simp_all [checkBeat_iff]

/-- Settles O21: without saturation each product adds its own delta, deltas add in any order, and a residue that agrees with N is
N's. -/
theorem exactSumIgnoresOrder : Obligations.ExactSumIgnoresOrder := by
  intro c l m hperm run hl hm
  have hsame : { (run l).1 with rn := 0 } = { (run m).1 with rn := 0 } := calc
    _ = _ := (foldl_accStep_of_no_sat l (c, 0) hl).2
    _ = _ := (hperm.map _).foldl_eq' (fun d _ e _ c => AccCell.plus_right_comm c d e) _
    _ = _ := (foldl_accStep_of_no_sat m (c, 0) hm).2.symm
  exact ⟨hsame, fun hc => eq_of_checkBeat hsame (checkBeat_foldl l hc) (checkBeat_foldl m hc)⟩

end Sys2Proof.Machine
end

section
/-! PROOFS. What an engine leaves of the array: no read or write of one element, and nothing that closing the engine does, changes a
cluster of any region. -/

namespace Sys2Proof.Machine

/-- What every step of a fold leaves, the fold leaves. -/
theorem foldl_same {α β γ : Type} {φ : β → γ} {f : β → α → β} (hf : ∀ b a, φ (f b a) = φ b) (l : List α) (b : β) :
    φ (l.foldl f b) = φ b :=
  foldl_keeps (P := fun x => φ x = φ b) (fun x a hx => (hf x a).trans hx) rfl

/-! ## Records, HBM words and transactions leave the regions -/

@[simp] theorem post_regions (s : State) (c : CtxId) (t : Byte) (tag : W32) (gen : Byte) (l : List Byte) :
    (post s c t tag gen l).regions = s.regions := rfl

@[simp] theorem sendRec_regions (s : State) (r : Rec) : (sendRec s r).regions = s.regions := by
  unfold sendRec
  split
  · split <;> simp
  · exact foldl_same (φ := State.regions) (fun _ _ => post_regions ..) _ s

@[simp] theorem makeRec_regions (s : State) (r : Rec) : (makeRec s r).1.regions = s.regions := by
  simp [makeRec]

@[simp] theorem corrected_regions (s : State) (r : Rec) : (corrected s r).regions = s.regions := by
  unfold corrected
  dsimp only
  split <;> simp

@[simp] theorem hbmCorrected_regions (s : State) (base : Rec) (src : BitVec 16) (fs : List (Nat × Finding)) :
    (hbmCorrected s base src fs).regions = s.regions :=
  foldl_same (φ := State.regions) (fun _ _ => by simp) _ s

@[simp] theorem syncLeaf_regions (s : State) (c : CtxId) (page : Nat) : (syncLeaf s c page).regions = s.regions := by
  unfold syncLeaf putEntry
  split <;> simp

@[simp] theorem syncWhere_regions (s : State) (f : Resid → Bool) : (syncWhere s f).regions = s.regions :=
  foldl_same (φ := State.regions) (fun b _ => foldl_same (φ := State.regions) (fun _ _ => syncLeaf_regions ..) _ b) _ s

@[simp] theorem hbmPoisoned_regions (s : State) (base : Rec) (src : BitVec 16) (e : Nat × Finding) :
    (hbmPoisoned s base src e).1.regions = s.regions := by
  unfold hbmPoisoned
  dsimp only
  split <;> simp

@[simp] theorem hbmRefused_regions (s : State) (base : Rec) (e : Nat × Finding) : (hbmRefused s base e).1.regions = s.regions := rfl

@[simp] theorem sendFlit_regions (s : State) (p : PortId) (vc : VcId) (hdr : BitVec 128) (l : List Byte) :
    (sendFlit s p vc hdr l).regions = s.regions := rfl

@[simp] theorem sendPage_regions (s : State) (p : PortId) (kind : BitVec 5) (c : CtxId) (tag : BitVec 16) (gen : BitVec 4) (blk : Nat)
    (l : List Byte) : (sendPage s p kind c tag gen blk l).regions = s.regions :=
  foldl_same (φ := State.regions) (fun _ _ => sendFlit_regions ..) _ s

theorem drawTag_regions {s t : State} {tag : BitVec 16} {gen : BitVec 4} (h : drawTag s = some (tag, gen, t)) :
    t.regions = s.regions := by
  obtain ⟨_, _, he⟩ := Option.map_eq_some_iff.mp h
  cases he
  rfl

@[simp] theorem beginTxn_regions (s : State) (w : TxnWait) : (beginTxn s w).regions = s.regions := by
  unfold beginTxn
  split
  · rfl
  · next hdraw => simp [drawTag_regions hdraw]

@[simp] theorem sendOut_regions (s : State) (who : Who) (c : CtxId) (fetched : Mem) (o : Sparse Byte) :
    (sendOut s who c fetched o).regions = s.regions := by
  refine foldl_same (φ := State.regions) (fun t e => ?_) _ s
  unfold startTxn
  repeat' split
  all_goals simp

/-! ## Steps of an engine that leave the module as it is -/

@[simp] theorem engStop_s (e : Eng) (cause : Cause) (r : Rec) : (engStop e cause r).s = e.s := by
  unfold engStop
  split <;> rfl

@[simp] theorem engSramStop_s (e : Eng) (b : Nat × Finding) : (engSramStop e b).s = e.s := engStop_s ..

@[simp] theorem engFix_s (e : Eng) (fs : List (Nat × Finding)) : (engFix e fs).s = e.s := rfl

@[simp] theorem engFlushSram_s (e : Eng) : (engFlushSram e).s = e.s := by
  unfold engFlushSram
  split
  · rfl
  · dsimp only
    split <;> simp

@[simp] theorem engSpend_s (e : Eng) : (engSpend e).2.s = e.s := by
  unfold engSpend
  split <;> rfl

@[simp] theorem engRead_s (e : Eng) (off n : Nat) : (engRead e off n).2.s = e.s := by
  unfold engRead
  dsimp only
  repeat' split
  all_goals simp

@[simp] theorem engWrite_s (e : Eng) (off : Nat) (l : List Byte) : (engWrite e off l).s = e.s := by
  unfold engWrite
  dsimp only
  repeat' split
  all_goals simp

@[simp] theorem noteOut_s (e : Eng) (a : Nat) (l : List Byte) : (noteOut e a l).s = e.s := rfl

@[simp] theorem engDigest_s (e : Eng) (c : CtxId) (a : Nat) (l : List Byte) : (engDigest e c a l).s = e.s := by
  unfold engDigest
  split
  · rfl
  · refine foldl_same (φ := Eng.s) (fun _ _ => ?_) _ e
    dsimp only
    split <;> rfl

/-! ## Writes to HBM leave the regions -/

@[simp] theorem engFindings_regions (e : Eng) (src : BitVec 16) (cause : Cause) (a : Nat) (fs : List (Nat × Finding)) :
    (engFindings e src cause a fs).s.regions = e.s.regions := by
  unfold engFindings
  split
  · rfl
  · split <;> simp

@[simp] theorem engFlushHbm_regions (e : Eng) : (engFlushHbm e).s.regions = e.s.regions := by
  unfold engFlushHbm
  split
  · rfl
  · dsimp only
    split <;> simp

@[simp] theorem engFlush_regions (e : Eng) : (engFlush e).s.regions = e.s.regions := by simp [engFlush]

@[simp] theorem engFirstWrite_regions (e : Eng) (c : CtxId) (r : Resid) (a : Nat) (go : Bool) :
    (engFirstWrite e c r a go).s.regions = e.s.regions := by
  unfold engFirstWrite
  dsimp only
  repeat' split
  all_goals simp

@[simp] theorem engHbmWrite_regions (e : Eng) (a ph : Nat) (l : List Byte) (go : Bool) :
    (engHbmWrite e a ph l go).s.regions = e.s.regions := by
  unfold engHbmWrite
  repeat' split
  all_goals simp

/-! ## Walks enter the translation cache of a region and leave its clusters -/

theorem updRegion_clusters (s : State) (g : RegionId) {f : Region → Region} (hf : ∀ r, (f r).clusters = r.clusters) :
    (updRegion s g f).regions.map Region.clusters = s.regions.map Region.clusters := by
  refine Vector.ext fun j hj => ?_
  rw [Vector.getElem_map, Vector.getElem_map]
  by_cases hjg : (⟨j, hj⟩ : RegionId) = g
  · subst hjg
    exact (congrArg Region.clusters (updRegion_same ..)).trans (hf _)
  · exact congrArg Region.clusters (updRegion_other s g f ⟨j, hj⟩ hjg)

theorem touchPage_clusters (r : Region) (p : Nat) (v : W64) : (touchPage r p v).clusters = r.clusters := rfl

/-- What is found in the words of a walk leaves the regions. -/
theorem walk_regions (l : List Nat) (e : Eng) (a : Nat) :
    (l.foldl (fun e w => if e.stop.isSome then e else engFindings e srcHbmDemand cBusError a (hbmFindings e.s.hbm w 8)) e).s.regions =
      e.s.regions :=
  foldl_same (φ := fun e : Eng => e.s.regions) (fun _ _ => by split <;> simp) l e

@[simp] theorem engTranslate_clusters (e : Eng) (c : CtxId) (a : Nat) :
    (engTranslate e c a).s.regions.map Region.clusters = e.s.regions.map Region.clusters := by
  unfold engTranslate
  dsimp only
  split
  · exact updRegion_clusters _ _ fun _ => touchPage_clusters ..
  · split
    · rw [walk_regions]
    · dsimp only
      rw [updRegion_clusters _ _ fun r => touchPage_clusters r .., walk_regions]

@[simp] theorem engCtxRead_clusters (e : Eng) (a n : Nat) :
    (engCtxRead e a n).2.s.regions.map Region.clusters = e.s.regions.map Region.clusters := by
  unfold engCtxRead
  dsimp only
  repeat' split
  all_goals simp

@[simp] theorem engCtxWrite_clusters (e : Eng) (a : Nat) (l : List Byte) :
    (engCtxWrite e a l).s.regions.map Region.clusters = e.s.regions.map Region.clusters := by
  unfold engCtxWrite
  dsimp only
  repeat' split
  all_goals simp

@[simp] theorem engElem_clusters (e : Eng) (d : Td) (o : Int) :
    (engElem e d o).2.s.regions.map Region.clusters = e.s.regions.map Region.clusters := by
  unfold engElem
  dsimp only
  split <;> simp

@[simp] theorem engPutBytes_clusters (e : Eng) (d : Td) (a : Int) (l : List Byte) :
    (engPutBytes e d a l).s.regions.map Region.clusters = e.s.regions.map Region.clusters := by
  unfold engPutBytes
  split <;> simp

@[simp] theorem engPut_clusters (e : Eng) (d : Td) (o : Int) (v : Nat) :
    (engPut e d o v).s.regions.map Region.clusters = e.s.regions.map Region.clusters := by
  unfold engPut
  dsimp only
  split
  · split <;> simp
  · simp

@[simp] theorem drainCell_clusters (d : Drain) (p : PassOp) (cells : Sparse AccCell) (i j : Nat) :
    (drainCell d p cells i j).e.s.regions.map Region.clusters = d.e.s.regions.map Region.clusters := by
  unfold drainCell
  dsimp only
  repeat' split
  all_goals simp

@[simp] theorem sramCorrected_clusters (s : State) (base : Rec) (g : RegionId) (st : Store) (src : BitVec 16)
    (fs : List (Nat × Finding)) :
    (sramCorrected s base g st src fs).regions.map Region.clusters = s.regions.map Region.clusters :=
  foldl_same (φ := fun s : State => s.regions.map Region.clusters) (fun t e => by
    dsimp only
    rw [updRegion_clusters _ _ fun r => by split <;> rfl, corrected_regions]) _ s

@[simp] theorem engClose_clusters (e : Eng) (who : Who) :
    (engClose e who).1.regions.map Region.clusters = e.s.regions.map Region.clusters := by
  unfold engClose
  dsimp only
  split <;> simp [updRegion_clusters]

/-- A pass that has been drained leaves every cluster as it was, until its bank is freed. -/
theorem drain_clusters (l : List (Nat × Nat)) (p : PassOp) (cells : Sparse AccCell) (d : Drain) (who : Who) (g : RegionId) :
    (engClose (engFlush (l.foldl (fun d ij => drainCell d p cells ij.1 ij.2) d).e) who).1.regions[g].clusters =
      d.e.s.regions[g].clusters := by
  have hall : (engClose (engFlush (l.foldl (fun d ij => drainCell d p cells ij.1 ij.2) d).e) who).1.regions.map Region.clusters =
      d.e.s.regions.map Region.clusters := by
    rw [engClose_clusters, engFlush_regions]
    exact foldl_same (φ := fun d : Drain => d.e.s.regions.map Region.clusters) (fun _ _ => drainCell_clusters ..) l d
  simpa only [Fin.getElem_fin, Vector.getElem_map] using congrArg (fun v => v[g]) hall

end Sys2Proof.Machine
end

section
/-! PROOFS. Passes (O29): a preload sweep that nothing stops, and a drain sweep that shares no preload. -/

namespace Sys2Proof.Machine

@[simp] theorem engFault_none (s : State) (g : RegionId) : engFault s g none = s := rfl

theorem putPreload_bank (cl : Cluster) (b : Fin 2) (p : PassOp) (cells : Sparse AccCell) (f : AF) :
    (putPreload cl b p cells f).banks[b] = { cl.banks[b] with cells := cells, preloaded := true, preFlags := f } := by
  unfold putPreload
  split <;> exact updBank_same ..

/-- A change of one cluster is known by its value at the cluster. -/
theorem updCluster_congr (s : State) (g : RegionId) (c : ClusterId) {f h : Cluster → Cluster}
    (hfh : f s.regions[g].clusters[c] = h s.regions[g].clusters[c]) :
    updRegion s g (fun r => updCluster r c f) = updRegion s g (fun r => updCluster r c h) := by
  dsimp only [updRegion, updCluster]
  rw [hfh]

section
variable {s : State} {g : RegionId} {c : ClusterId} {b : Fin 2} {p : PassOp} {cl : Cluster}

/-- The preload of the next pass for a free bank is due when its source is ready (R59, R85, R160). -/
theorem exec_preloadSweep_due (hcl : s.regions[g].clusters[c] = cl) (hbeat : beatToken s g = true) (hnext : nextFor cl b = some p)
    (hfree : cl.banks[b].phase = .free) (hnew : cl.banks[b].preloaded = false) (hpre : p.pre ≠ 0)
    (hready : preloadReady cl b p = true) (hown : cl.borrowed = false) :
    let q := preCells (engOpen s g (BitVec.ofNat 8 c.val) p.stream .off none []) cl p
    exec (.preloadSweep g c b) s = .next
      (engFault (updRegion (engClose q.2.2 (.feed g c)).1 g fun r => updCluster r c fun cl => putPreload cl b p q.1 q.2.1) g
        q.2.2.stop) := by
  simp only [exec, execPreloadSweep, hcl, hbeat, hnext, hfree, hnew, hready, hown, bne_iff_ne.mpr hpre, beq_self_eq_true,
    Bool.not_true, Bool.not_false, Bool.and_true, Bool.false_eq_true, if_true, if_false]

/-- A landed pass for whose bank no other has been issued is resolved and written (R56 to R59, R87 to R91), when its check beat
finds no mismatch (R377) and its drain meets no stop. -/
theorem exec_drainSweep_alone {run : PassRun} {d : Drain} (hcl : s.regions[g].clusters[c] = cl) (hbeat : beatToken s g = true)
    (hbank : drainBank cl = some b) (hrun : cl.banks[b].run = some run) (hpart : run.parts.getLast? = some p)
    (hroom : p.dst = 1 → cl.tileQ.length < 8) (hchecks : bankChecks cl.banks[b] p = true) (hnext : nextFor cl b = none)
    (hd : (passCells p).foldl (fun d ij => drainCell d p cl.banks[b].cells ij.1 ij.2)
      { e := engOpen s g (BitVec.ofNat 8 c.val) p.stream .off none [], tile := [], run := run } = d)
    (hstop : (engFlush d.e).stop = none) :
    exec (.drainSweep g c) s = .next
      (updRegion (engClose (engFlush d.e) (.feed g c)).1 g fun r => updCluster r c fun k =>
        updBank { k with
          drained := k.drained ++ [{ d.run with digest := digestOfPass s g p run cl.banks[b].cells }],
          tileQ := if p.dst = 1 then k.tileQ ++ [{ m := p.m, n := p.n, cells := d.tile, readable := false, taken := false, bad := false }]
            else k.tileQ } b fun _ => Bank.reset) := by
  have hfits : (p.dst == 1 && decide (8 ≤ cl.tileQ.length)) = false := by simpa using hroom
  simp only [exec, execDrainSweep, hcl, hbeat, hbank, hrun, hpart, hfits, hchecks, hnext, hd, hstop, engFault_none, Option.filter_none,
    Option.isNone_none, Bool.not_true, Bool.or_false, Bool.false_eq_true, if_true, if_false]
  by_cases htile : p.dst = 1
  · simp only [htile, beq_self_eq_true, if_true]
  · simp only [htile, beq_eq_false_iff_ne.mpr htile, Bool.false_eq_true, if_false]

end

/-- Settles O29: each sweep's own law above, where nothing stops it. The statement takes the digest over the bank of the cluster
as the closed engine leaves it, which is the bank that the drain began with (`drain_clusters`). That all of a sweep's writes are
in place at its row is the model's choice (notes/assumptions/34). -/
theorem passesPreloadAndDrain : Obligations.PassesPreloadAndDrain := by
  refine ⟨?_, ?_⟩
  · intro s g c b p cl hbeat hnext hfree hnew hpre hready hown q hstop
    refine ⟨_, ?_, rfl, ?_, ?_⟩
    · rw [exec_preloadSweep_due rfl hbeat hnext hfree hnew hpre hready hown]
      exact congrArg (fun stop => Host.Outcome.next (engFault _ g stop)) hstop
    · rw [updRegion_same, updCluster_same, putPreload_bank]
    · rw [updRegion_same, updCluster_same, putPreload_bank]
  · intro s g c b run p cl hbeat hbank hrun hpart hroom hchecks hnext d hstop
    refine ⟨_, exec_drainSweep_alone (d := d) rfl hbeat hbank hrun hpart hroom hchecks hnext rfl hstop, updCluster_congr _ _ _ ?_⟩
    have hcl : (engClose (engFlush d.e) (.feed g c)).1.regions[g].clusters[c] = cl :=
      congrArg (fun v => v[c]) (drain_clusters (passCells p) p cl.banks[b].cells _ _ g)
    rw [hcl]

end Sys2Proof.Machine
end

section
/-! PROOFS. Passes at their completion point (O30): a drained pass, and a hold pass whose check beat comes. -/

namespace Sys2Proof.Machine

/-! ## Changes of one region -/

/-- A change of one region is known by its value at the region. -/
theorem updRegion_congr (s : State) (g : RegionId) {f h : Region → Region} (hfh : f s.regions[g] = h s.regions[g]) :
    updRegion s g f = updRegion s g h := by
  rw [updRegion, hfh, updRegion]

theorem updRegion_updRegion (s : State) (g : RegionId) (f h : Region → Region) :
    updRegion (updRegion s g f) g h = updRegion s g fun r => h (f r) := by
  simp [updRegion]

/-- A change of one region leaves the rest of the module. -/
theorem updRegion_frame (s : State) (g : RegionId) (f : Region → Region) :
    updRegion s g f = { s with regions := s.regions.set g (updRegion s g f).regions[g] } := by
  rw [updRegion_same, updRegion]

/-- A change of one region that a view of it does not show leaves that view of every region. -/
theorem updRegion_map {α : Type} {φ : Region → α} (s : State) (g : RegionId) {f : Region → Region} (hf : ∀ r, φ (f r) = φ r) :
    (updRegion s g f).regions.map φ = s.regions.map φ := by
  refine Vector.ext fun j hj => ?_
  rw [Vector.getElem_map, Vector.getElem_map]
  by_cases hjg : (⟨j, hj⟩ : RegionId) = g
  · subst hjg
    exact (congrArg φ (updRegion_same ..)).trans (hf _)
  · exact congrArg φ (updRegion_other s g f ⟨j, hj⟩ hjg)

/-- What a view shows alike of all regions, it shows alike of each. -/
theorem region_of_map {α : Type} {φ : Region → α} {s t : State} (h : t.regions.map φ = s.regions.map φ) (g : RegionId) :
    φ t.regions[g] = φ s.regions[g] := by
  simpa only [Fin.getElem_fin, Vector.getElem_map] using congrArg (fun v => v[g]) h

/-! ## Signals and flags leave the rest of a region -/

section
variable (r : Region) (sig : Option (Fin 64)) (i : StreamId)

@[simp] theorem evSignal_streams : (evSignal r sig i).streams = r.streams := by cases sig <;> rfl
@[simp] theorem evSignal_clusters : (evSignal r sig i).clusters = r.clusters := by cases sig <;> rfl
@[simp] theorem evSignal_ev : (evSignal r sig i).ev = r.ev := by cases sig <;> rfl
@[simp] theorem evSignal_chans : (evSignal r sig i).chans = r.chans := by cases sig <;> rfl
@[simp] theorem evSignal_mrun : (evSignal r sig i).mrun = r.mrun := by cases sig <;> rfl
@[simp] theorem evSignal_wins : (evSignal r sig i).wins = r.wins := by cases sig <;> rfl
@[simp] theorem evSignal_lateFills : (evSignal r sig i).lateFills = r.lateFills := by cases sig <;> rfl

/-- What a signal leaves pending depends on what was pending alone (R207, R209). -/
theorem evSignal_evPend {q : Region} (hpend : r.evPend = q.evPend) :
    (∀ e, sig = some e → (evSignal r sig i).evPend = (evAdd q e 1 (some i)).evPend) ∧
      (sig = none → (evSignal r sig i).evPend = q.evPend) := by
  refine ⟨fun e he => ?_, fun hn => ?_⟩
  · subst he
    simp only [evSignal, evAdd, hpend]
  · subst hn
    exact hpend

end

/-! ## Completion of one pass (R91 to R93, R103, R207) -/

/-- What PSTAT of a run's stream takes (Table 3.5). -/
def passStatus (run : PassRun) (p : PassOp) (cl : Cluster) : W64 :=
  pstatWord (nextSeq cl.pstat[p.stream]) run.nonfin run.retries run.dfSteps (run.flags &&& 0x1F)

/-- The cluster whose PSTAT has taken the status of a run. -/
def notePass (run : PassRun) (p : PassOp) (cl : Cluster) : Cluster :=
  { cl with pstat := cl.pstat.set p.stream (passStatus run p cl) }

/-- The region at the completion point of a run of one pass. -/
def completePass (c : ClusterId) (run : PassRun) (p : PassOp) (r : Region) : Region :=
  evSignal (updStream (updCluster r c (notePass run p)) p.stream fun st => raiseAflags st (run.flags &&& 0x1F)) p.sig p.stream

/-- The cluster that gives up a drained run, whose tile becomes readable (R91, R93). -/
def giveDrained (rest : List PassRun) (p : PassOp) (cl : Cluster) : Cluster :=
  { cl with drained := rest, tileQ := if p.dst = 1 then markReadable cl.tileQ else cl.tileQ }

/-- The cluster whose bank `b` is held from now on, with its cells as they are (R88, R92). -/
def holdPass (b : Fin 2) (run : PassRun) (cl : Cluster) : Cluster :=
  { updBank cl b (fun k => { k with phase := .held, heldAt := cl.heldSeq, run := some run }) with heldSeq := cl.heldSeq + 1 }

/-- A hold pass after its check beat: NONFINITE counts the cells as they resolve (Table 3.5). -/
def checkedRun (s : State) (g : RegionId) (p : PassOp) (cells : Sparse AccCell) (run : PassRun) : PassRun :=
  { run with nonfin := run.nonfin + holdNonfin p run cells, digest := digestOfPass s g p run cells }

section
variable (c : ClusterId) (run : PassRun) (p : PassOp) (r : Region)

theorem holdPass_bank (b : Fin 2) (cl : Cluster) :
    (holdPass b run cl).banks[b] = { cl.banks[b] with phase := .held, heldAt := cl.heldSeq, run := some run } := by
  rw [holdPass, updBank_same]

theorem holdPass_bank_other (b j : Fin 2) (hj : j ≠ b) (cl : Cluster) : (holdPass b run cl).banks[j] = cl.banks[j] := by
  rw [holdPass, updBank_other _ _ _ _ hj]

theorem completePass_banks : (completePass c run p r).clusters[c].banks = r.clusters[c].banks := by
  rw [completePass, evSignal_clusters, updStream_clusters, updCluster_same, notePass]

theorem completePass_cluster : (completePass c run p r).clusters[c] = notePass run p r.clusters[c] := by
  rw [completePass, evSignal_clusters, updStream_clusters, updCluster_same]

theorem completePass_stream :
    (completePass c run p r).streams[p.stream] = raiseAflags r.streams[p.stream] (run.flags &&& 0x1F) := by
  rw [completePass, evSignal_streams, updStream_same, updCluster_streams]

theorem completePass_evPend {q : Region} (hpend : r.evPend = q.evPend) :
    (∀ e, p.sig = some e → (completePass c run p r).evPend = (evAdd q e 1 (some p.stream)).evPend) ∧
      (p.sig = none → (completePass c run p r).evPend = q.evPend) :=
  evSignal_evPend _ _ _ hpend

theorem completePass_ev : (completePass c run p r).ev = r.ev := by
  rw [completePass, evSignal_ev, updStream_ev, updCluster_ev]

end

section
variable {s : State} {g : RegionId} {c : ClusterId} {run : PassRun} {p : PassOp}

theorem getLast_of_single (hparts : run.parts = [p]) : run.parts.getLast? = some p := by rw [hparts]; rfl

/-- Outside lock-step mode a pass leaves no record (R428). -/
theorem passDone_single (hlock : s.boot.cfg.lockEnable = false) (hparts : run.parts = [p]) :
    passDone s g c run = updRegion s g (completePass c run p) := by
  simp only [passDone, getLast_of_single hparts, lockRecord, updRegion_boot, hlock, Bool.not_false, if_true]
  refine updRegion_congr s g ?_
  simp only [hparts, List.map, signalAll, List.foldl, completePass, notePass, passStatus, updCluster]

/-- A drained pass has written its last row. -/
theorem exec_passCompletion_drained {rest : List PassRun} (hlock : s.boot.cfg.lockEnable = false)
    (hdrained : s.regions[g].clusters[c].drained = run :: rest) (hparts : run.parts = [p]) :
    exec (.passCompletion g c) s =
      .next (updRegion s g fun r => completePass c run p (updCluster r c (giveDrained rest p))) := by
  simp only [exec, execPassCompletion, hdrained, getLast_of_single hparts, beq_iff_eq]
  rw [passDone_single (by exact hlock) hparts, updRegion_updRegion]
  rfl

/-- The check beat of a landed hold pass finds no mismatch (R88, R92, R377). -/
theorem exec_passCompletion_hold {cl : Cluster} {k : Bank} (hcl : s.regions[g].clusters[c] = cl) (hk : cl.banks[cl.nextBank] = k)
    (hlock : s.boot.cfg.lockEnable = false) (hdrained : cl.drained = []) (hlanded : k.phase = .landed) (hrun : k.run = some run)
    (hparts : run.parts = [p]) (hdst : p.dst = 2) (hchecks : bankChecks k p = true) :
    exec (.passCompletion g c) s = .next (updRegion s g fun r =>
      completePass c (checkedRun s g p k.cells run) p (updCluster r c (holdPass cl.nextBank (checkedRun s g p k.cells run)))) := by
  simp only [exec, execPassCompletion, hcl, hdrained, hk, hlanded, hrun, getLast_of_single hparts, hdst, beq_self_eq_true, hchecks,
    Bool.and_true, Bool.not_true, Bool.false_eq_true, if_true, if_false]
  rw [passDone_single (by exact hlock) (by exact hparts), updRegion_updRegion]
  rfl

end

/-- Settles O30: the two laws of PASS_COMPLETION above, each read off at the cluster and the stream of the pass. -/
theorem passesComplete : Obligations.PassesComplete := by
  refine ⟨?_, ?_⟩
  · intro s g c run p cl k hlock hdrained hlanded hrun hparts hdst hchecks
    refine ⟨_, exec_passCompletion_hold rfl rfl hlock hdrained hlanded hrun hparts hdst hchecks, updRegion_frame .., ?_⟩
    have hother : (1 - cl.nextBank : Fin 2) ≠ cl.nextBank := by
      generalize cl.nextBank = b
      omega
    rw [updRegion_same, completePass_banks, completePass_cluster, completePass_stream, completePass_ev, updCluster_same,
      holdPass_bank, holdPass_bank_other _ _ _ hother]
    exact ⟨rfl, rfl, rfl, rfl, rfl, rfl⟩
  · intro s g c run rest p cl hlock hdrained hparts
    refine ⟨_, exec_passCompletion_drained hlock hdrained hparts, updRegion_frame .., ?_⟩
    rw [updRegion_same, completePass_cluster, completePass_stream, completePass_ev, updCluster_same]
    obtain ⟨hsig, hquiet⟩ := completePass_evPend c run p (r := updCluster s.regions[g] c (giveDrained rest p)) (q := s.regions[g]) rfl
    exact ⟨rfl, rfl, rfl, rfl, rfl, hsig, hquiet, rfl⟩

end Sys2Proof.Machine
end

section
/-! PROOFS. Passes that take operands (O28): the feeder stays in its region and leaves the queues of its cluster. -/

namespace Sys2Proof.Machine

/-! ## Reads leave the region of an engine -/

@[simp] theorem engStop_g (e : Eng) (cause : Cause) (r : Rec) : (engStop e cause r).g = e.g := by
  unfold engStop
  split <;> rfl

@[simp] theorem engSramStop_g (e : Eng) (b : Nat × Finding) : (engSramStop e b).g = e.g := engStop_g ..

@[simp] theorem engFix_g (e : Eng) (fs : List (Nat × Finding)) : (engFix e fs).g = e.g := rfl

@[simp] theorem engFlushSram_g (e : Eng) : (engFlushSram e).g = e.g := by
  unfold engFlushSram
  split
  · rfl
  · dsimp only
    split <;> simp

@[simp] theorem engRead_g (e : Eng) (off n : Nat) : (engRead e off n).2.g = e.g := by
  unfold engRead
  dsimp only
  repeat' split
  all_goals simp

@[simp] theorem engFindings_g (e : Eng) (src : BitVec 16) (cause : Cause) (a : Nat) (fs : List (Nat × Finding)) :
    (engFindings e src cause a fs).g = e.g := by
  unfold engFindings
  split
  · rfl
  · split <;> simp

@[simp] theorem engFlushHbm_g (e : Eng) : (engFlushHbm e).g = e.g := by
  unfold engFlushHbm
  split
  · rfl
  · dsimp only
    split <;> simp

/-- A walk reads its words for the region of its engine. -/
theorem walk_g (l : List Nat) (e : Eng) (a : Nat) :
    (l.foldl (fun e w => if e.stop.isSome then e else engFindings e srcHbmDemand cBusError a (hbmFindings e.s.hbm w 8)) e).g = e.g :=
  foldl_same (φ := Eng.g) (fun _ _ => by split <;> simp) l e

@[simp] theorem engTranslate_g (e : Eng) (c : CtxId) (a : Nat) : (engTranslate e c a).g = e.g := by
  unfold engTranslate
  dsimp only
  split
  · rfl
  · split <;> exact walk_g ..

@[simp] theorem engCtxRead_g (e : Eng) (a n : Nat) : (engCtxRead e a n).2.g = e.g := by
  unfold engCtxRead
  dsimp only
  repeat' split
  all_goals simp

@[simp] theorem engElem_g (e : Eng) (d : Td) (o : Int) : (engElem e d o).2.g = e.g := by
  unfold engElem
  dsimp only
  split <;> simp

@[simp] theorem engElems_g (d : Td) (n : Nat) (e : Eng) (i : Nat) : (engElems e d i n).2.g = e.g := by
  induction n generalizing e i with
  | zero => rfl
  | succ n ih => exact (ih ..).trans (engElem_g ..)

/-! ## The feeder -/

@[simp] theorem sideScale_g (e : Eng) (sd : Side) (k : Nat) : (sideScale e sd k).2.g = e.g := by
  unfold sideScale
  split
  · dsimp only
    split <;> exact engElems_g ..
  · rfl

@[simp] theorem sideVec_g (e : Eng) (cl : Cluster) (sd : Side) (direct : Bool) (lanes k : Nat) :
    (sideVec e cl sd direct lanes k).2.g = e.g := by
  unfold sideVec
  dsimp only
  repeat' split
  all_goals simp

/-- A step of the feeder works for the same region, and of its cluster it changes the replay buffer alone (R95). -/
theorem feedStep_frame (f : Feed) (p : PassOp) :
    (feedStep f p).e.g = f.e.g ∧ (feedStep f p).cl = { f.cl with replay := (feedStep f p).cl.replay } := by
  unfold feedStep
  refine ⟨by simp, ?_⟩
  dsimp only
  split <;> rfl

theorem feedResident_frame (p : PassOp) (n : Nat) (f : Feed) :
    (feedResident p n f).e.g = f.e.g ∧ (feedResident p n f).cl = { f.cl with replay := (feedResident p n f).cl.replay } := by
  induction n generalizing f with
  | zero => exact ⟨rfl, rfl⟩
  | succ n ih =>
    unfold feedResident
    dsimp only
    split
    · split
      · obtain ⟨hg, hcl⟩ := ih (feedStep f p)
        obtain ⟨hg', hcl'⟩ := feedStep_frame f p
        refine ⟨hg.trans hg', hcl.trans ?_⟩
        rw [hcl']
      · exact ⟨rfl, rfl⟩
    · exact ⟨rfl, rfl⟩

/-! ## Passes that take operands (R73 to R84, R99, R286) -/

/-- Every step of the last part is in (R80, R83). -/
def fedOut (f : Feed) (p : PassOp) : Bool := decide (p.k ≤ f.run.step) && !f.run.feeding && !p.more

theorem fedOut_iff (f : Feed) (p : PassOp) : fedOut f p = true ↔ p.k ≤ f.run.step ∧ f.run.feeding = false ∧ p.more = false := by
  simp [fedOut, and_assoc]

/-- What a feeder that nothing stopped leaves of its cluster. -/
theorem feedClose_cluster {f : Feed} {g : RegionId} (c : ClusterId) (b : Fin 2) (p : PassOp) (hg : f.e.g = g) (hstop : f.e.stop = none) :
    (feedClose f c b p).regions[g].clusters[c] =
      updBank { f.cl with cur := if fedOut f p then none else some b } b fun k =>
        { k with cells := f.cells, run := some f.run, phase := if fedOut f p then .landed else .busy } := by
  subst hg
  rw [feedClose]
  dsimp only
  rw [hstop, engFault_none, updRegion_same, updCluster_same]
  rfl

/-- The feeder's steps leave the queues of its cluster, and the bank lands once they are all in (R80, R83). -/
theorem feedClose_fed {f0 f : Feed} {p : PassOp} {n : Nat} {g : RegionId} (c : ClusterId) (b : Fin 2) (hf : feedResident p n f0 = f)
    (hg : f0.e.g = g) (hstop : f.e.stop = none) :
    (feedClose f c b p).regions[g].clusters[c].passQ = f0.cl.passQ ∧ (feedClose f c b p).regions[g].clusters[c].vq = f0.cl.vq ∧
      (feedClose f c b p).regions[g].clusters[c].banks[b].phase =
        if p.k ≤ f.run.step ∧ f.run.feeding = false ∧ p.more = false then .landed else .busy := by
  subst hf
  obtain ⟨hgf, hcl⟩ := feedResident_frame p n f0
  have hpassQ : (feedResident p n f0).cl.passQ = f0.cl.passQ := (congrArg Cluster.passQ hcl).trans rfl
  have hvq : (feedResident p n f0).cl.vq = f0.cl.vq := (congrArg Cluster.vq hcl).trans rfl
  rw [feedClose_cluster c b p (hgf.trans hg) hstop, updBank_same]
  refine ⟨hpassQ, hvq, ?_⟩
  simp only [fedOut_iff]

/-- The run of a pass that starts in bank `k`: the next part of the chain that has begun there, or a run of its own (R80, R83). -/
def startRun (k : Bank) (p : PassOp) (sa sb : W32) : PassRun :=
  match k.run with
  | some run => { run with parts := run.parts ++ [p], step := 0, feeding := false, asked := [] }
  | none => { parts := [p], sa := sa, sb := sb, step := 0, feeding := false, directA := false, directB := false, fetched := [],
              asked := [], retries := 0, dfSteps := 0, nonfin := 0, flags := k.preFlags, digest := 0 }

/-- The cluster whose queue a pass leaves for bank `b` (R83, R84, R95). -/
def startCluster (cl : Cluster) (b : Fin 2) (p : PassOp) (rest : List PassOp) : Cluster :=
  updBank { cl with passQ := rest, replay := openCapture cl.replay p, nextBank := if p.cont then cl.nextBank else 1 - b } b
    fun k => { k with preloaded := false, preFlags := 0 }

section
variable {s : State} {g : RegionId} {c : ClusterId} {cl : Cluster} {b : Fin 2} {p : PassOp} {run : PassRun}

/-- The head of the pass queue starts: its scales are those of its run (R54, R55). -/
theorem exec_passStart_fed {rest : List PassOp} {sa sb : W32} {e0 e1 e2 : Eng} (hcl : s.regions[g].clusters[c] = cl)
    (hbeat : beatToken s g = true) (hq : cl.passQ = p :: rest) (hbank : startBank cl p = some b) (hown : cl.borrowed = false)
    (he : engOpen s g (BitVec.ofNat 8 c.val) p.stream .off none [] = e0) (ha : sideScale e0 p.a p.k = (some sa, e1))
    (hb : sideScale e1 p.b p.k = (some sb, e2)) (hrun : startRun cl.banks[b] p sa sb = run) (hsa : run.sa = sa) (hsb : run.sb = sb) :
    exec (.passStart g c) s = .next (feedClose
      (feedResident p (p.k + 1) { e := e2, cl := startCluster cl b p rest, cells := cl.banks[b].cells, run := run }) c b p) := by
  subst hrun
  simp only [exec, execPassStart, hcl, hbeat, hq, hbank, hown, he, ha, hb, Bool.not_true, Bool.false_eq_true, if_false]
  unfold startRun at hsa hsb ⊢
  cases hk : cl.banks[b].run with
  | none => simp only [bne_self_eq_false, Bool.or_self, Bool.false_eq_true, if_false, startCluster, hown]
  | some old =>
    simp only [hk] at hsa hsb
    simp only [hsa, hsb, bne_self_eq_false, Bool.or_self, Bool.false_eq_true, if_false, startCluster, hown]

/-- A step that waits: the units of it that lie in other modules' frames and are not asked for yet are asked for (R99, R286). -/
theorem exec_directFeed_asks {x : CtxId} {want : List Nat} (hcl : s.regions[g].clusters[c] = cl) (hbeat : beatToken s g = true)
    (hcur : cl.cur = some b) (hrun : cl.banks[b].run = some run) (hpart : run.parts.getLast? = some p) (hfeeding : run.feeding = true)
    (hctx : s.regions[g].ctx = some x) (hwant : (t2Units s x (runDirect run p)).filter (fun u => !run.asked.contains u) = want)
    (hsome : want ≠ []) :
    exec (.directFeed g c) s = .next (updRegion (fetchUnits s (.feed g c) x want) g fun r => updCluster r c fun cl =>
      updBank cl b fun q => { q with run := some { run with asked := run.asked ++ want } }) := by
  have hask : want.isEmpty = false := by simpa using hsome
  simp only [exec, execDirectFeed, hcl, hbeat, hcur, hrun, hpart, hfeeding, hctx, hwant, hask, Bool.not_true, Bool.not_false,
    Bool.false_eq_true, if_true, if_false]

/-- A step that waits for nothing more is fed from the tiers that hold it (R99, R288). -/
theorem exec_directFeed_feeds {x : CtxId} {f : Feed} (hcl : s.regions[g].clusters[c] = cl) (hbeat : beatToken s g = true)
    (hcur : cl.cur = some b) (hrun : cl.banks[b].run = some run) (hpart : run.parts.getLast? = some p) (hfeeding : run.feeding = true)
    (hctx : s.regions[g].ctx = some x) (hwant : (t2Units s x (runDirect run p)).filter (fun u => !run.asked.contains u) = [])
    (hwaits : waitsFor s (.feed g c) = false)
    (hf : feedStep { e := engOpen s g (BitVec.ofNat 8 c.val) p.stream .off none run.fetched, cl := cl, cells := cl.banks[b].cells,
                     run := run } p = f) :
    exec (.directFeed g c) s = .next (feedClose (feedResident p (p.k + 1)
      { f with e := { f.e with s := { f.e.s with dfBytes := countDirect s x (runDirect run p) s.dfBytes } } }) c b p) := by
  simp only [exec, execDirectFeed, hcl, hbeat, hcur, hrun, hpart, hfeeding, hctx, hwant, hwaits, hf, List.isEmpty_nil, Bool.not_true,
    Bool.false_eq_true, if_false]

end

/-- Settles O28: the feeder works on its own region and leaves the queues of its cluster (`feedClose_fed`); the rest is what each row
does. -/
theorem passesStart : Obligations.PassesStart := by
  refine ⟨?_, ?_⟩
  · intro s g c p rest b sa sb cl hbeat hq hbank hown e ha hb run hsa hsb f
    refine ⟨feedClose f c b p, ?_, rfl, fun hstop => feedClose_fed c b (f0 := ⟨_, startCluster cl b p rest, _, run⟩) rfl ?_ hstop⟩
    · exact exec_passStart_fed rfl hbeat hq hbank hown rfl (Prod.ext ha rfl) (Prod.ext hb rfl) rfl hsa hsb
    · exact (sideScale_g ..).trans (sideScale_g ..)
  · intro s g c b run p x r cl hbeat hcur hrun hpart hfeeding hctx addrs want
    exact ⟨fun hsome => exec_directFeed_asks rfl hbeat hcur hrun hpart hfeeding hctx rfl hsome,
      fun hnone hwaits => exec_directFeed_feeds rfl hbeat hcur hrun hpart hfeeding hctx hnone hwaits rfl⟩

end Sys2Proof.Machine
end

section
/-! PROOFS. Macros of the solver (O31, O33): the borrow of a cluster, a macro that nothing stops, and its completion point. -/

namespace Sys2Proof.Machine

/-! ## MACRO_START (R98, R162, R173, R175, R277) -/

section
variable {s : State} {g : RegionId} {m : MacroOp} {rest : List MacroOp}

theorem exec_solverBorrow_free {c : ClusterId} (hbeat : beatToken s g = true) (hidle : s.regions[g].mrun = none)
    (hq : s.regions[g].mq = m :: rest) (hmask : m.bm.getLsbD c.val = true) (hfree : borrowable s.regions[g].clusters[c] = true) :
    exec (.solverBorrow g c) s = .next (updRegion s g fun r => updCluster r c fun cl => { cl with borrowed := true }) := by
  simp only [exec, execSolverBorrow, hbeat, hidle, hq, hmask, hfree, Bool.not_true, Bool.and_self, Bool.false_eq_true, if_true, if_false]

/-- One of the solver's macros that has all it waits for does its work, when nothing stops it (R162, R173, R175). -/
theorem exec_macroStart_runs {a : MAcc} (hbeat : beatToken s g = true) (hidle : s.regions[g].mrun = none)
    (hq : s.regions[g].mq = m :: rest) (hlent : ∀ c : ClusterId, m.bm.getLsbD c.val = true → s.regions[g].clusters[c].borrowed = true)
    (hchan : usesContext m = true → s.regions[g].chans[(11 : ChanId)].run = none ∧ s.regions[g].chans[(11 : ChanId)].q = [])
    (hunits : ∀ x, s.regions[g].ctx = some x → t2Units s x (macroAddrs m) = []) (hwaits : waitsFor s (.solver g) = false)
    (ha : runMacro { e := engOpen s g 0xFF m.stream .solver none s.regions[g].mfetched, seen := [], code := 0, nit := 0, cold := false,
                     floored := 0, flags := 0, resid := 0, rx := none } m = a)
    (hstop : (engFlush a.e).stop = none) :
    exec (.macroStart g) s = .next (updRegion (takeSolver (engClose (engFlush a.e) (.solver g)).1 g m) g fun r =>
      { r with mq := rest, mfetched := [], masked := [],
               mrun := some { op := m, code := a.code, nit := BitVec.ofNat 5 a.nit, cold := a.cold, floored := a.floored,
                              flags := a.flags, resid := a.resid, rxVal := a.rx, failed := false,
                              tiles := (engClose (engFlush a.e) (.solver g)).2 } }) := by
  have hall : (List.finRange 4).all (fun c => !m.bm.getLsbD c.val || s.regions[g].clusters[c].borrowed) = true := by
    refine List.all_eq_true.mpr fun c _ => ?_
    cases hc : m.bm.getLsbD c.val with
    | false => rfl
    | true => exact hlent c hc
  have hfree : (usesContext m && (s.regions[g].chans[(11 : ChanId)].run.isSome || s.regions[g].chans[(11 : ChanId)].q != [])) = false := by
    cases hu : usesContext m with
    | false => rfl
    | true =>
      obtain ⟨hrun, hempty⟩ := hchan hu
      rw [hrun, hempty]
      rfl
  simp only [exec, execMacroStart, hbeat, hidle, hq, hall, hfree, Bool.not_true, Bool.or_self, Bool.false_eq_true, if_false]
  cases hctx : s.regions[g].ctx with
  | none =>
    simp only [hwaits, ha, hstop, Option.isNone_none, Option.isSome_none, engFault_none, Bool.false_eq_true, if_true, if_false]
  | some x =>
    simp only [hunits x hctx, List.filter_nil, hwaits, ha, hstop, Option.isNone_none, Option.isSome_none, engFault_none,
      Bool.false_eq_true, if_true, if_false]

end

/-- Settles O31: the laws of SOLVER_BORROW and MACRO_START above. That all reads and writes are in place at the row MACRO_START is the
model's choice (notes/assumptions/34). -/
theorem macrosStart : Obligations.MacrosStart := by
  refine ⟨?_, ?_⟩
  · intro s g c m rest hbeat hidle hq hmask hfree
    exact exec_solverBorrow_free hbeat hidle hq hmask hfree
  · intro s g m rest r hbeat hidle hq hlent hchan hunits hwaits a hstop
    exact ⟨_, exec_macroStart_runs hbeat hidle hq hlent hchan hunits hwaits rfl hstop, rfl⟩

/-! ## MACRO_COMPLETION (R98, R167, R177, R194, R195) -/

/-- An operation that wrote into no digest range adds no tile (R423). -/
theorem addTiles_nil (s : State) (base : Rec) (c : CtxId) : addTiles s base c [] = s := by
  change updCtx s c id = s
  simp [updCtx]

/-- RX takes a value where the operation gives one. -/
def takeRx (rx : BitVec 5) (v : Option W64) (st : Stream) : Stream :=
  match v with
  | some x => xWrite st rx x
  | none => st

section
variable (rx : BitVec 5) (v : Option W64) (st : Stream)

theorem xWrite_frame (x : W64) : xWrite st rx x = { st with x := (xWrite st rx x).x } := by
  unfold xWrite
  split <;> rfl

/-- Only the scalar registers take RX. -/
theorem takeRx_frame : takeRx rx v st = { st with x := (takeRx rx v st).x } := by
  cases v with
  | some x => exact xWrite_frame ..
  | none => rfl

variable {rx v}

theorem xRead_takeRx {x : W64} (hv : v = some x) (hrx : rx ≠ 0) : xRead (takeRx rx v st) rx = x := by
  subst hv
  exact xRead_xWrite st rx x hrx

theorem takeRx_of_none (hv : v = none) : takeRx rx v st = st := by
  subst hv
  rfl

end

/-- The stream of one of the macros at its completion point: SSTAT, SRES and AFLAGS, before RX. -/
def macroStream (run : MacroRun) (st : Stream) : Stream :=
  raiseAflags { st with sstat := sstatWord (nextSeq st.sstat) run.code run.nit run.cold run.floored run.flags, sres := run.resid }
    (run.flags &&& 0x1F)

/-- The region once the borrowed clusters have gone back (R98). -/
def returnLent (m : MacroOp) (r : Region) : Region :=
  { r with mrun := none,
           clusters := Vector.ofFn fun c => if m.bm.getLsbD c.val then returnCluster r.clusters[c] else r.clusters[c] }

/-- The region once the buffers of the solver's channel have gone back to the pool (R277). -/
def freeSolver (m : MacroOp) (r : Region) : Region :=
  if usesContext m then updChan r 11 fun c => { c with held := 0 } else r

/-- The region at the completion point of one of the macros. -/
def completeMacro (run : MacroRun) (r : Region) : Region :=
  evSignal (updStream (freeSolver run.op (returnLent run.op r)) run.op.stream
    fun st => takeRx run.op.rx run.rxVal (macroStream run st)) run.op.sig run.op.stream

section
variable (m : MacroOp) (run : MacroRun) (r : Region)

/-- Of a region the solver's channel alone gives buffers back. -/
theorem freeSolver_frame : freeSolver m r = { r with chans := (freeSolver m r).chans } := by
  unfold freeSolver
  split <;> rfl

theorem freeSolver_held (hctx : usesContext m = true) : (freeSolver m r).chans[(11 : ChanId)].held = 0 := by
  rw [freeSolver, if_pos hctx, updChan_same]

theorem completeMacro_chans : (completeMacro run r).chans = (freeSolver run.op (returnLent run.op r)).chans := by
  rw [completeMacro, evSignal_chans, updStream_chans]

theorem completeMacro_mrun : (completeMacro run r).mrun = none := by
  rw [completeMacro, evSignal_mrun, updStream_mrun, freeSolver_frame]
  rfl

theorem completeMacro_cluster (c : ClusterId) : (completeMacro run r).clusters[c] =
    if run.op.bm.getLsbD c.val then returnCluster r.clusters[c] else r.clusters[c] := by
  rw [completeMacro, evSignal_clusters, updStream_clusters, freeSolver_frame]
  simp [returnLent]

theorem completeMacro_stream : (completeMacro run r).streams[run.op.stream] =
    takeRx run.op.rx run.rxVal (macroStream run r.streams[run.op.stream]) := by
  rw [completeMacro, evSignal_streams, updStream_same, freeSolver_frame]
  rfl

theorem completeMacro_evPend (e : Fin 64) (he : run.op.sig = some e) :
    (completeMacro run r).evPend = (evAdd r e 1 (some run.op.stream)).evPend := by
  refine (evSignal_evPend _ _ _ ?_).1 e he
  rw [updStream_evPend, freeSolver_frame]
  rfl

end

/-- One of the macros that waits for no answer of another module reaches its completion point (R167, R195). -/
theorem exec_macroCompletion_done {s : State} {g : RegionId} {run : MacroRun} (hrun : s.regions[g].mrun = some run)
    (hfailed : run.failed = false) (hwaits : waitsFor s (.solver g) = false) (htiles : run.tiles = []) :
    exec (.macroCompletion g) s = .next (updRegion s g (completeMacro run)) := by
  simp only [exec, execMacroCompletion, hrun, hfailed, hwaits, htiles, addTiles_nil, Bool.or_self, Bool.false_eq_true, if_false]
  cases hctx : s.regions[g].ctx <;> rfl

/-- Settles O33: the law of MACRO_COMPLETION above, read off at the clusters, the channel and the stream. -/
theorem macrosComplete : Obligations.MacrosComplete := by
  intro s g run r m hrun hfailed hwaits htiles
  refine ⟨_, exec_macroCompletion_done hrun hfailed hwaits htiles, updRegion_frame .., ?_⟩
  rw [updRegion_same]
  have hst := completeMacro_stream run r
  have hframe := takeRx_frame run.op.rx run.rxVal (macroStream run r.streams[run.op.stream])
  rw [← hst] at hframe
  refine ⟨completeMacro_mrun .., fun hctx => ?_, completeMacro_cluster _ _, ?_, ?_, ?_, fun x hx hrx => ?_, fun hnone => ?_,
    completeMacro_evPend _ _⟩
  · rw [completeMacro_chans, freeSolver_held _ _ hctx]
  · rw [hframe]
    rfl
  · rw [hframe]
    rfl
  · rw [hframe]
    rfl
  · rw [hst, xRead_takeRx _ hx hrx]
  · rw [hst, takeRx_of_none _ hnone]
    rfl

end Sys2Proof.Machine
end

section
/-! PROOFS. What an engine leaves of a region: everything but its scratchpad, its write-backs and its translation cache. -/

namespace Sys2Proof.Machine

/-- A region without what its engines work on. -/
def Region.still (r : Region) : Region := { r with scratch := { mem := [], chk := [] }, writeBacks := [], tcache := [] }

/-- The regions of an engine without what it works on. -/
def Eng.still (e : Eng) : Vector Region 64 := e.s.regions.map Region.still

/-! ## Reads and writes -/

@[simp] theorem engFlag_still (e : Eng) (f : AF) : (engFlag e f).still = e.still := rfl

@[simp] theorem engStop_still (e : Eng) (cause : Cause) (r : Rec) : (engStop e cause r).still = e.still := by simp [Eng.still]

@[simp] theorem engRead_still (e : Eng) (off n : Nat) : (engRead e off n).2.still = e.still := by simp [Eng.still]

@[simp] theorem engWrite_still (e : Eng) (off : Nat) (l : List Byte) : (engWrite e off l).still = e.still := by simp [Eng.still]

@[simp] theorem engTranslate_still (e : Eng) (c : CtxId) (a : Nat) : (engTranslate e c a).still = e.still := by
  unfold engTranslate Eng.still
  dsimp only
  split
  · exact updRegion_map _ _ fun _ => rfl
  · split
    · rw [walk_regions]
    · refine (updRegion_map _ _ fun r => ?_).trans (by rw [walk_regions])
      rfl

@[simp] theorem engCtxRead_still (e : Eng) (a n : Nat) : (engCtxRead e a n).2.still = e.still := by
  have hread (c : CtxId) := engTranslate_still e c a
  unfold Eng.still at hread ⊢
  unfold engCtxRead
  dsimp only
  repeat' split
  all_goals simp [hread]

@[simp] theorem engCtxWrite_still (e : Eng) (a : Nat) (l : List Byte) : (engCtxWrite e a l).still = e.still := by
  have hwrite (e : Eng) (c : CtxId) := engTranslate_still e c a
  unfold Eng.still at hwrite ⊢
  unfold engCtxWrite
  dsimp only
  repeat' split
  all_goals simp [hwrite]

@[simp] theorem engElem_still (e : Eng) (d : Td) (o : Int) : (engElem e d o).2.still = e.still := by
  unfold engElem
  dsimp only
  split
  · exact engCtxRead_still ..
  · exact engRead_still ..

@[simp] theorem engPutBytes_still (e : Eng) (d : Td) (a : Int) (l : List Byte) : (engPutBytes e d a l).still = e.still := by
  unfold engPutBytes
  split
  · exact engCtxWrite_still ..
  · exact engWrite_still ..

@[simp] theorem engPut_still (e : Eng) (d : Td) (o : Int) (v : Nat) : (engPut e d o v).still = e.still := by
  unfold engPut
  dsimp only
  split
  · rw [engPutBytes_still]
    split
    · exact engCtxRead_still ..
    · exact engRead_still ..
  · exact engPutBytes_still ..

@[simp] theorem engPutPair_still (e : Eng) (d : Td) (i v w : Nat) : (engPutPair e d i v w).still = e.still :=
  engPutBytes_still ..

@[simp] theorem engFlush_still (e : Eng) : (engFlush e).still = e.still := by
  simp [Eng.still]

/-! ## Closing an engine -/

theorem sramCorrected_still (s : State) (base : Rec) (g : RegionId) (st : Store) (src : BitVec 16) (fs : List (Nat × Finding)) :
    (sramCorrected s base g st src fs).regions.map Region.still = s.regions.map Region.still :=
  foldl_same (φ := fun s : State => s.regions.map Region.still) (fun t e => by
    dsimp only
    rw [updRegion_map _ _ fun r => by split <;> rfl, corrected_regions]) _ s

theorem engClose_still (e : Eng) (who : Who) : (engClose e who).1.regions.map Region.still = e.still := by
  unfold engClose
  dsimp only
  split
  all_goals
    simp only [sendOut_regions, sramCorrected_still]
    exact updRegion_map _ _ fun _ => rfl

/-! ## Copies (R147, R148) -/

@[simp] theorem tileElem_still (e : Eng) (t : TileEnt) (o : Int) : (tileElem e t o).2.still = e.still := by
  unfold tileElem
  dsimp only
  split
  · exact engStop_still ..
  · rfl

@[simp] theorem copyRead_still (e : Eng) (d : Td) (tile : Option TileEnt) (i : Nat) : (copyRead e d tile i).2.still = e.still := by
  unfold copyRead
  repeat' split
  all_goals simp

@[simp] theorem copyStep_still (src dst : Td) (tile : Option TileEnt) (i : Nat) (e : Eng) :
    (copyStep src dst tile i e).2.still = e.still := by
  simp [copyStep]

theorem still_of_copyStep {src dst : Td} {tile : Option TileEnt} {i w : Nat} {e q : Eng} (h : copyStep src dst tile i e = (w, q)) :
    q.still = e.still := by
  rw [← copyStep_still src dst tile i e, h]

theorem copyFrom_still (src dst : Td) (tile : Option TileEnt) (n i : Nat) (e : Eng) : (copyFrom src dst tile n i e).still = e.still := by
  fun_induction copyFrom src dst tile n i e with
  | case1 => rfl
  | case2 i e w q hstep => rw [engPut_still, still_of_copyStep hstep]
  | case3 i e n w q hstep hpair x q' hstep' ih => rw [ih, engPutPair_still, still_of_copyStep hstep', still_of_copyStep hstep]
  | case4 i e n w q hstep hpair ih => rw [ih, engPut_still, still_of_copyStep hstep]

/-- What an engine leaves, it leaves when a stop makes it run again. -/
theorem engRun_still (s : State) {f : State → Option Nat → Eng} (hf : ∀ s l, (f s l).still = s.regions.map Region.still) :
    (engRun s f).still = s.regions.map Region.still := by
  unfold engRun engStopped
  dsimp only
  split
  · rw [engFlush_still, hf]
  · split
    · rw [engFlush_still, hf]
    · exact (engFlush_still _).trans (hf ..)

theorem wins_of_still {s t : State} (h : t.regions.map Region.still = s.regions.map Region.still) (g : RegionId) :
    t.regions[g].wins = s.regions[g].wins := by
  have hwins := congrArg Region.wins (region_of_map h g)
  exact hwins

theorem clusters_of_still {s t : State} (h : t.regions.map Region.still = s.regions.map Region.still) (g : RegionId) :
    t.regions[g].clusters = s.regions[g].clusters := by
  have hclusters := congrArg Region.clusters (region_of_map h g)
  exact hclusters

/-- Moving elements leaves the windows of its region. -/
theorem moveElems_wins (s : State) (g : RegionId) (k : ChanId) (run : ChanRun) (i n : Nat) :
    (moveElems s g k run i n).1.regions[g].wins = s.regions[g].wins := by
  unfold moveElems
  dsimp only
  rw [updRegion_same, updStream_wins]
  refine wins_of_still (s := s) ?_ g
  refine (engClose_still ..).trans (engRun_still s fun t l => ?_)
  exact copyFrom_still ..

end Sys2Proof.Machine
end

section
/-! PROOFS. The vector engine: while an instruction runs it leaves every region but what its engine works on. -/

namespace Sys2Proof.Machine

/-! ## One element -/

@[simp] theorem vFlag_still (a : VAcc) (f : AF) : (vFlag a f).e.still = a.e.still := rfl

@[simp] theorem vCheck_still (a : VAcc) (ok : Bool) : (vCheck a ok).e.still = a.e.still := rfl

@[simp] theorem noteOor_still (a : VAcc) : (noteOor a).e.still = a.e.still := rfl

@[simp] theorem vRead_still (a : VAcc) (d : Td) (o : Int) : (vRead a d o).2.e.still = a.e.still := by
  unfold vRead
  dsimp only
  repeat' split
  all_goals simp

@[simp] theorem vWrite_still (a : VAcc) (d : Td) (o : Int) (v : Nat) : (vWrite a d o v).e.still = a.e.still :=
  engPut_still ..

@[simp] theorem vInput_still (a : VAcc) (sh : Td) (x : Option (BitVec 256)) (isIn : Bool) (i : Nat) :
    (vInput a sh x isIn i).2.e.still = a.e.still := by
  unfold vInput
  split
  · exact vRead_still ..
  · rfl

@[simp] theorem vResult_still (a : VAcc) (sh : Td) (i : Nat) : (vResult a sh i).2.e.still = a.e.still := by
  unfold vResult
  dsimp only
  split <;> simp

@[simp] theorem putResult_still (a : VAcc) (sh o : Td) (i : Nat) (r : W32) (conv : BitVec 4 → Rnd → Bool → W32 → Nat × AF) :
    (putResult a sh o i r conv).e.still = a.e.still :=
  vWrite_still ..

@[simp] theorem vIndex_still (a : VAcc) (sh : Td) (i : Nat) : (vIndex a sh i).2.e.still = a.e.still := by
  unfold vIndex
  split
  · exact vRead_still ..
  · rfl

/-! ## Lists of elements -/

/-- A fold over elements leaves the regions when each of its steps does; beside the engine it gathers a value. -/
theorem foldl_still_snd {α β : Type} {f : β × VAcc → α → β × VAcc} (hf : ∀ b x, (f b x).2.e.still = b.2.e.still)
    (l : List α) (b : β × VAcc) : (l.foldl f b).2.e.still = b.2.e.still :=
  foldl_same (φ := fun b : β × VAcc => b.2.e.still) hf l b

theorem foldl_still_fst {α β : Type} {f : VAcc × β → α → VAcc × β} (hf : ∀ b x, (f b x).1.e.still = b.1.e.still)
    (l : List α) (b : VAcc × β) : (l.foldl f b).1.e.still = b.1.e.still :=
  foldl_same (φ := fun b : VAcc × β => b.1.e.still) hf l b

theorem foldl_still {α : Type} {f : VAcc → α → VAcc} (hf : ∀ a x, (f a x).e.still = a.e.still) (l : List α) (a : VAcc) :
    (l.foldl f a).e.still = a.e.still :=
  foldl_same (φ := fun a : VAcc => a.e.still) hf l a

@[simp] theorem vectorResults_still (a : VAcc) (sh : Td) (first n : Nat) :
    (vectorResults a sh first n).2.e.still = a.e.still := by
  refine foldl_still_snd (fun b i => ?_) _ _
  exact vResult_still ..

@[simp] theorem vReads'_still (a : VAcc) (sh d : Td) (l : List Nat) : (vReads' a sh d l).2.e.still = a.e.still := by
  refine foldl_still_snd (fun b i => ?_) _ _
  exact vRead_still ..

@[simp] theorem vWrites_still (a : VAcc) (sh d : Td) (l : List (Nat × Nat)) : (vWrites a sh d l).e.still = a.e.still := by
  refine foldl_still (fun b e => ?_) _ _
  exact vWrite_still ..

/-! ## Each instruction -/

theorem runVmap_still (a : VAcc) (sh o : Td) : (runVmap a sh o).e.still = a.e.still := by
  refine foldl_still (fun b i => ?_) _ _
  dsimp only
  split <;> simp

@[simp] theorem reduceGroup_still (a : VAcc) (sh : Td) (q : Nat) : (reduceGroup a sh q).2.2.e.still = a.e.still := by
  unfold reduceGroup
  dsimp only
  have hvecs := foldl_still_snd (f := fun (acc : List (Nat × List (Nat × W32)) × VAcc) (e : Nat × Nat) =>
      (acc.1 ++ [(e.1 - q * groupSize sh a.v.rdims, (vectorResults acc.2 sh e.1 e.2).1)], (vectorResults acc.2 sh e.1 e.2).2))
    (fun _ _ => vectorResults_still ..) (groupVectors sh a.v.rdims q) ([], a)
  repeat' split
  all_goals exact hvecs

theorem runVred_still (a : VAcc) (sh : Td) (o : Option Td) : (runVred a sh o).e.still = a.e.still := by
  refine foldl_still (fun b q => ?_) _ _
  have hgroup := reduceGroup_still b sh q
  dsimp only
  repeat' split
  all_goals simp [hgroup]

/-- A flag of VFLAGS leaves the engine. -/
theorem ite_vf_still (c : Prop) [Decidable c] (a : VAcc) (f : BitVec 7) :
    (if c then { a with vf := f } else a).e.still = a.e.still := by
  split <;> rfl

/-- RX leaves the engine. -/
theorem ite_rx_still (c : Prop) [Decidable c] (a : VAcc) (x : Option W64) :
    (if c then a else { a with rx := x }).e.still = a.e.still := by
  split <;> rfl

theorem runVtopk_still (a : VAcc) (sh o : Td) (pos : Option Td) : (runVtopk a sh o pos).e.still = a.e.still := by
  refine foldl_still (fun b q => ?_) _ _
  refine ((foldl_still (fun b j => ?_) _ _).trans (ite_vf_still ..)).trans (foldl_still_snd (fun b e => ?_) _ _)
  · dsimp only
    split <;> simp
  · exact vectorResults_still ..

theorem runVcmprs_still (a : VAcc) (sh i0 o : Td) (idx : Option Td) : (runVcmprs a sh i0 o idx).e.still = a.e.still := by
  refine (ite_rx_still ..).trans (foldl_still_fst (fun b i => ?_) _ _)
  dsimp only
  repeat' split
  all_goals simp

theorem runVexpnd_still (a : VAcc) (sh i0 o : Td) : (runVexpnd a sh i0 o).e.still = a.e.still := by
  refine (ite_rx_still ..).trans (foldl_still_fst (fun b i => ?_) _ _)
  dsimp only
  repeat' split
  all_goals simp

/-- The count of rows without an active element leaves the engine. -/
theorem ite_empty_still (c : Prop) [Decidable c] (a : VAcc) (n : Nat) :
    (if c then { a with empty := n } else a).e.still = a.e.still := by
  split <;> rfl

@[simp] theorem smaxWrite_still (a : VAcc) (sh o : Td) (q : Nat) (t : Smax) : (smaxWrite a sh o q t).e.still = a.e.still := by
  unfold smaxWrite
  dsimp only
  split
  rw [vWrite_still]
  all_goals
    refine (ite_empty_still ..).trans (foldl_still (fun b j => ?_) _ _)
    split <;> simp

@[simp] theorem smaxRow_still (a : VAcc) (sh : Td) (q : Nat) (t : Smax) : (smaxRow a sh q t).2.e.still = a.e.still := by
  refine foldl_still_snd (fun b e => ?_) _ _
  exact vectorResults_still ..

theorem runVsmax_still (a : VAcc) (sh : Td) (o rcds : Option Td) : (runVsmax a sh o rcds).e.still = a.e.still := by
  refine foldl_still (fun b q => ?_) _ _
  dsimp only
  repeat' split
  all_goals simp

theorem runVgath_still (a : VAcc) (sh i0 o : Td) : (runVgath a sh i0 o).e.still = a.e.still := by
  refine foldl_still (fun b i => ?_) _ _
  dsimp only
  split <;> simp

theorem runVscat_still (a : VAcc) (sh i0 o : Td) : (runVscat a sh i0 o).e.still = a.e.still := by
  refine foldl_still (fun b i => ?_) _ _
  dsimp only
  split <;> simp

theorem runVscadd_still (a : VAcc) (sh i0 o : Td) : (runVscadd a sh i0 o).e.still = a.e.still := by
  refine foldl_still (fun b i => ?_) _ _
  dsimp only
  repeat' split
  all_goals simp

theorem runVl128_still (a : VAcc) (sh i0 o : Td) : (runVl128 a sh i0 o).e.still = a.e.still := by
  refine foldl_still (fun b i => ?_) _ _
  dsimp only
  repeat' split
  all_goals simp

theorem runVg16_still (a : VAcc) (sh i0 : Td) (i1 i2 o : Option Td) : (runVg16 a sh i0 i1 i2 o).e.still = a.e.still := by
  refine foldl_still (fun b i => ?_) _ _
  dsimp only
  repeat' split
  all_goals simp

theorem runVtw16_still (a : VAcc) (sh i0 i1 i2 o : Td) : (runVtw16 a sh i0 i1 i2 o).e.still = a.e.still := by
  refine foldl_still (fun b i => ?_) _ _
  dsimp only
  split <;> simp

theorem runVec_still (a : VAcc) : (runVec a).e.still = a.e.still := by
  unfold runVec
  dsimp only
  split
  · exact runVmap_still ..
  · exact runVred_still ..
  · exact runVtopk_still ..
  · exact runVcmprs_still ..
  · exact runVexpnd_still ..
  · exact runVsmax_still ..
  · exact runVgath_still ..
  · exact runVscat_still ..
  · exact runVscadd_still ..
  · exact runVl128_still ..
  · exact runVg16_still ..
  · split
    · exact runVtw16_still ..
    · rfl
  · rfl

end Sys2Proof.Machine
end

section
/-! PROOFS. Vector instructions (O32): the start of one that nothing stops, and its completion point. -/

namespace Sys2Proof.Machine

/-! ## VECTOR_START (R110, R118) -/

/-- A vector instruction that has run leaves every cluster as it was, until its own takes what it found. -/
theorem vectorRun_clusters (a : VAcc) (who : Who) (g : RegionId) :
    (engClose (engFlush (runVec a).e) who).1.regions[g].clusters = a.e.s.regions[g].clusters := by
  refine clusters_of_still (s := a.e.s) ?_ g
  exact (engClose_still ..).trans ((engFlush_still _).trans (runVec_still a))

/-- A running instruction as it starts: the engine and what it finds. -/
def vecOpen (s : State) (g : RegionId) (c : ClusterId) (v : VecOp) : VAcc :=
  { e := engOpen s g (BitVec.ofNat 8 c.val) v.stream .off none [], cl := s.regions[g].clusters[c], v := v, oor := 0, empty := 0,
    vf := if vecAlias v then vfWriteAlias else 0, rx := none, ok := true }

/-- The cluster whose next queued instruction has run, with the banks that it selects (R110). -/
def startVector (a : VAcc) (v : VecOp) (rest : List VecOp) (cl : Cluster) : Cluster :=
  { cl with vq := rest, tileQ := if usesTile v then takeTile cl.tileQ else cl.tileQ,
            vrun := some { op := v, rxVal := a.rx, oor := a.oor, empty := a.empty,
                           flags := a.vf ||| (if a.oor = 0 then 0 else vfOor) ||| (if a.empty = 0 then 0 else vfEmpty),
                           aflags := (engFlush a.e).flags, retries := 0, release := releases cl v, ok := a.ok, failed := false } }

section
variable {s : State} {g : RegionId} {c : ClusterId}

theorem exec_vectorStart_runs {v : VecOp} {rest : List VecOp} {a : VAcc} (hbeat : beatToken s g = true)
    (hidle : s.regions[g].clusters[c].vrun = none) (hq : s.regions[g].clusters[c].vq = v :: rest)
    (hready : vecReady s.regions[g].clusters[c] v = true) (hmode : holdModeOk s.regions[g].clusters[c] v = true)
    (ha : runVec (vecOpen s g c v) = a) (hstop : (engFlush a.e).stop = none) :
    exec (.vectorStart g c) s =
      .next (updRegion (engClose (engFlush a.e) (.feed g c)).1 g fun r => updCluster r c (startVector a v rest)) := by
  have hcl : (engClose (engFlush a.e) (.feed g c)).1.regions[g].clusters[c] = s.regions[g].clusters[c] := by
    rw [← ha]
    exact congrArg (fun v => v[c]) (vectorRun_clusters (vecOpen s g c v) (.feed g c) g)
  unfold vecOpen at ha
  simp only [exec, execVectorStart, hbeat, hidle, hq, hready, hmode, ha, hstop, Option.isNone_none, Option.isSome_none, engFault_none,
    Bool.not_true, Bool.false_eq_true, if_true, if_false]
  refine congrArg Host.Outcome.next (updCluster_congr _ _ _ ?_)
  rw [startVector, hcl]

end

/-! ## VECTOR_COMPLETION (R91, R92, R110, R116, R119, R144) -/

/-- Of a cluster the release of banks changes the banks alone. -/
theorem releaseBanks_frame (l : List (Fin 2)) (cl : Cluster) : releaseBanks cl l = { cl with banks := (releaseBanks cl l).banks } := by
  induction l generalizing cl with
  | nil => rfl
  | cons b l ih => exact ih (updBank cl b fun _ => Bank.reset)

/-- A released bank is clear, and no other changes (R92, R110). -/
theorem releaseBanks_bank (l : List (Fin 2)) (cl : Cluster) (b : Fin 2) :
    (releaseBanks cl l).banks[b] = if b ∈ l then Bank.reset else cl.banks[b] := by
  induction l generalizing cl with
  | nil => simp [releaseBanks]
  | cons x l ih =>
    refine (ih (updBank cl x fun _ => Bank.reset)).trans ?_
    by_cases hl : b ∈ l
    · rw [if_pos hl, if_pos (List.mem_cons_of_mem _ hl)]
    · by_cases hx : b = x
      · subst hx
        rw [if_neg hl, updBank_same, if_pos List.mem_cons_self]
      · rw [if_neg hl, updBank_other _ _ _ _ hx, if_neg (by simp [hx, hl])]

/-- The cluster at the completion point of its instruction. -/
def endVector (run : VecRun) (cl : Cluster) : Cluster :=
  let cl := releaseBanks cl run.release
  { cl with vrun := none, tileQ := if usesTile run.op then cl.tileQ.tail else cl.tileQ,
            vstat := cl.vstat.set run.op.stream (vstatWord (nextSeq cl.vstat[run.op.stream]) run.oor run.empty run.flags) }

theorem endVector_frame (run : VecRun) (cl : Cluster) : endVector run cl =
    { cl with vrun := none, tileQ := if usesTile run.op then cl.tileQ.tail else cl.tileQ, banks := (endVector run cl).banks,
              vstat := cl.vstat.set run.op.stream (vstatWord (nextSeq cl.vstat[run.op.stream]) run.oor run.empty run.flags) } := by
  unfold endVector
  rw [releaseBanks_frame]

/-- The stream at the completion point of a vector instruction, before RX. -/
def vectorStream (run : VecRun) (st : Stream) : Stream :=
  raiseAflags { st with vflags := vflagsAfter st.vflags run.oor run.flags } run.aflags

/-- The region at the completion point of a vector instruction. -/
def completeVector (c : ClusterId) (run : VecRun) (r : Region) : Region :=
  evSignal (updStream (updCluster r c (endVector run)) run.op.stream
    fun st => takeRx run.op.rx run.rxVal (vectorStream run st)) run.op.sig run.op.stream

section
variable (c : ClusterId) (run : VecRun) (r : Region)

theorem completeVector_cluster : (completeVector c run r).clusters[c] = endVector run r.clusters[c] := by
  rw [completeVector, evSignal_clusters, updStream_clusters, updCluster_same]

theorem completeVector_stream : (completeVector c run r).streams[run.op.stream] =
    takeRx run.op.rx run.rxVal (vectorStream run r.streams[run.op.stream]) := by
  rw [completeVector, evSignal_streams, updStream_same, updCluster_streams]

theorem completeVector_evPend (e : Fin 64) (he : run.op.sig = some e) :
    (completeVector c run r).evPend = (evAdd r e 1 (some run.op.stream)).evPend :=
  (evSignal_evPend _ _ _ rfl).1 e he

end

theorem exec_vectorCompletion_done {s : State} {g : RegionId} {c : ClusterId} {run : VecRun}
    (hrun : s.regions[g].clusters[c].vrun = some run) (hfailed : run.failed = false) (hok : run.ok = true) :
    exec (.vectorCompletion g c) s = .next (updRegion s g (completeVector c run)) := by
  simp only [exec, execVectorCompletion, hrun, hfailed, hok, Bool.not_true, Bool.or_self, Bool.false_eq_true, if_false]
  exact congrArg Host.Outcome.next (updRegion_congr _ _ rfl)

/-- Settles O32: the laws of VECTOR_START and VECTOR_COMPLETION above, the second read off at the cluster and the stream. That all reads
and writes are in place at the row VECTOR_START is the model's choice (notes/assumptions/34). -/
theorem vectorsRun : Obligations.VectorsRun := by
  refine ⟨?_, ?_⟩
  · intro s g c v rest cl hbeat hidle hq hready hmode a hstop
    exact ⟨_, exec_vectorStart_runs hbeat hidle hq hready hmode rfl hstop, rfl⟩
  · intro s g c run cl v hrun hfailed hok
    refine ⟨_, exec_vectorCompletion_done hrun hfailed hok, updRegion_frame .., ?_⟩
    rw [updRegion_same, completeVector_cluster]
    have hst := completeVector_stream c run s.regions[g]
    have hframe := takeRx_frame run.op.rx run.rxVal (vectorStream run s.regions[g].streams[run.op.stream])
    rw [← hst] at hframe
    refine ⟨endVector_frame .., releaseBanks_bank _ _, ?_, ?_, fun x hx hrx => ?_, fun hnone => ?_, completeVector_evPend _ _ _⟩
    · rw [hframe]
      rfl
    · rw [hframe]
      rfl
    · rw [hst, xRead_takeRx _ hx hrx]
    · rw [hst, takeRx_of_none _ hnone]
      rfl

end Sys2Proof.Machine
end

section
/-! PROOFS. Operations of the channels (O34): their start, the reach of a fill, and their completion point. -/

namespace Sys2Proof.Machine

/-! ## CHANNEL_OP_START (R91, R277, R278, R284) -/

section
variable {s : State} {g : RegionId} {k : ChanId}

/-- An idle channel takes the next operation of its queue. -/
theorem exec_channelOpStart_next {op : ChanOp} {rest : List ChanOp} {run : ChanRun} {u : State} (hbeat : beatToken s g = true)
    (hidle : s.regions[g].chans[k].run = none) (hq : s.regions[g].chans[k].q = op :: rest) (hready : chanReady s g op = true)
    (hrun : run = { op := op, phase := .waiting, fetched := [], asked := [], tiles := [] })
    (hu : u = updRegion s g fun r => updChan r k fun _ => { q := rest, run := some run, held := buffersFor s g k (opBytes op) }) :
    exec (.channelOpStart g k) s = .next (chanWork (if op.dop = dopDPREF then openWindow u g op
      else if op.dop = dopDCOPY ∧ (tdOf op.tds).kind = kTILEQ then
        updRegion u g fun r => updCluster r op.tqcl fun cl => { cl with tileQ := takeTile cl.tileQ }
      else u) g k run) := by
  subst hrun hu
  simp only [exec, execChannelOpStart, hbeat, hidle, hq, hready, beq_iff_eq, Bool.and_eq_true, Bool.not_true, Bool.false_eq_true,
    if_false]

/-- An operation that has asked other modules for data goes on once it may. -/
theorem exec_channelOpStart_goesOn {run : ChanRun} (hbeat : beatToken s g = true) (hrun : s.regions[g].chans[k].run = some run)
    (hfetch : run.phase = .fetching) (hmay : waitsFor s (chanWho g k) = false ∨ run.op.dop = dopDPREF) :
    exec (.channelOpStart g k) s = .next
      (chanWork (updRegion s g fun r => updChan r k fun c => { c with held := buffersFor s g k (opBytes run.op) }) g k run) := by
  have hgo : mayGoOn s g k run = true := by
    rcases hmay with hwaits | hfill
    · simp [mayGoOn, hfetch, hwaits]
    · simp [mayGoOn, hfetch, hfill]
  simp only [exec, execChannelOpStart, hbeat, hrun, hgo, Bool.not_true, Bool.false_eq_true, if_true, if_false]

end

/-! ## The reach of a fill (R283, R284) -/

theorem fillReach_le (s : State) (g : RegionId) (k : ChanId) (op : ChanOp) : fillReach s g k op ≤ (tdOf op.tds).count := by
  have hfind (f : Nat → Bool) (n : Nat) : ((List.range n).find? f).getD n ≤ n := by
    cases hf : (List.range n).find? f with
    | none => exact Nat.le_refl _
    | some i => exact Nat.le_of_lt (List.mem_range.mp (List.mem_of_find?_eq_some hf))
  unfold fillReach
  dsimp only
  split
  · exact Nat.le_trans (Nat.sub_le ..) (hfind _ _)
  · exact hfind _ _

/-- The work of a channel's run leaves the windows of its region. -/
theorem settle_wins (s : State) (g : RegionId) (k : ChanId) (run : ChanRun) : (settle s g k run).regions[g].wins = s.regions[g].wins := by
  rw [settle, updRegion_same, updChan_wins]

/-- FILLED goes on over the elements that are here, when nothing stops them. -/
theorem fillData_wins {s : State} {g : RegionId} {k : ChanId} {run : ChanRun} {w : Fin 8} {n : Nat}
    (hw : (tdOf run.op.tdd).window = w) (hn : fillReach s g k run.op = n) (hmore : s.regions[g].wins[w].filled < n)
    (hstop : (moveElems s g k run s.regions[g].wins[w].filled n).2.1 = none) :
    (fillData s g k run).regions[g].wins = s.regions[g].wins.set w { s.regions[g].wins[w] with filled := n } := by
  have hgo : (decide (n ≤ s.regions[g].wins[w].filled) && decide (s.regions[g].wins[w].filled < (tdOf run.op.tds).count)) = false := by
    rw [decide_eq_false (Nat.not_le.mpr hmore), Bool.false_and]
  simp only [fillData, hw, hn, hgo, hstop, Option.isSome_none, engFault_none, Bool.false_eq_true, if_false]
  rw [settle_wins, updRegion_same, moveElems_wins]

/-! ## CHANNEL_OP_COMPLETION (R91, R277, R279, R288, R306, R423) -/

/-- The operation leaves its channel, its buffers go back and its event is signalled. -/
def leaveChan (k : ChanId) (op : ChanOp) (r : Region) : Region :=
  evSignal (updChan r k fun c => { c with run := none, held := 0 }) op.sig op.stream

theorem leaveChan_chan (k : ChanId) (op : ChanOp) (r : Region) :
    (leaveChan k op r).chans[k] = { r.chans[k] with run := none, held := 0 } := by
  rw [leaveChan, evSignal_chans, updChan_same]

/-- The module with an operation's digest contribution (R423). -/
def withTiles (s : State) (g : RegionId) (tiles : List ((Nat × Nat) × TileDig)) : State :=
  match s.regions[g].ctx with
  | some c => addTiles s (regionRec s g) c tiles
  | none => s

theorem withTiles_nil (s : State) (g : RegionId) : withTiles s g [] = s := by
  unfold withTiles
  split
  · exact addTiles_nil ..
  · rfl

@[simp] theorem nextWaiting_regions (s : State) : (nextWaiting s).regions = s.regions := by
  unfold nextWaiting
  split
  · rfl
  · exact beginTxn_regions ..

@[simp] theorem freeTxn_regions (s : State) (t : Txn) : (freeTxn s t).regions = s.regions := nextWaiting_regions _

theorem fabricEvent_chans (s : State) (t : RegionId) (e : Nat) :
    (fabricEvent s t e).regions.map Region.chans = s.regions.map Region.chans := by
  unfold fabricEvent
  split
  · exact updRegion_map _ _ fun _ => rfl
  · rfl

theorem sendLanded_chans (s : State) (t : RegionId) (e : Nat) (gate ren : Bool) :
    (sendLanded s t e gate ren).regions.map Region.chans = s.regions.map Region.chans := by
  unfold sendLanded
  dsimp only
  split
  · rw [fabricEvent_chans]
    split
    · exact updRegion_map _ _ fun _ => rfl
    · rfl
  · split
    · exact updRegion_map _ _ fun _ => rfl
    · rfl

/-- What an operation leaves beside its signal changes no channel. -/
theorem chanEffects_chans (s : State) (g : RegionId) (k : ChanId) (op : ChanOp) :
    (chanEffects s g k op).regions.map Region.chans = s.regions.map Region.chans := by
  unfold chanEffects
  dsimp only
  split
  · exact updRegion_map _ _ fun _ => rfl
  · split
    · exact updRegion_map _ _ fun _ => rfl
    · split
      · split
        · rw [sendLanded_chans, freeTxn_regions]
        · rfl
      · split
        · exact fabricEvent_chans ..
        · rfl

section
variable {s : State} {g : RegionId} {k : ChanId} {run : ChanRun}

theorem exec_channelOpCompletion_done (hrun : s.regions[g].chans[k].run = some run) (hmoved : run.phase = .moved)
    (hwaits : waitsFor s (chanWho g k) = false) :
    exec (.channelOpCompletion g k) s =
      .next (updRegion (chanEffects (withTiles s g run.tiles) g k run.op) g (leaveChan k run.op)) := by
  have hdone : chanDone s g k run = true := by simp [chanDone, hmoved, hwaits]
  simp only [exec, execChannelOpCompletion, hrun, hdone, Bool.not_true, Bool.false_eq_true, if_false]
  rfl

/-- A copy from anything but a tile leaves nothing beside its signal. -/
theorem chanEffects_copy {op : ChanOp} (hcopy : op.dop = dopDCOPY) (htile : (tdOf op.tds).kind ≠ kTILEQ) : chanEffects s g k op = s := by
  have hkind : ((tdOf op.tds).kind == kTILEQ) = false := beq_eq_false_iff_ne.mpr htile
  unfold chanEffects
  rw [hcopy, hkind]
  rfl

/-- A fill notes whether its deadline had passed (R288). -/
def noteLate (late : Bool) (w : Fin 8) (r : Region) : Region :=
  { r with wins := r.wins.set w { r.wins[w] with late := late }, lateFills := r.lateFills + (if late then 1 else 0) }

theorem chanEffects_fill {op : ChanOp} (hfill : op.dop = dopDPREF) : chanEffects s g k op =
    updRegion s g (noteLate (decide (s.regions[g].wins[(tdOf op.tdd).window].deadline.toNat < now s)) (tdOf op.tdd).window) := by
  unfold chanEffects
  rw [hfill]
  rfl

end

/-- Settles O34: the laws of CHANNEL_OP_START, of the reach of a fill and of CHANNEL_OP_COMPLETION above. That an operation's data moves
at its start row, and FILLED goes on over all that is here at once, is the model's choice (notes/assumptions/34). -/
theorem channelOperations : Obligations.ChannelOperations := by
  refine ⟨⟨?_, ?_, ?_, ?_⟩, ?_, ?_⟩
  · intro s g k op rest r hbeat hidle hq hready run u v
    exact exec_channelOpStart_next hbeat hidle hq hready rfl rfl
  · intro s g k run hbeat hrun hfetch hmay
    exact exec_channelOpStart_goesOn hbeat hrun hfetch hmay
  · intro s g k run hrun hmoved hwaits hcopy htile htiles
    refine ⟨_, exec_channelOpCompletion_done hrun hmoved hwaits, ?_⟩
    rw [htiles, withTiles_nil, chanEffects_copy hcopy htile]
    rfl
  · intro s g k run hrun hmoved hwaits
    refine ⟨_, exec_channelOpCompletion_done hrun hmoved hwaits, ?_⟩
    rw [updRegion_same, leaveChan_chan]
    refine ⟨rfl, rfl, fun htiles => ?_⟩
    rw [htiles, withTiles_nil, region_of_map (chanEffects_chans s g k run.op) g]
  · intro s g k run w n hmore hstop
    refine ⟨fillReach_le .., ?_⟩
    rw [fillData_wins rfl rfl hmore hstop]
    refine ⟨by simp [w, n], fun v hv => ?_⟩
    have hne : w.val ≠ v.val := fun h => hv (Fin.ext h.symm)
    simp [w, hne]
  · intro s g k run hrun hmoved hwaits hfill htiles w win
    refine ⟨_, exec_channelOpCompletion_done hrun hmoved hwaits, ?_⟩
    rw [htiles, withTiles_nil, chanEffects_fill hfill, updRegion_updRegion]
    refine ⟨?_, ?_, updRegion_frame ..⟩
    · rw [updRegion_same, leaveChan, evSignal_wins, updChan_wins]
      rfl
    · rw [updRegion_same, leaveChan, evSignal_lateFills, updChan_lateFills]
      simp [noteLate, win, w]

end Sys2Proof.Machine
end

section
/-! PROOFS. The registers of a stream (O9): what a tensor descriptor reads as after a write; the rules of the scalar and mask registers
stand with the laws of the state. -/

namespace Sys2Proof.Machine

/-! ## Tensor descriptors (R236) -/

/-- The mask of TDSET and TDSETR covers the reserved bits [54:52] and no other. -/
theorem getLsbD_tdReserved (i : Nat) : ((7 : BitVec 256) <<< 52).getLsbD i = decide (52 ≤ i ∧ i < 55) := by
  have h7 : (7 : BitVec 256) = (BitVec.allOnes 3).setWidth 256 := by decide
  rw [h7, BitVec.getLsbD_shiftLeft, BitVec.getLsbD_setWidth, BitVec.getLsbD_allOnes, Bool.eq_iff_iff]
  simp only [Bool.and_eq_true, Bool.not_eq_true', decide_eq_true_eq, decide_eq_false_iff_not]
  omega

section
variable (st : Stream) (r : BitVec 5) (d : BitVec 256)

theorem tdRead_tdWrite : tdRead (tdWrite st r d) r = d &&& ~~~((7 : BitVec 256) <<< 52) := by
  simp [tdRead, tdWrite]

/-- Each bit of a stored descriptor is the bit written, but for the reserved ones. -/
theorem getLsbD_tdRead_tdWrite (i : Nat) :
    (tdRead (tdWrite st r d) r).getLsbD i = (d.getLsbD i && !decide (52 ≤ i ∧ i < 55)) := by
  rw [tdRead_tdWrite, BitVec.getLsbD_and, BitVec.getLsbD_not, getLsbD_tdReserved, ← Bool.and_assoc]
  congr 1
  rw [Bool.and_eq_left_iff_imp, decide_eq_true_eq]
  exact BitVec.lt_of_getLsbD

theorem tdRead_tdWrite_reserved : (tdRead (tdWrite st r d) r).extractLsb' 52 3 = 0 := by
  refine BitVec.eq_of_getLsbD_eq fun i hi => ?_
  have hin : 52 ≤ 52 + i ∧ 52 + i < 55 := by omega
  rw [BitVec.getLsbD_extractLsb', getLsbD_tdRead_tdWrite, decide_eq_true hin]
  simp

/-- A field that lies clear of the reserved bits reads as it was written. -/
theorem tdRead_tdWrite_field {lo n : Nat} (hclear : lo + n ≤ 52 ∨ 55 ≤ lo) :
    (tdRead (tdWrite st r d) r).extractLsb' lo n = d.extractLsb' lo n := by
  refine BitVec.eq_of_getLsbD_eq fun i hi => ?_
  have hout : ¬(52 ≤ lo + i ∧ lo + i < 55) := by omega
  rw [BitVec.getLsbD_extractLsb', BitVec.getLsbD_extractLsb', getLsbD_tdRead_tdWrite, decide_eq_false hout, Bool.not_false,
    Bool.and_true]

end

/-- Settles O9: the laws of the mask and scalar registers, and those of a stored descriptor above. -/
theorem streamRegistersHold : Obligations.StreamRegistersHold := by
  refine ⟨fun st m d r => ?_, fun st r v hr => ?_⟩
  · exact ⟨mRead_zero st, mWrite_zero st m, tdRead_tdWrite_reserved st r d, tdRead_tdWrite_field st r d (.inl (by decide)),
      tdRead_tdWrite_field st r d (.inr (by decide))⟩
  · exact ⟨xRead_xWrite st r v hr, fun q hq => xRead_xWrite_other st r q v hq, xWrite_frame r st v⟩

end Sys2Proof.Machine
end

section
/-! PROOFS. One beat of a region (O25, O24): the beat that passes, the turns of the streams, the share of background work, and the
bundle that issues. -/

namespace Sys2Proof.Machine

/-! ## The beat boundary (R206, R209) -/

section
variable {s : State} {g : RegionId} {slice : Option BgWork} {resid : Bool}

theorem endBeat_of_fit (hfit : evOverflow s.regions[g] = none) : endBeat s g = (updRegion s g evEndBeat, false) := by
  simp only [endBeat, hfit]

/-- The region once the changes of a beat are spent and no counter has taken them. -/
def spendChanges (r : Region) : Region := { r with evPend := Vector.replicate 64 EvPend.none }

/-- The record of an EVENT_OVERFLOW on event `e` (R206, Table 13.6). -/
def overflowRec (s : State) (g : RegionId) (e : Fin 64) : Rec :=
  { regionRec (updRegion s g spendChanges) g with stream := whoStream s.regions[g].evPend[e].who }

theorem overflowRec_ctx (e : Fin 64) : (overflowRec s g e).ctx = s.regions[g].ctx := by
  change (updRegion s g spendChanges).regions[g].ctx = s.regions[g].ctx
  rw [updRegion_same, spendChanges]

theorem endBeat_of_overflow {e : Fin 64} (hover : evOverflow s.regions[g] = some e) :
    endBeat s g = (raiseFault (updRegion s g spendChanges)
      { cause := cEventOverflow, ctx := s.regions[g].ctx, rcd := overflowRec s g e }, true) := by
  simp only [endBeat, hover]
  rfl

/-! ## BUNDLE_ISSUE (R213, R498, R508) -/

/-- One beat of the region passes, with `slice` as the background work that asks for it (R221, R369). -/
def passedBeat (s : State) (g : RegionId) (slice : Option BgWork) : State :=
  passBeats3 (updRegion s g fun _ => (bgBeat s.boot.cfg s.regions[g] slice).1) g (bgBeat s.boot.cfg s.regions[g] slice).2

theorem exec_bundleIssue_no_beat (hoff : enabled s g = false ∨ beatToken s g = false) :
    exec (.bundleIssue g slice resid) s = .next s := by
  have hguard : (!enabled s g || !running s || !beatToken s g) = true := by
    rcases hoff with h | h <;> simp [h]
  exact congrArg Host.Outcome.next (if_pos hguard)

section
variable (hen : enabled s g = true) (hrun : running s = true) (htok : beatToken s g = true)
include hen hrun htok

theorem exec_bundleIssue_overflow {e : Fin 64} (hover : evOverflow s.regions[g] = some e) :
    exec (.bundleIssue g slice resid) s = .next (endBeat s g).1 := by
  simp [exec, execBundleIssue, hen, hrun, htok, endBeat_of_overflow hover]

/-- A beat in which no head bundle faults passes, and the stream whose turn it is, if any, issues. -/
theorem exec_bundleIssue_beat (hfit : evOverflow s.regions[g] = none)
    (hfetch : ∀ j, fetchFault (updRegion s g evEndBeat) g j = none) :
    exec (.bundleIssue g slice resid) s = .next ((pickStream (updRegion s g evEndBeat) g).elim
      (passedBeat (updRegion s g evEndBeat) g slice)
      fun i => issueStream (passedBeat (updRegion s g evEndBeat) g slice) g i resid) := by
  have hnone : (List.finRange 3).findSome? (fetchFault (updRegion s g evEndBeat) g) = none :=
    List.findSome?_eq_none_iff.mpr fun j _ => hfetch j
  simp only [exec, execBundleIssue, hen, hrun, htok, endBeat_of_fit hfit, hnone, Bool.not_true, Bool.or_self, if_false,
    Bool.false_eq_true]
  cases pickStream (updRegion s g evEndBeat) g <;> rfl

end
end

/-! ## Turns of the streams (R213) -/

/-- The streams in the order of their turns after `last` has issued. -/
def turnOrder (last : StreamId) : List StreamId :=
  [nextStream last, nextStream (nextStream last), nextStream (nextStream (nextStream last))]

/-- How many streams have their turn between `last` and `i`. -/
def turnsBetween (last i : StreamId) : Nat := (i.val + 2 - last.val) % 3

theorem mem_turnOrder : ∀ last i : StreamId, i ∈ turnOrder last := by decide

theorem turnOrder_pairwise : ∀ last : StreamId, (turnOrder last).Pairwise fun i j => turnsBetween last i ≤ turnsBetween last j := by
  decide

theorem pickStream_eq (s : State) (g : RegionId) : pickStream s g = (turnOrder s.regions[g].lastIssue).find? (isReadyStream s g) := rfl

theorem pickStream_ready {s : State} {g : RegionId} {i : StreamId} (hpick : pickStream s g = some i) : isReadyStream s g i = true :=
  List.find?_some (pickStream_eq s g ▸ hpick)

/-- No ready stream has its turn before the one picked. -/
theorem pickStream_first {s : State} {g : RegionId} {i j : StreamId} (hpick : pickStream s g = some i)
    (hj : isReadyStream s g j = true) : turnsBetween s.regions[g].lastIssue i ≤ turnsBetween s.regions[g].lastIssue j := by
  rw [pickStream_eq] at hpick
  obtain ⟨-, before, after, horder, hskipped⟩ := List.find?_eq_some_iff_append.mp hpick
  have hmem := mem_turnOrder s.regions[g].lastIssue j
  have hsorted := turnOrder_pairwise s.regions[g].lastIssue
  rw [horder] at hmem hsorted
  have hlater := (List.pairwise_cons.mp (List.pairwise_append.mp hsorted).2.1).1
  rcases List.mem_append.mp hmem with hbefore | hfrom
  · exact absurd hj (by simpa using hskipped j hbefore)
  · rcases List.mem_cons.mp hfrom with rfl | hafter
    · exact Nat.le_refl _
    · exact hlater j hafter

/-! ## The share of background work (R369) -/

section
variable (c : ImgCfg) (r : Region) (w : BgWork)

/-- The slices that work `w` has taken of the last 1,024 beats, the one that begins among them. -/
def slicesTaken (r : Region) (w : BgWork) : List (Nat × BgWork) :=
  r.slices.filter fun e => r.beatNo < e.1 + 1023 ∧ e.2 = w

theorem slicesTaken_eq :
    ((r.slices.filter fun e => r.beatNo + 1 < e.1 + 1024).filter fun e => e.2 == w) = slicesTaken r w := by
  rw [List.filter_filter, slicesTaken]
  refine List.filter_congr fun e _ => ?_
  rw [Bool.eq_iff_iff]
  simp [and_comm]

theorem bgBeat_within (hroom : (slicesTaken r w).length < bgLimit c w) :
    (bgBeat c r (some w)).2 = true ∧ (bgBeat c r (some w)).1.behind = r.behind := by
  simp only [bgBeat, slicesTaken_eq, hroom, if_true, and_self]

theorem bgBeat_beyond (hfull : ¬(slicesTaken r w).length < bgLimit c w) :
    (bgBeat c r (some w)).2 = false ∧ (bgBeat c r (some w)).1.behind = r.behind ||| bgBit w := by
  simp only [bgBeat, slicesTaken_eq, hfull, if_false, and_self]

theorem bgBeat_beatNo (want : Option BgWork) : (bgBeat c r want).1.beatNo = r.beatNo + 1 := by
  cases want with
  | none => rfl
  | some w =>
    unfold bgBeat
    dsimp only
    split <;> rfl

theorem bgBeat_taken_iff : (bgBeat c r (some w)).2 = true ↔ (slicesTaken r w).length < bgLimit c w := by
  by_cases hroom : (slicesTaken r w).length < bgLimit c w
  · simp [hroom, bgBeat_within c r w hroom]
  · simp [hroom, bgBeat_beyond c r w hroom]

end

/-- Settles O25: the beat's own laws above. That the changes of a beat take effect, and its overflow is found, as the next row of the
beat begins is the model's reading (notes/assumptions/35). -/
theorem beatsWithoutIssue : Obligations.BeatsWithoutIssue := by
  refine ⟨⟨?_, fun c r w => ?_, fun s g slice resid => exec_bundleIssue_no_beat⟩,
    fun s g i hpick => ⟨pickStream_ready hpick, fun j hj => pickStream_first hpick hj⟩, ?_⟩
  · intro s g slice resid hen hrun htok hfit u hfetch hpick
    rw [exec_bundleIssue_beat hen hrun htok hfit hfetch, hpick]
    rfl
  · have hiff := bgBeat_taken_iff c r w
    refine ⟨bgBeat_beatNo c r _, hiff, fun hno => ?_, fun htaken => (bgBeat_within c r w (hiff.mp htaken)).2, rfl⟩
    exact (bgBeat_beyond c r w fun hroom => Bool.false_ne_true (hno.symm.trans (hiff.mpr hroom))).2
  · intro s g slice resid e hen hrun htok hover
    refine ⟨overflowRec s g e, rfl, overflowRec_ctx e, ?_⟩
    rw [exec_bundleIssue_overflow hen hrun htok hover, endBeat_of_overflow hover]
    rfl

/-! ## What a passing beat leaves of the region -/

section
variable (s : State) (g : RegionId) (slice : Option BgWork)

theorem bgBeat_frame (c : ImgCfg) (r : Region) (want : Option BgWork) : (bgBeat c r want).1 =
    { r with beatNo := (bgBeat c r want).1.beatNo, slices := (bgBeat c r want).1.slices, behind := (bgBeat c r want).1.behind } := by
  cases want with
  | none => rfl
  | some w =>
    unfold bgBeat
    dsimp only
    split <;> rfl

/-- A beat that passes in one region is a change of that region alone. -/
theorem passedBeat_eq_updRegion : ∃ f, passedBeat s g slice = updRegion s g f := by
  unfold passedBeat passBeats3
  exact ⟨_, updRegion_updRegion ..⟩

theorem passedBeat_region : (passedBeat s g slice).regions[g] =
    { (bgBeat s.boot.cfg s.regions[g] slice).1 with streams := (passedBeat s g slice).regions[g].streams } := by
  have hbeat : (passedBeat s g slice).regions[g] =
      { (updRegion s g fun _ => (bgBeat s.boot.cfg s.regions[g] slice).1).regions[g] with
        streams := (passedBeat s g slice).regions[g].streams } := by
    rw [passedBeat, passBeats3, updRegion_same]
  rwa [updRegion_same] at hbeat

theorem passedBeat_imem : (passedBeat s g slice).regions[g].imem = s.regions[g].imem := by
  rw [passedBeat_region, bgBeat_frame]

theorem passedBeat_sdata : (passedBeat s g slice).regions[g].sdata = s.regions[g].sdata := by
  rw [passedBeat_region, bgBeat_frame]

theorem passedBeat_ev : (passedBeat s g slice).regions[g].ev = s.regions[g].ev := by
  rw [passedBeat_region, bgBeat_frame]

end

/-! ## Issue over sound words (R381, R382) -/

section
variable {m : Sram}

/-- A store that lists no override holds valid check bits everywhere, so that a read finds nothing. -/
theorem sramFindings_sound (hm : m.chk = []) (a n : Nat) : sramFindings m a n = [] := by
  simp [sramFindings, hm]

theorem sramWriteBad_sound (hm : m.chk = []) (a n : Nat) : sramWriteBad m a n = none := by
  simp [sramWriteBad, sramFindings_sound hm, firstBad]

theorem sramWriteFixes_sound (hm : m.chk = []) (a n : Nat) : sramWriteFixes m a n = [] := by
  simp [sramWriteFixes, sramFindings_sound hm]

theorem sramWrite_sound (hm : m.chk = []) (a : Nat) (l : List Byte) : sramWrite m a l = { m with mem := memPutBytes m.mem a l } := by
  simp [sramWrite, hm]

end

theorem sramCorrected_nil (s : State) (base : Rec) (g : RegionId) (st : Store) (src : BitVec 16) :
    sramCorrected s base g st src [] = s := rfl

theorem sdataBad_sound {r : Region} (hsdata : r.sdata.chk = []) (reads : List (Nat × Nat)) (o0 o1 : ScalarOut) :
    sdataBad r reads o0 o1 = none := by
  have hreads : (reads.flatMap fun e => sramFindings r.sdata e.1 e.2) = [] :=
    List.flatMap_eq_nil_iff.mpr fun _ _ => sramFindings_sound hsdata ..
  have hstores : ((o0.store.toList ++ o1.store.toList).findSome? fun e => sramWriteBad r.sdata e.1 e.2.length) = none :=
    List.findSome?_eq_none_iff.mpr fun _ _ => sramWriteBad_sound hsdata ..
  rw [sdataBad, hreads, hstores]
  rfl

theorem sdataFixes_sound {r : Region} (hsdata : r.sdata.chk = []) (reads : List (Nat × Nat)) (stores : List (Nat × List Byte)) :
    (reads.flatMap fun e => sramFindings r.sdata e.1 e.2) ++
      (stores.flatMap fun e => sramWriteFixes r.sdata e.1 e.2.length) = [] :=
  List.append_eq_nil_iff.mpr ⟨List.flatMap_eq_nil_iff.mpr fun _ _ => sramFindings_sound hsdata ..,
    List.flatMap_eq_nil_iff.mpr fun _ _ => sramWriteFixes_sound hsdata ..⟩

theorem need_eq_none {b : Bool} {c : Cause} : need b c = none ↔ b = true := by
  cases b <;> simp [need]

theorem firstFail_head {x : Option Cause} {l : List (Option Cause)} (h : firstFail (x :: l) = none) : x = none := by
  cases x with
  | none => rfl
  | some c => cases h

/-- The encoding is the first check at issue (notes/assumptions/21). -/
theorem bundleLegal_of_issueFault {s : State} {g : RegionId} {i : StreamId} {b : BitVec 512} {o0 o1 : ScalarOut}
    (h : issueFault s g i b o0 o1 = none) : bundleLegal b i = true :=
  need_eq_none.mp (firstFail_head h)

/-- A bundle that meets no fault issues its slots, and does nothing else, where the words it reads are sound. -/
theorem issueStream_sound {s : State} {g : RegionId} {i : StreamId} {r : Region} {b : BitVec 512} {o0 o1 : ScalarOut}
    (hr : s.regions[g] = r) (hb : bundleAt r r.streams[i].pc = b) (h0 : scalarOut r r.streams[i] i (bS0 b) = o0)
    (h1 : scalarOut r r.streams[i] i (bS1 b) = o1) (himem : r.imem.chk = []) (hsdata : r.sdata.chk = [])
    (hfault : issueFault s g i b o0 o1 = none) :
    issueStream s g i false = updRegion s g fun r => issueBundle r i b o0 o1 := by
  have hfetch : fetchFindings r r.streams[i].pc = [] := sramFindings_sound himem ..
  unfold issueStream
  simp only [hr, hb, bundleLegal_of_issueFault hfault, if_true, h0, h1, hfault]
  rw [hfetch, sramCorrected_nil, sdataBad_sound hsdata, sdataFixes_sound hsdata, sramCorrected_nil]
  rfl

/-! ## No slot changes a counter before the end of the beat (R209) -/

section
variable (r r0 : Region) (st : Stream) (i : StreamId) (b : BitVec 512) (o0 o1 : ScalarOut)

@[simp] theorem consume_ev : (consume r i b).ev = r.ev := by
  unfold consume
  split <;> rfl

@[simp] theorem addUsers_ev (p : PassOp) : (addUsers r p).ev = r.ev := by
  unfold addUsers
  dsimp only
  split <;> split <;> rfl

@[simp] theorem issueX_ev : (issueX r st i b).ev = r.ev := by
  unfold issueX
  split
  · exact evSignal_ev ..
  · split
    · exact addUsers_ev ..
    · rfl

@[simp] theorem issueV_ev : (issueV r0 r st i b).ev = r.ev := by
  unfold issueV
  split
  · exact evSignal_ev ..
  · split
    · exact evSignal_ev ..
    · rfl

@[simp] theorem chanAccept_ev (k : ChanId) (op : ChanOp) : (chanAccept r k op).ev = r.ev := by
  unfold chanAccept
  dsimp only
  split
  · split <;> rfl
  · rfl
  · rfl
  · rfl

@[simp] theorem issueD_ev : (issueD r st i b).ev = r.ev := by
  unfold issueD
  split
  · exact chanAccept_ev ..
  · exact evSignal_ev ..

@[simp] theorem scalarRegion_ev : (scalarRegion r i o0).ev = r.ev := by
  unfold scalarRegion
  cases o0.evAdd <;> cases o0.evSet <;> cases o0.store <;> rfl

@[simp] theorem issueBundle_ev : (issueBundle r i b o0 o1).ev = r.ev := by
  simp only [issueBundle, updStream_ev, evSignal_ev, scalarRegion_ev, issueD_ev, issueV_ev, issueX_ev, consume_ev]

theorem issueBundle_lastIssue : (issueBundle r i b o0 o1).lastIssue = i := rfl

end

/-- Settles O24: the beat that passes, the issue over sound words, and the counters, which no slot changes before the beat ends. That
the changes of a beat take effect as the next row of the beat begins is the model's reading (notes/assumptions/35). -/
theorem bundleIssues : Obligations.BundleIssues := by
  intro s g slice i hen hrun htok hfit himem hsdata u hfetch hpick bg v r b o0 o1 hfault
  have himem' : r.imem.chk = [] := by
    change (passedBeat u g slice).regions[g].imem.chk = []
    rw [passedBeat_imem, updRegion_same, evEndBeat_imem, himem]
  have hsdata' : r.sdata.chk = [] := by
    change (passedBeat u g slice).regions[g].sdata.chk = []
    rw [passedBeat_sdata, updRegion_same, evEndBeat_sdata, hsdata]
  refine ⟨updRegion v g fun r => issueBundle r i b o0 o1, ?_, rfl, ?_, ?_, ?_⟩
  · rw [exec_bundleIssue_beat hen hrun htok hfit hfetch, hpick]
    exact congrArg Host.Outcome.next (issueStream_sound rfl rfl rfl rfl himem' hsdata' hfault)
  · obtain ⟨f, hf⟩ := passedBeat_eq_updRegion u g slice
    have ht : (updRegion v g fun r => issueBundle r i b o0 o1) = updRegion s g fun r => issueBundle (f (evEndBeat r)) i b o0 o1 := by
      change updRegion (passedBeat u g slice) g _ = _
      rw [hf, updRegion_updRegion, updRegion_updRegion]
    rw [ht]
    exact updRegion_frame ..
  · rw [updRegion_same, issueBundle_lastIssue]
  · rw [updRegion_same, issueBundle_ev, ← updRegion_same s g evEndBeat]
    exact passedBeat_ev u g slice

end Sys2Proof.Machine
end

section
/-! PROOFS. A send that lands (O18): what each step of an accepted DATA flit does to its link, its region and the answering link. -/

namespace Sys2Proof.Machine

/-! ## The ends of the links -/

section
variable (s : State) (l : Link) (f : Port → Port)

theorem endOf_updEnd_other {k : Link} (hk : k ≠ l) : endOf (updEnd s l f) k = endOf s k := by
  cases l with
  | port p =>
    cases k with
    | port q => exact updPort_other s p f q fun h => hk (h ▸ rfl)
    | bridge a b => rfl
  | bridge a b =>
    cases k with
    | port q => rfl
    | bridge c d =>
      by_cases hac : a = c
      · subst hac
        have hbd : b.val ≠ d.val := fun h => hk (Fin.ext h ▸ rfl)
        simp [endOf, updEnd, hbd]
      · have hval : a.val ≠ c.val := fun h => hac (Fin.ext h)
        simp [endOf, updEnd, hval]

/-- A change of a link's end that a view of it does not show leaves that view of every link's end. -/
theorem endOf_updEnd_view {α : Type} {φ : Port → α} {f : Port → Port} (hf : ∀ q, φ (f q) = φ q) (k : Link) :
    φ (endOf (updEnd s l f) k) = φ (endOf s k) := by
  by_cases hk : k = l
  · rw [hk, endOf_updEnd, hf]
  · rw [endOf_updEnd_other s l f hk]

theorem endOf_updRegion (g : RegionId) (h : Region → Region) (k : Link) : endOf (updRegion s g h) k = endOf s k := by
  cases k <;> rfl

theorem elapsed_updRegion (g : RegionId) (h : Region → Region) : elapsed (updRegion s g h) = elapsed s := rfl

theorem updEnd_updEnd (h : Port → Port) : updEnd (updEnd s l f) l h = updEnd s l fun q => h (f q) := by
  cases l with
  | port p => simp [updEnd, updPort]
  | bridge a b => simp [updEnd]

@[simp] theorem updEnd_regions : (updEnd s l f).regions = s.regions := by
  cases l <;> rfl

@[simp] theorem updEnd_enabled (g : RegionId) : enabled (updEnd s l f) g = enabled s g := by
  cases l <;> rfl

@[simp] theorem updEnd_elapsed : elapsed (updEnd s l f) = elapsed s := by
  cases l <;> rfl

@[simp] theorem updEnd_dropsTraffic : dropsTraffic (updEnd s l f) = dropsTraffic s := by
  cases l <;> rfl

end

/-! ## The header of an answer (Table 10.2): the fields below the one that is read are stripped one by one -/

section
variable (ty vc : BitVec 3) (last : Bool) (tag : BitVec 16) (gen : BitVec 4) (mid : BitVec 11) (len : Nat) (low : BitVec 36)

theorem hType_mkHdr : hType (mkHdr ty vc last tag gen mid len low) = ty := by
  unfold hType mkHdr
  iterate 9 rw [BitVec.extractLsb'_append_eq_of_le (by decide)]
  exact BitVec.extractLsb'_eq_self

theorem hTag_mkHdr : hTag (mkHdr ty vc last tag gen mid len low) = tag := by
  unfold hTag mkHdr
  iterate 5 rw [BitVec.extractLsb'_append_eq_of_le (by decide)]
  rw [BitVec.extractLsb'_append_eq_of_add_le (by decide)]
  exact BitVec.extractLsb'_eq_self

theorem hGen_mkHdr : hGen (mkHdr ty vc last tag gen mid len low) = gen := by
  unfold hGen mkHdr
  iterate 4 rw [BitVec.extractLsb'_append_eq_of_le (by decide)]
  rw [BitVec.extractLsb'_append_eq_of_add_le (by decide)]
  exact BitVec.extractLsb'_eq_self

/-- RREG is the upper part of the eleven bits that each kind of flit reads in its own way. -/
theorem hRreg_mkHdr : hRreg (mkHdr ty vc last tag gen mid len low) = mid.extractLsb' 5 6 := by
  unfold hRreg mkHdr
  iterate 3 rw [BitVec.extractLsb'_append_eq_of_le (by decide)]
  rw [BitVec.extractLsb'_append_eq_of_add_le (by decide)]
end

/-! ## What an accepted flit does (R298, R302, R305 to R307, R210) -/

theorem receive_of_accepts {s : State} {l : Link} {f : Flit} (want : BitVec 128 → Bool) (k : State → State)
    (hacc : accepts s l f) (hwant : want f.hdr = true) : receive s l f want k = k (acceptFlit s l) := by
  obtain ⟨hup, hgood, hon, hlegal⟩ := hacc
  simp [receive, hup, hgood, hon, hlegal, hwant]

/-- The end of a link that has taken a DATA flit and freed its receive buffer. -/
def takenEnd (f : Flit) (q : Port) : Port :=
  let vc : VcId := (hVc f.hdr).toFin
  { q with rxNext := q.rxNext + 1, rxDrop := false, toReturn := q.toReturn.set vc (q.toReturn[vc] + 1),
           isOpen := q.isOpen.set vc (!hLast f.hdr) }

/-- The fabric event that a DATA flit names (R210). -/
def sendEvent (h : BitVec 128) : Fin 64 := ⟨48 + (hRevt h).toNat, by omega⟩

/-- The region in which the last flit of a send has landed. -/
def landedRegion (f : Flit) (r : Region) : Region :=
  evAdd { r with scratch := sramWrite r.scratch (hOffset f.hdr) (f.payload.take (hLen f.hdr)) } (sendEvent f.hdr) 1 none

/-- The RESP OK that answers a send (R306). -/
def okAnswer (s : State) (f : Flit) : TxFlit :=
  { hdr := mkHdr tyRESP 7 true (hTag f.hdr) (hGen f.hdr) 0 0 0, payload := [], coll := none, due := elapsed s, sent := none }

/-- The end of a link with one flit more to send on channel 7. -/
def queuedEnd (x : TxFlit) (q : Port) : Port := { q with txq := q.txq.set 7 (q.txq[7] ++ [x]) }

theorem queuedEnd_txq (x : TxFlit) (q : Port) : (queuedEnd x q).txq[(7 : VcId)] = q.txq[(7 : VcId)] ++ [x] :=
  Vector.getElem_set_self _

/-- The module in which the last flit `f` of a send has arrived on the link `l` and landed in region `g`. -/
def landedSend (s : State) (l : Link) (f : Flit) (g : RegionId) : State :=
  updEnd (updRegion (updEnd s l (takenEnd f)) g (landedRegion f)) (backOf l) (queuedEnd (okAnswer s f))

theorem sendResp_seven (s : State) (l : Link) (f : Flit) :
    sendResp s l 7 (hTag f.hdr) (hGen f.hdr) 0 = updEnd s (backOf l) (queuedEnd (okAnswer s f)) := by
  have hmid : (0 : BitVec 6) ++ (0 : BitVec 5) = (0 : BitVec 11) := by decide
  have hvc : BitVec.ofNat 3 (7 : VcId).val = 7 := by decide
  rw [sendResp, hmid, hvc]
  rfl

theorem targetRegion_of_enabled {s : State} {g : RegionId} {rreg : BitVec 6} (hg : g.val = rreg.toNat) (hen : enabled s g = true) :
    targetRegion s rreg = some g := by
  have htarget : (rreg.toFin : RegionId) = g := Fin.ext hg.symm
  simp only [targetRegion, htarget, hen, if_true]

theorem toFin_five {vc : BitVec 3} (hvc : vc = 5) : (vc.toFin : VcId) = 5 := by
  subst hvc
  rfl

/-- No landing gate concerns channel 5. -/
theorem gated_five (ren : Bool) : gated ren 5 = false := by cases ren <;> rfl

theorem gateHolds_five (s : State) {h : BitVec 128} (hvc : hVc h = 5) : gateHolds s h = false := by
  unfold gateHolds
  split
  · rw [hvc, gated_five, Bool.false_and]
  · rfl

theorem landBytes_sound {s : State} {g : RegionId} (hsound : s.regions[g].scratch.chk = []) (a : Nat) (l : List Byte) :
    landBytes s g a l = (updRegion s g fun r => { r with scratch := sramWrite r.scratch a l }, true) := by
  simp only [landBytes, sramWriteBad_sound hsound, sramWriteFixes_sound hsound, sramCorrected_nil]
  exact congrArg (·, true) (updRegion_congr s g rfl)

theorem sendLanded_ungated (s : State) (g : RegionId) (h : BitVec 128) :
    sendLanded s g (hRevt h).toNat false true = updRegion s g fun r => evAdd r (sendEvent h) 1 none := by
  have hevent : 48 + (hRevt h).toNat < 64 := (sendEvent h).isLt
  simp [sendLanded, fabricEvent, hevent, sendEvent]

theorem landedSend_region (s : State) (l : Link) (f : Flit) (g : RegionId) :
    (landedSend s l f g).regions[g] = landedRegion f s.regions[g] := by
  rw [landedSend, updEnd_regions, updRegion_same, updEnd_regions]

section
variable {s : State} {l : Link} {f : Flit} {g : RegionId}

theorem landFlit_last (hvc : hVc f.hdr = 5) (hg : g.val = (hRreg f.hdr).toNat) (hen : enabled s g = true)
    (hsound : s.regions[g].scratch.chk = []) (hlast : hLast f.hdr = true) (hren : hRen f.hdr = true) :
    landFlit (acceptFlit s l) l f = landedSend s l f g := by
  have htaken : updEnd (giveCredit (acceptFlit s l) l (hVc f.hdr).toFin) l (fun q =>
      { q with isOpen := q.isOpen.set ((hVc f.hdr).toFin : VcId) (!hLast f.hdr) }) = updEnd s l (takenEnd f) := by
    rw [acceptFlit, giveCredit, updEnd_updEnd, updEnd_updEnd]
    rfl
  have htarget : targetRegion (updEnd s l (takenEnd f)) (hRreg f.hdr) = some g :=
    targetRegion_of_enabled hg ((updEnd_enabled ..).trans hen)
  have hgate : gated (hRen f.hdr) (hVc f.hdr) = false := by rw [hvc, gated_five]
  have hscratch : (updEnd s l (takenEnd f)).regions[g].scratch.chk = [] := by rw [updEnd_regions, hsound]
  unfold landFlit
  simp only [htaken, htarget, hgate, Bool.and_false, Bool.false_and, Bool.false_eq_true, if_false, landBytes_sound hscratch]
  simp only [hlast, hren, Bool.not_true, Bool.or_self, Bool.false_eq_true, if_false, sendLanded_ungated, updRegion_updRegion,
    sendResp_seven]
  have hanswer : okAnswer (updRegion (updEnd s l (takenEnd f)) g (landedRegion f)) f = okAnswer s f := by
    rw [okAnswer, elapsed_updRegion, updEnd_elapsed, okAnswer]
  exact congrArg (fun x => updEnd _ (backOf l) (queuedEnd x)) hanswer

theorem exec_dataReceive_lands (hacc : accepts s l f) (hty : hType f.hdr = tyDATA) (hvc : hVc f.hdr = 5)
    (hdrop : dropsTraffic s = false) (hheld : ∀ p, l = .port p → s.ports[p].held[(5 : VcId)] = [])
    (hg : g.val = (hRreg f.hdr).toNat) (hen : enabled s g = true) (hsound : s.regions[g].scratch.chk = [])
    (hlast : hLast f.hdr = true) (hren : hRen f.hdr = true) :
    exec (.dataReceive l f) s = .next (landedSend s l f g) := by
  have hwant : (hType f.hdr == tyDATA) = true := by rw [hty]; rfl
  have hkeeps : dropsTraffic (acceptFlit s l) = false := (updEnd_dropsTraffic ..).trans hdrop
  have hland := landFlit_last (l := l) hvc hg hen hsound hlast hren
  simp only [exec, execDataReceive, receive_of_accepts (fun h => hType h == tyDATA) _ hacc hwant, hkeeps, Bool.false_eq_true,
    if_false]
  cases l with
  | bridge a b => exact congrArg Host.Outcome.next hland
  | port p =>
    have hkept : (acceptFlit s (.port p)).ports[p].held = s.ports[p].held := by rw [acceptFlit, updEnd_port, updPort_same]
    have hempty : ∀ vc : VcId, vc = 5 → s.ports[p].held[vc] = [] := by
      rintro vc rfl
      exact hheld p rfl
    have hfree : headWaits (acceptFlit s (.port p)) p f = false := by rw [headWaits, gateHolds_five _ hvc, Bool.and_false]
    simp only [hkept, hempty _ (toFin_five hvc), hfree, List.isEmpty_nil, Bool.not_true, Bool.or_self,
      Bool.false_eq_true, if_false, hland]

end

/-- Settles O18: the send has landed, and a view of each link's end tells which of the two changes of links it shows. -/
theorem sendLands : Obligations.SendLands := by
  intro s l f g hacc hty hvc hdrop hhard hheld hg hen hsound hlast hren
  have hkeeps : dropsTraffic s = false := by rw [dropsTraffic, hdrop, hhard, Bool.or_self]
  have hregion := landedSend_region s l f g
  refine ⟨_, exec_dataReceive_lands hacc hty hvc hkeeps hheld hg hen hsound hlast hren, ?_, ?_, fun e he => ?_,
    ⟨okAnswer s f, ?_, hType_mkHdr .., hTag_mkHdr .., hGen_mkHdr .., hRreg_mkHdr ..⟩, ?_, ?_, fun k hk hback => ?_, ?_⟩
  · rw [hregion, landedRegion, evAdd_scratch, sramWrite_sound hsound]
  · rw [hregion, landedRegion, evAdd_scratch, sramWrite_sound hsound, hsound]
  · have hevent : e = sendEvent f.hdr := Fin.ext he
    rw [hregion, hevent]
    rfl
  · rw [landedSend, endOf_updEnd, endOf_updRegion, queuedEnd_txq, endOf_updEnd_view (φ := Port.txq) s l (f := takenEnd f) fun _ => rfl]
  · rw [landedSend, endOf_updEnd_view (φ := Port.toReturn) _ _ (f := queuedEnd (okAnswer s f)) fun _ => rfl, endOf_updRegion,
      endOf_updEnd]
    simp [takenEnd, toFin_five hvc]
  · rw [landedSend, endOf_updEnd_view (φ := Port.rxNext) _ _ (f := queuedEnd (okAnswer s f)) fun _ => rfl, endOf_updRegion,
      endOf_updEnd]
    rfl
  · rw [landedSend, endOf_updEnd_other _ _ _ hback, endOf_updRegion, endOf_updEnd_other _ _ _ hk]
  · rw [hregion]
    cases l <;> rfl

end Sys2Proof.Machine
end

section
/-! PROOFS. The timing faults of a stream (O26), the start of a step (O41), and the registers that hold constants (O8). -/

namespace Sys2Proof.Machine

/-! ## SEGMENT_OVERRUN, REMOTE_STALL and PROMISE_OVERRUN (R222, R224, R375) -/

section
variable {s : State} {g : RegionId} {i : StreamId}

theorem exec_segmentOverrun_open {q : Seg} (hseg : s.regions[g].streams[i].seg = some q) :
    exec (.segmentOverrun g i) s =
      .next (if q.d + q.allowance < q.counter then streamFault s g i cSegmentOverrun else s) := by
  simp only [exec, execSegmentOverrun, hseg]

theorem exec_remoteStall_held {n : Nat} (hheld : s.regions[g].streams[i].heldFrom = some n)
    (hrun : s.regions[g].streams[i].running = true) :
    exec (.remoteStall g i) s = .next (if n + stallNs s < now s then streamFault s g i cRemoteStall else s) := by
  simp only [exec, execRemoteStall, hheld, hrun, Bool.true_and, decide_eq_true_eq]

theorem exec_promiseOverrun_started {c : CtxId} {t : Nat} {l : Launch} (hctx : s.regions[g].ctx = some c)
    (htadm : s.regions[g].tadm = some t) (hlaunch : s.ctxs[c].launch = some l) (hstart : l.started = true)
    (hopen : (s.regions[g].streams[i].marked && s.regions[g].streams[i].ended) = false) :
    exec (.promiseOverrun g i) s = .next (if streamDue s g i l t < now s then streamFault s g i cPromiseOverrun else s) := by
  simp only [exec, execPromiseOverrun, hctx, htadm, hlaunch, hstart, hopen, Bool.not_false, Bool.true_and, decide_eq_true_eq]

/-- A stream that has issued the END after its STEPMARK meets its bound. -/
theorem exec_promiseOverrun_ended (hmark : s.regions[g].streams[i].marked = true)
    (hend : s.regions[g].streams[i].ended = true) : exec (.promiseOverrun g i) s = .next s := by
  simp only [exec, execPromiseOverrun, hmark, hend, Bool.and_self, Bool.not_true, Bool.and_false, Bool.false_and,
    Bool.false_eq_true, if_false]
  split
  · split <;> rfl
  · rfl

end

/-- Settles O26: each row's own law above gives its clause. -/
theorem timingFaults : Obligations.TimingFaults := by
  intro s g i
  refine ⟨fun q => exec_segmentOverrun_open, fun n => exec_remoteStall_held,
    fun c t l hctx htadm hlaunch hstart hopen => exec_promiseOverrun_started hctx htadm hlaunch hstart ?_,
    exec_promiseOverrun_ended⟩
  rwa [Bool.and_eq_false_imp]

/-! ## STEP_START (R200, R313, R333, R351, Table 7.1) -/

section
variable (old : Stream) (entry : BitVec 14) (step : Nat) (g : RegionId) (i : StreamId)

theorem armStream_x1 : xRead (armStream old entry step g i) 1 = BitVec.ofNat 64 step := rfl

theorem armStream_x2 : xRead (armStream old entry step g i) 2 = BitVec.ofNat 64 g.val := rfl

theorem armStream_x3 : xRead (armStream old entry step g i) 3 = BitVec.ofNat 64 i.val := rfl

theorem armRegion_stream (r : Region) : (armRegion r g step).streams[i] = armStream r.streams[i] r.entry[i] step g i := by
  simp [armRegion]

end

/-- The regions once a step has started in context `c`. -/
def armedRegions (s : State) (c : CtxId) (step : Nat) : Vector Region 64 :=
  Vector.ofFn fun g : RegionId => if s.regions[g].ctx == some c then armRegion s.regions[g] g step else s.regions[g]

/-- The launch once its step has started. -/
def Launch.begun (l : Launch) : Launch := { l with started := true, sStep := l.due, wave := Wave.reset l.step }

/-- The fabric once a step has started in context `c`: it drops no traffic, and what the context's collectives left is gone (R313). -/
def clearedFabric (s : State) (c : CtxId) : Fabric :=
  { s.fab with dropping := false, colls := s.fab.colls.filter fun k => !(s.regions[k.g].ctx == some c),
               early := s.fab.early.filter fun e => !(s.regions[e.g].ctx == some c) }

section
variable {s : State} {c : CtxId} {l : Launch} {g : RegionId}

theorem armedRegions_of_ctx (step : Nat) (hctx : s.regions[g].ctx = some c) :
    (armedRegions s c step)[g] = armRegion s.regions[g] g step := by
  simp only [armedRegions, Fin.getElem_fin, Vector.getElem_ofFn]
  exact if_pos (beq_iff_eq.mpr hctx)

theorem armedRegions_of_other (step : Nat) (hctx : s.regions[g].ctx ≠ some c) : (armedRegions s c step)[g] = s.regions[g] := by
  simp only [armedRegions, Fin.getElem_fin, Vector.getElem_ofFn]
  exact if_neg fun h => hctx (beq_iff_eq.mp h)

theorem exec_stepStart_due (hlaunch : s.ctxs[c].launch = some l) (hwait : l.started = false) (hready : isReady s = true)
    (hdue : l.due ≤ now s) (hpower : s.power.under = false) :
    exec (.stepStart c) s = .next (updCtx { s with regions := armedRegions s c l.step, fab := clearedFabric s c } c fun x =>
      { x with launch := some l.begun, halt := none, tiles := [] }) := by
  simp only [exec, execStepStart, hlaunch, hwait, hready, hpower, decide_eq_false (Nat.not_lt.mpr hdue), Bool.not_true, Bool.or_self,
    Bool.false_eq_true, if_false]
  rfl

end

/-- Settles O41: the launched context's regions are armed, and the rest of the module stands. -/
theorem stepsStart : Obligations.StepsStart := by
  intro s c l hlaunch hwait hready hdue hpower
  refine ⟨_, exec_stepStart_due hlaunch hwait hready hdue hpower, fun g hg => armedRegions_of_other l.step hg, fun g i hg => ?_,
    ?_, ?_, ?_, fun d hd => updCtx_other _ c _ d hd, rfl, rfl⟩
  · have hregion := armedRegions_of_ctx l.step hg
    simp only [updCtx_regions, hregion, armRegion_stream]
    exact ⟨rfl, rfl, armStream_x1 .., armStream_x2 .., armStream_x3 .., rfl, rfl, rfl, rfl, rfl⟩
  · rw [updCtx_same, Launch.begun]
  · rw [updCtx_same]
  · rw [updCtx_same]

/-! ## Registers that hold constants (R199) -/

/-- Settles O8: the laws of x0 and p0. -/
theorem hardwiredRegisters : Obligations.HardwiredRegisters := fun st v b =>
  ⟨xRead_zero st, pRead_zero st, xWrite_zero st v, pWrite_zero st b⟩

end Sys2Proof.Machine
end

section
/-! PROOFS. The two-operand integer operations of the scalar slots (O23). -/

namespace Sys2Proof.Machine

/-! ## The two-operand integer operations (Table 8.4) -/

section
variable (a b : W64)

/-- A shift takes bits 5 to 0 of its count. -/
theorem shiftCount_toNat : (b &&& 0x3F).toNat = b.toNat % 64 := by
  rw [BitVec.toNat_and]
  exact Nat.and_two_pow_sub_one_eq_mod b.toNat 6

theorem scalarInt_divide : scalarInt 0x04 a b = if b = 0 then BitVec.allOnes 64 else a / b := rfl

theorem scalarInt_remainder : scalarInt 0x05 a b = if b = 0 then a else a % b := rfl

theorem scalarInt_shiftLeft : scalarInt 0x09 a b = a <<< (b.toNat % 64) :=
  congrArg (a <<< ·) (shiftCount_toNat b)

theorem scalarInt_shiftRight : scalarInt 0x0A a b = a >>> (b.toNat % 64) :=
  congrArg (a >>> ·) (shiftCount_toNat b)

theorem scalarInt_shiftRightSigned : scalarInt 0x0B a b = a.sshiftRight (b.toNat % 64) :=
  congrArg a.sshiftRight (shiftCount_toNat b)

theorem scalarInt_minSigned_toInt : (scalarInt 0x0C a b).toInt = min a.toInt b.toInt :=
  (apply_ite BitVec.toInt (a.toInt ≤ b.toInt) a b).trans (Int.min_def ..).symm

theorem scalarInt_maxSigned_toInt : (scalarInt 0x0D a b).toInt = max a.toInt b.toInt :=
  (apply_ite BitVec.toInt (a.toInt ≤ b.toInt) b a).trans (Int.max_def ..).symm

theorem scalarInt_minUnsigned_toNat : (scalarInt 0x0E a b).toNat = min a.toNat b.toNat :=
  (apply_ite BitVec.toNat (a.toNat ≤ b.toNat) a b).trans (Nat.min_def ..).symm

theorem scalarInt_maxUnsigned_toNat : (scalarInt 0x0F a b).toNat = max a.toNat b.toNat :=
  (apply_ite BitVec.toNat (a.toNat ≤ b.toNat) b a).trans (Nat.max_def ..).symm

end

/-- Settles O23: addition, subtraction, multiplication and the bitwise operations are the words' own, and the laws above give the
other operations. -/
theorem scalarIntegers : Obligations.ScalarIntegers := fun a b =>
  ⟨rfl, rfl, rfl,
    fun hzero => ⟨(scalarInt_divide a b).trans (if_pos hzero), (scalarInt_remainder a b).trans (if_pos hzero)⟩,
    fun hdiv => ⟨(scalarInt_divide a b).trans (if_neg hdiv), (scalarInt_remainder a b).trans (if_neg hdiv)⟩,
    rfl, rfl, rfl, scalarInt_shiftLeft a b, scalarInt_shiftRight a b, scalarInt_shiftRightSigned a b,
    scalarInt_minSigned_toInt a b, scalarInt_maxSigned_toInt a b, scalarInt_minUnsigned_toNat a b,
    scalarInt_maxUnsigned_toNat a b⟩

end Sys2Proof.Machine
end

section
/-! PROOFS. Page requests that this module serves (O36), and the data, digests and pass records that other modules send (O38). -/

namespace Sys2Proof.Machine

/-! ## A flit that is taken, and a request whose last flit is here (R292, R298) -/

theorem receiveNow_of_accepts {s : State} {l : Link} {f : Flit} (want : BitVec 128 → Bool) (k : State → State)
    (hacc : accepts s l f) (hwant : want f.hdr = true) : receiveNow s l f want k = k (arrived s l f) :=
  receive_of_accepts want _ hacc hwant

theorem isPage_of_kind {h : BitVec 128} {kind : BitVec 5} (hty : hType h = tyPAGE) (hkind : hPkind h = kind) :
    isPage kind h = true := by
  simp [isPage, hty, hkind]

/-- The flit `f` is the last of a page request with the bytes `l`: the port takes it, which leaves the module `w`, and the module
serves requests. -/
structure WholeRequest (s : State) (p : PortId) (f : Flit) (w : State) (l : List Byte) : Prop where
  acc : accepts s (.port p) f
  page : hType f.hdr = tyPAGE
  whole : gatherPage (arrived s (.port p) f) p f = (w, some l)
  serves : w.hardFault = false

section
variable {s : State} {p : PortId} {f : Flit} {w : State} {l : List Byte}

theorem servePage_of_whole {kind : BitVec 5} (hreq : WholeRequest s p f w l) (hkind : hPkind f.hdr = kind)
    (k : State → List Byte → State) : servePage s p f kind k = k w l := by
  refine (receiveNow_of_accepts _ _ hreq.acc (isPage_of_kind hreq.page hkind)).trans ?_
  simp [hreq.whole, hreq.serves]

/-! ## Lending (R261, R293, R294) -/

theorem exec_lendReq_over_quota (hreq : WholeRequest s p f w l) (hkind : hPkind f.hdr = pkLendReq) (hblk : lendBlockOk l = true)
    (hmir : lendMirror l = false) (hover : w.boot.cfg.lend < lentPages w + lendPages l) :
    exec (.lendReq p f) s = .next (answerPage w p f 3) := by
  refine congrArg Host.Outcome.next ((servePage_of_whole hreq hkind _).trans ?_)
  simp [hblk, hmir, hover]

theorem exec_lendReq_grants (hreq : WholeRequest s p f w l) (hkind : hPkind f.hdr = pkLendReq) (hblk : lendBlockOk l = true)
    (hmir : lendMirror l = false) {fs : List Nat} {x : State} (hquota : lentPages w + lendPages l ≤ w.boot.cfg.lend)
    (hgrant : lendFrames p (hCtx f.hdr) (lendPages l) w = some (fs, x)) :
    exec (.lendReq p f) s = .next (answerPage
      (sendPage x p pkLendAns (hCtx f.hdr) (hTag f.hdr) (hGen f.hdr) 0 (fs.flatMap (leBytes 4))) p f 0) := by
  refine congrArg Host.Outcome.next ((servePage_of_whole hreq hkind _).trans ?_)
  simp [hblk, hmir, Nat.not_lt.mpr hquota, hgrant]

/-- Frames come back together or not at all. -/
theorem exec_lendFree_eq (hreq : WholeRequest s p f w l) (hkind : hPkind f.hdr = pkLendFree) (hblk : lendBlockOk l = true)
    (hmir : lendMirror l = false) :
    exec (.lendFree p f) s = .next (
      if ∀ q ∈ frameList l (lendPages l), ∃ x ∈ w.hbm.lent, x.port = p ∧ x.ctx = hCtx f.hdr ∧ x.frame = q then
        answerPage (updHbm w fun h => { h with lent := h.lent.filter fun x =>
          !(x.port == p && x.ctx == hCtx f.hdr && (frameList l (lendPages l)).contains x.frame) }) p f 0
      else answerPage w p f 1) := by
  refine congrArg Host.Outcome.next ((servePage_of_whole hreq hkind _).trans ?_)
  simp [hblk, hmir, and_assoc]

/-! ## Lent data (R293, R294) -/

/-- With every stored code word sound, a read of pieces finds nothing. -/
theorem hbmFindings_pieces_nil {h : Hbm} (hsound : h.mdata = []) (ps : List (Nat × Nat)) :
    (ps.flatMap fun e => hbmFindings h e.1 e.2) = [] := by
  simp [hbmFindings, hsound]

theorem hbmCorrected_nil (s : State) (base : Rec) (src : BitVec 16) : hbmCorrected s base src [] = s := rfl

theorem exec_rdReq_outside (hreq : WholeRequest s p f w l) (hkind : hPkind f.hdr = pkRdReq) (hblk : addrBlockOk l false = true)
    (hout : blockPieces w p (hCtx f.hdr) l = none) : exec (.rdReq p f) s = .next (answerPage w p f 1) := by
  refine congrArg Host.Outcome.next ((servePage_of_whole hreq hkind _).trans ?_)
  simp [hblk, hout]

theorem exec_rdReq_reads (hreq : WholeRequest s p f w l) (hkind : hPkind f.hdr = pkRdReq) (hblk : addrBlockOk l false = true)
    {ps : List (Nat × Nat)} (hin : blockPieces w p (hCtx f.hdr) l = some ps) (hsound : w.hbm.mdata = []) :
    exec (.rdReq p f) s = .next (answerPage (sendPage w p pkRdData (hCtx f.hdr) (hTag f.hdr) (hGen f.hdr) 0
      (ps.flatMap fun e => hbmBytes w.hbm e.1 e.2)) p f 0) := by
  refine congrArg Host.Outcome.next ((servePage_of_whole hreq hkind _).trans ?_)
  simp [hblk, hin, hbmFindings_pieces_nil hsound, hbmCorrected_nil, firstBad]

section
variable (hreq : WholeRequest s p f w l) (hkind : hPkind f.hdr = pkWrReq) (hblk : addrBlockOk l true = true)
  (hmir : adMirror l = false) (hlen : (l.drop 16).length = adLen l)
include hreq hkind hblk hmir hlen

theorem exec_wrReq_outside (hout : blockPieces w p (hCtx f.hdr) l = none) :
    exec (.wrReq p f) s = .next (answerPage w p f 1) := by
  refine congrArg Host.Outcome.next ((servePage_of_whole hreq hkind _).trans ?_)
  simp only [hlen, hblk, hmir, hout, bne_self_eq_false, Bool.not_true, Bool.or_self, Bool.false_and, Bool.false_eq_true, if_false]

theorem exec_wrReq_writes {ps : List (Nat × Nat)} {x : State} (hin : blockPieces w p (hCtx f.hdr) l = some ps)
    (hhost : adHost l = false) (hput : writePieces w ps (l.drop 16) = (x, true)) :
    exec (.wrReq p f) s = .next (answerPage x p f 0) := by
  refine congrArg Host.Outcome.next ((servePage_of_whole hreq hkind _).trans ?_)
  simp only [hlen, hblk, hmir, hin, hhost, hput, Option.getD_some, bne_self_eq_false, Bool.not_true, Bool.or_self, Bool.false_and,
    Bool.false_eq_true, if_false]

end

/-! ## Tile entries (R426) -/

theorem exec_tileReq_outside (hreq : WholeRequest s p f w l) (hkind : hPkind f.hdr = pkTileReq)
    (hout : tileEntries w (hCtx f.hdr) l = none) : exec (.tileReq p f) s = .next (answerPage w p f 1) := by
  refine congrArg Host.Outcome.next ((servePage_of_whole hreq hkind _).trans ?_)
  simp [hout]

theorem exec_tileReq_reads (hreq : WholeRequest s p f w l) (hkind : hPkind f.hdr = pkTileReq) {ps : List (Nat × Nat)}
    (hin : tileEntries w (hCtx f.hdr) l = some ps) (hsound : w.hbm.mdata = []) :
    exec (.tileReq p f) s = .next (answerPage (sendPage w p pkTileData (hCtx f.hdr) (hTag f.hdr) (hGen f.hdr) 0
      (ps.flatMap fun e => hbmBytes w.hbm e.1 e.2)) p f 0) := by
  refine congrArg Host.Outcome.next ((servePage_of_whole hreq hkind _).trans ?_)
  simp [hin, hbmFindings_pieces_nil hsound, hbmCorrected_nil, firstBad]

end

/-- Settles O36: each row serves the whole request through `servePage`, and the laws above give its answers. -/
theorem pageRequestsServed : Obligations.PageRequestsServed := by
  intro s p f w l hacc hty hwhole hserves
  have hreq : WholeRequest s p f w l := ⟨hacc, hty, hwhole, hserves⟩
  refine ⟨fun hkind hblk hmir => ⟨exec_lendReq_over_quota hreq hkind hblk hmir, fun _ _ => exec_lendReq_grants hreq hkind hblk hmir⟩,
    fun hkind hblk hmir => ⟨fun hall => ?_, fun ⟨q, hq, hnone⟩ => ?_⟩,
    fun hkind hblk => ⟨exec_rdReq_outside hreq hkind hblk, fun _ => exec_rdReq_reads hreq hkind hblk⟩,
    fun hkind hblk hmir hlen => ⟨exec_wrReq_outside hreq hkind hblk hmir hlen,
      fun _ _ hin hhost => exec_wrReq_writes hreq hkind hblk hmir hlen hin hhost⟩,
    fun hkind => ⟨exec_tileReq_outside hreq hkind, fun _ => exec_tileReq_reads hreq hkind⟩⟩
  · exact (exec_lendFree_eq hreq hkind hblk hmir).trans (congrArg _ (if_pos hall))
  · refine (exec_lendFree_eq hreq hkind hblk hmir).trans (congrArg _ (if_neg fun hall => ?_))
    obtain ⟨x, hx, hmine⟩ := hall q hq
    exact hnone x hx hmine

/-! ## Answers that this module has asked for (R291, R292) -/

section
variable {s : State} {p : PortId} {f : Flit} {t : Txn}

/-- The module with the bytes of an answer flit kept, at their offset, with the transaction `t`. -/
def keptWith (s : State) (f : Flit) (t : Txn) : State :=
  updTxn s t fun x => { x with data := memPutBytes x.data (hPoff f.hdr) (f.payload.take (hLen f.hdr)) }

/-- Taking a flit from a port leaves the outstanding transactions. -/
theorem findTxn_arrived (s : State) (p : PortId) (f : Flit) (h : BitVec 128) : findTxn (arrived s (.port p) f) h = findTxn s h := rfl

theorem keepData_of_asked {asks : Ask → Bool} (hfind : findTxn s f.hdr = some t) (hask : asks t.ask = true) :
    keepData s f asks = keptWith s f t := by
  simp [keepData, hfind, hask, keptWith]

/-- An answer of the kind asked for, taken from a port, is kept. -/
theorem receiveNow_keepData {kind : BitVec 5} {asks : Ask → Bool} (hacc : accepts s (.port p) f) (hty : hType f.hdr = tyPAGE)
    (hkind : hPkind f.hdr = kind) (hfind : findTxn s f.hdr = some t) (hask : asks t.ask = true) :
    receiveNow s (.port p) f (isPage kind) (keepData · f asks) = keptWith (arrived s (.port p) f) f t :=
  (receiveNow_of_accepts _ _ hacc (isPage_of_kind hty hkind)).trans
    (keepData_of_asked ((findTxn_arrived s p f f.hdr).trans hfind) hask)

theorem exec_tileData_keeps (hacc : accepts s (.port p) f) (hty : hType f.hdr = tyPAGE) (hkind : hPkind f.hdr = pkTileData)
    (hfind : findTxn s f.hdr = some t) (hask : t.ask = .tile) (hmore : hLast f.hdr = false) :
    exec (.tileData p f) s = .next (keptWith (arrived s (.port p) f) f t) := by
  have hkeep : keepData (arrived s (.port p) f) f (· == .tile) = keptWith (arrived s (.port p) f) f t :=
    keepData_of_asked ((findTxn_arrived s p f f.hdr).trans hfind) (by simp [hask])
  refine congrArg Host.Outcome.next ((receiveNow_of_accepts _ _ hacc (isPage_of_kind hty hkind)).trans ?_)
  simp [hkeep, hmore]

end

/-! ## Digest sets and pass records (R425, R429) -/

section
variable {s : State} {p : PortId} {f : Flit} {w : State} {l : List Byte}

theorem exec_digestSet_malformed (hreq : WholeRequest s p f w l) (hkind : hPkind f.hdr = pkDigestSet) (hbad : digestSetOk l = false) :
    exec (.digestSet p f) s = .next (answerPage w p f 1) := by
  refine congrArg Host.Outcome.next ((servePage_of_whole hreq hkind _).trans ?_)
  simp [hbad]

/-- The answer leaves the contexts, so that the own step stands as it did. -/
theorem stepComplete_answerPage (w : State) (p : PortId) (f : Flit) (st : BitVec 6) (c : CtxId) (step : W64) :
    stepComplete (answerPage w p f st) c step = stepComplete w c step := rfl

theorem exec_digestSet_eq (hreq : WholeRequest s p f w l) (hkind : hPkind f.hdr = pkDigestSet) (hok : digestSetOk l = true) :
    exec (.digestSet p f) s = .next (
      if stepComplete w (hCtx f.hdr) (parseDigestSet l).step then
        compareSet (answerPage w p f 0) (hCtx f.hdr) (parseDigestSet l)
      else { answerPage w p f 0 with
        digestSets := (w.digestSets.filter fun e => e.1 != hCtx f.hdr) ++ [(hCtx f.hdr, parseDigestSet l)] }) := by
  refine congrArg Host.Outcome.next ((servePage_of_whole hreq hkind _).trans ?_)
  simp only [hok, stepComplete_answerPage, Bool.not_true, Bool.false_eq_true, if_false]
  rfl

theorem exec_passRec_malformed (hreq : WholeRequest s p f w l) (hkind : hPkind f.hdr = pkPassRec)
    (hbad : sliceNat l 11 1 ≠ 0 ∨ sliceNat l 14 2 ≠ 0) : exec (.passRec p f) s = .next (answerPage w p f 1) := by
  refine congrArg Host.Outcome.next ((servePage_of_whole hreq hkind _).trans (if_pos ?_))
  simpa using hbad

theorem exec_passRec_eq (hreq : WholeRequest s p f w l) (hkind : hPkind f.hdr = pkPassRec) (hzero : sliceNat l 11 1 = 0)
    (hzero' : sliceNat l 14 2 = 0) :
    exec (.passRec p f) s = .next (match w.ownRecs.find? (samePass (parsePassRec l (now w))) with
      | some own => lockCompare { answerPage w p f 0 with ownRecs := w.ownRecs.erase own } own (parsePassRec l (now w))
      | none => { answerPage w p f 0 with peerRecs := w.peerRecs ++ [parsePassRec l (now w)] }) := by
  refine congrArg Host.Outcome.next ((servePage_of_whole hreq hkind _).trans ((if_neg ?_).trans ?_))
  · simp [hzero, hzero']
  · rfl

theorem lockCompare_of_agree (s : State) {own peer : PassRecord} (hagree : own.digest = peer.digest) : lockCompare s own peer = s := by
  simp [lockCompare, hagree]

end

/-! ## Records that find no counterpart (R429) -/

section
variable {s : State} {g : RegionId} {c : ClusterId} {i : StreamId} {seq : BitVec 16}

/-- The record of that pass has waited for longer than the stall limit. -/
def overdue (s : State) (g : RegionId) (c : ClusterId) (i : StreamId) (seq : BitVec 16) (r : PassRecord) : Bool :=
  r.region.toNat == g.val && r.cluster.toNat == c.val && r.stream.toNat == i.val && r.seq == seq &&
    decide (r.atCount + stallNs s < now s)

/-- The job fault REMOTE_STALL at the place of the pass. -/
def remoteStall (s : State) (g : RegionId) (c : ClusterId) (i : StreamId) : FaultInfo :=
  { cause := cRemoteStall, ctx := s.regions[g].ctx,
    rcd := { regionRec s g with cluster := BitVec.ofNat 8 c.val, stream := BitVec.ofNat 2 i.val } }

theorem exec_lockstepTimeout_of_overdue (hany : (s.ownRecs.any (overdue s g c i seq) || s.peerRecs.any (overdue s g c i seq)) = true) :
    exec (.lockstepTimeout g c i seq) s = .next (raiseFault
      { s with ownRecs := s.ownRecs.filter (!overdue s g c i seq ·), peerRecs := s.peerRecs.filter (!overdue s g c i seq ·) }
      (remoteStall s g c i)) :=
  congrArg Host.Outcome.next (if_pos hany)

/-- The one record, an own one, goes. -/
theorem exec_lockstepTimeout_drops {q : PassRecord} (hown : s.ownRecs = [q]) (hpeer : s.peerRecs = [])
    (hlate : overdue s g c i seq q = true) :
    exec (.lockstepTimeout g c i seq) s = .next (raiseFault { s with ownRecs := [] } (remoteStall s g c i)) := by
  have hdrop : { s with ownRecs := s.ownRecs.filter (!overdue s g c i seq ·), peerRecs := s.peerRecs.filter (!overdue s g c i seq ·) } =
      { s with ownRecs := [] } := by
    simp [hown, hpeer, hlate]
  rw [exec_lockstepTimeout_of_overdue (by simp [hown, hlate]), hdrop]

end

/-- Settles O38: an answer's bytes go to the transaction that its TAG and GEN name, a whole digest set or pass record is served
through `servePage`, and a record past the stall limit is dropped. -/
theorem dataOfOtherModules : Obligations.DataOfOtherModules := by
  refine ⟨fun s p f t hacc hty hfind => ⟨fun hkind hask => ?_, fun hkind hask => ?_, fun hkind hask hmore =>
      exec_tileData_keeps hacc hty hkind hfind hask hmore⟩,
    fun s p f w l hacc hty hwhole hserves => ?_,
    fun s g c i seq q hown hpeer hg hc hi hseq hlate =>
      exec_lockstepTimeout_drops hown hpeer (by simp [overdue, hg, hc, hi, hseq, hlate])⟩
  · exact congrArg _ (receiveNow_keepData hacc hty hkind hfind (asks := (· == .lend false)) (by simp [hask]))
  · exact congrArg _ (receiveNow_keepData hacc hty hkind hfind (asks := (· == .read)) (by simp [hask]))
  · have hreq : WholeRequest s p f w l := ⟨hacc, hty, hwhole, hserves⟩
    refine ⟨exec_digestSet_malformed hreq, exec_passRec_malformed hreq, fun hkind hok => ⟨fun hopen => ?_, fun hdone => ?_⟩,
      fun hkind hzero hzero' => ⟨fun hnone => ?_, fun own hown hagree => ?_⟩⟩
    · rw [exec_digestSet_eq hreq hkind hok, hopen]; rfl
    · rw [exec_digestSet_eq hreq hkind hok, hdone]; rfl
    · rw [exec_passRec_eq hreq hkind hzero hzero', hnone]
    · rw [exec_passRec_eq hreq hkind hzero hzero', hown]
      exact congrArg _ (lockCompare_of_agree _ hagree)

end Sys2Proof.Machine
end

section
/-! PROOFS. The page operations of MEM_MAP (O53): what the page engine does with the operation offered to it, and what RELEASE and MAP
leave of a context's pages. -/

namespace Sys2Proof.Machine

/-! ## Overrides -/

section
variable {α : Type}

theorem ovGet_ovPut_self (l : Sparse α) (k : Nat) (x : α) : ovGet (ovPut l k x) k = some x := by
  induction l with
  | nil => simp [ovPut, ovGet]
  | cons e rest ih =>
    obtain ⟨a, v⟩ := e
    unfold ovPut
    split
    · exact if_pos rfl
    · split
      · exact if_pos rfl
      · next hne => exact (if_neg (Ne.symm hne)).trans ih

theorem ovGet_ovPut_other (l : Sparse α) {k j : Nat} (x : α) (hj : j ≠ k) : ovGet (ovPut l k x) j = ovGet l j := by
  induction l with
  | nil => simp [ovPut, ovGet, hj.symm]
  | cons e rest ih =>
    obtain ⟨a, v⟩ := e
    unfold ovPut
    split
    · exact if_neg hj.symm
    · split
      · next heq => exact (if_neg hj.symm).trans (if_neg (heq ▸ hj.symm)).symm
      · simp only [ovGet, ih]

end

/-! ## What translation reads: the pages of the contexts and the residencies -/

/-- The residencies of HBM and the number of the next one. -/
def residView (h : Hbm) : List Resid × Nat := (h.resids, h.nextId)

/-- The pages of every context, and the residencies they name. -/
def pageView (s : State) : (CtxId → Sparse Nat) × List Resid × Nat := (fun c => s.ctxs[c].pages, residView s.hbm)

section
variable {s t : State} (hview : pageView t = pageView s)
include hview

theorem pages_of_pageView (c : CtxId) : t.ctxs[c].pages = s.ctxs[c].pages := congrFun (congrArg Prod.fst hview) c

theorem resids_of_pageView : t.hbm.resids = s.hbm.resids := congrArg (·.2.1) hview

theorem nextId_of_pageView : t.hbm.nextId = s.hbm.nextId := congrArg (·.2.2) hview

theorem residAt_of_pageView (c : CtxId) (page : Nat) : residAt t c page = residAt s c page := by
  simp only [residAt, residById, pages_of_pageView hview, resids_of_pageView hview]

end

theorem pageView_updHbm (s : State) {f : Hbm → Hbm} (hf : residView (f s.hbm) = residView s.hbm) :
    pageView (updHbm s f) = pageView s :=
  congrArg (Prod.mk _) hf

theorem pageView_updCtx (s : State) {c : CtxId} {f : Ctx → Ctx} (hf : (f s.ctxs[c]).pages = s.ctxs[c].pages) :
    pageView (updCtx s c f) = pageView s := by
  refine congrArg (Prod.mk · _) (funext fun e => ?_)
  by_cases hsame : e = c
  · subst hsame
    exact (congrArg Ctx.pages (updCtx_same s e f)).trans hf
  · exact congrArg Ctx.pages (updCtx_other s c f e hsame)

theorem residView_hbmPutWord (h : Hbm) (w : Nat) (x : BitVec 512) : residView (hbmPutWord h w x) = residView h := by
  dsimp only [residView, hbmPutWord]

theorem residView_hbmWrite (h : Hbm) (a : Nat) (l : List Byte) : residView (hbmWrite h a l) = residView h := by
  dsimp only [hbmWrite, residView]
  exact foldl_same (φ := residView) (fun q e => by split <;> simp only [residView_hbmPutWord]) _ h

@[simp] theorem pageView_putEntry (s : State) (a : Nat) (v : W64) : pageView (putEntry s a v) = pageView s :=
  pageView_updHbm s (residView_hbmWrite ..)

@[simp] theorem pageView_syncLeaf (s : State) (c : CtxId) (page : Nat) : pageView (syncLeaf s c page) = pageView s := by
  unfold syncLeaf
  split <;> simp

@[simp] theorem pageView_syncResid (s : State) (id : Nat) : pageView (syncResid s id) = pageView s :=
  foldl_same (φ := pageView) (fun b _ => foldl_same (φ := pageView) (fun _ _ => pageView_syncLeaf ..) _ b) _ s

@[simp] theorem pageView_makeTab (s : State) (c : CtxId) (lvl i : Nat) (above : Option Nat) :
    pageView (makeTab s c lvl i above) = pageView s := by
  unfold makeTab
  dsimp only
  split
  · split
    · exact (pageView_putEntry ..).trans (pageView_updCtx s rfl)
    · exact pageView_updCtx s rfl
  · rfl

@[simp] theorem pageView_makeTabs (s : State) (c : CtxId) (page : Nat) : pageView (makeTabs s c page) = pageView s := by
  simp [makeTabs]

theorem pageView_of_allocFrame {s t : State} {f : Nat} (halloc : allocFrame s = some (f, t)) : pageView t = pageView s := by
  obtain ⟨_, _, heq⟩ := Option.map_eq_some_iff.mp halloc
  cases heq
  rfl

theorem pageView_of_growTables {c : CtxId} {n : Nat} {s t : State} (hgrow : growTables c n s = some t) : pageView t = pageView s := by
  induction n generalizing s with
  | zero =>
    cases hgrow
    rfl
  | succ n ih =>
    unfold growTables at hgrow
    split at hgrow
    · cases hgrow
    · next f u halloc =>
      calc pageView t
        _ = pageView (updHbm u fun h => hbmZero h (f * frameBytes) frameBytes) := (ih hgrow).trans (pageView_updCtx _ rfl)
        _ = pageView u := pageView_updHbm u rfl
        _ = pageView s := pageView_of_allocFrame halloc

/-! ## MAP (R261, R265) -/

/-- The residency that MAP makes for a page of context `c`. -/
def newResid (s : State) (c : CtxId) (l : Loc) (ver hostvis : Bool) : Resid :=
  { id := s.hbm.nextId, owner := c, loc := l, ver := ver, hostvis := hostvis, holds := 0, evicting := none, psn := false,
    mig := none, stripes := [] }

section
variable (s : State) (c : CtxId) (page : Nat)

theorem pageView_mapIn (id : Nat) :
    pageView (mapIn s c page id) = pageView (updCtx s c fun x => { x with pages := ovPut x.pages page id }) := by
  simp [mapIn]

theorem mapIn_pages (id : Nat) : (mapIn s c page id).ctxs[c].pages = ovPut s.ctxs[c].pages page id :=
  (pages_of_pageView (pageView_mapIn s c page id) c).trans (congrArg Ctx.pages (updCtx_same ..))

theorem mapIn_resids (id : Nat) : (mapIn s c page id).hbm.resids = s.hbm.resids :=
  (resids_of_pageView (pageView_mapIn s c page id)).trans rfl

variable (l : Loc) (ver hostvis : Bool)

theorem makeResid_pages : (makeResid s c page l ver hostvis).ctxs[c].pages = ovPut s.ctxs[c].pages page s.hbm.nextId := by
  unfold makeResid
  exact mapIn_pages _ c page _

theorem makeResid_resids :
    (makeResid s c page l ver hostvis).hbm.resids = s.hbm.resids ++ [newResid s c l ver hostvis] := by
  unfold makeResid
  rw [mapIn_resids]
  dsimp only [updHbm]
  split <;> rfl

/-- A new residency has a number that no residency has, so that its page finds it. -/
theorem residAt_makeResid (hfresh : ∀ r ∈ s.hbm.resids, r.id < s.hbm.nextId) :
    residAt (makeResid s c page l ver hostvis) c page = some (newResid s c l ver hostvis) := by
  have hnone : s.hbm.resids.find? (fun r => r.id == s.hbm.nextId) = none :=
    List.find?_eq_none.mpr fun r hr => by simpa using Nat.ne_of_lt (hfresh r hr)
  simp only [residAt, residById, makeResid_pages, makeResid_resids, ovGet_ovPut_self, List.find?_append, hnone]
  simp [newResid]

end

/-- MAP of one page to T3 makes its residency in the pool frame named, once the context has the tables it needs (R257, Table 9.6). -/
theorem applyMap_one_pool {s t : State} {c : CtxId} {d : Desc} {frames : List Nat} (htier : mmTier d = .t3) (hone : mmCount d = 1)
    (hmap : applyMap s c d frames = some t) :
    ∃ u, pageView u = pageView s ∧
      t = makeResid u c (mmFirst d) { tier := .t3, port := 0, frame := mmPool d 0, lentTo := c } false false := by
  obtain ⟨u, hgrow, hpages⟩ := Option.bind_eq_some_iff.mp hmap
  refine ⟨u, pageView_of_growTables hgrow, ?_⟩
  have hlist : mmPages d = [mmFirst d] := by simp [mmPages, hone]
  rw [hlist, mapPages, htier] at hpages
  exact (Option.some.inj hpages).symm

/-! ## RELEASE (R266) -/

/-- The residency with the hold of context `c` ended. -/
def endHold (c : CtxId) (r : Resid) : Resid := { r with holds := r.holds &&& ~~~(ctxBit c) }

/-- RELEASE of one page. -/
def releasePage (c : CtxId) (s : State) (page : Nat) : State :=
  match residAt s c page with
  | some r => updHbm s fun h => updResid h r.id (endHold c)
  | none => s

theorem applyRelease_eq_foldl (s : State) (c : CtxId) (d : Desc) : applyRelease s c d = (mmPages d).foldl (releasePage c) s := rfl

theorem endHold_holds (c : CtxId) (r : Resid) : (endHold c r).holds.getLsbD c.val = false := by
  simp [endHold, ctxBit]

theorem residById_updResid (h : Hbm) (id j : Nat) {f : Resid → Resid} (hf : ∀ r, (f r).id = r.id) :
    residById (updResid h id f) j = (residById h j).map fun r => if r.id == id then f r else r := by
  have hid : (fun r : Resid => r.id == j) ∘ (fun r => if r.id == id then f r else r) = fun r => r.id == j := by
    funext r
    simp only [Function.comp]
    split <;> simp [hf]
  simp only [residById, updResid, List.find?_map, hid]

/-- The context does not hold the page. -/
def NotHeld (s : State) (c : CtxId) (page : Nat) : Prop := ∀ r, residAt s c page = some r → r.holds.getLsbD c.val = false

theorem residAt_updResid (s : State) (c : CtxId) (page id : Nat) {f : Resid → Resid} (hf : ∀ r, (f r).id = r.id) :
    residAt (updHbm s fun h => updResid h id f) c page = (residAt s c page).map fun r => if r.id == id then f r else r := by
  unfold residAt
  rw [updHbm_ctxs]
  cases ovGet s.ctxs[c].pages page with
  | none => rfl
  | some j => exact residById_updResid s.hbm id j hf

theorem releasePage_notHeld (s : State) (c : CtxId) (page : Nat) : NotHeld (releasePage c s page) c page := by
  intro x hx
  unfold releasePage at hx
  split at hx
  · next r hr =>
    rw [residAt_updResid s c page r.id (f := endHold c) (fun _ => rfl), hr] at hx
    simp only [Option.map_some, BEq.rfl, if_true, Option.some.injEq] at hx
    exact hx ▸ endHold_holds c r
  · next hnone => simp [hnone] at hx

theorem releasePage_keeps_notHeld {s : State} {c : CtxId} {page : Nat} (other : Nat) (h : NotHeld s c page) :
    NotHeld (releasePage c s other) c page := by
  intro x hx
  unfold releasePage at hx
  split at hx
  · next r hr =>
    rw [residAt_updResid s c page r.id (f := endHold c) (fun _ => rfl)] at hx
    obtain ⟨y, hy, rfl⟩ := Option.map_eq_some_iff.mp hx
    split
    · exact endHold_holds c y
    · exact h y hy
  · exact h x hx

/-- Once released, a page stays released while the others are. -/
theorem notHeld_foldl_releasePage {c : CtxId} {page : Nat} {ps : List Nat} (hpage : page ∈ ps) (s : State) :
    NotHeld (ps.foldl (releasePage c) s) c page := by
  induction ps generalizing s with
  | nil => cases hpage
  | cons q ps ih =>
    rw [List.foldl_cons]
    rcases List.mem_cons.mp hpage with rfl | htail
    · exact foldl_keeps (P := fun u => NotHeld u c page) (fun _ q => releasePage_keeps_notHeld q) (releasePage_notHeld s c page)
    · exact ih htail _

/-! ## The page engine takes up an operation (R261, R269, R441) -/

section
variable {s : State} {c : CtxId} {d : Desc}

/-- With the engine free and no operation before it, the operation has its turn (R269). -/
theorem pageTurn_of_free (hbusy : pageBusy s = false) (hq : s.pageQ = []) : pageTurn s c = (s, true) := by
  simp [pageTurn, hbusy, hq]

theorem mapRow_of_turn {op : Nat} (hoff : offered s c opMAP d) (hop : mmOp d = op) (hbusy : pageBusy s = false) (hq : s.pageQ = [])
    (hlend : (s.host.rings[c].lend).isSome = false) : mapRow s c op = mapDesc s c d := by
  obtain ⟨hhead, hopc, -⟩ := hoff
  have hmap : isOpc opMAP d = true := by simpa [isOpc] using hopc
  simp only [mapRow, hlend, hhead, hmap, hop, pageTurn_of_free hbusy hq, BEq.rfl, Bool.false_and, Bool.true_or, Bool.and_self,
    Bool.not_true, Bool.false_eq_true, if_false]

theorem tooLate_of_inTime {n : Nat} (htime : inTime s d n) : tooLate s d (some n) = false := by
  rcases htime with hnone | hle
  · simp [tooLate, hnone]
  · simp [tooLate, hle]

variable (hoff : offered s c opMAP d) (hpre : mapPre s c d = none)
include hoff hpre

/-- No lender is asked: the operation is accepted, and has its effect. -/
theorem mapDesc_of_own_frames {n k : Nat} {t : State} {migs : List Nat} (hneed : lendNeed s c d = none) (hpost : mapPost s c d = none)
    (hbound : mapBound s c d = some n) (htime : inTime s d n) (heff : mapEffect (taken s c d n) c d [] = some (t, migs, k)) :
    mapDesc s c d = updCmd t c (dTag d) (dGen d) fun q =>
      { q with migs := migs, count := BitVec.ofNat 32 k, status := if 0 < k then stDeferred else stDone } := by
  obtain ⟨-, -, hcommon⟩ := hoff
  have hacc : accept s c d (promiseFor s (some n)) 0 (cmdOf d) = taken s c d n := rfl
  simp only [mapDesc, acceptMap, hcommon, hpre, hneed, hpost, hbound, tooLate_of_inTime htime, hacc, heff, Bool.false_eq_true, if_false]

theorem mapDesc_of_lender {e : PortId × Nat × Ask × List Byte} (hneed : lendNeed s c d = some e)
    (hport : e.2.2.1 = .lend false → neighbourOk s d = true) : mapDesc s c d = askLender s c d e := by
  obtain ⟨-, -, hcommon⟩ := hoff
  have hask : (e.2.2.1 == .lend false && !neighbourOk s d) = false := by
    rw [Bool.and_eq_false_imp]
    intro hlend
    simp [hport (by simpa using hlend)]
  simp only [mapDesc, hcommon, hpre, hneed, hask, Bool.false_eq_true, if_false]

end

/-- The rows of MEM_MAP's operations, by operation code (Table 9.6). -/
theorem exec_of_pageOp {c : CtxId} {op : Nat} {i : Instr} (s : State)
    (hi : (op = 0 ∧ i = .map c) ∨ (op = 1 ∧ i = .unmap c) ∨ (op = 2 ∧ i = .share c) ∨ (op = 3 ∧ i = .promote c) ∨
      (op = 4 ∧ i = .release c) ∨ (op = 5 ∧ i = .evict c)) : exec i s = .next (mapRow s c op) := by
  rcases hi with ⟨rfl, rfl⟩ | ⟨rfl, rfl⟩ | ⟨rfl, rfl⟩ | ⟨rfl, rfl⟩ | ⟨rfl, rfl⟩ | ⟨rfl, rfl⟩ <;> rfl

/-- Settles O53: a page operation that has its turn is accepted or asks its lender; RELEASE ends the holds page by page; and MAP of a
page to T3 enters one new residency, and leaves every other page. -/
theorem pageCommands : Obligations.PageCommands := by
  refine ⟨fun s c d op i hi hoff hop _ hbusy hq hlend hpre => ?_, fun s c d p r hp => ?_,
    fun s t c d htier hone _ _ hfresh hmap => ?_⟩
  · have hrow : exec i s = .next (mapDesc s c d) :=
      (exec_of_pageOp s hi).trans (congrArg _ (mapRow_of_turn hoff hop hbusy hq hlend))
    have hpre := Option.isNone_iff_eq_none.mp hpre
    exact ⟨fun n t migs k hneed hpost hbound htime heff => hrow.trans (congrArg _
        (mapDesc_of_own_frames hoff hpre hneed (Option.isNone_iff_eq_none.mp hpost) hbound htime heff)),
      fun e hneed hport => hrow.trans (congrArg _ (mapDesc_of_lender hoff hpre hneed hport))⟩
  · rw [applyRelease_eq_foldl]
    exact notHeld_foldl_releasePage hp s r
  · obtain ⟨u, hview, ht⟩ := applyMap_one_pool htier hone hmap
    rw [ht]
    have hfreshU : ∀ r ∈ u.hbm.resids, r.id < u.hbm.nextId := by
      rwa [resids_of_pageView hview, nextId_of_pageView hview]
    refine ⟨⟨_, residAt_makeResid u c _ _ _ _ hfreshU, rfl, rfl, rfl, rfl⟩, fun p hp => ?_⟩
    rw [makeResid_pages, ovGet_ovPut_other _ _ hp, pages_of_pageView hview]

end Sys2Proof.Machine
end

section
/-! PROOFS. What a sender puts on a link (O13, O14), and the training of a port (O16). -/

namespace Sys2Proof.Machine

/-! ## The header as it goes on the link (R297, R298) -/

/-- The `n` low bits are one. -/
theorem getLsbD_ones {w : Nat} (n : Nat) {i : Nat} (hi : i < w) : (BitVec.ofNat w (2 ^ n - 1)).getLsbD i = decide (i < n) := by
  rw [BitVec.getLsbD_ofNat, Nat.testBit_two_pow_sub_one, decide_eq_true hi, Bool.true_and]

theorem setField_getLsbD {w : Nat} (v x : BitVec w) (start n : Nat) {i : Nat} (hi : i < w) :
    (setField v start n x).getLsbD i = if start ≤ i ∧ i < start + n then x.getLsbD (i - start) else v.getLsbD i := by
  have hmask := getLsbD_ones n (Nat.lt_of_le_of_lt (Nat.sub_le i start) hi)
  simp only [setField, BitVec.getLsbD_or, BitVec.getLsbD_and, BitVec.getLsbD_not, BitVec.getLsbD_shiftLeft, hmask, hi]
  by_cases hlow : i < start
  · rw [if_neg fun hin => Nat.not_le.mpr hlow hin.1]
    simp only [hlow, decide_true, Bool.not_true, Bool.and_false, Bool.false_and, Bool.not_false, Bool.and_true, Bool.or_false]
  · have hfield : i - start < n ↔ i < start + n := by omega
    by_cases hin : i < start + n <;> simp [hlow, hfield, hin, Nat.not_lt.mp hlow]

section
variable (h : BitVec 128) (seq : BitVec 14)

/-- The header above its CRC as it goes on the link: SEQ is filled. -/
def numbered : BitVec 96 := h.extractLsb' 121 7 ++ (seq ++ h.extractLsb' 32 75)

theorem setField_seq : setField h 107 14 (seq.setWidth 128) = numbered h seq ++ (h.extractLsb' 0 32 : W32) := by
  refine BitVec.eq_of_getLsbD_eq fun i hi => ?_
  rw [setField_getLsbD _ _ _ _ hi, numbered]
  simp only [BitVec.getLsbD_append, BitVec.getLsbD_setWidth, BitVec.getLsbD_extractLsb']
  by_cases hcrc : i < 32
  · rw [if_neg (by omega), if_pos hcrc]
    simp [hcrc]
  rw [if_neg hcrc]
  by_cases hlow : i < 107
  · have hbelow : i - 32 < 75 ∧ 32 + (i - 32) = i := by omega
    rw [if_neg (by omega), if_pos (by omega), if_pos hbelow.1]
    simp [hbelow]
  by_cases hin : i < 121
  · have hseq : i - 107 < 128 ∧ i - 32 - 75 = i - 107 := by omega
    rw [if_pos (by omega), if_pos (by omega), if_neg (by omega)]
    simp [hseq]
  · have habove : i - 32 - 89 < 7 ∧ 121 + (i - 32 - 89) = i := by omega
    rw [if_neg (by omega), if_neg (by omega)]
    simp [habove]

/-- The header with its CRC field zero. -/
theorem and_not_crcMask : h &&& ~~~(0xFFFFFFFF : BitVec 128) = h.extractLsb' 32 96 ++ (0 : W32) := by
  refine BitVec.eq_of_getLsbD_eq fun i hi => ?_
  have hmask : (0xFFFFFFFF : BitVec 128).getLsbD i = decide (i < 32) := getLsbD_ones 32 hi
  rw [BitVec.getLsbD_and, BitVec.getLsbD_not, hmask, BitVec.getLsbD_append]
  by_cases hlow : i < 32
  · simp [hlow]
  · have hup : i - 32 < 96 := by omega
    simp [hlow, hi, hup, Nat.not_lt.mp hlow, -BitVec.ofNat_eq_ofNat]

theorem append_zero_or_setWidth (x : BitVec 96) (crc : W32) : (x ++ (0 : W32)) ||| crc.setWidth 128 = x ++ crc := by
  refine BitVec.eq_of_getLsbD_eq fun i hi => ?_
  rw [BitVec.getLsbD_or, BitVec.getLsbD_append, BitVec.getLsbD_append, BitVec.getLsbD_setWidth]
  by_cases hlow : i < 32
  · simp [hlow, hi]
  · simp [hlow, BitVec.getLsbD_of_ge crc i (Nat.not_lt.mp hlow)]

/-- The CRC covers the header above its CRC field. -/
theorem flitCrc_append (x : BitVec 96) (crc : W32) (l : List Byte) : flitCrc (x ++ crc) l = flitCrc (x ++ (0 : W32)) l := by
  simp only [flitCrc, flitBytes, and_not_crcMask]
  rw [BitVec.extractLsb'_append_eq_of_le (by decide), BitVec.extractLsb'_append_eq_of_le (by decide)]

/-- The sealed header: SEQ and the CRC are new, and every other field is the old one. -/
theorem sealHdr_eq (l : List Byte) : sealHdr h seq l = numbered h seq ++ flitCrc (numbered h seq ++ (0 : W32)) l := by
  simp only [sealHdr, and_not_crcMask, append_zero_or_setWidth, setField_seq]
  rw [BitVec.extractLsb'_append_eq_left, flitCrc_append]

end

/-- A field above the CRC. -/
theorem sealHdr_extract (h : BitVec 128) (seq : BitVec 14) (l : List Byte) (start n : Nat) :
    (sealHdr h seq l).extractLsb' (start + 32) n = (numbered h seq).extractLsb' start n := by
  rw [sealHdr_eq, BitVec.extractLsb'_append_eq_of_le (Nat.le_add_left 32 start), Nat.add_sub_cancel]

section
variable (h : BitVec 128) (seq : BitVec 14) (l : List Byte)

theorem hSeq_sealHdr : hSeq (sealHdr h seq l) = seq := by
  refine (sealHdr_extract h seq l 75 14).trans ?_
  rw [numbered, BitVec.extractLsb'_append_eq_of_add_le (by decide), BitVec.extractLsb'_append_eq_left]

theorem hCrc_sealHdr : hCrc (sealHdr h seq l) = flitCrc (sealHdr h seq l) l := by
  rw [hCrc, sealHdr_eq, BitVec.extractLsb'_append_eq_right, flitCrc_append _ (flitCrc _ l)]

theorem sealHdr_above_seq : (sealHdr h seq l).extractLsb' 121 7 = h.extractLsb' 121 7 := by
  refine (sealHdr_extract h seq l 89 7).trans ?_
  rw [numbered, BitVec.extractLsb'_append_eq_left]

theorem sealHdr_below_seq : (sealHdr h seq l).extractLsb' 32 75 = h.extractLsb' 32 75 := by
  refine (sealHdr_extract h seq l 0 75).trans ?_
  rw [numbered, BitVec.extractLsb'_append_eq_of_add_le (by decide), BitVec.extractLsb'_append_eq_right]

end

/-- Settles O13: the sealed header is SEQ and the CRC put into the old one, and each clause reads off one of its fields. -/
theorem sealedFlitIsGood : Obligations.SealedFlitIsGood := by
  refine fun h seq l => ⟨hSeq_sealHdr h seq l, hCrc_sealHdr h seq l, sealHdr_above_seq h seq l, sealHdr_below_seq h seq l,
    fun s k hseq hlen => ?_⟩
  simp only [flitGood, hSeq_sealHdr, ← hCrc_sealHdr, hseq, hlen, decide_true, beq_self_eq_true, Bool.and_self]

/-! ## FLIT_TRANSMIT (R298, R301, R302) -/

/-- A change of a link's end depends on what it makes of that end alone. -/
theorem updEnd_eq_const (s : State) (l : Link) (f : Port → Port) : updEnd s l f = updEnd s l fun _ => f (endOf s l) := by
  cases l <;> rfl

theorem updEnd_congr (s : State) (l : Link) {f h : Port → Port} (hfh : f (endOf s l) = h (endOf s l)) :
    updEnd s l f = updEnd s l h := by
  rw [updEnd_eq_const s l f, updEnd_eq_const s l h, hfh]

section
variable {s : State} {l : Link} {vc : VcId}

/-- The end of a link that has sent the flit `f`, the first of `vc`. -/
def sentEnd (vc : VcId) (f : TxFlit) (rest : List TxFlit) (n : Nat) (q : Port) : Port :=
  { q with txq := q.txq.set vc rest, credits := q.credits.set vc (q.credits[vc] - 1), seq := q.seq + 1,
           unacked := q.unacked ++ [{ f with hdr := sealHdr f.hdr q.seq f.payload, sent := some n }] }

theorem sendable_iff (q : Port) (vc : VcId) : sendable q vc = true ↔ q.txq[vc] ≠ [] ∧ 0 < q.credits[vc] := by
  simp [sendable]

theorem exec_flitTransmit_sends {f : TxFlit} {rest : List TxFlit} (hup : linkUp s l = true) (hhead : (endOf s l).txq[vc] = f :: rest)
    (hcredit : 0 < (endOf s l).credits[vc]) (hroom : (endOf s l).unacked.length < 8192)
    (hfirst : vc = 7 ∨ sendable (endOf s l) 7 = false) :
    exec (.flitTransmit l vc) s = .next (updEnd s l (sentEnd vc f rest (elapsed s))) := by
  have hsend : sendable (endOf s l) vc = true := (sendable_iff ..).mpr ⟨hhead ▸ List.cons_ne_nil f rest, hcredit⟩
  have hturn : (vc == 7 || !sendable (endOf s l) 7) = true := by simpa using hfirst
  simp only [exec, execFlitTransmit, hup, hsend, hroom, hturn, hhead, decide_true, Bool.and_self, if_true]
  exact congrArg _ (updEnd_congr s l rfl)

theorem exec_flitTransmit_waits (h : sendable (endOf s l) vc = false ∨ 8192 ≤ (endOf s l).unacked.length) :
    exec (.flitTransmit l vc) s = .next s := by
  refine congrArg Host.Outcome.next (if_neg fun hall => ?_)
  simp only [Bool.and_eq_true, decide_eq_true_eq] at hall
  obtain ⟨⟨⟨-, hsend⟩, hroom⟩, -⟩ := hall
  rcases h with h | h
  · exact Bool.false_ne_true (h.symm.trans hsend)
  · exact Nat.not_lt.mpr h hroom

end

/-- Settles O14: with a credit and room in the replay store the head of the channel goes out, and without either nothing does. -/
theorem flitTransmission : Obligations.FlitTransmission := by
  refine ⟨fun s l vc f rest hup hhead hcredit hroom hfirst => ?_,
    fun s l vc h => exec_flitTransmit_waits (h.imp_left fun hnone => ?_)⟩
  · refine exec_flitTransmit_sends hup hhead hcredit hroom (hfirst.imp_right fun h => ?_)
    rcases h with h | h <;> simp [sendable, h]
  · simp [sendable, hnone]

/-! ## LINK_TRAINING (R466, R489, R525) -/

/-- The partner is the neighbour that TOPO names, at its opposite port. -/
def isNeighbour (s : State) (p : PortId) (px py pz : BitVec 5) (pport : BitVec 3) : Bool :=
  (pz.setWidth 8 ++ py.setWidth 8 ++ px.setWidth 8 : BitVec 24) == neighbourCoords s p && pport.toNat == oppositeCode p

/-- The port once its partner's identity is here: trained, or showing the mismatch. -/
def metPort (ok : Bool) (px py pz : BitVec 5) (pport : BitVec 3) (q : Port) : Port :=
  { q with state := if ok then 2 else 3, pv := true, px := px, py := py, pz := pz, pport := pport }

/-- Start-up notes when the last of its links is trained (R489). -/
def noteTrained (s : State) : State :=
  if allTrained s then
    { s with boot := { s.boot with bootfail := if s.boot.bootfail = 0x80 then 0 else s.boot.bootfail,
                                   trainedAt := if s.boot.trainedAt.isNone then some (elapsed s) else s.boot.trainedAt } }
  else s

/-- Start-up's note is the only other change. -/
theorem noteTrained_frame (s : State) : noteTrained s = { s with boot := (noteTrained s).boot } := by
  unfold noteTrained
  split <;> rfl

theorem noteTrained_updPort (s : State) (p : PortId) (f : Port → Port) : (noteTrained (updPort s p f)).ports[p] = f s.ports[p] := by
  rw [noteTrained_frame, updPort_same]

theorem noteTrained_phase (s : State) : (noteTrained s).boot.phase = s.boot.phase := by
  unfold noteTrained
  split <;> rfl

theorem exec_linkTraining_partner {s : State} {p : PortId} (px py pz : BitVec 5) (pport : BitVec 3)
    (hphase : s.boot.phase = .linking ∨ s.boot.phase = .ready) (hpower : s.ports[p].powered = true)
    (hdown : s.ports[p].state ≠ 2) :
    exec (.linkTraining p px py pz pport) s =
      .next (noteTrained (updPort s p (metPort (isNeighbour s p px py pz pport) px py pz pport))) := by
  have hguard : ((s.boot.phase == .linking || s.boot.phase == .ready) && s.ports[p].powered && !trained s p) = true := by
    rw [hpower, show trained s p = false from beq_eq_false_iff_ne.mpr hdown]
    simpa using hphase
  refine congrArg Host.Outcome.next ((if_pos hguard).trans ?_)
  simp only [noteTrained, Bool.not_eq_true', ← Bool.not_eq_true, ite_not]
  rfl

theorem isNeighbour_iff (s : State) (p : PortId) (px py pz : BitVec 5) (pport : BitVec 3) : isNeighbour s p px py pz pport = true ↔
    (pz.setWidth 8 ++ py.setWidth 8 ++ px.setWidth 8 : BitVec 24) = neighbourCoords s p ∧ pport.toNat = oppositeCode p := by
  simp only [isNeighbour, Bool.and_eq_true, beq_iff_eq]

theorem metPort_state (ok : Bool) (px py pz : BitVec 5) (pport : BitVec 3) (q : Port) :
    ((metPort ok px py pz pport q).state = 2 ↔ ok = true) ∧
      ((metPort ok px py pz pport q).state = 2 ∨ (metPort ok px py pz pport q).state = 3) := by
  cases ok <;> simp [metPort]

/-- Settles O16: the port takes its partner's identity, and start-up's note is all else that changes. That what the port has sent,
holds and counts stays through training is the model's reading (notes/assumptions/41). -/
theorem portTraining : Obligations.PortTraining := by
  intro s p px py pz pport hphase hpower hdown
  refine ⟨_, exec_linkTraining_partner px py pz pport hphase hpower hdown, ?_, ?_, ?_, noteTrained_phase _, ?_⟩
  · rw [noteTrained_updPort, ← isNeighbour_iff]
    exact (metPort_state ..).1
  · rw [noteTrained_updPort]
    exact (metPort_state ..).2
  · rw [noteTrained_updPort, metPort]
  · rw [noteTrained_updPort]
    exact noteTrained_frame _

end Sys2Proof.Machine
end

section
/-! PROOFS. Sends that wait at the landing gate (O19), and the start and the ring steps of collectives (O35). -/

namespace Sys2Proof.Machine

/-! ## The landing gate (R307, R308) -/

section
variable {s : State} {p : PortId} {f : Flit}

/-- The gate looks at regions, not at links. -/
theorem gateHolds_updEnd (s : State) (l : Link) (q : Port → Port) (h : BitVec 128) : gateHolds (updEnd s l q) h = gateHolds s h := by
  cases l <;> rfl

theorem acceptFlit_port (s : State) (p : PortId) :
    (acceptFlit s (.port p)).ports[p] = { s.ports[p] with rxNext := s.ports[p].rxNext + 1, rxDrop := false } :=
  updPort_same ..

theorem headWaits_acceptFlit (s : State) (p : PortId) (f : Flit) : headWaits (acceptFlit s (.port p)) p f = headWaits s p f := by
  rw [headWaits, acceptFlit_port, acceptFlit, gateHolds_updEnd, headWaits]

theorem headWaits_first (hfirst : s.ports[p].isOpen[(hVc f.hdr).toFin] = false) (hgate : gateHolds s f.hdr = true) :
    headWaits s p f = true := by
  rw [headWaits, hfirst, hgate, Bool.not_false, Bool.and_self]

theorem exec_dataReceive_holds (hacc : accepts s (.port p) f) (hty : hType f.hdr = tyDATA) (hkeep : dropsTraffic s = false)
    (hwait : headWaits s p f = true) :
    exec (.dataReceive (.port p) f) s = .next (updPort (acceptFlit s (.port p)) p fun q =>
      { q with held := q.held.set (hVc f.hdr).toFin (q.held[(hVc f.hdr).toFin] ++ [f]) }) := by
  have hwant : (hType f.hdr == tyDATA) = true := beq_iff_eq.mpr hty
  have hdrop : dropsTraffic (acceptFlit s (.port p)) = false := (updEnd_dropsTraffic ..).trans hkeep
  refine congrArg Host.Outcome.next ((receive_of_accepts _ _ hacc hwant).trans ?_)
  simp only [hdrop, headWaits_acceptFlit, hwait, Bool.or_true, Bool.false_eq_true, if_false, if_true]

/-- The one flit that a receive buffer holds goes on, when no gate holds it. -/
theorem drainHeld_one {vc : VcId} (hheld : s.ports[p].held[vc] = [f]) (hfree : headWaits s p f = false) :
    drainHeld p vc 1 s = landFlit (updPort s p fun q => { q with held := q.held.set vc [] }) (.port p) f := by
  simp only [drainHeld, hheld, hfree, Bool.false_eq_true, if_false]

theorem exec_landingGateAdmit_held {vc : VcId} (hheld : s.ports[p].held[vc] = [f]) (hty : hType f.hdr = tyDATA)
    (hfree : headWaits s p f = false) :
    exec (.landingGateAdmit (.port p vc)) s =
      .next (landFlit (updPort s p fun q => { q with held := q.held.set vc [] }) (.port p) f) := by
  have hsends : holdsSends s p vc = true := by
    simp only [holdsSends, hheld, List.all_cons, List.all_nil, hty, beq_self_eq_true, Bool.and_self]
  refine congrArg Host.Outcome.next ((if_pos hsends).trans ?_)
  rw [hheld]
  exact drainHeld_one hheld hfree

theorem exec_landingGateAdmit_here {g : RegionId} {k : ChanId} {run : ChanRun} (hrun : s.regions[g].chans[k].run = some run)
    (hwait : run.phase = .waiting) (hsend : run.op.dop = dopDSEND) :
    exec (.landingGateAdmit (.chan g k)) s = .next (sendHere s g k run) := by
  simp only [exec, execLandingGateAdmit, hrun, hwait, hsend, beq_self_eq_true, Bool.and_self, if_true]

end

/-- Settles O19: a send that the gate holds joins the held ones, and one that it lets through lands or is sent on. -/
theorem landingGate : Obligations.LandingGate :=
  ⟨fun _ _ _ hacc hty hkeep hfirst hgate => exec_dataReceive_holds hacc hty hkeep (headWaits_first hfirst hgate),
    fun _ _ _ _ => exec_landingGateAdmit_held, fun _ _ _ _ => exec_landingGateAdmit_here⟩

/-! ## COLLECTIVE_START (R315, R319, R320) -/

/-- A collective of region `g` as it starts, with its source in the wire format. An ALL_GATHER has its own pieces of the result from
the start. -/
def startedColl (s : State) (g : RegionId) (a : AxisId) (k : ChanId) (op : ChanOp) (elems : List (BitVec 128)) (exps : List Byte) :
    CollRun :=
  let me := collPos s g a
  let run : CollRun :=
    { g := g, k := k, axis := a, seq := op.seq, op := op, elems := elems, exps := exps, parts := [], left := 0, done := false }
  let run := { run with left := stepsToCome run (collN s a) me }
  if op.cop = copAG then
    { run with parts := [((me, false), ownPiece run (collN s a) me false), ((me, true), ownPiece run (collN s a) me true)] }
  else run

/-- What a collective's start reads of its source. -/
def sourceRead (s : State) (g : RegionId) (op : ChanOp) : List Nat × List Byte × Eng :=
  collRead (engOpen s g 0xFF op.stream .off none []) op

/-- The module after the engine's read, with `op` noted as the collective started last on its axis (R315). -/
def startNoted (e : Eng) (g : RegionId) (a : AxisId) (k : ChanId) (op : ChanOp) : State :=
  updRegion (engClose e (chanWho g k)).1 g fun r => { r with collStarted := r.collStarted.set a (op.seq + 1) }

/-- The running collective is among those of the fabric, and its first steps are sent. -/
def collSends (s : State) (run : CollRun) (n me : Nat) : State :=
  firstSteps (updFab s fun f => { f with colls := f.colls ++ [run] }) run n me

section
variable {s : State} {g : RegionId} {a : AxisId} {k : ChanId} {cr : ChanRun}

theorem exec_collectiveStart_sends (hnext : collChan s.regions[g] a = some (k, cr)) (hring : 2 ≤ collN s a)
    (hread : (sourceRead s g cr.op).2.2.stop = none) :
    let src := sourceRead s g cr.op
    let wire := collSource cr.op src.1 src.2.1
    exec (.collectiveStart g a) s = .next (takeEarly (collSends
      (updRegion (startNoted src.2.2 g a k cr.op) g fun r => updStream r cr.op.stream fun t => raiseAflags t wire.2.2)
      (startedColl s g a k cr.op wire.1 wire.2.1) (collN s a) (collPos s g a)) g a cr.op.seq) := by
  intro src wire
  have hmany : ¬collN s a ≤ 1 := by omega
  rw [sourceRead] at hread
  simp only [exec, execCollectiveStart, hnext, hread, hmany, if_false, beq_iff_eq]
  rfl

end

/-! ## COLL_RECEIVE (R296, R315, R316, R378) -/

/-- The flit `f` is one of a ring step for region `g` on the axis `a`, which the link `l` takes and the module does not drop. -/
structure StepFlit (s : State) (g : RegionId) (a : AxisId) (l : Link) (f : Flit) : Prop where
  axis : linkOfAxis s g a l = true
  acc : accepts s l f
  coll : hType f.hdr = tyCOLL
  member : (hRreg f.hdr).toNat = g.val
  keep : dropsTraffic s = false

section
variable {s : State} {g : RegionId} {a : AxisId} {l : Link} {f : Flit} {r : CollStep} {u : State}

/-- A flit has been gathered: a whole step arrives, and the flits of a step that is not whole wait. -/
def afterGather (g : RegionId) (a : AxisId) (l : Link) (f : Flit) (b : Bool) (q : State × Option CollStep) : State :=
  match q.2 with
  | some st => arriveStep q.1 g a l (hTag f.hdr).toNat st b
  | none => q.1

theorem exec_collReceive_gathers (hflit : StepFlit s g a l f) (r : CollStep) (b : Bool) :
    exec (.collReceive g a l f r b) s = .next (afterGather g a l f b (gatherStep (arrived s l f) g a l f r)) := by
  obtain ⟨haxis, hacc, hty, hmember, hkeep⟩ := hflit
  have hwant : (hType f.hdr == tyCOLL && (hRreg f.hdr).toNat == g.val) = true := by simp [hty, hmember]
  have hdrop : dropsTraffic (acceptFlit s l) = false := (updEnd_dropsTraffic ..).trans hkeep
  refine congrArg Host.Outcome.next ((if_neg (by simp [haxis])).trans ((receive_of_accepts _ _ hacc hwant).trans ?_))
  simp only [hdrop, Bool.false_eq_true, if_false, arrived]
  generalize gatherStep _ g a l f r = q
  obtain ⟨u, _ | st⟩ := q <;> rfl

/-- No step is whole before its last flit. -/
theorem gatherStep_more (hmore : hLast f.hdr = false) : (gatherStep s g a l f r).2 = none := by
  simp only [gatherStep, hmore, Bool.false_eq_true, if_false]

theorem arriveStep_of_running {run : CollRun} {seq : Nat} (hrun : findColl s g a seq = some run) (st : CollStep) (b : Bool) :
    arriveStep s g a l seq st b = if b then collResidue s g run.op else takeStep s run st := by
  simp only [arriveStep, hrun]

theorem takeStep_of_mismatch {run : CollRun} {st : CollStep} (h : stepMatches run (collN s run.axis) st = false) :
    takeStep s run st = streamFault s run.g run.op.stream cCollMismatch := by
  simp only [takeStep, h, Bool.not_false, if_true]

theorem exec_collReceive_running {st : CollStep} {run : CollRun} (hflit : StepFlit s g a l f)
    (hwhole : gatherStep (arrived s l f) g a l f r = (u, some st)) (hrun : findColl u g a (hTag f.hdr).toNat = some run) (b : Bool) :
    exec (.collReceive g a l f r b) s = .next (if b then collResidue u g run.op else takeStep u run st) := by
  rw [exec_collReceive_gathers hflit, hwhole]
  exact congrArg _ (arriveStep_of_running hrun st b)

end

/-- Settles O35: the collective that is next reads its source and sends, and a whole step is taken into the collective that runs. What
stands beside the flits of a step is the model's reading (notes/assumptions/37). -/
theorem collectivesRun : Obligations.CollectivesRun := by
  refine ⟨fun s g a k cr hnext hring _ => exec_collectiveStart_sends hnext hring,
    fun s g a l f r b haxis hacc hty hmember hkeep hmore => ?_,
    fun s g a l f r u st run haxis hacc hty hmember hkeep hwhole hrun => ?_⟩
  · rw [exec_collReceive_gathers ⟨haxis, hacc, hty, hmember, hkeep⟩, afterGather, gatherStep_more hmore]
  · have htaken := exec_collReceive_running ⟨haxis, hacc, hty, hmember, hkeep⟩ hwhole hrun
    refine ⟨htaken false, htaken true, fun hdiffer => (htaken false).trans ?_⟩
    exact congrArg _ (takeStep_of_mismatch hdiffer)

end Sys2Proof.Machine
end

section
/-! PROOFS. A job fault of one context halts it and no other (O45). -/

namespace Sys2Proof.Machine

/-! ## What a halt concerns: the view that messages, floods and records leave (R349, R351) -/

/-- The parts of the module that the halt of a context concerns. -/
structure WorkView where
  regions : Vector Region 64
  launch : Option Launch
  halted : Bool
  cairnStep : W64
  txns : List Txn
  dropping : Bool
  hardFault : Bool
  recs : BitVec 16

def workView (c : CtxId) (s : State) : WorkView :=
  { regions := s.regions, launch := s.ctxs[c].launch, halted := s.ctxs[c].halt.isSome, cairnStep := s.ctxs[c].cairnStep,
    txns := s.fab.txns, dropping := s.fab.dropping, hardFault := s.hardFault, recs := s.scree.next }

section
variable (c : CtxId) (s : State)

@[simp] theorem workView_post (d : CtxId) (type : Byte) (tag : W32) (gen : Byte) (l : List Byte) :
    workView c (post s d type tag gen l) = workView c s := rfl

@[simp] theorem workView_sendFault (d : CtxId) (a : AbortInfo) : workView c (sendFault s d a) = workView c s :=
  foldl_same (φ := workView c) (fun _ _ => workView_post ..) _ s

@[simp] theorem workView_sendRec (r : Rec) : workView c (sendRec s r) = workView c s := by
  unfold sendRec
  split
  · split <;> simp
  · exact foldl_same (φ := workView c) (fun _ _ => workView_post ..) _ s

/-- A record takes the next sequence number (R405). -/
theorem workView_makeRec (r : Rec) : workView c (makeRec s r).1 = { workView c s with recs := s.scree.next + 1 } :=
  workView_sendRec ..

@[simp] theorem workView_sendCtrl (p : PortId) (mid : BitVec 11) (low : BitVec 36) (l : List Byte) :
    workView c (sendCtrl s p mid low l) = workView c s := rfl

@[simp] theorem workView_floodAbort (ps : List PortId) (d : CtxId) (a : AbortInfo) :
    workView c (floodAbort s ps d a) = workView c s :=
  foldl_same (φ := workView c) (fun _ _ => workView_sendCtrl ..) _ s

@[simp] theorem workView_noteSeen (origin : BitVec 24) (n : Nat) (d : CtxId) : workView c (noteSeen s origin n d) = workView c s := rfl

/-- A further ABORT leaves a halted context halted. -/
@[simp] theorem workView_addAbort (a : AbortInfo) : workView c (addAbort s c a) = workView c s := by
  unfold addAbort
  split
  · rfl
  · next h hhalt =>
    have hview : workView c (updCtx s c fun x => { x with halt := some (furtherAbort h a (now s)).1 }) = workView c s := by
      simp only [workView, updCtx_same, updCtx_regions, updCtx_fab, updCtx_hardFault, updCtx_scree, hhalt, Option.isSome_some]
    dsimp only
    split
    · rw [workView_sendFault, hview]
    · exact hview

theorem workView_noteHalt (a : AbortInfo) : workView c (noteHalt s c a) = { workView c s with halted := true } := by
  refine (foldl_same (φ := workView c) (fun _ _ => workView_addAbort ..) _ _).trans ?_
  simp only [workView, updCtx_same, updCtx_regions, updCtx_fab, updCtx_hardFault, updCtx_scree, Option.isSome_some]

/-! ## The halt (R311, R351) -/

theorem workView_endLaunch (status : BitVec 16) : workView c (endLaunch s c status) = { workView c s with launch := none } := by
  unfold endLaunch
  split
  · next hnone => simp only [workView, hnone]
  · simp only [workView, updCtx_same, updCtx_regions, updCtx_fab, updCtx_hardFault, updCtx_scree]
    rfl

/-- The regions once context `c` is halted. -/
def haltedRegions : Vector Region 64 :=
  Vector.ofFn fun g : RegionId => if s.regions[g].ctx == some c then haltRegion s.regions[g] else s.regions[g]

theorem workView_regions (v : Vector Region 64) : workView c { s with regions := v } = { workView c s with regions := v } := rfl

theorem workView_hbm (h : Hbm) : workView c { s with hbm := h } = workView c s := rfl

theorem workView_haltColls (d : CtxId) : workView c (haltColls s d) = workView c s := rfl

theorem workView_dropMirrorWrites (d : CtxId) : workView c (dropMirrorWrites s d) = workView c s := rfl

/-- Every tag is free, and arriving traffic is dropped from here (R311, R313). -/
theorem workView_haltFabric : workView c (haltFabric s) = { workView c s with txns := [], dropping := true } := rfl

theorem workView_tiles : workView c (updCtx s c fun x => { x with tiles := [] }) = workView c s := by
  simp only [workView, updCtx_same, updCtx_regions, updCtx_fab, updCtx_hardFault, updCtx_scree]

theorem workView_haltCtx : workView c (haltCtx s c) =
    { workView c s with regions := haltedRegions c s, launch := none, txns := [], dropping := true } := by
  rw [haltCtx, workView_endLaunch, workView_tiles, workView_hbm, workView_haltFabric, workView_dropMirrorWrites,
    workView_haltColls, workView_regions, haltedRegions]

end

/-! ## The fault (R349, R405) -/

/-- Making a record ends no launch. -/
theorem busy_makeRec (s : State) (r : Rec) (c : CtxId) : busy (makeRec s r).1 c = busy s c :=
  congrArg (fun v : WorkView => v.launch.isSome) (workView_makeRec c s r)

section
variable {s : State} {c : CtxId} {f : FaultInfo}

/-- A job fault of one running context: its record, its halt, the flood and the messages, in this order. -/
theorem raiseFault_halts (hctx : f.ctx = some c) (hbusy : busy s c = true) (hgoes : s.ctxs[c].halt = none)
    (hhard : s.hardFault = false) (hrest : restoringNow s = false) :
    ∃ r a ps, raiseFault s f =
      sendFault (floodAbort (noteSeen (noteHalt (haltCtx (makeRec s r).1 c) c a) a.origin a.acount c) ps c a) c a := by
  unfold raiseFault
  simp only [hhard, hrest, concerned, hctx, Bool.false_eq_true, if_false]
  simp only [List.all_cons, hgoes, Option.isSome_none, Bool.false_and, Bool.and_false, Bool.false_eq_true, if_false,
    List.filter_cons, busy_makeRec, hbusy, if_true, List.filter_nil, List.foldl_cons, List.foldl_nil]
  exact ⟨_, _, _, rfl⟩

/-- What a job fault of the running context `c` leaves of the parts that its halt concerns. -/
theorem workView_raiseFault (hctx : f.ctx = some c) (hbusy : busy s c = true) (hgoes : s.ctxs[c].halt = none)
    (hhard : s.hardFault = false) (hrest : restoringNow s = false) :
    workView c (raiseFault s f) =
      { regions := haltedRegions c s, launch := none, halted := true, cairnStep := s.ctxs[c].cairnStep, txns := [], dropping := true,
        hardFault := false, recs := s.scree.next + 1 } := by
  obtain ⟨r, a, ps, hraise⟩ := raiseFault_halts hctx hbusy hgoes hhard hrest
  have hregions : haltedRegions c (makeRec s r).1 = haltedRegions c s := by simp only [haltedRegions, makeRec_regions]
  rw [hraise, workView_sendFault, workView_floodAbort, workView_noteSeen, workView_noteHalt, workView_haltCtx, workView_makeRec,
    hregions, ← hhard]
  rfl

end

/-! ## What a halted region has left (R351) -/

section
variable {s : State} {c : CtxId} {g : RegionId}

theorem haltedRegions_of_ctx (hctx : s.regions[g].ctx = some c) : (haltedRegions c s)[g] = haltRegion s.regions[g] := by
  simp only [haltedRegions, Fin.getElem_fin, Vector.getElem_ofFn]
  exact if_pos (beq_iff_eq.mpr hctx)

theorem haltedRegions_of_other (hctx : s.regions[g].ctx ≠ some c) : (haltedRegions c s)[g] = s.regions[g] := by
  simp only [haltedRegions, Fin.getElem_fin, Vector.getElem_ofFn]
  exact if_neg fun h => hctx (beq_iff_eq.mp h)

end

section
variable (r : Region)

theorem haltRegion_stream (i : StreamId) : (haltRegion r).streams[i] = haltStream r.streams[i] := by
  simp [haltRegion]

theorem haltRegion_cluster (k : ClusterId) : (haltRegion r).clusters[k] = haltCluster r.clusters[k] := by
  simp [haltRegion]

theorem haltRegion_chan (k : ChanId) : (haltRegion r).chans[k] = Channel.reset := by
  simp [haltRegion]

end

/-- Settles O45: the fault makes one record and halts its context, and the messages and the flood that follow leave what the halt
concerns. That a halt also abandons what waits in an engine's queue is the model's reading (notes/assumptions/11). -/
theorem faultHaltsItsContext : Obligations.FaultHaltsItsContext := by
  intro s f c hctx hbusy hgoes hhard hrest t
  have hview : workView c t = _ := workView_raiseFault hctx hbusy hgoes hhard hrest
  have hregions : t.regions = haltedRegions c s := congrArg WorkView.regions hview
  refine ⟨congrArg WorkView.launch hview, congrArg WorkView.halted hview, congrArg WorkView.cairnStep hview,
    congrArg WorkView.txns hview, congrArg WorkView.dropping hview, congrArg WorkView.hardFault hview, congrArg WorkView.recs hview,
    fun g hg => ?_, fun g hg => ?_⟩
  · rw [hregions, haltedRegions_of_ctx hg]
    refine ⟨fun i => ?_, rfl, rfl, fun k => ?_, haltRegion_chan _⟩
    · rw [haltRegion_stream, haltStream]
    · rw [haltRegion_cluster]
      exact ⟨rfl, rfl, rfl⟩
  · rw [hregions, haltedRegions_of_other hg]

end Sys2Proof.Machine
end

section
/-! PROOFS. Every row answers a next state (O2), and each guarded part of the module changes only by the rows listed for it (O7). -/

namespace Sys2Proof.Machine

/-- Every row answers a next state: no meaning faults and none is refused. -/
theorem exec_next (i : Instr) (s : State) : ∃ t, exec i s = .next t := by
  cases i <;> exact ⟨_, rfl⟩

/-- An idle step is safe, and so is the front command's. -/
theorem step_safe (s : State) : stepSafe s := by
  unfold stepSafe step
  split
  case h_1 => exact ⟨s, rfl⟩
  case h_2 i rest _ => exact exec_next i _

theorem step_of_empty {s : State} (h : s.pending = []) : step s = .next s := by
  rw [step, h]

/-- Settles O2: with no command waiting the step is idle, and each row's meaning is a next state. That the module idles on an empty
queue is the model's choice (notes/assumptions/1). -/
theorem everyStepAnswers : Obligations.EveryStepAnswers :=
  ⟨fun _ => step_of_empty, step_safe⟩

/-- Each row keeps the queue, the fuses and every part that it is not listed for: the law of its meaning, in the order of the
dispatch. -/
theorem exec_stays {i : Instr} {s t : State} (ht : exec i s = .next t) : Stays (fun p => !touches p i) s t := by
  have h := Stays.refl (k := fun p => !touches p i) s
  cases i with
  | bundleIssue => exact execBundleIssue_stays h _ _ _ ht
  | passStart => exact execPassStart_stays h _ _ ht
  | preloadSweep => exact execPreloadSweep_stays h _ _ _ ht
  | drainSweep => exact execDrainSweep_stays h _ _ ht
  | passCompletion => exact execPassCompletion_stays h _ _ ht
  | passRetry => exact execPassRetry_stays h _ _ ht
  | drainRowRecompute => exact execDrainRowRecompute_stays h _ _ ht
  | directFeed => exact execDirectFeed_stays h _ _ ht
  | solverBorrow => exact execSolverBorrow_stays h _ _ ht
  | vectorStart => exact execVectorStart_stays h _ _ ht
  | vectorCompletion => exact execVectorCompletion_stays h _ _ ht
  | vectorRetry => exact execVectorRetry_stays h _ _ ht
  | macroStart => exact execMacroStart_stays h _ ht
  | macroCompletion => exact execMacroCompletion_stays h _ ht
  | solverRerun => exact execSolverRerun_stays h _ ht
  | segmentOverrun => exact execSegmentOverrun_stays h _ _ ht
  | remoteStall => exact execRemoteStall_stays h _ _ ht
  | channelOpStart => exact execChannelOpStart_stays h _ _ ht
  | channelOpCompletion => exact execChannelOpCompletion_stays h _ _ ht
  | collectiveStart => exact execCollectiveStart_stays h _ _ ht
  | collReceive => exact execCollReceive_stays h _ _ _ _ _ _ ht
  | dataReceive => exact execDataReceive_stays h _ _ ht
  | landingGateAdmit => exact execLandingGateAdmit_stays h _ ht
  | resp => exact execResp_stays rfl h _ _ ht
  | flitTransmit => exact execFlitTransmit_stays h _ _ ht
  | creditReturn => exact execCreditReturn_stays h _ _ ht
  | linkReplay => exact execLinkReplay_stays h _ ht
  | linkTimeout => exact execLinkTimeout_stays h _ ht
  | linkTraining => exact execLinkTraining_stays h _ _ _ _ _ ht
  | lendReq => exact execLendReq_stays h _ _ ht
  | lendAns => exact execLendAns_stays h _ _ ht
  | lendFree => exact execLendFree_stays h _ _ ht
  | rdReq => exact execRdReq_stays h _ _ ht
  | rdData => exact execRdData_stays h _ _ ht
  | wrReq => exact execWrReq_stays h _ _ ht
  | digestSet => exact execDigestSet_stays h _ _ ht
  | tileReq => exact execTileReq_stays h _ _ ht
  | tileData => exact execTileData_stays h _ _ ht
  | passRec => exact execPassRec_stays h _ _ ht
  | lockstepTimeout => exact execLockstepTimeout_stays h _ _ _ _ ht
  | vote => exact execVote_stays h _ _ ht
  | abortReceive => exact execAbortReceive_stays h _ _ ht
  | mirrorRebuild => exact execMirrorRebuild_stays h _ _ ht
  | countTick => exact execCountTick_stays rfl rfl rfl rfl h _ ht
  | countAlign => exact execCountAlign_stays rfl h _ _ _ ht
  | countRemeasure => exact execCountRemeasure_stays rfl h _ ht
  | grefLoss => exact execGrefLoss_stays rfl h _ ht
  | stepStart => exact execStepStart_stays h _ ht
  | stepComplete => exact execStepComplete_stays h _ ht
  | flip => exact execFlip_stays h _ ht
  | commitRefused => exact execCommitRefused_stays h _ ht
  | waveTimeout => exact execWaveTimeout_stays h _ ht
  | lostFaultsReport => exact execLostFaultsReport_stays h _ ht
  | recalibration => exact execRecalibration_stays h _ _ ht
  | railFloor => exact execRailFloor_stays h _ _ _ ht
  | promiseOverrun => exact execPromiseOverrun_stays h _ _ ht
  | sramWriteBack => exact execSramWriteBack_stays h _ ht
  | hbmWriteBack => exact execHbmWriteBack_stays h ht
  | poisonScan => exact execPoisonScan_stays h _ ht
  | mothHbmRead => exact execMothHbmRead_stays h _ _ _ ht
  | mothSramRead => exact execMothSramRead_stays h _ _ _ ht
  | coalesceWindowClose => exact execCoalesceWindowClose_stays h _ ht
  | migrationComplete => exact execMigrationComplete_stays h _ ht
  | pendingEviction => exact execPendingEviction_stays h _ ht
  | doorbell => exact execDoorbell_stays h _ _ _ ht
  | openCtx => exact execOpenCtx_stays h _ ht
  | closeCtx => exact execCloseCtx_stays h _ ht
  | loadProgram => exact execLoadProgram_stays h _ _ ht
  | memRead => exact execMemRead_stays rfl h _ ht
  | memWrite => exact execMemWrite_stays h _ _ ht
  | map => exact execMap_stays h _ ht
  | unmap => exact execUnmap_stays h _ ht
  | share => exact execShare_stays h _ ht
  | promote => exact execPromote_stays h _ ht
  | release => exact execRelease_stays h _ ht
  | evict => exact execEvict_stays h _ ht
  | setSeeds => exact execSetSeeds_stays h _ ht
  | armLaunch => exact execArmLaunch_stays h _ ht
  | abort => exact execAbort_stays h _ ht
  | rollback => exact execRollback_stays h _ ht
  | restoreFromBuddy => exact execRestoreFromBuddy_stays h _ _ ht
  | queryContext => exact execQueryContext_stays rfl h _ ht
  | queryScree => exact execQueryScree_stays rfl h _ ht
  | queryPage => exact execQueryPage_stays rfl h _ ht
  | queryDebug => exact execQueryDebug_stays rfl h _ ht
  | attest => exact execAttest_stays rfl h _ ht
  | ackError => exact execAckError_stays h _ ht
  | cfgWrite => exact execCfgWrite_stays rfl h _ _ _ ht
  | testModeEnable => exact execTestModeEnable_stays rfl h _ ht
  | testModeDisable => exact execTestModeDisable_stays rfl h _ ht
  | debugEnable => exact execDebugEnable_stays rfl h _ ht
  | ownerEnrol => exact execOwnerEnrol_stays rfl h _ _ _ ht
  | commandCompletion => exact execCommandCompletion_stays rfl h _ _ _ ht
  | messageWrite => exact execMessageWrite_stays rfl h _ ht
  | msixSend => exact execMsixSend_stays h _ ht
  | ringEnable => exact execRingEnable_stays h _ _ ht
  | telemetry => exact execTelemetry_stays rfl h _ ht
  | gcountLatchRead => exact execGcountLatchRead_stays h _ ht
  | mdropRead => exact execMdropRead_stays h _ ht
  | registerWrite => exact execRegisterWrite_stays h _ _ _ ht
  | moduleReset => exact execModuleReset_stays rfl rfl rfl rfl rfl rfl h _ _ ht
  | fundamentalReset => exact execFundamentalReset_stays rfl rfl rfl rfl rfl rfl h _ _ ht
  | cxlMemRead => exact execCxlMemRead_stays h _ _ ht
  | cxlMemWrite => exact execCxlMemWrite_stays h _ _ _ ht
  | presencePress => exact execPresencePress_stays rfl h _ ht
  | presenceWindowClose => exact execPresenceWindowClose_stays rfl rfl h ht
  | powerOn => exact execPowerOn_stays rfl rfl rfl rfl rfl rfl rfl rfl h _ _ ht
  | ready => exact execReady_stays rfl rfl h ht
  | portWait => exact execPortWait_stays h _ ht
  | alignWait => exact execAlignWait_stays h ht
  | governorSample => exact execGovernorSample_stays h _ _ _ ht
  | launchRamp => exact execLaunchRamp_stays h _ ht
  | thermalStep => exact execThermalStep_stays h _ _ _ ht
  | thermalTrip => exact execThermalTrip_stays rfl rfl h _ _ _ ht
  | tripShutdown => exact execTripShutdown_stays rfl rfl h ht
  | inputUndervoltage => exact execInputUndervoltage_stays rfl rfl h _ ht
  | inputDisconnect => exact execInputDisconnect_stays rfl rfl rfl rfl rfl rfl rfl h _ ht
  | inputLow => exact execInputLow_stays h _ ht
  | inputNormal => exact execInputNormal_stays h _ ht
  | inputHigh => exact execInputHigh_stays h _ ht
  | i3cPrivateWrite => exact execI3cPrivateWrite_stays rfl h _ _ ht
  | i3cPrivateRead => exact execI3cPrivateRead_stays rfl h _ _ _ ht
  | entdaa => exact execEntdaa_stays rfl h _ ht
  | setdasa => exact execSetdasa_stays rfl h _ _ ht
  | rstdaa => exact execRstdaa_stays rfl h ht
  | getpid => exact execGetpid_stays rfl h _ ht
  | getbcr => exact execGetbcr_stays rfl h _ ht
  | getdcr => exact execGetdcr_stays rfl h _ ht
  | getstatus => exact execGetstatus_stays rfl h _ ht
  | getmwl => exact execGetmwl_stays rfl h _ ht
  | getmrl => exact execGetmrl_stays rfl h _ ht
  | flitDiscard => exact execFlitDiscard_stays h _ _ ht
  | acknowledgement => exact execAcknowledgement_stays h _ _ ht
  | portTrainingLost => exact execPortTrainingLost_stays h _ ht
  | hostPortTraining => exact execHostPortTraining_stays h ht

/-- Settles O7: what every row stays within (`exec_stays`). -/
theorem partsChangeOnlyBy : Obligations.PartsChangeOnlyBy := by
  refine ⟨fun i s t ht => ?_, fun p i s t hp ht => ?_⟩
  · exact ⟨(exec_stays ht).fuses, (exec_stays ht).pending⟩
  · exact (exec_stays ht).parts p (by rw [hp]; rfl)

end Sys2Proof.Machine
end

section
/-! PROOFS. The global count (O39): what a tick, an alignment and a measurement do to it, and that no row makes it decrease. -/

namespace Sys2Proof.Machine

/-! ## COUNT_TICK (R328, R331) -/

section
variable {c : CountSt} {n : Nat}

/-- A correction that has no ticks left moves nothing. -/
theorem pacedTicks_of_settled (h : c.corr = 0) (m : Nat) : pacedTicks c m = 0 := by
  simp [pacedTicks, h]

theorem pacedTicks_le (c : CountSt) (m : Nat) : pacedTicks c m ≤ m := Nat.min_le_right ..

/-- With no correction to make, every tick that is not withheld counts. -/
theorem tickCount_count_of_settled (h : c.corr = 0) :
    (tickCount c n).count = c.count + BitVec.ofNat 64 (n - min c.ahead n) := by
  simp [tickCount, h, pacedTicks_of_settled h, BitVec.ofNat_add]

/-- A correction adds at most the ticks that pass, or withholds at most those: the count does not decrease while it has room. -/
theorem tickCount_mono (hroom : c.count.toNat + 2 * n < 2 ^ 64) : c.count.toNat ≤ (tickCount c n).count.toNat := by
  have hpaced := pacedTicks_le c (n - min c.ahead n)
  simp only [tickCount, BitVec.toNat_ofNat]
  split <;> omega

end

section
variable {s t : State} {n : Nat}

theorem exec_countTick_up (hon : s.boot.phase ≠ .off) (hup : s.boot.phase ≠ .starting) :
    exec (.countTick n) s =
      .next { s with cnt := tickCount s.cnt n, ports := Vector.ofFn fun p : PortId => tickPort s.ports[p] n } := by
  simp [exec, execCountTick, hon, hup]

/-- A stage of start-up that ends with the tick leaves the count. -/
theorem cnt_of_countTick (hon : s.boot.phase ≠ .off) (ht : exec (.countTick n) s = .next t) : t.cnt = tickCount s.cnt n := by
  have hstage (u : State) : (endStage u).cnt = u.cnt :=
    (endStage_stays (k := (· == .cnt)) rfl rfl rfl (Stays.refl u)).parts .cnt rfl
  simp only [exec, execCountTick, beq_iff_eq, hon, if_false, Host.Outcome.next.injEq] at ht
  subst ht
  split
  · rw [hstage]
  · rfl

end

/-! ## COUNT_ALIGN (R330) -/

section
variable {s : State} {m : BitVec 6} {stamp : W64} {delay : Nat}

theorem exec_countAlign_neighbour {p : PortId} (hon : s.boot.phase ≠ .off) (hcnt : s.cnt.on = true) (hal : s.cnt.aligned = false)
    (hp : alignPort s m = some p) :
    exec (.countAlign m stamp delay) s = .next (alignTo s p (stamp + BitVec.ofNat 64 delay)) := by
  refine congrArg Host.Outcome.next ?_
  simp only [hon, hcnt, hal, hp, beq_iff_eq, Bool.not_true, Bool.or_self, Bool.false_or, if_false]

/-- The timing root with no aligned neighbour is aligned on its own. -/
theorem exec_countAlign_root (hon : s.boot.phase ≠ .off) (hcnt : s.cnt.on = true) (hal : s.cnt.aligned = false)
    (hp : alignPort s m = none) (hroot : parentPort s.boot.cfg = none) :
    exec (.countAlign m stamp delay) s = .next (nowAligned s { s.cnt with toPort := none, ahead := 0 }) := by
  refine congrArg Host.Outcome.next ?_
  simp only [hon, hcnt, hal, hp, hroot, beq_iff_eq, Option.isNone_none, Bool.not_true, Bool.or_self, Bool.false_or, if_false, if_true]

/-- A count that is not ahead of its neighbour takes the neighbour's. -/
theorem alignTo_of_le {p : PortId} {target : W64} (h : s.cnt.count ≤ target) :
    alignTo s p target = nowAligned s { s.cnt with
      toPort := some p, count := target, corr := 0, corrAt := s.cnt.elapsed, ahead := 0, measAt := s.cnt.elapsed } :=
  if_neg (BitVec.not_lt.mpr h)

theorem alignTo_of_ahead {p : PortId} {target : W64} (h : target < s.cnt.count) :
    alignTo s p target = { s with cnt := { s.cnt with ahead := s.cnt.count.toNat - target.toNat } } :=
  if_pos h

theorem alignTo_mono (s : State) (p : PortId) (target : W64) : now s ≤ now (alignTo s p target) := by
  by_cases h : target < s.cnt.count
  · rw [alignTo_of_ahead h]
    exact le_rfl
  · have hle := BitVec.not_lt.mp h
    rw [alignTo_of_le hle]
    exact hle

end

/-! ## COUNT_REMEASURE (R331) -/

/-- The correction of an offset is within one tick of it (notes/assumptions/39). -/
theorem offsetTicks_within (d : Int) :
    1000 * offsetTicks d < d.natAbs + 1000 ∧ d.natAbs < 1000 * offsetTicks d + 1000 := by
  unfold offsetTicks
  split <;> omega

/-- The ticks by which an offset is corrected: withheld when the count is ahead. -/
def offsetCorr (d : Int) : Int := if 0 < d then -(offsetTicks d : Int) else offsetTicks d

theorem offsetCorr_of_ahead {d : Int} (h : 0 < d) : offsetCorr d ≤ 0 := by
  simp [offsetCorr, h]

theorem offsetCorr_of_behind {d : Int} (h : d ≤ 0) : 0 ≤ offsetCorr d := by
  simp [offsetCorr, not_lt.mpr h]

theorem offsetCorr_natAbs (d : Int) : (offsetCorr d).natAbs = offsetTicks d := by
  unfold offsetCorr
  split <;> omega

section
variable {s : State} {d : Int}

theorem exec_countRemeasure_early (h : elapsed s < s.cnt.measAt + 1000000) : exec (.countRemeasure d) s = .next s := by
  simp [exec, execCountRemeasure, h]

variable (hal : s.cnt.aligned = true) (hport : s.cnt.toPort ≠ none) (hdue : s.cnt.measAt + 1000000 ≤ elapsed s)
include hal hport hdue

theorem exec_countRemeasure_due : exec (.countRemeasure d) s = .next
    (if 4000 < d.natAbs then moduleFault { s with cnt := { s.cnt with measAt := elapsed s } } cCountSkew
     else { s with cnt := { s.cnt with corr := offsetCorr d, corrAt := elapsed s, measAt := elapsed s } }) := by
  have hcond : ¬(!s.cnt.aligned || s.cnt.toPort.isNone || decide (elapsed s < s.cnt.measAt + 1000000)) = true := by
    simp [hal, hport, hdue]
  exact congrArg Host.Outcome.next (if_neg hcond)

end

/-! ## No row makes the count decrease (R328) -/

theorem moduleFault_cnt (s : State) (cause : Cause) : (moduleFault s cause).cnt = s.cnt :=
  (moduleFault_stays (k := fun _ => true) (Stays.refl s) cause).parts .cnt rfl

theorem resetCore_count (s : State) (h : HostIf) (env : BootEnv) : (resetCore s h env).cnt.count = s.cnt.count := by
  have hsay (u : State) : (sayPresence u false false 0).cnt = u.cnt :=
    (sayPresence_stays (k := fun _ => true) (Stays.refl u) ..).parts .cnt rfl
  unfold resetCore
  dsimp only
  split
  · rw [hsay]
  · rfl

section
variable {s t : State}

theorem now_countTick_mono {n : Nat} (hon : s.boot.phase ≠ .off) (hroom : now s + 2 * n < 2 ^ 64)
    (ht : exec (.countTick n) s = .next t) : now s ≤ now t := by
  rw [now, now, cnt_of_countTick hon ht]
  exact tickCount_mono hroom

theorem now_countAlign_mono {m : BitVec 6} {stamp : W64} {delay : Nat} (ht : exec (.countAlign m stamp delay) s = .next t) :
    now s ≤ now t := by
  simp only [exec, execCountAlign, Host.Outcome.next.injEq] at ht
  subst ht
  split
  · exact le_rfl
  · split
    · exact alignTo_mono ..
    · split <;> exact le_rfl

theorem now_countRemeasure {d : Int} (ht : exec (.countRemeasure d) s = .next t) : now t = now s := by
  simp only [exec, execCountRemeasure, Host.Outcome.next.injEq] at ht
  subst ht
  split
  · rfl
  · split
    · rw [now, moduleFault_cnt, now]
    · rfl

theorem now_grefLoss {ns : Nat} (ht : exec (.grefLoss ns) s = .next t) : now t = now s := by
  simp only [exec, execGrefLoss, Host.Outcome.next.injEq] at ht
  subst ht
  split
  · rw [now, moduleFault_cnt, now]
  · rfl

theorem now_moduleReset {v : W32} {env : BootEnv} (ht : exec (.moduleReset v env) s = .next t) : now t = now s := by
  simp only [exec, execModuleReset, Host.Outcome.next.injEq] at ht
  subst ht
  split
  · rfl
  · exact congrArg BitVec.toNat (resetCore_count ..)

theorem now_fundamentalReset {ns : Nat} {env : BootEnv} (ht : exec (.fundamentalReset ns env) s = .next t) : now t = now s := by
  simp only [exec, execFundamentalReset, Host.Outcome.next.injEq] at ht
  subst ht
  split
  · rfl
  · exact congrArg BitVec.toNat (resetCore_count ..)

/-- Power comes on only where there was none. -/
theorem exec_powerOn_of_on {mv : Nat} {env : BootEnv} (hon : s.boot.phase ≠ .off) : exec (.powerOn mv env) s = .next s := by
  simp [exec, execPowerOn, hon]

/-- A row that is not listed for the count leaves it. -/
theorem now_of_not_touches {i : Instr} (hcnt : touches .cnt i = false) (ht : exec i s = .next t) : now t = now s :=
  congrArg (fun c : CountSt => c.count.toNat) ((exec_stays ht).parts .cnt (by rw [hcnt]; rfl))

/-- While the module has power its count does not decrease: the rows listed for the count one by one, then all the others. -/
theorem now_exec_mono {i : Instr} (ht : exec i s = .next t) (hon : s.boot.phase ≠ .off) (hin : ∀ m, i ≠ .inputDisconnect m)
    (hroom : ∀ n, i = .countTick n → now s + 2 * n < 2 ^ 64) : now s ≤ now t := by
  cases i with
  | countTick n => exact now_countTick_mono hon (hroom n rfl) ht
  | countAlign => exact now_countAlign_mono ht
  | countRemeasure => exact (now_countRemeasure ht).ge
  | grefLoss => exact (now_grefLoss ht).ge
  | moduleReset => exact (now_moduleReset ht).ge
  | fundamentalReset => exact (now_fundamentalReset ht).ge
  | powerOn =>
    rw [exec_powerOn_of_on hon] at ht
    injection ht with ht
    rw [ht]
  | inputDisconnect m => exact absurd rfl (hin m)
  | _ => exact (now_of_not_touches rfl ht).ge

end

/-- Settles O39: each row's own law above, and `now_exec_mono` over all rows. That a count found ahead stands, and that a correction
takes the ticks within one of the offset, is the model's reading (notes/assumptions/39 and 44). -/
theorem countRows : Obligations.CountRows := by
  refine ⟨fun s n hon hup hcorr => ?_, fun s m stamp delay p hon hcnt hal hp => ?_, fun s m stamp delay hon hcnt hal hp hroot => ?_,
    fun s d hal hport => ⟨exec_countRemeasure_early, fun hdue hfar => ?_, fun hdue hnear => ?_⟩,
    fun s t i ht hon hin hroom => now_exec_mono ht hon hin hroom⟩
  · refine ⟨_, exec_countTick_up hon hup, rfl, rfl, rfl, rfl, fun hahead => ?_, fun hle => ⟨?_, ?_⟩, rfl, fun p => ?_⟩
    · simp [tickCount_count_of_settled hcorr, hahead]
    · simp [tickCount_count_of_settled hcorr, Nat.min_eq_right hle]
    · exact congrArg (s.cnt.ahead - ·) (Nat.min_eq_right hle)
    · simp [tickPort]
  · have hrow := exec_countAlign_neighbour (stamp := stamp) (delay := delay) hon hcnt hal hp
    exact ⟨fun hle => ⟨_, hrow.trans (congrArg _ (alignTo_of_le hle)), rfl, rfl⟩,
      fun hahead => hrow.trans (congrArg _ (alignTo_of_ahead hahead))⟩
  · exact ⟨_, exec_countAlign_root hon hcnt hal hp hroot, rfl⟩
  · rw [exec_countRemeasure_due hal hport hdue, if_pos hfar]
  · obtain ⟨habove, hbelow⟩ := offsetTicks_within d
    rw [← offsetCorr_natAbs] at habove hbelow
    exact ⟨_, (exec_countRemeasure_due hal hport hdue).trans (congrArg _ (if_neg (by omega))), offsetCorr_of_ahead, offsetCorr_of_behind,
      habove, hbelow, rfl⟩

end Sys2Proof.Machine
end

section
/-! PROOFS. The commit wave (O42): a step that is complete, votes, a late wave and a refused commit. -/

namespace Sys2Proof.Machine

/-! ## What taking a flit from a port leaves -/

section
variable (s : State) (p : PortId) (f : Flit)

theorem arrived_ctxs : (arrived s (.port p) f).ctxs = s.ctxs := rfl

theorem arrived_hardFault : (arrived s (.port p) f).hardFault = s.hardFault := rfl

theorem arrived_axisLen (a : Fin 3) : axisLen (arrived s (.port p) f) a = axisLen s a := rfl

end

/-! ## STEP_COMPLETE (R343 to R345) -/

/-- The vote of this module for the running step of a context. -/
def ownVote (s : State) (c : CtxId) (l : Launch) : Vote :=
  { step := BitVec.ofNat 64 l.step, t := s.cnt.count, digest := updateDigest s.ctxs[c], ok := chrysalisClean s c }

/-- The module as it enters the wave with its own vote: its records and replica digests are out. -/
def waveEntered (s : State) (c : CtxId) (l : Launch) : State × Wave :=
  enterPhases c 4 (sendDigestSet (writeRecords s c l.step) c l.step)
    { l.wave with tOwn := some (now s), ownOk := (ownVote s c l).ok, acc := ownVote s c l }

section
variable {s : State} {c : CtxId} {l : Launch}

/-- No digest set of the context has come: nothing is compared. -/
theorem exec_stepComplete_enters (hl : s.ctxs[c].launch = some l) (hstart : l.started = true) (hown : l.wave.tOwn = none)
    (hmark : stepMarked s c = true) (hhard : s.hardFault = false)
    (hset : ((waveEntered s c l).1.digestSets.find? fun e => e.1 == c) = none) :
    exec (.stepComplete c) s = .next (setWave (waveEntered s c l).1 c (waveEntered s c l).2) := by
  refine congrArg Host.Outcome.next ?_
  simp only [hl, hstart, hown, hmark, hhard, Option.isSome_none, Bool.not_true, Bool.or_self, Bool.false_eq_true, if_false]
  split
  next _ hcome => exact absurd (hcome.symm.trans hset) (Option.some_ne_none _)
  next => rfl

end

/-! ## VOTE (R345) -/

section
variable {s : State} {p : PortId} {f : Flit} {l : Launch}

/-- The job fault of a vote of another step. -/
def stepMismatch (s : State) (c : CtxId) (l : Launch) : FaultInfo :=
  { cause := cStepMismatch, ctx := some c, rcd := { blankRec s with ctx := some c, step := BitVec.ofNat 64 l.step } }

variable (hacc : accepts s (.port p) f) (hctl : isCtrl ckVote f.hdr = true) (hl : s.ctxs[hCctx f.hdr].launch = some l)
  (hhard : s.hardFault = false)
include hacc hctl hl hhard

theorem exec_vote_of_other_step (hstep : (parseVote p f).vote.step ≠ BitVec.ofNat 64 l.step) :
    exec (.vote p f) s = .next
      (raiseFault (arrived s (.port p) f) (stepMismatch (arrived s (.port p) f) (hCctx f.hdr) l)) := by
  refine congrArg Host.Outcome.next ((receiveNow_of_accepts _ _ hacc hctl).trans ?_)
  simp only [arrived_ctxs, hl, arrived_hardFault, hhard, Bool.false_eq_true, if_false, bne_iff_ne, hstep, ne_eq, not_false_eq_true,
    if_true]
  rfl

variable (hstep : (parseVote p f).vote.step = BitVec.ofNat 64 l.step)
include hstep

/-- A vote ahead of its phase is kept. -/
theorem exec_vote_early (hearly : l.wave.tOwn = none ∨ (parseVote p f).axis.val ≠ l.wave.phase) :
    exec (.vote p f) s = .next
      (setWave (arrived s (.port p) f) (hCctx f.hdr) { l.wave with early := l.wave.early ++ [parseVote p f] }) := by
  have hnow : (l.wave.tOwn.isSome && (parseVote p f).axis.val == l.wave.phase) = false := by
    rcases hearly with hown | hphase
    · rw [hown]
      rfl
    · simp [hphase]
  refine congrArg Host.Outcome.next ((receiveNow_of_accepts _ _ hacc hctl).trans ?_)
  simp only [arrived_ctxs, hl, arrived_hardFault, hhard, hstep, hnow, bne_self_eq_false, Bool.false_eq_true, if_false]

/-- A vote of the phase that goes no further and is not the last of its axis is combined with those before it. -/
theorem exec_vote_combines (hown : l.wave.tOwn ≠ none) (hphase : (parseVote p f).axis.val = l.wave.phase)
    (hhops : (parseVote p f).hops ≤ 1) (hmore : l.wave.got + 1 < axisLen s (parseVote p f).axis - 1) :
    exec (.vote p f) s = .next (setWave (arrived s (.port p) f) (hCctx f.hdr)
      { l.wave with acc := combineVote l.wave.acc (parseVote p f).vote, got := l.wave.got + 1 }) := by
  have hnow : (l.wave.tOwn.isSome && (parseVote p f).axis.val == l.wave.phase) = true := by
    rw [Bool.and_eq_true, beq_iff_eq, Option.isSome_iff_ne_none]
    exact ⟨hown, hphase⟩
  refine congrArg Host.Outcome.next ((receiveNow_of_accepts _ _ hacc hctl).trans ?_)
  simp only [arrived_ctxs, hl, arrived_hardFault, hhard, hstep, hnow, bne_self_eq_false, Bool.false_eq_true, if_false, if_true,
    takeVotes, if_neg (Nat.not_lt.mpr hhops), arrived_axisLen, if_neg (Nat.not_le.mpr hmore)]

end

/-! ## COMMIT_REFUSED (R347) -/

/-- The ABORT of a refused commit whose refusal came from another module. -/
def refusedAbort (s : State) (l : Launch) (w : Wave) : AbortInfo :=
  { cause := cCommitRefused, origin := ownCoords s, acount := waveBound s w, astep := BitVec.ofNat 64 l.step, all := false,
    own := false, hard := false, seq := none, lost := 0 }

theorem exec_commitRefused_by_other {s : State} {c : CtxId} {l : Launch} {w : Wave} (hw : finishedWave s c = some (l, w))
    (hok : w.acc.ok = false) (hown : w.ownOk = true) (hdue : waveBound s w ≤ now s) (hhard : s.hardFault = false) :
    exec (.commitRefused c) s =
      .next (sendFault (noteHalt (haltCtx s c) c (refusedAbort s l w)) c (refusedAbort s l w)) := by
  refine congrArg Host.Outcome.next ?_
  simp only [hw, hok, hown, hhard, decide_eq_false (Nat.not_lt.mpr hdue), Bool.or_self, Bool.not_true, Bool.false_eq_true, if_false,
    if_true]
  rfl

/-! ## WAVE_TIMEOUT (R348) -/

/-- The job fault of a wave that is not finished in time. -/
def waveTimeout (s : State) (c : CtxId) (l : Launch) : FaultInfo :=
  { cause := cWaveTimeout, ctx := some c, rcd := { blankRec s with ctx := some c, step := BitVec.ofNat 64 l.step } }

theorem exec_waveTimeout_in_phase {s : State} {c : CtxId} {l : Launch} {n : Nat} (hl : s.ctxs[c].launch = some l)
    (hown : l.wave.tOwn = some n) (hphase : l.wave.phase < 3) :
    exec (.waveTimeout c) s = .next
      (if n + 1000 * diameter s.boot.cfg + stallNs s ≤ now s then raiseFault s (waveTimeout s c l) else s) := by
  refine congrArg Host.Outcome.next ?_
  simp only [hl, hown, hphase, decide_true, Bool.true_and, decide_eq_true_eq]
  rfl

/-- Settles O42: each row's own law above. -/
theorem commitWave : Obligations.CommitWave := by
  refine ⟨fun s c l hl hstart hown hmark hhard _ => exec_stepComplete_enters hl hstart hown hmark hhard,
    fun s p f l hacc hctl hl hhard => ⟨exec_vote_of_other_step hacc hctl hl hhard, exec_vote_early hacc hctl hl hhard,
      exec_vote_combines hacc hctl hl hhard⟩,
    fun s c l n => exec_waveTimeout_in_phase, fun s c l w => exec_commitRefused_by_other⟩

end Sys2Proof.Machine
end

section
/-! PROOFS. The abort flood (O44): an ABORT that arrives, and the report of lost faults. -/

namespace Sys2Proof.Machine

/-! ## What floods and messages leave -/

theorem sendCtrl_ctxs (s : State) (p : PortId) (mid : BitVec 11) (low : BitVec 36) (l : List Byte) :
    (sendCtrl s p mid low l).ctxs = s.ctxs := rfl

theorem post_ctxs (s : State) (c : CtxId) (type : Byte) (tag : W32) (gen : Byte) (l : List Byte) :
    (post s c type tag gen l).ctxs = s.ctxs := rfl

theorem floodAbort_ctxs (s : State) (ps : List PortId) (c : CtxId) (a : AbortInfo) : (floodAbort s ps c a).ctxs = s.ctxs :=
  foldl_same (φ := State.ctxs) (fun _ _ => sendCtrl_ctxs ..) ps s

theorem floodAbort_hardFault (s : State) (ps : List PortId) (c : CtxId) (a : AbortInfo) :
    (floodAbort s ps c a).hardFault = s.hardFault :=
  congrArg WorkView.hardFault (workView_floodAbort c s ps c a)

theorem sendFault_ctxs (s : State) (c : CtxId) (a : AbortInfo) : (sendFault s c a).ctxs = s.ctxs :=
  foldl_same (φ := State.ctxs) (fun _ _ => post_ctxs ..) _ s

/-! ## ABORT_RECEIVE (R350 to R352, R412) -/

/-- A new ABORT that came in on a port is noted and goes out on every other trained one. -/
def aboutAbort (u : State) (p : PortId) (c : CtxId) (a : AbortInfo) : State :=
  floodAbort (noteSeen u a.origin a.acount c) ((trainedPorts u).filter (· != p)) c a

/-- An ABORT of the step after the running one, for one context, waits for the flip (R352). -/
theorem abortAll_waits {v : State} {c : CtxId} {a : AbortInfo} {l : Launch} (hl : v.ctxs[c].launch = some l)
    (hstart : l.started = true) (hnext : a.astep = BitVec.ofNat 64 (l.step + 1)) (hone : a.all = false) :
    abortAll v c a = updCtx v c fun x => { x with waits := x.waits ++ [a] } := by
  have hwaits : (l.started && a.astep == BitVec.ofNat 64 (l.step + 1)) = true := by
    rw [hstart, hnext, beq_self_eq_true]
    rfl
  simp only [abortAll, abortCtx, hl, hwaits, hone, Bool.false_eq_true, if_false, if_true, List.foldl_nil]

section
variable {s : State} {p : PortId} {f : Flit} (hacc : accepts s (.port p) f) (hctl : isCtrl ckAbort f.hdr = true)
include hacc hctl

theorem exec_abortReceive_seen (hseen : seenAbort (arrived s (.port p) f) (parseAbort f) (hCctx f.hdr) = true) :
    exec (.abortReceive p f) s = .next (arrived s (.port p) f) :=
  congrArg Host.Outcome.next ((receiveNow_of_accepts _ _ hacc hctl).trans (if_pos hseen))

variable (hseen : seenAbort (arrived s (.port p) f) (parseAbort f) (hCctx f.hdr) = false)
include hseen

theorem exec_abortReceive_new :
    exec (.abortReceive p f) s = .next
      (let v := aboutAbort (arrived s (.port p) f) p (hCctx f.hdr) (parseAbort f)
       if s.hardFault then v else abortAll v (hCctx f.hdr) (parseAbort f)) := by
  have hhard : (aboutAbort (arrived s (.port p) f) p (hCctx f.hdr) (parseAbort f)).hardFault = s.hardFault :=
    floodAbort_hardFault ..
  rw [← hhard]
  exact congrArg Host.Outcome.next ((receiveNow_of_accepts _ _ hacc hctl).trans (if_neg (by simp [hseen])))

theorem exec_abortReceive_next_step {l : Launch} (hl : s.ctxs[hCctx f.hdr].launch = some l) (hstart : l.started = true)
    (hnext : (parseAbort f).astep = BitVec.ofNat 64 (l.step + 1)) (hone : (parseAbort f).all = false) (hhard : s.hardFault = false) :
    exec (.abortReceive p f) s = .next
      (updCtx (aboutAbort (arrived s (.port p) f) p (hCctx f.hdr) (parseAbort f)) (hCctx f.hdr)
        fun x => { x with waits := x.waits ++ [parseAbort f] }) := by
  have hctxs : (aboutAbort (arrived s (.port p) f) p (hCctx f.hdr) (parseAbort f)).ctxs = s.ctxs := floodAbort_ctxs ..
  rw [exec_abortReceive_new hacc hctl hseen, hhard]
  exact congrArg _ (abortAll_waits (by rw [hctxs, hl]) hstart hnext hone)

end

/-! ## LOST_FAULTS_REPORT (R351) -/

/-- What the one further FAULT message of a halt says. -/
def lostReport (h : Halt) : AbortInfo :=
  { cause := h.lastCause, origin := h.lastOrigin, acount := h.lastCount, astep := BitVec.ofNat 64 h.lastStep, all := h.lastAll,
    own := false, hard := false, seq := none, lost := h.lost }

theorem exec_lostFaultsReport_due {s : State} {c : CtxId} {h : Halt} (hhalt : s.ctxs[c].halt = some h) (hlost : h.lost ≠ 0)
    (hfirst : h.reported = false) (hdue : h.lastAt + 1000000 ≤ now s) :
    exec (.lostFaultsReport c) s = .next
      (sendFault (updCtx s c fun x => { x with halt := some { h with reported := true } }) c (lostReport h)) := by
  refine congrArg Host.Outcome.next ?_
  simp only [hhalt, hlost, hfirst, decide_eq_false (Nat.not_lt.mpr hdue), decide_false, Bool.or_self, Bool.false_eq_true, if_false]
  rfl

/-- Settles O44: each row's own law above. -/
theorem abortsSpread : Obligations.AbortsSpread := by
  refine ⟨fun s p f hacc hctl => ⟨exec_abortReceive_seen hacc hctl, fun hseen => ⟨exec_abortReceive_new hacc hctl hseen,
    fun l => exec_abortReceive_next_step hacc hctl hseen⟩⟩, fun s c h hhalt hlost hfirst hdue => ?_⟩
  exact ⟨_, exec_lostFaultsReport_due hhalt hlost hfirst hdue, sendFault_ctxs .., rfl⟩

end Sys2Proof.Machine
end

section
/-! PROOFS. Host commands that are accepted (O52): programs and launches, memory transfers, images, owner keys and restores. -/

namespace Sys2Proof.Machine

/-! ## Acceptance (R373, R438, R447) -/

section
variable {s : State} {c : CtxId} {d : Desc}

/-- Acceptance changes the host interface alone. -/
theorem accept_frame (s : State) (c : CtxId) (d : Desc) (promise u : Nat) (k : CmdRun) :
    accept s c d promise u k = { s with host := (accept s c d promise u k).host } := by
  unfold accept sayAccept
  split <;> rfl

theorem accept_regions (s : State) (c : CtxId) (d : Desc) (promise u : Nat) (k : CmdRun) :
    (accept s c d promise u k).regions = s.regions := by rw [accept_frame]

theorem accept_ctxs (s : State) (c : CtxId) (d : Desc) (promise u : Nat) (k : CmdRun) :
    (accept s c d promise u k).ctxs = s.ctxs := by rw [accept_frame]

theorem accept_fuses (s : State) (c : CtxId) (d : Desc) (promise u : Nat) (k : CmdRun) :
    (accept s c d promise u k).fuses = s.fuses := by rw [accept_frame]

theorem accept_boot (s : State) (c : CtxId) (d : Desc) (promise u : Nat) (k : CmdRun) :
    (accept s c d promise u k).boot = s.boot := by rw [accept_frame]

theorem accept_flash (s : State) (c : CtxId) (d : Desc) (promise u : Nat) (k : CmdRun) :
    (accept s c d promise u k).flash = s.flash := by rw [accept_frame]

/-- A descriptor that is offered, meets its command's conditions and can be done in time is accepted, and the command has its
effect. -/
theorem command_of_offered {opc n : Nat} {check : Desc → Option (Reject × Nat)} {bound : Desc → Option Nat} {run : Desc → CmdRun}
    {effect : Desc → State → State} (hoff : offered s c opc d) (hcheck : check d = none) (hbound : bound d = some n)
    (htime : inTime s d n) :
    command s c (isOpc opc) check bound run effect = effect d (accept s c d (now s + n) 0 (run d)) := by
  obtain ⟨hhead, hopc, hcommon⟩ := hoff
  have hmine : isOpc opc d = true := beq_iff_eq.mpr hopc
  simp only [command, hhead, hmine, hcommon, hcheck, hbound, tooLate_of_inTime htime, promiseFor, Bool.true_or, Bool.not_true,
    Bool.false_eq_true, if_false]

/-- With no context busy no command is refused for that. -/
theorem busyReject_of_idle (h : anyBusy s = false) : busyReject s = none := by
  simp [busyReject, firstReject, h]

/-! ## LOAD_PROGRAM (R443, R444) -/

theorem exec_loadProgram_accepted {image : List Byte} {n : Nat} (hoff : offered s c opLOAD d) (hcheck : loadReject s c image d = none)
    (hbound : (moveTime (dNat d 32 4) (cmdRate s) 1).map (1000000 + ·) = some n) (htime : inTime s d n) :
    exec (.loadProgram c image) s = .next (loadEffect c image d (taken s c d n)) :=
  congrArg Host.Outcome.next (command_of_offered hoff hcheck hbound htime)

theorem freeRegions_region (s : State) (c : CtxId) (keep : RegionId → Bool) (g : RegionId) :
    (freeRegions s c keep).regions[g] =
      if s.regions[g].ctx == some c && !keep g then freeRegion s.regions[g] else s.regions[g] :=
  Vector.getElem_ofFn ..

/-- A region once an image is loaded into the regions of REGMASK, and the context's others are freed. -/
def loadedRegion (s : State) (c : CtxId) (image : List Byte) (d : Desc) (m : Image) (g : RegionId) : Region :=
  let r := (freeRegions s c (lpMask d)).regions[g]
  if lpMask d g then loadRegion c image m g r else r

/-- Loading changes the regions, and the digest map of the context. -/
theorem loadEffect_frame {image : List Byte} {m : Image} (hparse : parseImage image (dNat d 32 4) = some m) :
    ∃ ctxs, loadEffect c image d s = { s with regions := Vector.ofFn (loadedRegion s c image d m), ctxs := ctxs } := by
  unfold loadEffect freeRegions updCtx
  rw [hparse]
  dsimp only
  split <;> exact ⟨_, rfl⟩

/-- A region of REGMASK takes its program. -/
theorem loadedRegion_named {image : List Byte} {m : Image} {g : RegionId} (hg : lpMask d g = true) :
    loadedRegion s c image d m g = loadRegion c image m g s.regions[g] := by
  simp only [loadedRegion, freeRegions_region, hg, Bool.not_true, Bool.and_false, Bool.false_eq_true, if_true, if_false]

/-- A region that REGMASK does not name is freed when it was the context's. -/
theorem loadedRegion_unnamed {image : List Byte} {m : Image} {g : RegionId} (hg : lpMask d g = false) :
    loadedRegion s c image d m g = if s.regions[g].ctx = some c then freeRegion s.regions[g] else s.regions[g] := by
  simp only [loadedRegion, freeRegions_region, hg, Bool.not_false, Bool.and_true, beq_iff_eq, Bool.false_eq_true, if_false]

/-- What LOAD_PROGRAM leaves in the regions (R443, R444). -/
theorem loadProgram_regions {image : List Byte} {m : Image} {n : Nat} (hparse : parseImage image (dNat d 32 4) = some m) :
    let t := loadEffect c image d (taken s c d n)
    (∀ g : RegionId, lpMask d g = true → t.regions[g] = loadRegion c image m g s.regions[g]) ∧
      (∀ g : RegionId, lpMask d g = false →
        t.regions[g] = if s.regions[g].ctx = some c then freeRegion s.regions[g] else s.regions[g]) ∧
      t.host = (taken s c d n).host := by
  obtain ⟨ctxs, hframe⟩ := loadEffect_frame (s := taken s c d n) (c := c) hparse
  have hregions : (taken s c d n).regions = s.regions := accept_regions ..
  have hregion (g : RegionId) : (loadEffect c image d (taken s c d n)).regions[g] = loadedRegion (taken s c d n) c image d m g := by
    rw [hframe]
    exact Vector.getElem_ofFn ..
  refine ⟨fun g hg => ?_, fun g hg => ?_, by rw [hframe]⟩
  · rw [hregion, loadedRegion_named hg, hregions]
  · rw [hregion, loadedRegion_unnamed hg, hregions]

/-! ## ARM_LAUNCH (R332, R333, R372) -/

theorem exec_armLaunch_admitted {promise u : Nat} (hoff : offered s c opARM d) (hcheck : armReject s c d = none)
    (hu : u = stepBound s c) (hpromise : promise = promiseOf s (alA d) (alN d) u)
    (htime : dDeadline d = noDeadline ∨ promise ≤ dDeadline d) :
    exec (.armLaunch c) s = .next (arm (accept s c d promise u (cmdOf d)) c d promise u) := by
  obtain ⟨hhead, hopc, hcommon⟩ := hoff
  have hmine : isOpc opARM d = true := beq_iff_eq.mpr hopc
  have hchecks : (commonReject s c d <|> (armReject s c d).map (·.1)) = none := by
    rw [hcommon, hcheck]
    rfl
  have hmeets : (dDeadline d != noDeadline && decide (dDeadline d < promise)) = false := by
    rcases htime with hnone | hle
    · simp [hnone]
    · simp [hle]
  refine congrArg Host.Outcome.next ?_
  simp only [hhead, hmine, hchecks, ← hu, ← hpromise, hmeets, Bool.true_or, Bool.not_true, Bool.false_eq_true, if_false]

/-- The launch as armed: its first step waits for count A. -/
def armedLaunch (d : Desc) (promise u : Nat) : Launch :=
  { tag := dTag d, gen := dGen d, a := alA d, s0 := alS0 d, n := alN d, promise := promise, u := u, step := alS0 d,
    started := false, due := alA d, sStep := 0, wave := Wave.reset (alS0 d), ext := 0, lastFlip := none }

/-- The context with a launch armed, and its Cairn at `cairn`. -/
def armedCtx (x : Ctx) (d : Desc) (promise u : Nat) (cairn : W64) : Ctx :=
  { x with launch := some (armedLaunch d promise u), lastPromise := BitVec.ofNat 64 promise, fresh := false, cairnStep := cairn }

/-- A region of the context is admitted at its beat time of now (R364). -/
def admittedRegion (s : State) (c : CtxId) (g : RegionId) : Region :=
  if s.regions[g].ctx == some c then { s.regions[g] with tadm := some (admBeat s g) } else s.regions[g]

theorem arm_frame (s : State) (c : CtxId) (d : Desc) (promise u : Nat) :
    ∃ cairn hbm, arm s c d promise u =
      { updCtx s c fun x => armedCtx x d promise u cairn with regions := Vector.ofFn (admittedRegion s c), hbm := hbm } := by
  unfold arm updCtx updHbm
  dsimp only
  split <;> exact ⟨_, _, rfl⟩

/-- What ARM_LAUNCH leaves (R332, R333, R364). -/
theorem armLaunch_effect (promise u : Nat) :
    let t := arm (accept s c d promise u (cmdOf d)) c d promise u
    (∃ cairn, t.ctxs[c] = armedCtx s.ctxs[c] d promise u cairn) ∧ (∀ e : CtxId, e ≠ c → t.ctxs[e] = s.ctxs[e]) ∧
      (∀ g : RegionId, t.regions[g] = admittedRegion s c g) ∧ t.host = (accept s c d promise u (cmdOf d)).host := by
  intro t
  obtain ⟨cairn, hbm, ht⟩ : ∃ cairn hbm, t = _ := arm_frame (accept s c d promise u (cmdOf d)) c d promise u
  have hctxs := accept_ctxs s c d promise u (cmdOf d)
  rw [ht]
  refine ⟨⟨cairn, ?_⟩, fun e he => ?_, fun g => ?_, rfl⟩
  · rw [← hctxs]
    exact updCtx_same _ c fun x => armedCtx x d promise u cairn
  · rw [← hctxs]
    exact updCtx_other _ c (fun x => armedCtx x d promise u cairn) e he
  · refine (Vector.getElem_ofFn ..).trans ?_
    rw [accept_frame]
    rfl

/-! ## MEM_READ and MEM_WRITE (R445) -/

/-- The command of a memory transfer. -/
def transferOf (d : Desc) : CmdRun := { cmdOf d with haddr := mcHost d, caddr := mcAddr d, len := mcLen d }

theorem exec_memRead_accepted {n : Nat} (hoff : offered s c opREAD d) (hcheck : memReject s c d false = none)
    (hbound : memBound s c d = some n) (htime : inTime s d n) :
    exec (.memRead c) s = .next (memReadEffect c d (accept s c d (now s + n) 0 (transferOf d))) :=
  congrArg Host.Outcome.next (command_of_offered hoff hcheck hbound htime)

theorem exec_memWrite_accepted {data : List Byte} {n : Nat} (hoff : offered s c opWRITE d) (hcheck : memReject s c d true = none)
    (hbound : memBound s c d = some n) (htime : inTime s d n) :
    exec (.memWrite c data) s = .next (memWriteEffect c data d (accept s c d (now s + n) 0 (transferOf d))) :=
  congrArg Host.Outcome.next (command_of_offered hoff hcheck hbound htime)

/-! ## CFG_WRITE (R459, R473) -/

theorem exec_cfgWrite_accepted {image : List Byte} {ok : Bool} {n : Nat} (hoff : offered s c opCFG d) (hidle : anyBusy s = false)
    (hn : 1000000000 + ceilDiv (4000000000 * dNat d 32 4) 1048576 = n) (htime : inTime s d n) :
    exec (.cfgWrite c image ok) s =
      .next (cfgEffect c image ok d (accept s c d (now s + n) 0 { cmdOf d with len := dNat d 32 4 })) :=
  congrArg Host.Outcome.next (command_of_offered hoff (busyReject_of_idle hidle) (congrArg some hn) htime)

/-- A whole image that passes its checks is programmed into the slot that did not boot. -/
theorem cfgEffect_of_verified {image : List Byte} (hlen : image.length = dNat d 32 4)
    (hgood : imageReason s.fuses s.boot.ownerK s.boot.ownerP image (dNat d 32 4) = none) :
    cfgEffect c image true d s = { s with flash := flashImage s.flash (!s.boot.slotB) image } := by
  simp [cfgEffect, ← hlen, hlen ▸ hgood]

/-! ## OWNER_ENROL (R465, R475) -/

theorem exec_ownerEnrol_accepted {record : List Byte} {ok : Bool} (hoff : offered s c opOWNER d) (hidle : anyBusy s = false)
    (htime : inTime s d 10000000000) :
    exec (.ownerEnrol c record ok) s = .next (enrolEffect c record ok d (taken s c d 10000000000)) :=
  congrArg Host.Outcome.next (command_of_offered hoff (busyReject_of_idle hidle) rfl htime)

/-- The configuration memory with a new copy of the owner block, of key `k` and previous key `p`. -/
def enrolledFlash (f : Flash) (k p : List Byte) : Flash :=
  { f with sec := f.sec.set (2 + (enrolCopy f).1) (secHolding (ownerBlock (enrolCopy f).2 k p)) }

/-- A record that passes its checks becomes the owner block in force, and the former key the previous one. -/
theorem enrolEffect_of_signed {record : List Byte} (hok : enrolOk s.boot.ownerK record = true) :
    enrolEffect c record true d s =
      { s with
        boot := { s.boot with ownerK := keyOf (sliceBytes record 0 57), ownerP := s.boot.ownerK },
        flash := enrolledFlash s.flash (sliceBytes record 0 57) (s.boot.ownerK.getD []) } := by
  simp [enrolEffect, enrolledFlash, hok]

/-! ## RESTORE_FROM_BUDDY (R356, R357) -/

theorem exec_restore_accepted {held : Option (List Nat × W64)} {n : Nat} (hoff : offered s c opRESTORE d)
    (hcheck : restoreReject s c held = none) (hn : ceilDiv (cairnBytes s c) 750 + 1000000 = n) (htime : inTime s d n) :
    exec (.restoreFromBuddy c held) s =
      .next (pumpRestore (beginRestore (taken s c d n) c ((held.map (·.2)).getD 0)) c) :=
  congrArg Host.Outcome.next (command_of_offered hoff hcheck (congrArg some hn) htime)

/-- A restore that finds no rebuild open asks the neighbour for its mirror. -/
theorem beginRestore_of_closed (step : W64) (h : s.restoring[c] = none) :
    beginRestore s c step = askRebuild s c { step := step, got := 0, own := false, left := 0 } := by
  rw [beginRestore, h]

/-- One that finds a rebuild open waits for what that has still to bring (notes/assumptions/71). -/
theorem beginRestore_of_open (step : W64) {r : Restore} (h : s.restoring[c] = some r) :
    beginRestore s c step =
      { s with restoring := s.restoring.set c (some { step := step, got := 0, own := false, left := r.left }) } := by
  rw [beginRestore, h]

end

/-- Settles O52: each command's acceptance, and what its effect does, are the laws above. The number in MIRROR_REBUILD, and that a
restore that finds a rebuild open sends no second request, are the model's reading (notes/assumptions/71). -/
theorem programAndDataCommands : Obligations.ProgramAndDataCommands := by
  refine fun s c d => ⟨fun image n m hoff hcheck hparse hbound htime => ?_, fun u promise hoff hcheck hu hpromise htime => ?_,
    fun n => exec_memRead_accepted, fun data n => exec_memWrite_accepted, fun image hoff hidle htime hlen hgood => ?_,
    fun record hoff hidle htime hok => ?_, fun held hoff hcheck htime hnone => ?_, fun held r hoff hcheck htime hopen => ?_⟩
  · obtain ⟨hnamed, hunnamed, hhost⟩ := loadProgram_regions (s := s) (c := c) (n := n) hparse
    refine ⟨_, exec_loadProgram_accepted hoff hcheck hbound htime, fun g hg => ?_, fun g hg => ?_, hhost⟩
    · rw [hnamed g hg]
      exact ⟨rfl, rfl, rfl, rfl⟩
    · rw [hunnamed g hg]
      split
      next => exact ⟨nofun, rfl⟩
      next hctx => exact ⟨hctx, rfl⟩
  · obtain ⟨⟨cairn, hctx⟩, hothers, hregions, hhost⟩ := armLaunch_effect (s := s) (c := c) (d := d) promise u
    refine ⟨_, exec_armLaunch_admitted hoff hcheck hu hpromise htime, ?_, ?_, ?_, hothers, fun g hg => ?_, fun g hg => ?_, hhost⟩
    · rw [hctx]
      exact ⟨_, rfl, rfl, rfl, rfl, rfl, rfl, rfl, rfl, rfl, rfl⟩
    · rw [hctx]
      rfl
    · rw [hctx]
      rfl
    · rw [hregions]
      exact if_pos (beq_iff_eq.mpr hg)
    · rw [hregions]
      exact if_neg fun h => hg (beq_iff_eq.mp h)
  · intro u
    have hflash : flashImage u.flash (!u.boot.slotB) image = flashImage s.flash (!s.boot.slotB) image := by
      rw [accept_flash, accept_boot]
    refine (exec_cfgWrite_accepted hoff hidle rfl htime).trans (congrArg _ ((cfgEffect_of_verified hlen ?_).trans ?_))
    · rwa [accept_fuses, accept_boot]
    · exact congrArg (fun f => { u with flash := f }) hflash
  · refine ⟨_, (exec_ownerEnrol_accepted hoff hidle htime).trans (congrArg _ (enrolEffect_of_signed ?_)), rfl, ?_, ?_, ?_⟩
    · rw [taken, accept_boot, hok]
    · rw [taken, accept_boot]
    · rw [taken, accept_flash]
      rfl
    · rw [taken, accept_boot, accept_flash]
      rfl
  · rw [exec_restore_accepted hoff hcheck rfl htime, beginRestore_of_closed _ hnone]
    rfl
  · rw [exec_restore_accepted hoff hcheck rfl htime, beginRestore_of_open _ hopen]

end Sys2Proof.Machine
end

section
/-! PROOFS. Delay monitors and the core rail floor (O46). -/

namespace Sys2Proof.Machine

/-! ## RECALIBRATION (R362, R363, R365) -/

section
variable {s : State} {d : Fin 363} {m : DomainMeas}

/-- A window of a powered domain that ends without a beat time is BEAT_LIMIT, and no new beat time is put in place. -/
theorem exec_recalibration_of_no_beat (hready : s.boot.phase = .ready) (hon : domainOn s d.val = true)
    (hbeat : worstBeat s.boot.cfg.alpha d.val m epsRunning = none) :
    exec (.recalibration d m) s = .next (domainFault s d.val cBeatLimit) := by
  simp [exec, execRecalibration, hready, hon, hbeat]

/-- The drift is judged by the admissions that run as the window ends, before a BEAT_LIMIT fault halts any of them. -/
theorem exec_recalibration_of_beat {tw : Nat} (hready : s.boot.phase = .ready) (hon : domainOn s d.val = true)
    (hbeat : worstBeat s.boot.cfg.alpha d.val m epsRunning = some tw) :
    exec (.recalibration d m) s = .next (
      let u : State := { s with boot := { s.boot with tw := s.boot.tw.set d.val tw } }
      let v := if tw ≤ beatLimit then u else domainFault u d.val cBeatLimit
      if drifted s d.val tw then domainFault v d.val cMonitorDrift else v) := by
  simp only [exec, execRecalibration, hready, hon, hbeat, bne_self_eq_false, Bool.not_true, Bool.or_self, Bool.false_eq_true,
    if_false, ← not_le, ite_not]

end

/-! ## RAIL_FLOOR (R359) -/

/-- A module that runs takes a core rail's measurement as a fault by its voltage and its duration alone. -/
theorem exec_railFloor_of_running {s : State} (hrun : running s = true) (d : DieId) (mv ns : Nat) :
    exec (.railFloor d mv ns) s = .next (if mv < 690 ∧ 1000 < ns then
      raiseFault s { cause := cRailFloor, ctx := none, rcd := { blankRec s with die := BitVec.ofNat 8 d.val } } else s) := by
  simp [exec, execRailFloor, hrun]

/-- Settles O46: each row's own law above. That a domain with a ring that gives no finite beat time is taken as one above the limit of
R363, with no new t_w put in place, is the model's reading (Table 16.12 names a ring that does not run at start-up alone). -/
theorem monitorsAndRails : Obligations.MonitorsAndRails := by
  refine ⟨fun s d m hready hon => ?_, fun s d mv ns hrun => exec_railFloor_of_running hrun d mv ns⟩
  cases hbeat : worstBeat s.boot.cfg.alpha d.val m epsRunning with
  | none => exact exec_recalibration_of_no_beat hready hon hbeat
  | some tw => exact exec_recalibration_of_beat hready hon hbeat

end Sys2Proof.Machine
end

section
/-! PROOFS. The step and what it keeps: the front command (O1), reset (O3, O4), the bounds (O5), the writers of the configuration
memory (O6) and the loss of the reference (O40). -/

namespace Sys2Proof.Machine

/-! ## The front command and the bounds -/

theorem step_of_pending {s : State} {i : Instr} {rest : List Instr} (h : s.pending = i :: rest) :
    step s = exec i { s with pending := rest } := by
  rw [step, h]

/-- Settles O1, by the definition of the step on a queue that is not empty. -/
theorem stepRunsFrontCommand : Obligations.StepRunsFrontCommand := fun _ _ _ => step_of_pending

theorem step_bounded {s t : State} (hs : s.bounded) (ht : step s = .next t) : t.bounded := by
  cases hp : s.pending with
  | nil =>
    rw [step_of_empty hp] at ht
    cases ht
    exact hs
  | cons i rest =>
    rw [step_of_pending hp] at ht
    exact (exec_stays ht).bounded hs

/-- Settles O5: an idle step changes nothing, and every row keeps the bounds (`exec_stays`). -/
theorem stepKeepsInvariant : Obligations.StepKeepsInvariant := fun _ _ => step_bounded

/-! ## Reset -/

theorem reset_region (g : RegionId) : State.reset.regions[g] = Region.reset := by simp [State.reset]

theorem reset_ring (c : CtxId) : State.reset.host.rings[c] = Ring.reset := by simp [State.reset, HostIf.reset]

theorem reset_ctx (c : CtxId) : State.reset.ctxs[c] = Ctx.reset := by simp [State.reset]

theorem reset_port (p : PortId) : State.reset.ports[p] = Port.reset := by simp [State.reset]

theorem reset_bounded : State.reset.bounded := by
  refine ⟨List.length_replicate, fun c => ?_, Nat.zero_lt_succ 63⟩
  rw [reset_ring]
  exact Nat.zero_le _

theorem reset_memOk : State.reset.memOk = true := by
  have hregions : ((List.finRange 64).all fun g => State.reset.regions[g].memOk) = true :=
    List.all_eq_true.mpr fun g _ => congrArg Region.memOk (reset_region g)
  rw [State.memOk, hregions]
  rfl

/-- Settles O3. Where the manual gives no value, reset holds zero or nothing: the model's choice (notes/assumptions/65). -/
theorem resetState : Obligations.ResetState := by
  refine ⟨rfl, rfl, rfl, rfl, rfl, rfl, rfl, rfl, rfl, rfl, rfl, rfl, rfl, fun c => ?_, fun g => ?_, fun p => ?_⟩
  · simp only [reset_ring, reset_ctx]
    exact ⟨rfl, rfl, rfl, rfl, rfl, rfl, rfl, rfl⟩
  · rw [reset_region]
    rfl
  · rw [reset_port]
    rfl

/-- Settles O4: every part of reset that holds a buffer or a memory holds it empty. -/
theorem resetMeetsInvariant : Obligations.ResetMeetsInvariant := ⟨reset_bounded, reset_memOk⟩

/-! ## Writers of the configuration memory (R467, R470, R473) -/

theorem terminate_flash (s : State) (code : Byte) : (terminate s code).flash = s.flash :=
  (terminate_stays (k := (· == .flash)) rfl rfl (Stays.refl s) code).parts .flash rfl

/-- Power-on takes the device that is fitted, whatever the early stages find. -/
theorem flash_of_powerOn {s t : State} {mv : Nat} {env : BootEnv} (ht : exec (.powerOn mv env) s = .next t) :
    t.flash = s.flash ∨ t.flash = env.device.getD s.flash := by
  simp only [exec, execPowerOn, Host.Outcome.next.injEq] at ht
  subst ht
  split
  · exact .inl rfl
  · right
    split
    · exact terminate_flash ..
    · split
      · exact terminate_flash ..
      · split
        · exact terminate_flash ..
        · rfl

theorem device_of_powerOn {s t : State} {mv : Nat} {env : BootEnv} (ht : exec (.powerOn mv env) s = .next t)
    (hne : t.flash ≠ s.flash) : ∃ d, env.device = some d ∧ t.flash = d := by
  have hflash := (flash_of_powerOn ht).resolve_left hne
  cases hdev : env.device with
  | none => exact absurd (by rw [hflash, hdev]; rfl) hne
  | some d => exact ⟨d, rfl, by rw [hflash, hdev]; rfl⟩

theorem sayDone_flash (s : State) (c : CtxId) (k : CmdRun) : (sayDone s c k).flash = s.flash :=
  (sayDone_stays (k := fun _ => true) (Stays.refl s) c k).parts .flash rfl

/-- Of the commands that complete, a CFG_WRITE alone writes the configuration memory. -/
theorem cfg_of_commandCompletion {s t : State} {c : CtxId} {tag : W32} {gen : Byte}
    (ht : exec (.commandCompletion c tag gen) s = .next t) (hne : t.flash ≠ s.flash) :
    ∃ k ∈ s.host.rings[c].cmds, k.opc.toNat = opCFG ∧ k.tag = tag ∧ k.gen = gen := by
  simp only [exec, execCommandCompletion, Host.Outcome.next.injEq] at ht
  subst ht
  revert hne
  split
  case h_1 => exact fun hne => absurd rfl hne
  case h_2 k hk =>
    have hmem := List.mem_of_find?_eq_some hk
    obtain ⟨htag, hgen⟩ : k.tag = tag ∧ k.gen = gen := by simpa using List.find?_some hk
    intro hne
    refine ⟨k, hmem, by_contra fun hcfg => hne ?_, htag, hgen⟩
    split
    · rfl
    · split
      · exact (askAgain_stays (k := fun _ => true) (Stays.refl s) ..).parts .flash rfl
      · rw [sayDone_flash]
        split
        · exact (endRestore_stays (k := fun _ => true) (Stays.refl _) c).parts .flash rfl
        · rfl

theorem flash_exec {i : Instr} {s t : State} (ht : exec i s = .next t) (hne : t.flash ≠ s.flash) :
    (∃ c image ok, i = .cfgWrite c image ok) ∨ (∃ c r ok, i = .ownerEnrol c r ok) ∨
      (∃ (c : CtxId) (k : CmdRun), k ∈ s.host.rings[c].cmds ∧ k.opc.toNat = opCFG ∧ i = .commandCompletion c k.tag k.gen) ∨
      ∃ mv env d, i = .powerOn mv env ∧ env.device = some d ∧ t.flash = d := by
  have hkept (hi : touches .flash i = false) : False :=
    hne ((exec_stays ht).parts .flash (by rw [hi]; rfl))
  cases i with
  | cfgWrite c image ok => exact .inl ⟨c, image, ok, rfl⟩
  | ownerEnrol c r ok => exact .inr (.inl ⟨c, r, ok, rfl⟩)
  | commandCompletion c tag gen =>
    obtain ⟨k, hmem, hcfg, rfl, rfl⟩ := cfg_of_commandCompletion ht hne
    exact .inr (.inr (.inl ⟨c, k, hmem, hcfg, rfl⟩))
  | powerOn mv env =>
    obtain ⟨d, hdev, hflash⟩ := device_of_powerOn ht hne
    exact .inr (.inr (.inr ⟨mv, env, d, rfl, hdev, hflash⟩))
  | _ => exact (hkept rfl).elim

/-- Settles O6: the rows listed for the configuration memory one by one, and all the others by what every row stays within. -/
theorem configurationMemoryWriters : Obligations.ConfigurationMemoryWriters := by
  intro s t i rest hp ht hne
  rw [step_of_pending hp] at ht
  have hwriter := flash_exec ht hne
  exact hwriter

/-! ## GREF_LOSS (R518) -/

/-- Settles O40: the row's guard holds. -/
theorem referenceLoss : Obligations.ReferenceLoss := by
  intro s ns hready hlong
  refine congrArg Host.Outcome.next (if_pos ?_)
  simp [hready, hlong]

end Sys2Proof.Machine
end

section
/-! PROOFS. The residue of a cell follows its N (O60): through preloads, stored values and products (R377). -/

namespace Sys2Proof.Machine

/-! ## Cells whose checks hold -/

/-- The two copies of a cell's side flags agree. -/
def AccCell.flagsAgree (c : AccCell) : Bool :=
  c.dup == (BitVec.ofBool c.nanf ++ BitVec.ofBool c.ninf ++ BitVec.ofBool c.pinf)

theorem AccCell.checks_exact (c : AccCell) : c.checks false = (checkBeat c.n c.rn && c.flagsAgree) := rfl

theorem AccCell.checks_f32c (c : AccCell) : c.checks true = true ↔ c.rn = 0 := beq_iff_eq

/-- A mark is made in both copies of the flags. -/
theorem AccCell.flagsAgree_mark {c : AccCell} (p n x : Bool) (h : c.flagsAgree = true) : (c.mark p n x).flagsAgree = true := by
  have hdup : c.dup = BitVec.ofBool c.nanf ++ BitVec.ofBool c.ninf ++ BitVec.ofBool c.pinf := beq_iff_eq.mp h
  simp only [AccCell.flagsAgree, AccCell.mark, hdup, beq_iff_eq]
  generalize c.nanf = cx, c.ninf = cn, c.pinf = cp
  revert cx cn cp p n x
  decide

theorem AccCell.checks_mark {c : AccCell} (p n x : Bool) (h : c.checks false = true) : (c.mark p n x).checks false = true := by
  rw [checks_exact, Bool.and_eq_true] at h ⊢
  exact ⟨h.1, flagsAgree_mark p n x h.2⟩

theorem AccCell.flagsAgree_zero : AccCell.zero.flagsAgree = true := by decide

theorem AccCell.checks_zero : AccCell.zero.checks false = true := by decide

/-- A cell made of an integer that fits its 128 bits carries the integer's residue. -/
theorem AccCell.checks_ofInt {n : Int} (hlo : -2 ^ 127 ≤ n) (hhi : n < 2 ^ 127) : (AccCell.ofInt n).checks false = true := by
  have hfit : (BitVec.ofInt 128 n).toInt = n := BitVec.toInt_ofInt_eq_self (by decide) hlo hhi
  have hbeat : checkBeat (BitVec.ofInt 128 n) (resid n) = true := checkBeat_iff.mpr (by rw [hfit])
  rw [checks_exact, Bool.and_eq_true]
  exact ⟨hbeat, flagsAgree_zero⟩

/-! ## Products (R52, R53, R62) -/

theorem flagsAgree_accProduct {c : AccCell} (a b : Val) (h : c.flagsAgree = true) : (accProduct c a b).1.flagsAgree = true := by
  cases hv : Val.mul a b with
  | nan =>
    rw [accProduct_of_nan hv]
    exact AccCell.flagsAgree_mark _ _ _ h
  | inf neg =>
    rw [accProduct_of_inf hv]
    exact AccCell.flagsAgree_mark _ _ _ h
  | fin neg m e =>
    rw [accProduct_of_fin hv]
    exact h

theorem checks_accProduct {c : AccCell} (a b : Val) (h : c.checks false = true) : (accProduct c a b).1.checks false = true := by
  rw [AccCell.checks_exact, Bool.and_eq_true] at h ⊢
  exact ⟨checkBeat_accProduct a b h.1, flagsAgree_accProduct a b h.2⟩

/-- The check of a product finds nothing in a product that is right. -/
theorem mulCheck_eq_true (a b : Val) : mulCheck a b = true := by
  rw [mulCheck, show (0 : BitVec 3) = resid 0 from rfl, cellStep_resid]
  simp

/-- The check of an aligned sum finds nothing in a sum that is right. -/
theorem addCheck_eq_true (a b : Val) : addCheck a b = true := by
  unfold addCheck
  split
  · dsimp only
    rw [show (0 : BitVec 3) = resid 0 from rfl, show (1 : BitVec 3) = resid 1 from rfl, cellStep_resid, cellStep_resid]
    simp
  · rfl

theorem accF32c_rn (c : AccCell) (a b : Val) : (accF32c c a b).rn = c.rn := by
  simp [accF32c, mulCheck_eq_true, addCheck_eq_true]

/-! ## Preloads and stored values (R50, R59) -/

/-- B in units of 2^-48. -/
theorem l128Max_natAbs : l128Max.natAbs = 2 ^ 127 - 4 := by decide

/-- A magnitude that does not exceed B stays within it when it is aligned to 2^-48. -/
theorem aligned_le_of_not_lt {m : Nat} {e : Int} (h : Val.lt (valOfInt l128Max (-48)) (.fin false m e) = false) :
    m * 2 ^ (e + 48).toNat ≤ (2 ^ 127 - 4) * 2 ^ (-48 - e).toNat := by
  have hle : m * 2 ^ (e - min (-48) e).toNat ≤ l128Max.natAbs * 2 ^ (-48 - min (-48) e).toNat :=
    Int.ofNat_le.mp (not_lt.mp (of_decide_eq_false h))
  rw [l128Max_natAbs] at hle
  rcases le_total (-48) e with he | he
  · rwa [min_eq_left he, show e - -48 = e + 48 by omega, show (-48 - -48 : Int).toNat = (-48 - e).toNat by omega] at hle
  · rwa [min_eq_right he, show (e - e).toNat = (e + 48).toNat by omega] at hle

/-- Rounding to an integer does not pass an integer bound. -/
theorem rneShift_le {m sh b : Nat} (h : m ≤ b * 2 ^ sh) : rneShift m sh ≤ b := by
  have hpos : 0 < 2 ^ sh := Nat.two_pow_pos sh
  have hdiv := Nat.div_add_mod m (2 ^ sh)
  have hq : m / 2 ^ sh ≤ b := Nat.div_le_of_le_mul (by rwa [Nat.mul_comm])
  unfold rneShift
  dsimp only
  split
  · -- A quotient that is the bound already leaves no remainder to round up.
    refine Nat.succ_le_of_lt (lt_of_le_of_ne hq fun heq => ?_)
    rw [heq, Nat.mul_comm] at hdiv
    omega
  · exact hq

theorem checks_ofInt_signedM {neg : Bool} {m : Nat} (h : m ≤ 2 ^ 127 - 4) :
    (AccCell.ofInt (signedM neg m)).checks false = true := by
  have hbounds : -2 ^ 127 ≤ signedM neg m ∧ signedM neg m < 2 ^ 127 := by
    cases neg <;> simp only [signedM, if_true, Bool.false_eq_true, if_false] <;> omega
  exact AccCell.checks_ofInt hbounds.1 hbounds.2

theorem checks_preloadVal (v : Val) : (preloadVal v).1.checks false = true := by
  unfold preloadVal
  split
  · exact AccCell.checks_mark _ _ _ AccCell.checks_zero
  · exact AccCell.checks_mark _ _ _ AccCell.checks_zero
  next neg m e =>
    split
    · cases neg <;> exact AccCell.checks_ofInt (by decide) (by decide)
    next hlt =>
      have hbound := aligned_le_of_not_lt (Bool.eq_false_iff.mpr hlt)
      split
      next he =>
        rw [show (-48 - e).toNat = 0 by omega, pow_zero, mul_one] at hbound
        exact checks_ofInt_signedM hbound
      next he =>
        rw [show (e + 48).toNat = 0 by omega, pow_zero, mul_one] at hbound
        exact checks_ofInt_signedM (rneShift_le hbound)

theorem l128Class_fin {x : BitVec 128} {n : Int} (h : l128Class x = .fin n) : n = x.toInt := by
  simp only [l128Class] at h
  split_ifs at h
  exact (L128Class.fin.inj h).symm

theorem checks_cellOfL128 (x : BitVec 128) : (cellOfL128 x).1.checks false = true := by
  unfold cellOfL128
  split
  · exact AccCell.checks_mark _ _ _ AccCell.checks_zero
  · exact AccCell.checks_mark _ _ _ AccCell.checks_zero
  · exact AccCell.checks_mark _ _ _ AccCell.checks_zero
  next n hn =>
    split
    · exact AccCell.checks_ofInt (by decide) (by decide)
    · rw [l128Class_fin hn]
      exact AccCell.checks_ofInt (BitVec.le_toInt x) (BitVec.toInt_lt (x := x))

/-- Settles O60: each function of the model leaves a cell whose checks hold. That a sum which saturates takes the residue of B is the
model's reading (notes/assumptions/73). -/
theorem residuesFollow : Obligations.ResiduesFollow := by
  refine ⟨fun c a b => ⟨checks_accProduct a b, fun h => ?_⟩, checks_preloadVal, checks_cellOfL128, cellStep_resid⟩
  rw [AccCell.checks_f32c] at h ⊢
  rw [accF32c_rn, h]

end Sys2Proof.Machine
end

section
/-! PROOFS. Message queues (O11), records and message entries (O12). -/

namespace Sys2Proof.Machine

/-! ## The drops of R450 -/

theorem dropFirst_eq {α : Type} (p : α → Bool) (l : List α) : dropFirst p l = (l.findIdx? p).map l.eraseIdx := by
  induction l with
  | nil => rfl
  | cons a l ih =>
    rw [dropFirst, List.findIdx?_cons, ih]
    cases p a with
    | true => rfl
    | false => simp [Option.map_map, Function.comp_def]

theorem ringPush_of_room {r : Ring} {m : Msg} (h : r.msgs.length < 256) : ringPush r m = { r with msgs := r.msgs ++ [m] } :=
  if_pos h

/-- A full queue loses the first TELEMETRY message, else the first CORRECTED record, else the new message. -/
theorem ringPush_of_full {r : Ring} {m : Msg} (h : 256 ≤ r.msgs.length) :
    ringPush r m = { r with
      mdrop := r.mdrop + 1,
      msgs := match r.msgs.findIdx? (fun q => q.type == mtTelemetry) with
        | some i => r.msgs.eraseIdx i ++ [m]
        | none =>
          match r.msgs.findIdx? isCorrectedMsg with
          | some i => r.msgs.eraseIdx i ++ [m]
          | none => r.msgs } := by
  rw [ringPush, if_neg (Nat.not_lt.mpr h), dropFirst_eq, dropFirst_eq]
  cases r.msgs.findIdx? (fun q => q.type == mtTelemetry) with
  | some i => rfl
  | none =>
    cases r.msgs.findIdx? isCorrectedMsg with
    | some i => rfl
    | none => rfl

theorem headDesc_of_full {s : State} {c : CtxId} (h : 224 ≤ s.host.rings[c].msgs.length) : headDesc s c = none := by
  have hfull : ¬s.host.rings[c].msgs.length < 224 := Nat.not_lt.mpr h
  refine if_neg fun hcond => hfull ?_
  simp only [Bool.and_eq_true, decide_eq_true_eq] at hcond
  exact hcond.1.1.2

/-- Settles O11. That a message is queued for a ring whatever its EN is the model's reading (notes/assumptions/10). -/
theorem messageQueueLimits : Obligations.MessageQueueLimits :=
  ⟨fun _ _ => ringPush_of_room, fun _ _ => ringPush_of_full, fun _ _ _ _ _ _ => ⟨_, rfl, rfl, rfl, rfl, rfl⟩,
    fun _ _ => headDesc_of_full⟩

/-! ## Bytes of numbers -/

@[simp] theorem length_leBytes (n v : Nat) : (leBytes n v).length = n := by
  induction n generalizing v with
  | zero => rfl
  | succ n ih => rw [leBytes, List.length_cons, ih]

theorem leNat_leBytes (n v : Nat) : leNat (leBytes n v) = v % 256 ^ n := by
  induction n generalizing v with
  | zero => exact (Nat.mod_one v).symm
  | succ n ih =>
    rw [leBytes, leNat, ih, BitVec.toNat_ofNat, Nat.pow_succ' (m := 256)]
    exact Nat.mod_mul.symm

@[simp] theorem length_sliceBytes (l : List Byte) (a n : Nat) : (sliceBytes l a n).length = n := by
  simp [sliceBytes]

@[simp] theorem length_padTo (n : Nat) (l : List Byte) : (padTo n l).length = n := length_sliceBytes ..

theorem sliceBytes_of_le {l : List Byte} {a n : Nat} (h : a + n ≤ l.length) : sliceBytes l a n = (l.drop a).take n := by
  have hlen : n - ((l.drop a).take n).length = 0 := by
    rw [List.length_take, List.length_drop]
    omega
  simp only [sliceBytes, hlen, List.replicate_zero, List.append_nil]

/-- A slice that begins behind `l` is one of what follows. -/
theorem sliceNat_append_behind {l m : List Byte} {a n : Nat} (h : l.length ≤ a) :
    sliceNat (l ++ m) a n = sliceNat m (a - l.length) n := by
  rw [sliceNat, sliceBytes, List.drop_append, List.drop_of_length_le h]
  rfl

theorem sliceNat_cons_behind {b : Byte} {m : List Byte} {a n : Nat} (h : 0 < a) : sliceNat (b :: m) a n = sliceNat m (a - 1) n :=
  sliceNat_append_behind (l := [b]) h

/-- A number that fits its bytes reads back from them. -/
theorem sliceNat_leBytes {n v : Nat} (m : List Byte) (h : v < 256 ^ n) : sliceNat (leBytes n v ++ m) 0 n = v := by
  rw [sliceNat, sliceBytes_of_le (by simp), List.drop_zero, List.take_left' (length_leBytes ..), leNat_leBytes, Nat.mod_eq_of_lt h]

theorem sliceNat_field {w n : Nat} {v : BitVec w} (m : List Byte) (h : w = 8 * n) : sliceNat (leBytes n v.toNat ++ m) 0 n = v.toNat := by
  refine sliceNat_leBytes m ?_
  rw [show 256 = 2 ^ 8 from rfl, ← Nat.pow_mul, ← h]
  exact v.isLt

/-! ## Records (Tables 13.6, 15.18) -/

/-- Each field of Table 13.6 is the slice behind the fields before it; REF takes four bytes with and without a reference. -/
theorem recBytes_layout (r : Rec) :
    (recBytes r).length = 64 ∧ sliceNat (recBytes r) 0 2 = r.seq.toNat ∧ (recBytes r)[2]? = some r.cls ∧
    sliceNat (recBytes r) 4 2 = r.source.toNat ∧ sliceNat (recBytes r) 6 2 = r.cause.toNat ∧
    sliceNat (recBytes r) 8 8 = r.stamp.toNat ∧ sliceNat (recBytes r) 16 8 = r.paddr.toNat ∧
    sliceNat (recBytes r) 24 8 = r.step.toNat ∧ sliceNat (recBytes r) 36 4 = r.count.toNat ∧
    sliceNat (recBytes r) 48 8 = r.caddr.toNat ∧ sliceNat (recBytes r) 56 4 = r.lost.toNat := by
  cases href : r.ref <;> simp (disch := simp) [recBytes, href, sliceNat_append_behind, sliceNat_cons_behind, sliceNat_field]

theorem length_entryBytes (r : Ring) (c : CtxId) (k : Nat) (type : Byte) (m : Msg) (l : List Byte) :
    (entryBytes r c k type m l).length = 64 := by
  simp [entryBytes]

/-! ## Making a record (R404, R408, R410) -/

@[simp] theorem post_scree (s : State) (c : CtxId) (t : Byte) (tag : W32) (gen : Byte) (l : List Byte) :
    (post s c t tag gen l).scree = s.scree := rfl

@[simp] theorem sendRec_scree (s : State) (r : Rec) : (sendRec s r).scree = s.scree := by
  unfold sendRec
  split
  · split <;> simp
  · exact foldl_same (φ := State.scree) (fun _ _ => post_scree ..) _ s

theorem screeSlot_of_free {q : Scree} {i : Nat} (h : q.slots.findIdx? (fun e => e.isNone) = some i) : screeSlot q = some i := by
  simp only [screeSlot, h]

theorem makeRec_next (s : State) (r : Rec) : (makeRec s r).1.scree.next = s.scree.next + 1 := by
  simp [makeRec]

theorem makeRec_scree_of_slot {s : State} {r : Rec} {i : Nat} (h : screeSlot s.scree = some i) :
    (makeRec s r).1.scree.slots = s.scree.slots.set i (some (makeRec s r).2) ∧ (makeRec s r).1.scree.lost = s.scree.lost := by
  simp [makeRec, h]

/-- Settles O12: the bytes by `recBytes_layout` and `length_entryBytes`, the Scree by the laws of `makeRec`. -/
theorem recordsAndEntries : Obligations.RecordsAndEntries := by
  refine ⟨⟨recBytes_layout, length_entryBytes⟩, fun s r => ⟨makeRec_next s r, rfl, rfl, fun i hi => ?_⟩⟩
  obtain ⟨hslots, hlost⟩ := makeRec_scree_of_slot (r := r) (screeSlot_of_free hi)
  have hlt : i < s.scree.slots.length := (List.findIdx?_eq_some_iff_getElem.mp hi).1
  rw [hslots]
  exact ⟨List.getElem?_set_self hlt, hlost, fun j hj => List.getElem?_set_ne (Ne.symm hj)⟩

end Sys2Proof.Machine
end

section
/-! PROOFS. The I3C sideband and the presence window (O59). -/

namespace Sys2Proof.Machine

/-! ## The target (R522, R523) -/

theorem i3cReply_of_mine {s : State} {a : BitVec 7} (h : i3cMine s a = true) (l : List Byte) :
    i3cReply s a l = { s with i3c := { s.i3c with reply := l } } :=
  if_pos h

theorem i3cReply_of_other {s : State} {a : BitVec 7} (h : i3cMine s a = false) (l : List Byte) : i3cReply s a l = s :=
  if_neg (by simp [h])

theorem exec_i3cPrivateWrite_mine {s : State} {a : BitVec 7} (h : i3cMine s a = true) (b : Byte) (l : List Byte) :
    exec (.i3cPrivateWrite a (b :: l)) s = .next { s with i3c := { s.i3c with off := b.toNat % 64 } } :=
  congrArg Host.Outcome.next (if_pos h)

theorem exec_i3cPrivateWrite_other {s : State} {a : BitVec 7} (h : i3cMine s a = false) (l : List Byte) :
    exec (.i3cPrivateWrite a l) s = .next s := by
  cases l with
  | nil => rfl
  | cons b l => simp [exec, execI3cPrivateWrite, h]

theorem exec_i3cPrivateRead_mine {s : State} {a : BitVec 7} (h : i3cMine s a = true) (n : Nat) (env : I3cEnv) :
    exec (.i3cPrivateRead a n env) s = .next { s with i3c := { s.i3c with
      file := i3cFile s env, reply := (List.range n).map fun i => (i3cFile s env).getD ((s.i3c.off + i) % 64) 0 } } :=
  congrArg Host.Outcome.next (if_neg (by simp [h]))

theorem exec_i3cPrivateRead_other {s : State} {a : BitVec 7} (h : i3cMine s a = false) (n : Nat) (env : I3cEnv) :
    exec (.i3cPrivateRead a n env) s = .next s :=
  congrArg Host.Outcome.next (if_pos (by simp [h]))

section
variable {s : State} {a : BitVec 7} (hon : s.boot.phase ≠ .off)
include hon

theorem i3cUp_of_on : i3cUp s = true := by simp [i3cUp, hon]

theorem exec_entdaa_free (hdyn : s.i3c.dyn = none) : exec (.entdaa a) s = .next { s with i3c := { s.i3c with dyn := some a } } :=
  congrArg Host.Outcome.next (if_pos (by simp [i3cUp_of_on hon, hdyn]))

theorem exec_setdasa_free (hdyn : s.i3c.dyn = none) :
    exec (.setdasa (i3cStatic s) a) s = .next { s with i3c := { s.i3c with dyn := some a } } :=
  congrArg Host.Outcome.next (if_pos (by simp [i3cUp_of_on hon, hdyn]))

theorem exec_rstdaa_on : exec .rstdaa s = .next { s with i3c := { s.i3c with dyn := none } } :=
  congrArg Host.Outcome.next (if_pos (i3cUp_of_on hon))

end

/-- Table 18.5. -/
theorem i3cFile_layout (s : State) (env : I3cEnv) :
    (i3cFile s env).length = 64 ∧ sliceNat (i3cFile s env) 0 2 = 0x4C34 ∧
      sliceNat (i3cFile s env) 4 8 = s.fuses.serial.toNat ∧ sliceNat (i3cFile s env) 36 8 = now s := by
  refine ⟨?_, ?_, ?_, ?_⟩ <;>
    simp (disch := simp) [i3cFile, now, sliceNat_append_behind, sliceNat_cons_behind, sliceNat_field, sliceNat_leBytes]

/-! ## The presence window (R402, R457, R521) -/

/-- Messages change the host interface alone. -/
theorem postAll_frame (s : State) (cs : List CtxId) (type : Byte) (l : List Byte) :
    postAll s cs type l = { s with host := (postAll s cs type l).host } :=
  foldl_keeps (P := fun u : State => u = { s with host := u.host }) (fun u c hu => by rw [hu]; rfl) rfl

theorem postEnabled_frame (s : State) (type : Byte) (l : List Byte) :
    postEnabled s type l = { s with host := (postEnabled s type l).host } :=
  postAll_frame ..

theorem sayPresence_frame (s : State) (isOpen jumper : Bool) (remain : Nat) :
    sayPresence s isOpen jumper remain = { s with host := (sayPresence s isOpen jumper remain).host } :=
  postEnabled_frame ..

/-- The window as a press of the button opens it. -/
def pressed (s : State) : State :=
  { s with presence := { isOpen := true, byJumper := false, till := elapsed s + windowNs } }

theorem exec_presencePress_held {s : State} {ms : Nat} (hon : s.boot.phase ≠ .off) (hjumper : s.presence.byJumper = false)
    (hlong : 50 ≤ ms) :
    exec (.presencePress ms) s =
      .next (if s.presence.isOpen then pressed s else sayPresence (pressed s) true false 120) :=
  congrArg Host.Outcome.next (if_neg (by simp [hon, hjumper, hlong]))

theorem exec_presenceWindowClose_over {s : State} (hopen : s.presence.isOpen = true) (hjumper : s.presence.byJumper = false)
    (hover : s.presence.till ≤ elapsed s) :
    exec .presenceWindowClose s =
      .next (sayPresence (endTest { s with presence := State.reset.presence }) false false 0) :=
  congrArg Host.Outcome.next (if_neg (by simp [hopen, hjumper, hover]))

theorem endTest_presence (s : State) : (endTest s).presence = s.presence := by
  unfold endTest
  split <;> rfl

theorem endTest_test (s : State) : (endTest s).test = none := by
  unfold endTest
  split
  · assumption
  · rfl

/-- Test mode ends in its own region alone. -/
theorem endTest_region_other {s : State} {g : RegionId} (h : ∀ x, s.test = some x → x.region ≠ g) :
    (endTest s).regions[g] = s.regions[g] := by
  unfold endTest
  split
  · rfl
  next x hx =>
    simp only [updHbm_regions]
    exact updRegion_other s x.region _ g (h x hx).symm

/-- Settles O59: each row's own law above. What the common commands return is a constant of the configuration, which the manual leaves
open (notes/assumptions/56). -/
theorem sidebandAndPresence : Obligations.SidebandAndPresence := by
  refine ⟨fun s a hmine => ⟨exec_i3cPrivateWrite_mine hmine, exec_i3cPrivateRead_mine hmine, ?_⟩, fun s a n l env hother => ?_,
    fun s a hon => ⟨fun hdyn => ⟨exec_entdaa_free hon hdyn, exec_setdasa_free hon hdyn⟩, exec_rstdaa_on hon⟩, i3cFile_layout,
    fun s ms hon hjumper hlong => ?_, fun s hopen hjumper hover => ?_⟩
  · intro e he
    simp only [List.mem_cons, List.not_mem_nil, or_false] at he
    rcases he with rfl | rfl | rfl | rfl | rfl | rfl <;> exact congrArg Host.Outcome.next (i3cReply_of_mine hmine _)
  · intro i hi
    simp only [List.mem_cons, List.not_mem_nil, or_false] at hi
    rcases hi with rfl | rfl | hi
    · exact exec_i3cPrivateWrite_other hother l
    · exact exec_i3cPrivateRead_other hother n env
    · rcases hi with rfl | rfl | rfl | rfl | rfl | rfl <;> exact congrArg Host.Outcome.next (i3cReply_of_other hother _)
  · refine ⟨_, exec_presencePress_held hon hjumper hlong, ?_⟩
    cases s.presence.isOpen with
    | true => exact ⟨rfl, rfl, fun _ => rfl⟩
    | false =>
      rw [if_neg Bool.false_ne_true, sayPresence_frame]
      exact ⟨rfl, rfl, nofun⟩
  · refine ⟨_, exec_presenceWindowClose_over hopen hjumper hover, ?_, ?_, fun g hg => ?_⟩
    all_goals rw [sayPresence_frame]
    · rw [endTest_presence]
      rfl
    · exact endTest_test _
    · exact endTest_region_other (s := { s with presence := State.reset.presence }) hg

end Sys2Proof.Machine
end

section
/-! PROOFS. Background work on stored data (O47): write-backs, the poison scan, the walks of the Moth and the record windows. -/

namespace Sys2Proof.Machine

/-! ## Write-backs (R382, R386) -/

theorem setSram_sramOf (r : Region) (st : Store) : setSram r st (sramOf r st) = r := by
  cases st <;> rfl

theorem exec_sramWriteBack_oldest {s : State} {g : RegionId} {st : Store} {w : Nat} {rest : List (Store × Nat)}
    (h : s.regions[g].writeBacks = (st, w) :: rest) :
    exec (.sramWriteBack g) s = .next (updRegion s g fun r => setSram { r with writeBacks := rest } st
      (match sramCheck (sramOf r st) w with
       | (some (.fixed _), d) => sramPutWord (sramOf r st) w d
       | _ => sramOf r st)) := by
  simp only [exec, execSramWriteBack, h]
  refine congrArg Host.Outcome.next (updRegion_congr _ _ ?_)
  have hsame : sramOf { s.regions[g] with writeBacks := rest } st = sramOf s.regions[g] st := by cases st <;> rfl
  rcases hcheck : sramCheck (sramOf s.regions[g] st) w with ⟨_ | _ | _, d⟩
  case some.fixed => rfl
  all_goals rw [← hsame, setSram_sramOf]

theorem hbmCheck_writeBacks (h : Hbm) (l : List Nat) (w : Nat) : hbmCheck { h with writeBacks := l } w = hbmCheck h w := rfl

theorem exec_hbmWriteBack_oldest {s : State} {w : Nat} {rest : List Nat} (h : s.hbm.writeBacks = w :: rest) :
    exec .hbmWriteBack s = .next (updHbm s fun h =>
      match hbmCheck h w with
      | (some (.fixed _), d) => hbmPutWord { h with writeBacks := rest } w d
      | _ => { h with writeBacks := rest }) := by
  simp only [exec, execHbmWriteBack, h, hbmCheck_writeBacks] <;> rfl

/-! ## The poison scan (R390) -/

/-- A change of HBM's words alone: their bytes, their metadata and the write-backs they wait for. -/
def WordsOnly (h k : Hbm) : Prop := k = { h with mem := k.mem, mdata := k.mdata, writeBacks := k.writeBacks }

theorem WordsOnly.trans {h k l : Hbm} (hk : WordsOnly h k) (hl : WordsOnly k l) : WordsOnly h l := by
  unfold WordsOnly at *
  rw [hl, hk]

theorem WordsOnly.resids {h k : Hbm} {l : List Resid} (hk : WordsOnly { h with resids := l } k) :
    k = { h with resids := k.resids, mem := k.mem, mdata := k.mdata, writeBacks := k.writeBacks } ∧ k.resids = l := by
  have hl : k.resids = l := congrArg Hbm.resids hk
  exact ⟨by rw [hl]; exact hk, hl⟩

theorem wordsOnly_hbmPutWord (h : Hbm) (w : Nat) (d : BitVec 512) : WordsOnly h (hbmPutWord h w d) := by
  dsimp only [WordsOnly, hbmPutWord]

theorem wordsOnly_hbmWrite (h : Hbm) (a : Nat) (l : List Byte) : WordsOnly h (hbmWrite h a l) := by
  have hput (hit kept : List (Nat × BitVec 32)) : WordsOnly h (hit.foldl (fun (q : Hbm) e =>
      if kept.any (fun k => k.1 == e.1) then q else hbmPutWord q e.1 (hbmCheck h e.1).2) h) := by
    refine foldl_keeps (P := WordsOnly h) (fun q e hq => ?_) rfl
    split
    · exact hq
    · exact hq.trans (wordsOnly_hbmPutWord ..)
  exact (hput _ _).trans rfl

/-- A change of the module that leaves everything but the words of HBM. -/
def HbmWordsOnly (s t : State) : Prop := t = { s with hbm := t.hbm } ∧ WordsOnly s.hbm t.hbm

theorem hbmWordsOnly_putEntry {s t : State} (h : HbmWordsOnly s t) (a : Nat) (v : W64) : HbmWordsOnly s (putEntry t a v) := by
  obtain ⟨ht, hwords⟩ := h
  refine ⟨?_, hwords.trans (wordsOnly_hbmWrite ..)⟩
  rw [putEntry, updHbm_at, updHbm, ht]

theorem hbmWordsOnly_syncLeaf {s t : State} (h : HbmWordsOnly s t) (c : CtxId) (page : Nat) : HbmWordsOnly s (syncLeaf t c page) := by
  unfold syncLeaf
  split
  · exact hbmWordsOnly_putEntry h ..
  · exact h

theorem hbmWordsOnly_syncWhere (s : State) (f : Resid → Bool) : HbmWordsOnly s (syncWhere s f) :=
  foldl_keeps (P := HbmWordsOnly s) (fun _ _ ht => foldl_keeps (P := HbmWordsOnly s) (fun _ _ hu => hbmWordsOnly_syncLeaf hu ..) ht)
    ⟨rfl, rfl⟩

/-- The residency as the scan of a frame leaves it. -/
def scanned (h : Hbm) (frame : Nat) (r : Resid) : Resid :=
  if r.loc.tier = .t1 ∧ (r.loc.frame = frame ∨ (r.ver = true ∧ r.loc.frame + 1 = frame)) ∧
      framePoisoned h r.loc.frame = false ∧ (r.ver = true → framePoisoned h (r.loc.frame + 1) = false)
    then { r with psn := false } else r

theorem exec_poisonScan_eq (s : State) (frame : Nat) :
    exec (.poisonScan frame) s = .next (syncWhere (updHbm s fun h => { h with resids := h.resids.map (scanned h frame) })
      fun r => inFrame r frame) := by
  have hclean (h : Hbm) (r : Resid) :
      (if (inFrame r frame && !framePoisoned h r.loc.frame && !(r.ver && framePoisoned h (r.loc.frame + 1))) = true
        then { r with psn := false } else r) = scanned h frame r := by
    refine if_congr ?_ rfl rfl
    simp [inFrame, and_assoc, imp_iff_not_or]
  simp only [exec, execPoisonScan, hclean]

/-! ## The Moth (R393, R394) -/

theorem upsetHbm_zero (h : Hbm) (w : Nat) : upsetHbm h w 0 0 = h := if_pos ⟨rfl, rfl⟩

theorem upsetSram_zero (m : Sram) (w : Nat) : upsetSram m w 0 0 = m := if_pos ⟨rfl, rfl⟩

theorem hbmCheck_of_sound {h : Hbm} {w : Nat} (hw : ovGet h.mdata w = none) : hbmCheck h w = (none, hbmData h w) := by
  simp only [hbmCheck, hw]

theorem exec_mothHbmRead_sound {s : State} {d : DieId} (hready : s.boot.phase = .ready)
    (hw : ovGet s.hbm.mdata (d.val * dieWords + s.hbm.mothPos[d]) = none) :
    exec (.mothHbmRead d 0 0) s =
      .next (updHbm s fun h => { h with mothPos := h.mothPos.set d ((s.hbm.mothPos[d] + 1) % dieWords) }) := by
  refine congrArg Host.Outcome.next ((if_neg (by simp [hready])).trans ?_)
  dsimp only
  generalize hu : (updHbm s fun h => { h with mothPos := h.mothPos.set d ((s.hbm.mothPos[d] + 1) % dieWords) }) = u
  have hnone : ovGet u.hbm.mdata (d.val * dieWords + s.hbm.mothPos[d]) = none := by rw [← hu]; exact hw
  have hsame : updHbm u (fun h => upsetHbm h (d.val * dieWords + s.hbm.mothPos[d]) 0 0) = u := by
    rw [updHbm, upsetHbm_zero]
  simp only [hsame, hbmCheck_of_sound hnone, ite_self]

theorem sliceUpset_zero (i : Nat) : sliceUpset 0 0 i = (0, 0) := by
  simp [sliceUpset]

theorem countFinding_zero : countFinding (0, 0) = none := by decide

theorem mothSram_sound {s : State} {g : RegionId} {st : Store} (hsound : (sramOf s.regions[g] st).chk = []) (w : Nat) :
    mothSram s g st w 0 0 = s := by
  have hsame : updRegion s g (fun r => setSram r st (sramOf r st)) = s := by
    simp [updRegion, setSram_sramOf]
  simp only [mothSram, sliceUpset_zero, upsetSram_zero, List.foldl_fixed, hsame, sramFindings_sound hsound, sramCorrected_nil,
    List.filter_nil, List.foldl_nil]

theorem exec_mothSramRead_sound {s : State} {g : RegionId} (hready : s.boot.phase = .ready) (hen : enabled s g = true)
    (hsound : ∀ st, (sramOf s.regions[g] st).chk = []) :
    exec (.mothSramRead g 0 0) s = .next (updRegion s g fun r => { r with mothPos := (s.regions[g].mothPos + 1) % mothSlices }) := by
  refine congrArg Host.Outcome.next ((if_neg (by simp [hready, hen])).trans ?_)
  dsimp only
  generalize hu : (updRegion s g fun r => { r with mothPos := (s.regions[g].mothPos + 1) % mothSlices }) = u
  have hsound' (st : Store) : (sramOf u.regions[g] st).chk = [] := by
    rw [← hu, updRegion_same, ← hsound st]
    cases st <;> rfl
  have hfound : ((List.range 8).filterMap fun i => countFinding (sliceUpset 0 0 i)) = [] :=
    List.filterMap_eq_nil_iff.mpr fun i _ => by rw [sliceUpset_zero, countFinding_zero]
  simp only [hfound]
  split
  · simp only [mothSram_sound (hsound' _), ite_self]
  · rfl
  · rfl

/-! ## Record windows (R406) -/

/-- The Scree with one record window closed. -/
def windowShut (s : State) (seq : BitVec 16) : State :=
  { s with scree := { s.scree with windows := s.scree.windows.filter (· != seq) } }

theorem exec_coalesceWindowClose_found {s : State} {seq : BitVec 16} {r : Rec} (hopen : s.scree.windows.contains seq = true)
    (hrec : s.scree.slots.find? (fun e => match e with | some r => r.cls == clCorrected && r.seq == seq | none => false) =
      some (some r)) :
    exec (.coalesceWindowClose seq) s = .next (if now s < r.stamp.toNat + 1000000 then s
      else if r.coalesced then sendRec (windowShut s seq) r else windowShut s seq) := by
  refine congrArg Host.Outcome.next ((if_neg (by rw [hopen]; exact Bool.false_ne_true)).trans ?_)
  dsimp only
  split
  next q hq =>
    cases Option.some.inj (Option.some.inj (hq.symm.trans hrec))
    rfl
  next hq => exact absurd hrec (hq r)

/-- Settles O47: each row's own law above. -/
theorem storesAreScrubbed : Obligations.StoresAreScrubbed := by
  refine ⟨⟨fun s g st w rest => exec_sramWriteBack_oldest, fun s w rest => exec_hbmWriteBack_oldest, fun s frame => ?_⟩,
    fun s d => exec_mothHbmRead_sound, fun s g hready hen hscratch himem hsdata => ?_, fun s seq r hopen hrec => ?_⟩
  · obtain ⟨hframe, hwords⟩ := hbmWordsOnly_syncWhere (updHbm s fun h => { h with resids := h.resids.map (scanned h frame) })
      fun r => inFrame r frame
    obtain ⟨hhbm, hresids⟩ := WordsOnly.resids (h := s.hbm) hwords
    exact ⟨_, exec_poisonScan_eq s frame, hframe, hhbm, hresids⟩
  · refine exec_mothSramRead_sound hready hen fun st => ?_
    cases st
    · exact hscratch
    · exact himem
    · exact hsdata
  · have hclose := exec_coalesceWindowClose_found hopen hrec
    refine ⟨fun hdue hcoal => ?_, fun hdue hcoal => ?_, fun hearly => ?_⟩
    · rw [hclose, if_neg (Nat.not_lt.mpr hdue), hcoal]
      rfl
    · rw [hclose, if_neg (Nat.not_lt.mpr hdue), hcoal]
      rfl
    · rw [hclose, if_pos hearly]

end Sys2Proof.Machine
end

section
/-! PROOFS. The window of CXL.mem (O56): one line of a host-visible frame, and of any other. -/

namespace Sys2Proof.Machine

/-- An access within one 64-byte line is one piece. -/
theorem lines_one {n a len : Nat} (hpos : 0 < len) (hline : a % 64 + len ≤ 64) : lines (n + 2) a len = [(a, len)] := by
  have hk : min len (64 - a % 64) = len := by omega
  simp only [lines, hk, Nat.sub_self, if_neg (Nat.ne_of_gt hpos), if_true]

/-! ## Sound words of HBM (R385, R387) -/

theorem hbmFindings_sound {h : Hbm} (hsound : h.mdata = []) (a n : Nat) : hbmFindings h a n = [] := by
  simp [hbmFindings, hsound]

theorem hbmBytes_sound {h : Hbm} (hsound : h.mdata = []) (a n : Nat) :
    hbmBytes h a n = (List.range n).map fun i => memGet h.mem (a + i) := by
  induction n generalizing a with
  | zero => rfl
  | succ n ih =>
    rw [hbmBytes, ih, List.range_succ_eq_map]
    simp [hbmByte, hsound, ovGet, Function.comp_def, Nat.add_assoc, Nat.add_comm 1]

theorem zeroUnits_nil (a : Nat) (l : List Byte) : zeroUnits a [] l = l := by
  simp [zeroUnits]

theorem hostPhysRead_sound {q : HostRd} (hsound : q.s.hbm.mdata = []) (ctx : Option CtxId) (base : Rec) (ph n : Nat) :
    hostPhysRead q ctx base ph n = { q with out := q.out ++ (List.range n).map fun i => memGet q.s.hbm.mem (ph + i) } := by
  simp [hostPhysRead, hbmFindings_sound hsound, zeroUnits_nil, hbmBytes_sound hsound, hbmCorrected_nil]

theorem hbmWrite_sound {h : Hbm} (hsound : h.mdata = []) (a : Nat) (l : List Byte) :
    hbmWrite h a l = { h with mem := memPutBytes h.mem a l, writeBacks := (hbmWrite h a l).writeBacks } := by
  simp [hbmWrite, hsound]

theorem hbmStore_sound {s : State} (hsound : s.hbm.mdata = []) (base : Rec) (a : Nat) (l : List Byte) :
    hbmStore s base a l = (updHbm s fun h => hbmWrite h a l, none) := by
  simp [hbmStore, hbmWriteBad, hbmWriteFixes, hbmFindings_sound hsound, firstBad, hbmCorrected_nil]

theorem cxlPut_visible {s : State} {a : Nat} {r : Resid} (hframe : visibleIn s.hbm (a / frameBytes) = some r)
    (hsound : s.hbm.mdata = []) (l : List Byte) : cxlPut s a l false = updHbm s fun h => hbmWrite h a l := by
  simp [cxlPut, hframe, hbmStore_sound hsound]

/-! ## One line of the window (R433, R487) -/

section
variable {s : State} {off len : Nat} (hup : hostUp s = true) (hpos : 0 < len) (hline : off % 64 + len ≤ 64)
include hup hpos hline

theorem exec_cxlMemWrite_line {data : List Byte} (hlen : data.length = len) (poison : Bool) :
    exec (.cxlMemWrite off data poison) s = .next (cxlPut s off data poison) := by
  subst hlen
  refine congrArg Host.Outcome.next ((if_neg (by simp [hup])).trans ?_)
  rw [lines_one hpos hline]
  simp

theorem exec_cxlMemRead_invisible (hframe : visibleIn s.hbm (off / frameBytes) = none) :
    exec (.cxlMemRead off len) s = .next
      { s with host := { s.host with hdmDenied := true, cxlData := List.replicate len 0, cxlPoison := false } } := by
  refine congrArg Host.Outcome.next ((if_neg (by simp [hup])).trans ?_)
  rw [lines_one hpos hline]
  simp [hframe, deny]

theorem exec_cxlMemRead_visible {r : Resid} (hframe : visibleIn s.hbm (off / frameBytes) = some r) (hsound : s.hbm.mdata = []) :
    exec (.cxlMemRead off len) s = .next
      { s with host := { s.host with cxlData := (List.range len).map fun i => memGet s.hbm.mem (off + i), cxlPoison := false } } := by
  refine congrArg Host.Outcome.next ((if_neg (by simp [hup])).trans ?_)
  rw [lines_one hpos hline]
  simp [hframe, hostPhysRead_sound (q := { s := s, out := [], bad := false, asks := [] }) hsound]

end

/-- Settles O56: one line is one piece, and with sound words its bytes are those of memory. -/
theorem hostMemoryWindow : Obligations.HostMemoryWindow := by
  intro s off len hup hpos hline
  refine ⟨fun hframe => ⟨exec_cxlMemRead_invisible hup hpos hline hframe, fun data b hlen => ?_⟩,
    fun r hframe hsound => ⟨exec_cxlMemRead_visible hup hpos hline hframe hsound, fun data hlen => ?_⟩⟩
  · rw [exec_cxlMemWrite_line hup hpos hline hlen, cxlPut, hframe]
    rfl
  · refine ⟨_, (exec_cxlMemWrite_line hup hpos hline hlen false).trans (congrArg _ (cxlPut_visible hframe hsound data)), ?_⟩
    exact congrArg (fun h : Hbm => { s with hbm := h }) (hbmWrite_sound hsound off data)

end Sys2Proof.Machine
end

section
/-! PROOFS. READY and the jumper's window (O57): a refutation. -/

namespace Sys2Proof.Machine

/-- The module as it becomes READY, before any message (R486). -/
def becomeReady (s : State) : State :=
  { s with boot := { s.boot with phase := .ready, bootfail := 0, readyAt := now s },
           host := { s.host with tlmStart := now s }, power := { s.power with ienvAt := elapsed s } }

theorem exec_ready_linked {s : State} (hlinking : s.boot.phase = .linking) (htrained : allTrained s = true)
    (haligned : s.cnt.aligned = true) :
    exec .ready s = .next (openJumper (postEnabled (becomeReady s) mtReady (readyBytes (becomeReady s)))) :=
  congrArg Host.Outcome.next (if_neg (by simp [hlinking, htrained, haligned]))

/-- A window that counts as the jumper's already is left as it is, open or not (R457). -/
theorem openJumper_of_byJumper {s : State} (h : s.presence.byJumper = true) : openJumper s = s :=
  if_neg (by simp [h])

theorem postEnabled_presence (s : State) (type : Byte) (l : List Byte) : (postEnabled s type l).presence = s.presence := by
  rw [postEnabled_frame]

theorem presence_ready_of_byJumper {s t : State} (hlinking : s.boot.phase = .linking) (htrained : allTrained s = true)
    (haligned : s.cnt.aligned = true) (hjumper : s.presence.byJumper = true) (ht : exec .ready s = .next t) :
    t.presence = s.presence := by
  have hpost : (postEnabled (becomeReady s) mtReady (readyBytes (becomeReady s))).presence = s.presence := postEnabled_presence ..
  rw [exec_ready_linked hlinking htrained haligned, openJumper_of_byJumper (by rw [hpost, hjumper])] at ht
  cases ht
  exact hpost

/-- With the jumper fitted, a module that waits for its links, and whose window is marked as the jumper's but shut. -/
def shutJumperWindow : State :=
  { State.reset with
    boot := { Boot.reset with phase := .linking, jumper := true }
    cnt := { CountSt.reset with aligned := true }
    presence := { isOpen := false, byJumper := true, till := 0 } }

theorem allTrained_shutJumperWindow : allTrained shutJumperWindow = true := by decide

/-- Refutes O57, in its clause that with the jumper fitted the window is open after READY. The clause takes every state, also
`shutJumperWindow`, in which the window is marked as the jumper's and yet is shut, and READY leaves such a window alone. A clause
that takes only states in which a jumper's window is open escapes the refutation. -/
theorem not_startAndResets : ¬ Obligations.StartAndResets := by
  rintro ⟨-, -, -, hready, -⟩
  obtain ⟨t, ht, -, -, -, -, -, hopen, -⟩ := hready shutJumperWindow rfl allTrained_shutJumperWindow rfl
  have hshut : t.presence = shutJumperWindow.presence := presence_ready_of_byJumper rfl allTrained_shutJumperWindow rfl rfl ht
  have hisOpen : shutJumperWindow.presence.isOpen = true := hshut ▸ hopen rfl
  exact Bool.false_ne_true hisOpen

end Sys2Proof.Machine
end
